-- ==== Sys2Proof/Word.lean ====
section
/-! DEFINITION. The words and addresses of the L16S (00_scope.md, "conventions"). -/

namespace Sys2Proof

/-- A word of shared memory: 8 bytes, 64 bits. -/
abbrev Word := BitVec 64

/-- A 21-bit shared byte address. -/
abbrev Addr := BitVec 21

/-- A 15-bit line address: bits 20..6 of a shared address. -/
abbrev LineAddr := BitVec 15

/-- A station number. -/
abbrev StationNo := BitVec 4

/-- A host port channel, 0 to 3. -/
abbrev ChanId := Fin 4

/-- A way of a set, 0 to 3. -/
abbrev WayId := Fin 4

/-- One beat of a span frame. -/
abbrev Beat := BitVec 16

end Sys2Proof
end

