-- ==== Sys2Proof/Config.lean ====
section
/-! DEFINITION. The fixed sizes of the L16S and the two free values of the model. -/

namespace Sys2Proof.Config

/-- Transaction table entries (R48). -/
def tableEntries : Nat := 4

/-- Writeback buffer entries (R74). -/
def writebackEntries : Nat := 2

/-- Reply queue entries (R80). -/
def replyEntries : Nat := 4

/-- Home operation queue entries (R97). -/
def homeEntries : Nat := 6

/-- Posted write queue entries (R135). -/
def postedEntries : Nat := 8

/-- Credits of a channel (R111). -/
def credits : Nat := 4

/-- The reply timer's start, in µs (R68). -/
def replyTimer : Nat := 250

/-- The retry count from which an entry is urgent (R48). -/
def urgentFrom : Nat := 32

/-- The count of VOID verdicts at which a request entry is abandoned and a reply discarded (R60, R84). -/
def giveUpAt : Nat := 255

/-- The idle count at which the rotation point is set and the station joins (R34). -/
def idleLimit : Nat := 4

/-- The first line index of the direct region (00_scope.md). -/
def directIndex : Nat := 1792

/-- Lines of a home slice (R89). -/
def homeLines : Nat := 2048

/-- The largest station count that is no strapping fault (R166). -/
def maxStations : Nat := 16

/-- The identification value (R173). -/
def identification : BitVec 8 := 0x6B

/-- FREE VALUE. The manual orders request entries by the happening that queued them (R29, R48) and leaves
open which of two entries of one happening goes first; it leaves open, too, which of two expiries of one
timebase tick is taken first (R69, R164). The model takes the choice from this constant, which has no
body: a claim holds whichever order the part takes. notes/assumptions/6.md and 7.md. -/
opaque freeOrder : Nat → Nat

/-- FREE VALUE. The holder's number of a peer's frame is read as the grant is made (R25); the manual does not say which
number a station takes for a frame whose grant it did not read, as one that left power-on reset between the two. The
frame is read all the same, and its holder's number is this constant, which has no body. notes/assumptions/41.md. -/
opaque unseenHolder : Nat → StationNo

end Sys2Proof.Config
end

