-- ==== Sys2Proof/Syntax.lean ====
section
/-! DEFINITION. The commands of the block: one constructor of `Instr` for each row of spec/opcode_table.json, and
the values that frames and records carry. -/

namespace Sys2Proof

/-- The six atomic operations (R129). -/
inductive AtomicOp where
  | swap | add | and | or | maxu | cas
  deriving DecidableEq, Repr

/-- The 8 data words and 8 poison flags of a line; flag n, of word n, is bit n (R1, R26). -/
structure LineData where
  words : Vector Word 8
  poison : BitVec 8
  deriving DecidableEq, Repr

/-- The direct operations with their fields (R26, R97). -/
inductive DirectOp where
  | read (word : BitVec 3)
  | write (word : BitVec 3) (mask : BitVec 8) (value : Word)
  | atomic (word : BitVec 3) (op : AtomicOp) (a b : Word)
  deriving DecidableEq, Repr

/-- The kinds of a transaction table entry, a D-kind with its direct fields (R48, R49). -/
inductive TableKind where
  | share | own | upgrade
  | direct (d : DirectOp)
  deriving DecidableEq, Repr

/-- What a request frame asks: the kinds of the transaction table, and RETURN (R26). -/
inductive RequestBody where
  | table (k : TableKind)
  | ret (data : LineData)
  deriving DecidableEq, Repr

/-- What a reply frame carries: a FILL, or a RESULT with its status OK or DATA-ERROR (R26, R80). -/
inductive ReplyBody where
  | fill (data : LineData)
  | result (word : BitVec 3) (dataError : Bool) (value : Word)
  deriving DecidableEq, Repr

/-- A span frame (R26); the check code is computed from its beats (R27). -/
inductive Frame where
  | request (sender : StationNo) (line : LineAddr) (body : RequestBody)
  | reply (sender addressee : StationNo) (line : LineAddr) (body : ReplyBody)
  deriving DecidableEq, Repr

/-- The header of a peer's frame as this station read it: the sender and the line address (R26), and whether the check
is good (R27). The holder's number is no field of a frame: the station read it at the grant (R25). -/
structure Header where
  sender : StationNo
  line : LineAddr
  good : Bool
  deriving DecidableEq, Repr

/-- The four vote lines (R25). In a command: what the OTHER stations drive; a line reads asserted when any station
drives it. -/
structure Votes where
  copy : Bool
  supply : Bool
  home : Bool
  retry : Bool
  deriving DecidableEq, Repr

/-- What an undecodable request record carries, besides its channel and tag: a kind code that names no kind, or the op
code, address and operand A of an ATOMIC whose op code names no op (R109, R112, R175). -/
inductive Undecodable where
  | kind (code : BitVec 4)
  | op (code : BitVec 3) (addr : Addr) (a : Word)
  deriving DecidableEq, Repr

/-- What the host request table keeps of an undecodable record, beside its channel (R113). -/
structure UndecodableRecord where
  tag : BitVec 8
  what : Undecodable
  deriving DecidableEq, Repr

/-- The fields of a record's first beat that an undecodable record carries and nothing uses (R109, R175). -/
structure IgnoredFields where
  posted : BitVec 1
  clear : BitVec 1
  mask : BitVec 8
  timeout : BitVec 16
  deriving DecidableEq, Repr

/-- Which of the two happenings of R31 decided an arbitration: the classification of a verdict, or the first moment at
which a station drives the arbitration group of an idle span. -/
inductive ArbitrationAt where
  | verdict | idleSpan
  deriving DecidableEq, Repr

/-- The commands: every row of spec/opcode_table.json, in the table's order. -/
inductive Instr where
  | porstAsserted
  | porstReleased (number : StationNo) (count : BitVec 5)
  | hostReset
  | hrstReleased
  | read (ch : ChanId) (tag : BitVec 8) (addr : Addr)
  | write (ch : ChanId) (tag : BitVec 8) (addr : Addr) (mask : BitVec 8) (value : Word)
  | postedWrite (ch : ChanId) (tag : BitVec 8) (addr : Addr) (mask : BitVec 8) (value : Word)
  | atomicSwap (ch : ChanId) (tag : BitVec 8) (addr : Addr) (a : Word)
  | atomicAdd (ch : ChanId) (tag : BitVec 8) (addr : Addr) (a : Word)
  | atomicAnd (ch : ChanId) (tag : BitVec 8) (addr : Addr) (a : Word)
  | atomicOr (ch : ChanId) (tag : BitVec 8) (addr : Addr) (a : Word)
  | atomicMaxu (ch : ChanId) (tag : BitVec 8) (addr : Addr) (a : Word)
  | atomicCas (ch : ChanId) (tag : BitVec 8) (addr : Addr) (a b : Word)
  | reserve (ch : ChanId) (tag : BitVec 8) (addr : Addr)
  | conditional (ch : ChanId) (tag : BitVec 8) (addr : Addr) (value : Word)
  | watch (ch : ChanId) (tag : BitVec 8) (addr : Addr) (compare : Word) (timeout : BitVec 16)
  | flush (ch : ChanId) (tag : BitVec 8) (addr : Addr)
  | fence (ch : ChanId) (tag : BitVec 8)
  | probe (ch : ChanId) (tag : BitVec 8) (addr : Addr)
  | status (ch : ChanId) (tag : BitVec 8)
  | statusClear (ch : ChanId) (tag : BitVec 8)
  | undecodableRequestKind (ch : ChanId) (kept : UndecodableRecord) (ignored : IgnoredFields) (b : Word)
  | completionEmitted
  | grant (decided : ArbitrationAt) (reply urgent normal : BitVec 16)
  | idleCountExpiry
  | share (h : Header)
  | own (h : Header)
  | upgrade (h : Header)
  | returnLine (h : Header) (data : LineData)
  | dRead (h : Header) (word : BitVec 3)
  | dWrite (h : Header) (word : BitVec 3) (mask : BitVec 8) (value : Word)
  | dAtomic (h : Header) (word : BitVec 3) (op : BitVec 3) (a b : Word)
  | fill (h : Header) (addressee : StationNo) (data : LineData)
  | result (h : Header) (addressee : StationNo) (word : BitVec 3) (status : BitVec 2) (value : Word)
  | undecodableFrameKind (sender : StationNo) (kind : BitVec 4) (good : Bool)
  | requestTenureVerdict (others : Votes)
  | ownTenureVerdict (others : Votes)
  | replyTenureVerdict (retry : Bool)
  | replyTimerExpiry (line : LineAddr)
  | watchTimeout (ch : ChanId)
  | clearSweepTick
  | clearSweepEnd
  | homeRead
  | homeWrite
  | homeDRead
  | homeDWrite
  | homeDAtomic
  deriving DecidableEq, Repr

end Sys2Proof
end

