-- ==== Sys2Proof/Machine/State.lean ====
section
/-! DEFINITION. The state of one L16S station, as plain data, and its state after power-on reset. -/

namespace Sys2Proof.Machine

/-! ### Station (R166, R167) -/

/-- The three station states (R167). -/
inductive StationMode where
  | inert | clearing | ready
  deriving DecidableEq, Repr

/-- What the straps gave, the station state and the sweep position (R92, R166, R167, R172). -/
structure Station where
  number : StationNo
  count : BitVec 5
  mode : StationMode
  sweep : Nat
  deriving DecidableEq, Repr

/-! ### Line array (R1 to R6) -/

/-- The line states (R3). A way whose tag is present and whose state is INVALID is FILL-PENDING (R4). -/
inductive LineState where
  | invalid | shared | cleanSole | dirtyShared | dirtySole
  deriving DecidableEq, Repr

/-- One way (R1). -/
structure Way where
  tag : Option LineAddr
  state : LineState
  data : LineData
  deriving DecidableEq, Repr

/-- One set: four ways, and the recency order from most to least recent (R6). -/
structure CacheSet where
  ways : Vector Way 4
  order : List WayId
  deriving DecidableEq, Repr

/-! ### Transaction table and waiting list (R48, R55) -/

/-- Who a host operation belongs to: the head of a channel, or the head of the posted write queue. -/
inductive Who where
  | chan (ch : ChanId)
  | posted
  deriving DecidableEq, Repr

/-- The phase of an entry, with the fields present in it only (R48): the age in QUEUED, the install state and the reply
timer in AWAIT-FILL, the reply timer in AWAIT-RESULT. -/
inductive Phase where
  | queued (age : Nat)
  | awaitFill (install : LineState) (timer : Nat)
  | awaitResult (timer : Nat)
  deriving DecidableEq, Repr

/-- A transaction table entry (R48). The urgent flag is `32 ≤ retry` and the conditional flag says that a waiter is a
CONDITIONAL; both are computed (notes/assumptions/14.md). `orphan` is set by a host reset taken while the entry is in
tenure and cleared by a join, a VOID or a verdict (R44; notes/assumptions/25.md). -/
structure TableEntry where
  line : LineAddr
  kind : TableKind
  phase : Phase
  way : Option WayId
  retry : Nat
  waiters : List Who
  orphan : Bool
  deriving DecidableEq, Repr

/-- An operation of the waiting list at its acceptance place (R55). `pendingFlush` marks a pending flush (R17). `due` is
the model's own: the operation is owed a lookup by the pass of R56; clear between commands (notes/assumptions/9.md). -/
structure Waiting where
  who : Who
  place : Nat
  pendingFlush : Bool
  due : Bool
  deriving DecidableEq, Repr

/-! ### Writeback buffer and reply queue (R74, R80) -/

/-- A writeback buffer entry (R74); its urgent flag is `32 ≤ retry`. -/
structure WritebackEntry where
  line : LineAddr
  data : LineData
  retry : Nat
  flush : Option ChanId
  age : Nat
  deriving DecidableEq, Repr

/-- A held reply queue entry (R80). The queue is kept oldest first, so the age is the place in it. -/
structure ReplyEntry where
  addressee : StationNo
  line : LineAddr
  body : ReplyBody
  voids : Nat
  deriving DecidableEq, Repr

/-! ### Home slice (R89, R97) -/

/-- One word of the home store: value, parity check (one even parity bit, notes/assumptions/15.md), poison flag (R89). -/
structure StoreWord where
  value : Word
  parity : Bool
  poison : Bool
  deriving DecidableEq, Repr

/-- The operations of the home operation queue (R97). -/
inductive HomeBody where
  | read
  | write (data : LineData)
  | direct (d : DirectOp)
  deriving DecidableEq, Repr

/-- An entry of the home operation queue: pending, or, at the head, performing or done (R97). -/
structure HomeOp where
  requester : StationNo
  line : LineAddr
  body : HomeBody
  deriving DecidableEq, Repr

/-! ### Host port (R109 to R121) -/

/-- The statuses of a completion (R110). -/
inductive Status where
  | ok | fail | timeout | dataError | lostReply | stalled | noHome | region | badRequest | refused | badConfig
  deriving DecidableEq, Repr

/-- A request's kind and the fields its kind uses (R109, R113). -/
inductive Request where
  | read (addr : Addr)
  | write (addr : Addr) (mask : BitVec 8) (value : Word)
  | posted (addr : Addr) (mask : BitVec 8) (value : Word)
  | atomic (op : AtomicOp) (addr : Addr) (a b : Word)
  | reserve (addr : Addr)
  | conditional (addr : Addr) (value : Word)
  | watch (addr : Addr) (compare : Word) (timeout : BitVec 16)
  | flush (addr : Addr)
  | fence
  | probe (addr : Addr)
  | status (clear : Bool)
  | undecodable (what : Undecodable)
  deriving DecidableEq, Repr

/-- The host phases (R114). -/
inductive HostPhase where
  | waiting | draining | active | joined
  deriving DecidableEq, Repr

/-- Where a host request stands: in a host phase, or with its completion ready (R113, R114). The length of the
completion is the number of its data words. -/
inductive Progress where
  | opened (phase : HostPhase)
  | ready (status : Status) (deferred : Bool) (data : List Word)
  deriving DecidableEq, Repr

/-- An entry of the host request table (R113); its channel is the list it stands in. -/
structure HostEntry where
  tag : BitVec 8
  req : Request
  place : Nat
  check : Option Status
  progress : Progress
  deriving DecidableEq, Repr

/-- A completion record (R110). -/
structure Completion where
  ch : ChanId
  tag : BitVec 8
  status : Status
  deferred : Bool
  data : List Word
  deriving DecidableEq, Repr

/-- A ready completion in the completion order: of the accepted request of a channel at an acceptance place, or of a
channel's refused record (R118, R119). -/
inductive ReadyToken where
  | accepted (ch : ChanId) (place : Nat)
  | refused (ch : ChanId)
  deriving DecidableEq, Repr

/-- A set deferred error latch: status and address of the first failure, and MORE (R141). -/
structure Latch where
  status : Status
  addr : Addr
  more : Bool
  deriving DecidableEq, Repr

/-- The phases of a watch table entry (R156). -/
inductive WatchPhase where
  | armed | refetch
  deriving DecidableEq, Repr

/-- A watch table entry in use (R156). -/
structure Watch where
  phase : WatchPhase
  addr : Addr
  compare : Word
  remaining : Nat
  deriving DecidableEq, Repr

/-- An entry of the posted write queue (R135). -/
structure PostedWrite where
  ch : ChanId
  addr : Addr
  mask : BitVec 8
  value : Word
  place : Nat
  deriving DecidableEq, Repr

/-- The host port's output path: the completion record of the last emission and the channel whose credit line was
pulsed with it (R111, R118). The model's own view of those pins (notes/assumptions/18.md). -/
structure HostOut where
  completion : Option Completion
  credit : Option ChanId
  deriving DecidableEq, Repr

/-- The seven status counters (R174). -/
structure Counters where
  voided : BitVec 32
  checkErrors : BitVec 32
  lateReplies : BitVec 32
  lostReplies : BitVec 32
  abandoned : BitVec 32
  poisonReceived : BitVec 32
  refused : BitVec 32
  deriving DecidableEq, Repr

/-! ### Span interface (R25 to R47) -/

/-- An entry put forward for a tenure (R28), named by its line address. -/
inductive Candidate where
  | reply (line : LineAddr)
  | entry (line : LineAddr)
  | writeback (line : LineAddr)
  deriving DecidableEq, Repr

/-- The contention classes, highest first (R30, R31). -/
inductive Class where
  | reply | urgent | normal
  deriving DecidableEq, Repr

/-- The tenure on the span, from the holder's frame to the verdict (R25, R47). -/
inductive Tenure where
  /-- No frame is on the span. -/
  | idle
  /-- This station's request frame for a transaction table entry, and the HOME vote it drives on it (R32, R35). -/
  | ownEntry (line : LineAddr) (frame : Frame) (home : Bool)
  /-- This station's RETURN for a writeback buffer entry, and the HOME vote it drives on it (R32, R35). -/
  | ownWriteback (line : LineAddr) (frame : Frame) (home : Bool)
  /-- This station's reply frame for a reply queue entry (R32, R84). -/
  | ownReply (line : LineAddr) (frame : Frame)
  /-- A peer's request frame taken as sent, with the votes this station drives on it (R35 to R40). -/
  | peer (sender : StationNo) (line : LineAddr) (body : RequestBody) (votes : Votes)
  /-- A peer's request frame that is not taken: unreadable, with RETRY driven (R36), or read by an INERT station, with
  nothing driven (R35). -/
  | peerUnreadable (retry : Bool)
  /-- A peer's reply frame, whether its check is good, and whether this station drives RETRY on it (R45). -/
  | peerReply (addressee : StationNo) (line : LineAddr) (body : ReplyBody) (good retry : Bool)
  deriving DecidableEq, Repr

/-- What a station drives in an arbitration: the class claimed, and the candidate it claims it for, none once that entry
has left (R30, R32, R178). -/
structure Claim where
  candidate : Option Candidate
  cls : Class
  deriving DecidableEq, Repr

/-- The span interface (R47). `granted` is the holder's number as this station read it at the grant (R25, R178), kept
until the verdict. -/
structure Span where
  tenure : Tenure
  granted : Option StationNo
  rotation : Nat
  idleCount : Nat
  joined : Bool
  putForward : Option Claim
  yields : Option LineAddr
  setAside : Option LineAddr
  homeReserved : Bool
  deriving DecidableEq, Repr

/-! ### The machine -/

/-- One L16S station, and the queue of the commands that are waiting. -/
structure State where
  porst : Bool
  hrst : Bool
  station : Station
  span : Span
  lines : Vector CacheSet 32
  table : List TableEntry
  waiting : List Waiting
  writebacks : List WritebackEntry
  replies : List ReplyEntry
  homeStore : List (Nat × StoreWord)
  homeQueue : List HomeOp
  homeDone : Option ReplyBody
  hostTable : Vector (List HostEntry) 4
  refused : Vector (Option (BitVec 8 × Bool)) 4
  readyOrder : List ReadyToken
  nextPlace : Nat
  latches : Vector (Option Latch) 4
  reservations : Vector (Option Addr) 4
  watches : Vector (Option Watch) 4
  posted : List PostedWrite
  counters : Counters
  out : HostOut
  now : Nat
  pending : List Instr
  deriving DecidableEq, Repr

/-- The manual gives no fault that stops the part; no meaning raises one. -/
inductive Fault where
  /-- Raised by nothing: the constructor exists because the host's interface asks for a reason type. Safe. -/
  | none
  deriving DecidableEq, Repr

/-- Why a command has no meaning in the state it meets: it names a happening that cannot come about there. All of these
are safe: the model stops where the part has no such happening (notes/assumptions/3.md). -/
inductive Refusal where
  /-- Raised by exec for an instruction that has no meaning yet. Safe. -/
  | notModelled (mnemonic : String)
  /-- PORST_RELEASED while PORST is not asserted (R166). Safe. -/
  | porstNotAsserted
  /-- HRST_RELEASED while HRST is not asserted (R123). Safe. -/
  | hrstNotAsserted
  /-- COMPLETION_EMITTED with no completion ready (R118). Safe. -/
  | noCompletionReady
  /-- A grant, a frame or the idle count's expiry while a frame is on the span: tenures do not overlap (R25, R34).
  Safe. -/
  | tenureOpen
  /-- A verdict with no tenure of its kind open (R25). Safe. -/
  | noSuchTenure
  /-- REPLY_TIMER_EXPIRY for a line with no entry in AWAIT-FILL or AWAIT-RESULT (R68). Safe. -/
  | noTimerRunning
  /-- WATCH_TIMEOUT on a channel whose watch table entry is free (R163). Safe. -/
  | noWatchInUse
  /-- A clear sweep happening while the station is not CLEARING, or the sweep's end before line 2047 (R92). Safe. -/
  | notSweeping
  /-- The end of a home operation that is not performing at the head of the home operation queue (R99). Safe. -/
  | notAtHomeHead
  deriving DecidableEq, Repr

/-- A free line's data: zero words, clear flags (R24). -/
def zeroLine : LineData := { words := Vector.replicate 8 0, poison := 0 }

/-- A free way (R24). -/
def Way.free : Way := { tag := none, state := .invalid, data := zeroLine }

/-- A set after power-on reset: four free ways, way 0 the most recent (R6, R24). -/
def CacheSet.reset : CacheSet := { ways := Vector.replicate 4 Way.free, order := [0, 1, 2, 3] }

/-- The counters after power-on reset (R174). -/
def Counters.zero : Counters :=
  { voided := 0, checkErrors := 0, lateReplies := 0, lostReplies := 0, abandoned := 0, poisonReceived := 0, refused := 0 }

/-- The span interface after power-on reset (R47); the rotation point is set at the release. -/
def Span.reset : Span :=
  { tenure := .idle, granted := none, rotation := 0, idleCount := 0, joined := false, putForward := none, yields := none,
    setAside := none, homeReserved := false }

/-- The station held in power-on reset: PORST asserted, every table, queue, way and counter empty (R124, R167), the
straps not yet read. DESIGN CHOICE for the fields the straps give (notes/assumptions/1.md); PORST_RELEASED reads them. -/
def State.reset : State :=
  { porst := true
    hrst := false
    station := { number := 0, count := 0, mode := .inert, sweep := 0 }
    span := Span.reset
    lines := Vector.replicate 32 CacheSet.reset
    table := []
    waiting := []
    writebacks := []
    replies := []
    homeStore := []
    homeQueue := []
    homeDone := none
    hostTable := Vector.replicate 4 []
    refused := Vector.replicate 4 none
    readyOrder := []
    nextPlace := 0
    latches := Vector.replicate 4 none
    reservations := Vector.replicate 4 none
    watches := Vector.replicate 4 none
    posted := []
    counters := Counters.zero
    out := { completion := none, credit := none }
    now := 0
    pending := [] }

end Sys2Proof.Machine
end

