-- ==== Sys2Proof/Machine/Operands.lean ====
section
/-! DEFINITION. The fields of an address, the merge under a byte mask, the atomic operations, and what a request names. -/

namespace Sys2Proof.Machine

/-! ### Addresses (00_scope.md, conventions) -/

/-- The line address of a shared address: bits 20..6. -/
def lineOf (a : Addr) : LineAddr := a.extractLsb' 6 15

/-- The word number of a shared address: bits 5..3. -/
def wordOf (a : Addr) : BitVec 3 := a.extractLsb' 3 3

/-- The host's addresses are 8-byte aligned. -/
def aligned (a : Addr) : Bool := a.extractLsb' 0 3 = 0

/-- The home field of a line address: bits 14..11, which are address bits 20..17. -/
def homeOf (l : LineAddr) : StationNo := l.extractLsb' 11 4

/-- The line index: the low 11 bits of a line address. -/
def indexOf (l : LineAddr) : BitVec 11 := l.extractLsb' 0 11

/-- The direct region: line indices 1792 to 2047 of every slice. -/
def isDirect (l : LineAddr) : Bool := Config.directIndex ≤ (indexOf l).toNat

/-- The set of a line: its line address mod 32. -/
def setOf (l : LineAddr) : Fin 32 := (l.extractLsb' 0 5).toFin

/-- The word a word number names, by its index in the line. -/
def wordIx (w : BitVec 3) : Fin 8 := w.toFin

/-! ### Words -/

/-- A full byte mask (R8, R103). -/
def fullMask : BitVec 8 := 0xFF

/-- Byte n of the word, byte 0 the least significant (chapter 12). -/
def byteOf (v : Word) (n : Nat) : BitVec 8 := v.extractLsb' (8 * n) 8

/-- The word with the masked bytes of `new` and the other bytes of `old`; bit n of the mask is byte n (R8, R103). -/
def mergeMask (mask : BitVec 8) (old new : Word) : Word :=
  let pick := fun n => if mask.getLsbD n then byteOf new n else byteOf old n
  (pick 7 ++ pick 6 ++ pick 5 ++ pick 4 ++ pick 3 ++ pick 2 ++ pick 1 ++ pick 0 : BitVec (8+8+8+8+8+8+8+8))

/-- The new word of an atomic operation, and none where it stores nothing (R129). -/
def atomicNew (op : AtomicOp) (old a b : Word) : Option Word :=
  match op with
  | .swap => some a
  | .add => some (old + a)
  | .and => some (old &&& a)
  | .or => some (old ||| a)
  | .maxu => some (if old.toNat < a.toNat then a else old)
  | .cas => if old = b then some a else none

/-- The op of an op code; 6 and 7 do not decode (chapter 12). -/
def opOfCode (code : BitVec 3) : Option AtomicOp :=
  match code.toNat with
  | 0 => some .swap
  | 1 => some .add
  | 2 => some .and
  | 3 => some .or
  | 4 => some .maxu
  | 5 => some .cas
  | _ => none

/-- The parity check kept with a stored value: even parity over its 64 bits. DESIGN CHOICE (notes/assumptions/15.md). -/
def parityOf (v : Word) : Bool := (List.range 64).foldl (fun p n => p.xor (v.getLsbD n)) false

/-! ### Lines -/

/-- A word of a line. -/
def lineWord (d : LineData) (w : BitVec 3) : Word := d.words[wordIx w]

/-- A poison flag of a line. -/
def linePoison (d : LineData) (w : BitVec 3) : Bool := d.poison.getLsbD w.toNat

/-- Stores a full word into a line and clears the word's poison flag (R5, R8). -/
def lineStore (d : LineData) (w : BitVec 3) (v : Word) : LineData :=
  { words := d.words.set (wordIx w) v, poison := d.poison &&& ~~~(1#8 <<< w.toNat) }

/-- A valid line state (R3). -/
def LineState.valid (st : LineState) : Bool := st != .invalid

/-- CLEAN-SOLE and DIRTY-SOLE (00_scope.md, line state groups). -/
def LineState.sole (st : LineState) : Bool := st = .cleanSole || st = .dirtySole

/-- DIRTY-SHARED and DIRTY-SOLE. -/
def LineState.dirty (st : LineState) : Bool := st = .dirtyShared || st = .dirtySole

/-! ### Requests -/

/-- The address of a request whose kind uses one (R109). -/
def Request.addr? : Request → Option Addr
  | .read a => some a
  | .write a _ _ => some a
  | .posted a _ _ => some a
  | .atomic _ a _ _ => some a
  | .reserve a => some a
  | .conditional a _ => some a
  | .watch a _ _ => some a
  | .flush a => some a
  | .fence => none
  | .probe a => some a
  | .status _ => none
  | .undecodable (.kind _) => none
  | .undecodable (.op _ a _) => some a

/-- A RESERVE, CONDITIONAL or WATCH: the kinds that check 5 keeps out of the direct region (R112). -/
def Request.cachedOnly : Request → Bool
  | .reserve _ => true
  | .conditional _ _ => true
  | .watch _ _ _ => true
  | _ => false

/-- A STATUS, which passes check 2 in every station state (R112). -/
def Request.isStatus : Request → Bool
  | .status _ => true
  | _ => false

/-- A posted WRITE (R116). -/
def Request.isPosted : Request → Bool
  | .posted _ _ _ => true
  | _ => false

/-- A CONDITIONAL (R48, R149). -/
def Request.isConditional : Request → Bool
  | .conditional _ _ => true
  | _ => false

/-- Check 3: the record is malformed (R112, R175). -/
def Request.malformed (r : Request) : Bool :=
  match r with
  | .undecodable _ => true
  | .write a mask _ => !aligned a || mask = 0
  | .posted a mask _ => !aligned a || mask = 0
  | .watch a _ timeout => !aligned a || timeout = 0
  | _ => match r.addr? with
    | some a => !aligned a
    | none => false

/-- The word number of a direct operation (R26). -/
def directWord : DirectOp → BitVec 3
  | .read w => w
  | .write w _ _ => w
  | .atomic w _ _ _ => w

/-! ### Lists -/

/-- Applies `f` to the first element that satisfies `p`. -/
def mapFirst {α : Type} (p : α → Bool) (f : α → α) : List α → List α
  | [] => []
  | x :: xs => if p x then f x :: xs else x :: mapFirst p f xs

/-- The elements of least key (of one age, or the one at the least place), in their order. -/
def leastBy {α : Type} (key : α → Nat) (xs : List α) : List α :=
  xs.filter (fun x => xs.all (fun y => key x ≤ key y))

/-- One element of the list: the only one, or one taken by the free order (notes/assumptions/6.md). -/
def freePick {α : Type} (seed : Nat) : List α → Option α
  | [] => none
  | [x] => some x
  | x :: xs => (x :: xs)[Config.freeOrder seed % (xs.length + 1)]?

/-- Inserts before the first element of greater key. -/
def insertBy {α : Type} (key : α → Nat) (x : α) : List α → List α
  | [] => [x]
  | y :: ys => if key x < key y then x :: y :: ys else y :: insertBy key x ys

/-- The list in rising order of the key. -/
def sortBy {α : Type} (key : α → Nat) (xs : List α) : List α := xs.foldl (fun acc x => insertBy key x acc) []

/-- The four channels. -/
def channels : List ChanId := [0, 1, 2, 3]

/-- The four ways. -/
def wayIds : List WayId := [0, 1, 2, 3]

end Sys2Proof.Machine
end

