-- ==== Sys2Proof/Machine/Ops.lean ====
section
/-! DEFINITION. The shared operations on one block each: line array, host port, reservations, watches, latches, tables,
home store. -/

namespace Sys2Proof.Machine

/-! ### Line array (R1 to R6) -/

/-- The way of a line's set that a way number names. -/
def State.wayAt (s : State) (l : LineAddr) (w : WayId) : Way := s.lines[setOf l].ways[w]

/-- The way whose tag is the line, and none for a line of the direct region, which no way is looked at for (R1). -/
def State.findWay (s : State) (l : LineAddr) : Option WayId :=
  if isDirect l then none else wayIds.find? (fun w => (s.wayAt l w).tag = some l)

/-- The result of a lookup: the state of the way found (INVALID when FILL-PENDING), or none when no way carries the tag
(R1, R7). -/
def State.lookup (s : State) (l : LineAddr) : Option LineState :=
  (s.findWay l).map (fun w => (s.wayAt l w).state)

/-- The line is held in a valid state. -/
def State.heldValid (s : State) (l : LineAddr) : Bool :=
  match s.lookup l with
  | some st => st.valid
  | none => false

/-- The line is held dirty. -/
def State.heldDirty (s : State) (l : LineAddr) : Bool :=
  match s.lookup l with
  | some st => st.dirty
  | none => false

/-- The data of the way that carries the line, zero where none does. -/
def State.lineData (s : State) (l : LineAddr) : LineData :=
  match s.findWay l with
  | some w => (s.wayAt l w).data
  | none => zeroLine

/-- Replaces one way of a line's set. -/
def State.setWay (s : State) (l : LineAddr) (w : WayId) (way : Way) : State :=
  let set := s.lines[setOf l]
  { s with lines := s.lines.set (setOf l) { set with ways := set.ways.set w way } }

/-- Moves a way to the front of its set's recency order (R6). -/
def State.touchWay (s : State) (l : LineAddr) (w : WayId) : State :=
  let set := s.lines[setOf l]
  { s with lines := s.lines.set (setOf l) { set with order := w :: set.order.erase w } }

/-- Moves the line's way to the front of its set (R6). -/
def State.touch (s : State) (l : LineAddr) : State :=
  match s.findWay l with
  | some w => s.touchWay l w
  | none => s

/-- Gives the line's way another state, and keeps its tag and data (R18, R15). -/
def State.setLineState (s : State) (l : LineAddr) (st : LineState) : State :=
  match s.findWay l with
  | some w => s.setWay l w { s.wayAt l w with state := st }
  | none => s

/-- Removes the line's tag; the way is INVALID and keeps its recency position (R16, R18). -/
def State.dropTag (s : State) (l : LineAddr) : State :=
  match s.findWay l with
  | some w => s.setWay l w { s.wayAt l w with tag := none, state := .invalid }
  | none => s

/-- Installs a line in the way that carries its tag, and moves the way to the front (R14). -/
def State.install (s : State) (l : LineAddr) (st : LineState) (d : LineData) : State :=
  match s.findWay l with
  | some w => (s.setWay l w { tag := some l, state := st, data := d }).touchWay l w
  | none => s

/-! ### Transaction table, writeback buffer, reply queue: reading -/

/-- The entry for a line (R50). -/
def State.entryFor (s : State) (l : LineAddr) : Option TableEntry := s.table.find? (fun e => e.line = l)

/-- The writeback buffer entry for a line (R74). -/
def State.writebackFor (s : State) (l : LineAddr) : Option WritebackEntry := s.writebacks.find? (fun e => e.line = l)

/-- The held reply queue entry for a line (R80). -/
def State.replyFor (s : State) (l : LineAddr) : Option ReplyEntry := s.replies.find? (fun e => e.line = l)

/-- The reply queue holds an entry for the line, held or set aside (R80). -/
def State.replyHolds (s : State) (l : LineAddr) : Bool := (s.replyFor l).isSome || s.span.setAside = some l

/-- The reply queue has a free entry: one that holds no reply and is not set aside (R38). -/
def State.replyRoom (s : State) : Bool :=
  s.replies.length + (if s.span.setAside.isSome then 1 else 0) < Config.replyEntries

/-- The writeback buffer has a free entry. -/
def State.writebackRoom (s : State) : Bool := s.writebacks.length < Config.writebackEntries

/-- The home operation queue has a free entry: one that holds no operation and is not reserved (R40, R95). -/
def State.homeRoom (s : State) : Bool :=
  s.homeQueue.length + (if s.span.homeReserved then 1 else 0) < Config.homeEntries

/-- The line under a hold: the line of a peer's request tenure that this station took as sent (R41). -/
def State.hold (s : State) : Option LineAddr :=
  match s.span.tenure with
  | .peer _ l _ _ => some l
  | _ => none

/-- The line is under a hold (R41). -/
def State.held (s : State) (l : LineAddr) : Bool := s.hold = some l

/-- The line's home is this station. -/
def State.homeHere (s : State) (l : LineAddr) : Bool := homeOf l = s.station.number

/-- An entry awaits its reply (R48). -/
def Phase.awaiting : Phase → Bool
  | .queued _ => false
  | .awaitFill _ _ => true
  | .awaitResult _ => true

/-! ### Transaction table, writeback buffer: writing -/

/-- Changes the entry for a line. -/
def State.updateEntry (s : State) (l : LineAddr) (f : TableEntry → TableEntry) : State :=
  { s with table := s.table.map (fun e => if e.line = l then f e else e) }

/-- Changes the writeback buffer entry for a line. -/
def State.updateWriteback (s : State) (l : LineAddr) (f : WritebackEntry → WritebackEntry) : State :=
  { s with writebacks := s.writebacks.map (fun e => if e.line = l then f e else e) }

/-- Takes an operation out of every waiter list (R52). -/
def State.dropWaiter (s : State) (who : Who) : State :=
  { s with table := s.table.map (fun e => { e with waiters := e.waiters.filter (fun x => x ≠ who) }) }

/-- Owes every waiting operation a lookup: the pass of R56 is to follow. The happenings that R56 lists owe it, and the
departure of a watched line (R161); no other does (DESIGN CHOICE, notes/assumptions/42.md). -/
def State.owePass (s : State) : State :=
  { s with waiting := s.waiting.map (fun x => { x with due := true }) }

/-- Takes an operation out of the waiting list. -/
def State.unwait (s : State) (who : Who) : State :=
  { s with waiting := s.waiting.filter (fun x => x.who ≠ who) }

/-- Puts an operation into the waiting list at its acceptance place (R55). -/
def State.enterWaiting (s : State) (x : Waiting) : State :=
  { s with waiting := insertBy (fun y => y.place) x s.waiting }

/-- An operation stands in the waiting list. -/
def State.isWaiting (s : State) (who : Who) : Bool := s.waiting.any (fun x => x.who = who)

/-- An operation stands in a waiter list. -/
def State.isWaiter (s : State) (who : Who) : Bool := s.table.any (fun e => e.waiters.any (fun x => x = who))

/-- Ends the entry for a line: it becomes free, and a pass follows (R56). -/
def State.endEntry (s : State) (l : LineAddr) : State :=
  { s with table := s.table.filter (fun e => e.line ≠ l) }.owePass

/-! ### Counters (R174) -/

/-- Raises VOIDED by 1 (R44). -/
def State.raiseVoided (s : State) : State := { s with counters := { s.counters with voided := s.counters.voided + 1 } }

/-- Raises CHECK-ERRORS by 1 (R36, R46). -/
def State.raiseCheckErrors (s : State) : State :=
  { s with counters := { s.counters with checkErrors := s.counters.checkErrors + 1 } }

/-- Raises LATE-REPLIES by 1 (R70). -/
def State.raiseLateReplies (s : State) : State :=
  { s with counters := { s.counters with lateReplies := s.counters.lateReplies + 1 } }

/-- Raises LOST-REPLIES by 1 (R68). -/
def State.raiseLostReplies (s : State) : State :=
  { s with counters := { s.counters with lostReplies := s.counters.lostReplies + 1 } }

/-- Raises ABANDONED by 1 (R60, R84). -/
def State.raiseAbandoned (s : State) : State :=
  { s with counters := { s.counters with abandoned := s.counters.abandoned + 1 } }

/-- Raises POISON-RECEIVED by 1 (R45, R67). -/
def State.raisePoisonReceived (s : State) : State :=
  { s with counters := { s.counters with poisonReceived := s.counters.poisonReceived + 1 } }

/-- Raises REFUSED by 1 (R111). -/
def State.raiseRefused (s : State) : State :=
  { s with counters := { s.counters with refused := s.counters.refused + 1 } }

/-! ### Host port (R113, R114, R117) -/

/-- The entry's completion is not ready. -/
def HostEntry.isOpen (e : HostEntry) : Bool :=
  match e.progress with
  | .opened _ => true
  | .ready _ _ _ => false

/-- The entry is in the host phase. -/
def HostEntry.inPhase (e : HostEntry) (ph : HostPhase) : Bool := e.progress = .opened ph

/-- The head of a channel: its oldest entry whose completion is not ready (R114). -/
def State.head? (s : State) (c : ChanId) : Option HostEntry := s.hostTable[c].find? HostEntry.isOpen

/-- Changes the head of a channel. -/
def State.updateHead (s : State) (c : ChanId) (f : HostEntry → HostEntry) : State :=
  { s with hostTable := s.hostTable.set c (mapFirst HostEntry.isOpen f s.hostTable[c]) }

/-- Puts the head of a channel into a host phase (R114). -/
def State.setPhase (s : State) (c : ChanId) (ph : HostPhase) : State :=
  s.updateHead c (fun e => { e with progress := .opened ph })

/-- The channel's deferred error latch is set (R141). -/
def State.latchSet (s : State) (c : ChanId) : Bool := s.latches[c].isSome

/-- Makes the head's completion ready with its DEFERRED flag sampled (R117, R120); an operation that completes stands no
longer in the waiting list. -/
def State.complete (s : State) (c : ChanId) (st : Status) (data : List Word) : State :=
  (s.updateHead c (fun e => { e with progress := .ready st (s.latchSet c) data })).unwait (.chan c)

/-- The posted write queue holds an entry of the channel (R115). -/
def State.postedOf (s : State) (c : ChanId) : Bool := s.posted.any (fun p => p.ch = c)

/-- The oldest by acceptance place of the channel heads that satisfy `p`. -/
def State.oldestHead (s : State) (p : ChanId → HostEntry → Bool) : Option ChanId :=
  let heads := channels.filterMap (fun c => (s.head? c).bind (fun e => if p c e then some (c, e.place) else none))
  (leastBy (fun x => x.2) heads).head?.map (fun x => x.1)

/-! ### Deferred error latches and the posted write queue (R137, R138, R141) -/

/-- The latch takes a failure: the first is kept, a later one sets MORE (R141). -/
def takeFailure (old : Option Latch) (st : Status) (a : Addr) : Latch :=
  match old with
  | none => { status := st, addr := a, more := false }
  | some l => { l with more := true }

/-- Removes the head of the posted write queue (R137). -/
def State.popPosted (s : State) : State := { s with posted := s.posted.tail }

/-- The head of the posted write queue fails: its channel's latch takes the failure and the head is removed (R138). -/
def State.failPosted (s : State) (st : Status) : State :=
  match s.posted with
  | [] => s
  | p :: _ => { s with latches := s.latches.set p.ch (some (takeFailure s.latches[p.ch] st p.addr)) }.popPosted

/-! ### Reservations (R144, R147, R148, R150) -/

/-- Makes a channel's reservation invalid. -/
def State.clearReservation (s : State) (c : ChanId) : State := { s with reservations := s.reservations.set c none }

/-- The channel's reservation stands on the address (R149). -/
def State.stands (s : State) (c : ChanId) (a : Addr) : Bool := s.reservations[c] = some a

/-- The head of the channel is a CONDITIONAL. -/
def State.conditionalHead (s : State) (c : ChanId) : Bool :=
  match s.head? c with
  | some e => e.req.isConditional
  | none => false

/-- Breaks a channel's reservation; its CONDITIONAL, if one stands in the waiting list, completes FAIL (R150). -/
def State.breakReservation (s : State) (c : ChanId) : State :=
  let s := s.clearReservation c
  if s.isWaiting (.chan c) && s.conditionalHead c then s.complete c .fail [] else s

/-- Breaks every reservation on an address that satisfies `p`. -/
def State.breakReservations (s : State) (p : Addr → Bool) : State :=
  channels.foldl (fun s c => if s.reservations[c].any p then s.breakReservation c else s) s

/-! ### Watches (R156, R159, R160, R161) -/

/-- Frees a channel's watch table entry. -/
def State.freeWatch (s : State) (c : ChanId) : State := { s with watches := s.watches.set c none }

/-- A channel's watch takes the report of a store: an ARMED watch of the address whose word now differs completes OK
with the word (R159). -/
def State.watchStore (s : State) (c : ChanId) (a : Addr) (v : Word) : State :=
  match s.watches[c] with
  | some w => if w.phase = .armed && w.addr = a && w.compare ≠ v then (s.freeWatch c).complete c .ok [v] else s
  | none => s

/-- Reports a store to the reservation table and to the watch table (R9). -/
def State.reportStore (s : State) (a : Addr) (v : Word) : State :=
  channels.foldl (fun s c => s.watchStore c a v) (s.breakReservations (fun x => x = a))

/-- The acceptance place of a channel's head. -/
def State.headPlace (s : State) (c : ChanId) : Nat :=
  match s.head? c with
  | some e => e.place
  | none => 0

/-- An ARMED watch of the departing line moves to REFETCH and its refetch takes its place in the waiting list; a pass
follows (R160, R161). -/
def State.watchDepart (s : State) (c : ChanId) (l : LineAddr) : State :=
  match s.watches[c] with
  | some w =>
    if w.phase = .armed && lineOf w.addr = l then
      ({ s with watches := s.watches.set c (some { w with phase := .refetch }) }.enterWaiting
        { who := .chan c, place := s.headPlace c, pendingFlush := false, due := true }).owePass
    else s
  | none => s

/-- The report of a line's departure: its reservations break and its ARMED watches move to REFETCH (R10). -/
def State.depart (s : State) (l : LineAddr) : State :=
  channels.foldl (fun s c => s.watchDepart c l) (s.breakReservations (fun a => lineOf a = l))

/-! ### Stores (R8, R9) -/

/-- The word an address names in the way that holds its line. -/
def State.loadWord (s : State) (a : Addr) : Word := lineWord (s.lineData (lineOf a)) (wordOf a)

/-- The poison flag of the word an address names. -/
def State.loadPoison (s : State) (a : Addr) : Bool := linePoison (s.lineData (lineOf a)) (wordOf a)

/-- Writes a full word into the way that holds its line, which becomes DIRTY-SOLE (R5, R8). -/
def State.writeWay (s : State) (a : Addr) (v : Word) : State :=
  match s.findWay (lineOf a) with
  | some w => s.setWay (lineOf a) w
      { s.wayAt (lineOf a) w with state := .dirtySole, data := lineStore (s.wayAt (lineOf a) w).data (wordOf a) v }
  | none => s

/-- A store: the word is written, the way moves to the front, and the store is reported (R6, R8, R9). -/
def State.storeWord (s : State) (a : Addr) (v : Word) : State :=
  ((s.writeWay a v).touch (lineOf a)).reportStore a v

/-- A store under a byte mask; none where a partial mask meets a poisoned word and nothing is stored (R5, R8). -/
def State.storeMasked (s : State) (a : Addr) (mask : BitVec 8) (v : Word) : Option State :=
  if mask ≠ fullMask && s.loadPoison a then none
  else some (s.storeWord a (if mask = fullMask then v else mergeMask mask (s.loadWord a) v))

/-! ### Home store memory (R89 to R91) -/

/-- What a key nothing has written reads as: a zero word, its parity matching, its poison flag clear
(notes/assumptions/16.md). -/
def StoreWord.blank : StoreWord := { value := 0, parity := false, poison := false }

/-- The home store's memory: cells in rising order of their keys, none of them blank. -/
abbrev HomeMemory := List (Nat × StoreWord)

/-- Reads one word. -/
def memRead (m : HomeMemory) (k : Nat) : StoreWord :=
  match m with
  | [] => StoreWord.blank
  | (j, w) :: rest => if j = k then w else memRead rest k

/-- Writes one word and keeps the canonical form: a blank word is not listed. -/
def memWrite (m : HomeMemory) (k : Nat) (v : StoreWord) : HomeMemory :=
  match m with
  | [] => if v = StoreWord.blank then [] else [(k, v)]
  | (j, w) :: rest =>
    if k < j then (if v = StoreWord.blank then (j, w) :: rest else (k, v) :: (j, w) :: rest)
    else if k = j then (if v = StoreWord.blank then rest else (k, v) :: rest)
    else (j, w) :: memWrite rest k v

/-- The canonical form: keys strictly rising, no blank cell. -/
def memWf : HomeMemory → Bool
  | [] => true
  | (j, w) :: rest => w ≠ StoreWord.blank && rest.all (fun c => j < c.1) && memWf rest

/-- The key of a word of a home store line: line index times 8 plus word number (R89). -/
def storeKey (ix : BitVec 11) (w : Fin 8) : Nat := ix.toNat * 8 + w.val

/-- Writes a value with its parity check set afresh and its poison flag as given (R89). -/
def storeFresh (v : Word) (poison : Bool) : StoreWord := { value := v, parity := parityOf v, poison := poison }

/-- Reads a word and tests its parity: a failure sets the word's poison flag in the store (R90). -/
def readTested (m : HomeMemory) (k : Nat) : HomeMemory × StoreWord :=
  let w := memRead m k
  if w.parity = parityOf w.value || w.poison then (m, w)
  else
    let w' := { w with poison := true }
    (memWrite m k w', w')

/-- The eight words of a line. -/
def wordIds : List (Fin 8) := [0, 1, 2, 3, 4, 5, 6, 7]

/-- Writes every word of a line with the values and flags given (R101, R92). -/
def writeLine (m : HomeMemory) (ix : BitVec 11) (d : LineData) : HomeMemory :=
  wordIds.foldl (fun m w => memWrite m (storeKey ix w) (storeFresh d.words[w] (d.poison.getLsbD w.val))) m

/-- Reads every word of a line with the parity of each tested (R100). -/
def readLineTested (m : HomeMemory) (ix : BitVec 11) : HomeMemory × LineData :=
  wordIds.foldl
    (fun (acc : HomeMemory × LineData) w =>
      let r := readTested acc.1 (storeKey ix w)
      (r.1, { words := acc.2.words.set w r.2.value
              poison := if r.2.poison then acc.2.poison ||| (1#8 <<< w.val) else acc.2.poison }))
    (m, zeroLine)

end Sys2Proof.Machine
end

