-- ==== Sys2Proof/Machine/Flags.lean ====
section
/-! DEFINITION. The words that PROBE, STATUS and FENCE report, and their codes (R170, R172, R143; chapter 12). -/

namespace Sys2Proof.Machine

/-- The status codes of a completion record (chapter 12). -/
def statusCode : Status → BitVec 4
  | .ok => 0
  | .fail => 1
  | .timeout => 2
  | .dataError => 3
  | .lostReply => 4
  | .stalled => 5
  | .noHome => 6
  | .region => 7
  | .badRequest => 8
  | .refused => 9
  | .badConfig => 10

/-- One bit of a word. -/
def bit (b : Bool) : BitVec 1 := BitVec.ofBool b

/-! ### PROBE (R170) -/

/-- The transaction entry part of a line report. -/
structure EntryReport where
  kind : TableKind
  phase : Phase
  retry : Nat
  waiters : Nat
  deriving DecidableEq, Repr

/-- The reply entry part of a line report: set aside, or held with its VOID count. -/
inductive ReplyReport where
  | setAside
  | fill (voids : Nat)
  | result (voids : Nat)
  deriving DecidableEq, Repr

/-- The line report of a PROBE (R170). -/
structure LineReport where
  direct : Bool
  homeHere : Bool
  state : LineState
  fillPending : Bool
  way : Option WayId
  position : Option Nat
  poison : BitVec 8
  pendingFlush : Bool
  reservations : Nat
  armed : Nat
  entry : Option EntryReport
  writeback : Option (Nat × Bool)
  reply : Option ReplyReport
  deriving DecidableEq, Repr

/-- A pending flush stands on the line (R17). -/
def State.flushPending (s : State) (l : LineAddr) : Bool :=
  channels.any (fun c =>
    (match s.head? c with
      | some e => (match e.req with
        | .flush a => lineOf a = l
        | _ => false)
      | none => false)
    && s.waiting.any (fun x => x.who = .chan c && x.pendingFlush))

/-- The recency position of a way in its set, 1 the most recent (R170). -/
def State.position (s : State) (l : LineAddr) (w : WayId) : Nat := (s.lines[setOf l].order.idxOf w) + 1

/-- The reply part of the report. -/
def State.replyReport (s : State) (l : LineAddr) : Option ReplyReport :=
  match s.replyFor l with
  | some r => (match r.body with
    | .fill _ => some (.fill r.voids)
    | .result _ _ _ => some (.result r.voids))
  | none => if s.span.setAside = some l then some .setAside else none

/-- The station's view of the line an address names, read in one happening (R170, R171). -/
def State.lineReport (s : State) (a : Addr) : LineReport :=
  let l := lineOf a
  let way := s.findWay l
  { direct := isDirect l
    homeHere := s.homeHere l
    state := (s.lookup l).getD .invalid
    fillPending := s.lookup l = some .invalid
    way := way
    position := way.map (s.position l)
    poison := if s.heldValid l then (s.lineData l).poison else 0
    pendingFlush := s.flushPending l
    reservations := (channels.filter (fun c => s.reservations[c].any (fun x => lineOf x = l))).length
    armed := (channels.filter (fun c => s.watches[c].any (fun w => w.phase = .armed && lineOf w.addr = l))).length
    entry := (s.entryFor l).map (fun e =>
      { kind := e.kind, phase := e.phase, retry := e.retry, waiters := e.waiters.length })
    writeback := (s.writebackFor l).map (fun e => (e.retry, e.flush.isSome))
    reply := s.replyReport l }

/-- The line state codes of the line report. -/
def stateCode : LineState → BitVec 3
  | .invalid => 0
  | .shared => 1
  | .cleanSole => 2
  | .dirtyShared => 3
  | .dirtySole => 4

/-- The entry kind codes of the line report. -/
def kindCode : TableKind → BitVec 3
  | .share => 0
  | .own => 1
  | .upgrade => 2
  | .direct (.read _) => 3
  | .direct (.write _ _ _) => 4
  | .direct (.atomic _ _ _ _) => 5

/-- The entry phase codes of the line report. -/
def phaseCode : Phase → BitVec 2
  | .queued _ => 0
  | .awaitFill _ _ => 1
  | .awaitResult _ => 2

/-- The transaction entry bits of the line report, 36 to 20. -/
def entryBits : Option EntryReport → BitVec 17
  | none => 0
  | some e => (bit true ++ kindCode e.kind ++ phaseCode e.phase ++ BitVec.ofNat 8 e.retry ++ BitVec.ofNat 3 e.waiters :
      BitVec (1 + 3 + 2 + 8 + 3))

/-- The writeback entry bits of the line report, 19 to 10. -/
def writebackBits : Option (Nat × Bool) → BitVec 10
  | none => 0
  | some (retry, fl) => (bit true ++ BitVec.ofNat 8 retry ++ bit fl : BitVec (1 + 8 + 1))

/-- The reply entry bits of the line report, 9 to 0. -/
def replyBits : Option ReplyReport → BitVec 10
  | none => 0
  | some .setAside => (1#2 ++ 0#8 : BitVec (2 + 8))
  | some (.fill v) => (2#2 ++ BitVec.ofNat 8 v : BitVec (2 + 8))
  | some (.result v) => (3#2 ++ BitVec.ofNat 8 v : BitVec (2 + 8))

/-- The layout of the line report (chapter 12). -/
def LineReport.word (r : LineReport) : Word :=
  (bit r.direct ++ bit r.homeHere ++ stateCode r.state ++ bit r.fillPending ++ bit r.way.isSome
    ++ BitVec.ofNat 2 (r.way.map Fin.val |>.getD 0) ++ BitVec.ofNat 3 (r.position.getD 0) ++ r.poison
    ++ bit r.pendingFlush ++ BitVec.ofNat 3 r.reservations ++ BitVec.ofNat 3 r.armed
    ++ entryBits r.entry ++ writebackBits r.writeback ++ replyBits r.reply :
      BitVec (1 + 1 + 3 + 1 + 1 + 2 + 3 + 8 + 1 + 3 + 3 + 17 + 10 + 10))

/-! ### STATUS (R172, R173) -/

/-- The station state codes of STATUS. -/
def modeCode : StationMode → BitVec 2
  | .inert => 0
  | .clearing => 1
  | .ready => 2

/-- The four data words of a STATUS (R172; chapter 12). -/
def State.statusWords (s : State) : List Word :=
  [ (Config.identification ++ s.station.number ++ s.station.count ++ modeCode s.station.mode
      ++ BitVec.ofNat 12 s.station.sweep ++ 0#1 ++ s.counters.voided : BitVec (8 + 4 + 5 + 2 + 12 + 1 + 32)),
    (s.counters.checkErrors ++ s.counters.lateReplies : BitVec (32 + 32)),
    (s.counters.lostReplies ++ s.counters.abandoned : BitVec (32 + 32)),
    (s.counters.poisonReceived ++ s.counters.refused : BitVec (32 + 32)) ]

/-! ### FENCE (R143) -/

/-- The latch word of a FENCE; a clear latch reads as zero (chapter 12). -/
def latchWord : Option Latch → Word
  | none => 0
  | some l => (bit true ++ statusCode l.status ++ bit l.more ++ 0#37 ++ l.addr : BitVec (1 + 4 + 1 + 37 + 21))

end Sys2Proof.Machine
end

