-- ==== Sys2Proof/Decode.lean ====
section
/-! DEFINITION. Words to commands: the opcode table's words (no row of it gives bits), and the records and frames of
chapter 12, which carry the commands of the host port and of the span (R27, R109, R175 to R177). -/

namespace Sys2Proof

/-- The command a word of the opcode table spells: none, since no row of spec/opcode_table.json gives bits. -/
def decodeTableWord (_nbits _w : Nat) : Option Instr := none

/-! ### Codes (chapter 12) -/

/-- The op code of an op. -/
def opCode : AtomicOp → BitVec 3
  | .swap => 0
  | .add => 1
  | .and => 2
  | .or => 3
  | .maxu => 4
  | .cas => 5

/-! ### Host request records -/

/-- A request record: three beats (chapter 12). -/
structure Record where
  beat0 : Word
  beat1 : Word
  beat2 : Word
  deriving DecidableEq, Repr

/-- The fields of beat 0 of a request record. -/
structure RecordFields where
  ch : BitVec 2
  tag : BitVec 8
  kind : BitVec 4
  op : BitVec 3
  posted : BitVec 1
  clear : BitVec 1
  mask : BitVec 8
  timeout : BitVec 16
  addr : Addr
  deriving DecidableEq, Repr

/-- Beat 0 from its fields: channel 63..62, tag 61..54, kind 53..50, op 49..47, POSTED 46, CLEAR 45, byte mask 44..37,
timeout 36..21, address 20..0. -/
def RecordFields.beat (f : RecordFields) : Word :=
  (f.ch ++ f.tag ++ f.kind ++ f.op ++ f.posted ++ f.clear ++ f.mask ++ f.timeout ++ f.addr :
    BitVec (2 + 8 + 4 + 3 + 1 + 1 + 8 + 16 + 21))

/-- The fields of a beat 0. -/
def recordFields (b : Word) : RecordFields :=
  { ch := b.extractLsb' 62 2
    tag := b.extractLsb' 54 8
    kind := b.extractLsb' 50 4
    op := b.extractLsb' 47 3
    posted := b.extractLsb' 46 1
    clear := b.extractLsb' 45 1
    mask := b.extractLsb' 37 8
    timeout := b.extractLsb' 21 16
    addr := b.extractLsb' 0 21 }

/-- The fields of a record's first beat that neither an ATOMIC nor an undecodable kind uses (R109). -/
def RecordFields.ignored (f : RecordFields) : IgnoredFields :=
  { posted := f.posted, clear := f.clear, mask := f.mask, timeout := f.timeout }

/-- The first beat's fields with those that an undecodable record carries and nothing uses. -/
def RecordFields.withIgnored (f : RecordFields) (u : IgnoredFields) : RecordFields :=
  { f with posted := u.posted, clear := u.clear, mask := u.mask, timeout := u.timeout }

/-- The command of an ATOMIC record (R129); an op code of 6 or 7 names none of the six ops, and the record is then taken
as UNDECODABLE_REQUEST_KIND (R112, R175; notes/assumptions/19.md). -/
def atomicRecord (ch : ChanId) (tag : BitVec 8) (op : BitVec 3) (addr : Addr) (u : IgnoredFields) (a b : Word) : Instr :=
  match Machine.opOfCode op with
  | some .swap => .atomicSwap ch tag addr a
  | some .add => .atomicAdd ch tag addr a
  | some .and => .atomicAnd ch tag addr a
  | some .or => .atomicOr ch tag addr a
  | some .maxu => .atomicMaxu ch tag addr a
  | some .cas => .atomicCas ch tag addr a b
  | none => .undecodableRequestKind ch { tag := tag, what := .op op addr a } u b

/-- The command of a record's fields and its two other beats; the fields the kind does not use are ignored (R109). -/
def commandOf (f : RecordFields) (v w : Word) : Instr :=
  match f.kind.toNat with
  | 1 => .read f.ch.toFin f.tag f.addr
  | 2 => if f.posted = 1 then .postedWrite f.ch.toFin f.tag f.addr f.mask v
    else .write f.ch.toFin f.tag f.addr f.mask v
  | 3 => atomicRecord f.ch.toFin f.tag f.op f.addr f.ignored v w
  | 4 => .reserve f.ch.toFin f.tag f.addr
  | 5 => .conditional f.ch.toFin f.tag f.addr v
  | 6 => .watch f.ch.toFin f.tag f.addr v f.timeout
  | 7 => .flush f.ch.toFin f.tag f.addr
  | 8 => .fence f.ch.toFin f.tag
  | 9 => .probe f.ch.toFin f.tag f.addr
  | 10 => if f.clear = 1 then .statusClear f.ch.toFin f.tag else .status f.ch.toFin f.tag
  | _ => .undecodableRequestKind f.ch.toFin { tag := f.tag, what := .kind f.kind } f.ignored w

/-- The command of a request record (R175). -/
def decodeRecord (r : Record) : Instr := commandOf (recordFields r.beat0) r.beat1 r.beat2

/-- The record of the beats received: a record that ends before its third beat is discarded (R175). -/
def readRecord : List Word → Option Instr
  | [a, b, c] => some (decodeRecord { beat0 := a, beat1 := b, beat2 := c })
  | _ => none

/-- The beat 0 fields of a record that uses only its channel, tag and kind. -/
def plainFields (ch : ChanId) (tag : BitVec 8) (kind : BitVec 4) (addr : Addr) : RecordFields :=
  { ch := BitVec.ofFin ch, tag := tag, kind := kind, op := 0, posted := 0, clear := 0, mask := 0, timeout := 0,
    addr := addr }

/-- A record from its fields and its two other beats. -/
def recordOf (f : RecordFields) (v w : Word) : Record := { beat0 := f.beat, beat1 := v, beat2 := w }

/-- The record of an ATOMIC. -/
def atomicFields (ch : ChanId) (tag : BitVec 8) (op : AtomicOp) (addr : Addr) : RecordFields :=
  { plainFields ch tag 3 addr with op := opCode op }

/-- The request record of a command of the host port, and none for the other commands. -/
def encodeRecord : Instr → Option Record
  | .read ch tag addr => some (recordOf (plainFields ch tag 1 addr) 0 0)
  | .write ch tag addr mask v => some (recordOf { plainFields ch tag 2 addr with mask := mask } v 0)
  | .postedWrite ch tag addr mask v =>
    some (recordOf { plainFields ch tag 2 addr with mask := mask, posted := 1 } v 0)
  | .atomicSwap ch tag addr a => some (recordOf (atomicFields ch tag .swap addr) a 0)
  | .atomicAdd ch tag addr a => some (recordOf (atomicFields ch tag .add addr) a 0)
  | .atomicAnd ch tag addr a => some (recordOf (atomicFields ch tag .and addr) a 0)
  | .atomicOr ch tag addr a => some (recordOf (atomicFields ch tag .or addr) a 0)
  | .atomicMaxu ch tag addr a => some (recordOf (atomicFields ch tag .maxu addr) a 0)
  | .atomicCas ch tag addr a b => some (recordOf (atomicFields ch tag .cas addr) a b)
  | .reserve ch tag addr => some (recordOf (plainFields ch tag 4 addr) 0 0)
  | .conditional ch tag addr v => some (recordOf (plainFields ch tag 5 addr) v 0)
  | .watch ch tag addr v timeout => some (recordOf { plainFields ch tag 6 addr with timeout := timeout } v 0)
  | .flush ch tag addr => some (recordOf (plainFields ch tag 7 addr) 0 0)
  | .fence ch tag => some (recordOf (plainFields ch tag 8 0) 0 0)
  | .probe ch tag addr => some (recordOf (plainFields ch tag 9 addr) 0 0)
  | .status ch tag => some (recordOf (plainFields ch tag 10 0) 0 0)
  | .statusClear ch tag => some (recordOf { plainFields ch tag 10 0 with clear := 1 } 0 0)
  | .undecodableRequestKind ch { tag := tag, what := .kind code } u b =>
    some (recordOf ((plainFields ch tag code 0).withIgnored u) 0 b)
  | .undecodableRequestKind ch { tag := tag, what := .op code addr a } u b =>
    some (recordOf ({ plainFields ch tag 3 addr with op := code }.withIgnored u) a b)
  | _ => none

/-! ### Completion records -/

/-- The header beat of a completion record (chapter 12). -/
def completionHeader (c : Machine.Completion) : Word :=
  (BitVec.ofFin (w := 2) c.ch ++ c.tag ++ Machine.statusCode c.status ++ BitVec.ofBool c.deferred
    ++ BitVec.ofNat 3 c.data.length ++ 0#46 : BitVec (2 + 8 + 4 + 1 + 3 + 46))

/-- The beats of a completion record (chapter 12). -/
def completionBeats (c : Machine.Completion) : List Word := completionHeader c :: c.data

/-! ### The check code (R27) -/

/-- One bit of the check code's register, generator x^16 + x^15 + x^2 + 1. -/
def checkBit (reg : BitVec 16) (b : Bool) : BitVec 16 :=
  if reg.msb.xor b then (reg <<< 1) ^^^ 0x8005#16 else reg <<< 1

/-- The bits of a beat, most significant first. -/
def beatBits (b : Beat) : List Bool := (List.range 16).map (fun n => b.getLsbD (15 - n))

/-- One beat of the check code's register. -/
def checkBeat (reg : BitVec 16) (b : Beat) : BitVec 16 := (beatBits b).foldl checkBit reg

/-- The check code over some beats; the register starts at 0xFFFF. -/
def checkCode (beats : List Beat) : Beat := beats.foldl checkBeat 0xFFFF#16

/-! ### Span frames -/

/-- A header's first beat: kind 15..12, sender 11..8, addressee 7..4. -/
def headerBeat (kind : BitVec 4) (sender addressee : StationNo) : Beat :=
  (kind ++ sender ++ addressee ++ 0#4 : BitVec (4 + 4 + 4 + 4))

/-- A header's second beat: the line address in 14..0. -/
def lineBeat (line : LineAddr) : Beat := (0#1 ++ line : BitVec (1 + 15))

/-- A word as four beats, the most significant first. -/
def wordBeats (w : Word) : List Beat :=
  [w.extractLsb' 48 16, w.extractLsb' 32 16, w.extractLsb' 16 16, w.extractLsb' 0 16]

/-- The 33 payload beats of a RETURN or FILL: the words in word order, then the poison beat. -/
def lineBeats (d : LineData) : List Beat :=
  d.words.toList.flatMap wordBeats ++ [(0#8 ++ d.poison : BitVec (8 + 8))]

/-- A direct beat: the upper byte, bits 7..3 as given, and the word number. -/
def directBeat (high : BitVec 8) (middle : BitVec 5) (word : BitVec 3) : Beat :=
  (high ++ middle ++ word : BitVec (8 + 5 + 3))

/-- The payload beats of a direct kind. -/
def directBeats : DirectOp → List Beat
  | .read w => [directBeat 0 0 w]
  | .write w mask v => directBeat mask 0 w :: wordBeats v
  | .atomic w op a b => directBeat 0 (0#1 ++ opCode op ++ 0#1 : BitVec (1 + 3 + 1)) w :: (wordBeats a ++ wordBeats b)

/-- The kind code of a direct kind. -/
def directKind : DirectOp → BitVec 4
  | .read _ => 5
  | .write _ _ _ => 6
  | .atomic _ _ _ _ => 7

/-- The kind code of a request frame. -/
def requestKind : RequestBody → BitVec 4
  | .table .share => 1
  | .table .own => 2
  | .table .upgrade => 3
  | .table (.direct d) => directKind d
  | .ret _ => 4

/-- The payload beats of a request frame. -/
def requestBeats : RequestBody → List Beat
  | .table (.direct d) => directBeats d
  | .table _ => []
  | .ret d => lineBeats d

/-- The kind code of a reply frame. -/
def replyKind : ReplyBody → BitVec 4
  | .fill _ => 9
  | .result _ _ _ => 10

/-- The payload beats of a reply frame. -/
def replyBeats : ReplyBody → List Beat
  | .fill d => lineBeats d
  | .result w err v =>
    directBeat 0 (0#3 ++ BitVec.ofBool err ++ 0#1 : BitVec (3 + 1 + 1)) w :: wordBeats v

/-- The beats of a frame before its check code. -/
def frameBody : Frame → List Beat
  | .request sender line body => headerBeat (requestKind body) sender 0 :: lineBeat line :: requestBeats body
  | .reply sender addressee line body => headerBeat (replyKind body) sender addressee :: lineBeat line :: replyBeats body

/-- The beats of a frame as sent, with its check code (R27). -/
def encodeFrame (f : Frame) : List Beat := frameBody f ++ [checkCode (frameBody f)]

/-- The frame length of a kind code, in beats, and none for a code that does not decode (chapter 12). -/
def frameLength (kind : BitVec 4) : Option Nat :=
  match kind.toNat with
  | 1 => some 3
  | 2 => some 3
  | 3 => some 3
  | 4 => some 36
  | 5 => some 4
  | 6 => some 8
  | 7 => some 12
  | 9 => some 36
  | 10 => some 8
  | _ => none

/-- The check of the beats a station read (R27): the last beat is the check code over those before it, the kind's length
is met, and no second frame-start mark broke the frame. A frame whose kind does not decode has no known length
(R176). -/
def goodCheck (kind : BitVec 4) (beats : List Beat) (broken : Bool) : Bool :=
  !broken && (match frameLength kind with
    | some n => beats.length = n
    | none => 1 ≤ beats.length)
  && checkCode beats.dropLast = beats.getLastD 0

/-- A beat by its number; a beat that was not read counts as zero. -/
def beatAt (beats : List Beat) (n : Nat) : Beat := beats.getD n 0

/-- The word whose four beats begin at a beat number. -/
def wordAt (beats : List Beat) (n : Nat) : Word :=
  (beatAt beats n ++ beatAt beats (n + 1) ++ beatAt beats (n + 2) ++ beatAt beats (n + 3) :
    BitVec (16 + 16 + 16 + 16))

/-- The line data of a RETURN or FILL. -/
def lineDataAt (beats : List Beat) : LineData :=
  { words := Vector.ofFn (fun (n : Fin 8) => wordAt beats (2 + 4 * n.val))
    poison := (beatAt beats 34).extractLsb' 0 8 }

/-- The header a station reads (R26). -/
def readHeader (beats : List Beat) (good : Bool) : Header :=
  { sender := (beatAt beats 0).extractLsb' 8 4
    line := (beatAt beats 1).extractLsb' 0 15
    good := good }

/-- The command of a peer's frame of a kind, read with a header; the beats not read count as zero, which nothing sees,
for such a frame has a bad check (R46). -/
def frameCommand (kind : BitVec 4) (h : Header) (beats : List Beat) : Instr :=
  let dest := (beatAt beats 0).extractLsb' 4 4
  let direct := beatAt beats 2
  let word := direct.extractLsb' 0 3
  match kind.toNat with
  | 1 => .share h
  | 2 => .own h
  | 3 => .upgrade h
  | 4 => .returnLine h (lineDataAt beats)
  | 5 => .dRead h word
  | 6 => .dWrite h word (direct.extractLsb' 8 8) (wordAt beats 3)
  | 7 => .dAtomic h word (direct.extractLsb' 4 3) (wordAt beats 3) (wordAt beats 7)
  | 9 => .fill h dest (lineDataAt beats)
  | 10 => .result h dest word (direct.extractLsb' 4 2) (wordAt beats 3)
  | _ => .undecodableFrameKind h.sender kind h.good

/-- The command of a peer's frame as this station read its beats; `broken` says that a second frame-start mark came
before the check code. A frame of no beat is none. -/
def readFrame (beats : List Beat) (broken : Bool) : Option Instr :=
  match beats with
  | [] => none
  | b :: _ =>
    let kind := b.extractLsb' 12 4
    some (frameCommand kind (readHeader beats (goodCheck kind beats broken)) beats)

/-- The command by which a station reads a frame, its check good. -/
def commandOfFrame : Frame → Instr
  | .request sender line body =>
    let h : Header := { sender := sender, line := line, good := true }
    match body with
    | .table .share => .share h
    | .table .own => .own h
    | .table .upgrade => .upgrade h
    | .table (.direct (.read w)) => .dRead h w
    | .table (.direct (.write w mask v)) => .dWrite h w mask v
    | .table (.direct (.atomic w op a b)) => .dAtomic h w (opCode op) a b
    | .ret d => .returnLine h d
  | .reply sender addressee line body =>
    let h : Header := { sender := sender, line := line, good := true }
    match body with
    | .fill d => .fill h addressee d
    | .result w err v => .result h addressee w (if err then 1 else 0) v

end Sys2Proof
end

