-- ==== Sys2Proof/Machine/Perform.lean ====
section
/-! DEFINITION. Performing a host operation in the way that holds its line, or at once without one
(R8, R65, R125 to R132, R143, R146, R151, R158, R162, R170, R172). -/

namespace Sys2Proof.Machine

/-- A READ at a hit or an install (R125, R65). -/
def State.performRead (s : State) (c : ChanId) (a : Addr) : State :=
  if s.loadPoison a then s.complete c .dataError [] else (s.touch (lineOf a)).complete c .ok [s.loadWord a]

/-- A WRITE in a sole way (R127, R65). -/
def State.performWrite (s : State) (c : ChanId) (a : Addr) (mask : BitVec 8) (v : Word) : State :=
  match s.storeMasked a mask v with
  | some s' => s'.complete c .ok []
  | none => s.complete c .dataError []

/-- An ATOMIC in a sole way: one happening reads, computes and stores (R129, R130). -/
def State.performAtomic (s : State) (c : ChanId) (op : AtomicOp) (a : Addr) (x y : Word) : State :=
  if s.loadPoison a then s.complete c .dataError []
  else match atomicNew op (s.loadWord a) x y with
    | some v => (s.storeWord a v).complete c .ok [s.loadWord a]
    | none => (s.touch (lineOf a)).complete c .ok [s.loadWord a]

/-- A RESERVE in the way that holds its line valid (R146); where none does, which no run meets, nothing is done. -/
def State.performReserve (s : State) (c : ChanId) (a : Addr) : State :=
  if !s.heldValid (lineOf a) then s
  else if s.loadPoison a then s.complete c .dataError []
  else ({ s.touch (lineOf a) with reservations := s.reservations.set c (some a) }).complete c .ok [s.loadWord a]

/-- A CONDITIONAL in a sole way: the reservation is tested as it then stands, and cleared (R151). -/
def State.performConditional (s : State) (c : ChanId) (a : Addr) (v : Word) : State :=
  if s.stands c a then ((s.clearReservation c).storeWord a v).complete c .ok []
  else (s.clearReservation c).complete c .fail []

/-- The compare of a WATCH, first or refetch, in the way that holds the line valid (R158, R162): a re-armed watch keeps
its remaining time. Where no way holds the line valid, which no run meets, nothing is done. -/
def State.performWatch (s : State) (c : ChanId) (a : Addr) (compare : Word) (timeout : BitVec 16) : State :=
  if !s.heldValid (lineOf a) then s
  else if s.loadPoison a then (s.freeWatch c).complete c .dataError []
  else if s.loadWord a ≠ compare then ((s.touch (lineOf a)).freeWatch c).complete c .ok [s.loadWord a]
  else
    let remaining := match s.watches[c] with
      | some w => w.remaining
      | none => timeout.toNat
    let w : Watch := { phase := .armed, addr := a, compare := compare, remaining := remaining }
    ({ s.touch (lineOf a) with watches := s.watches.set c (some w) }).setPhase c .active

/-- A FENCE: the latch goes into the data word, then it is cleared; DEFERRED shows it as it stood before (R143). -/
def State.performFence (s : State) (c : ChanId) : State :=
  let s' := s.complete c .ok [latchWord s.latches[c]]
  { s' with latches := s'.latches.set c none }

/-- A PROBE (R170). -/
def State.performProbe (s : State) (c : ChanId) (a : Addr) : State := s.complete c .ok [(s.lineReport a).word]

/-- A STATUS; with CLEAR set the counters are zeroed after they are read (R172). -/
def State.performStatus (s : State) (c : ChanId) (clear : Bool) : State :=
  let s' := s.complete c .ok s.statusWords
  if clear then { s' with counters := Counters.zero } else s'

/-- Performs the request of a channel's head. A FLUSH is never performed in a way, and a posted WRITE is performed by
the posted write queue. -/
def State.performRequest (s : State) (c : ChanId) (r : Request) : State :=
  match r with
  | .read a => s.performRead c a
  | .write a mask v => s.performWrite c a mask v
  | .posted _ _ _ => s
  | .atomic op a x y => s.performAtomic c op a x y
  | .reserve a => s.performReserve c a
  | .conditional a v => s.performConditional c a v
  | .watch a compare timeout => s.performWatch c a compare timeout
  | .flush _ => s
  | .fence => s.performFence c
  | .probe a => s.performProbe c a
  | .status clear => s.performStatus c clear
  | .undecodable _ => s

/-- The write of the posted write queue's head in a sole way (R136, R138). -/
def State.performPosted (s : State) : State :=
  match s.posted with
  | [] => s
  | p :: _ => match s.storeMasked p.addr p.mask p.value with
    | some s' => s'.popPosted
    | none => s.failPosted .dataError

/-- Performs an operation: the head of a channel, or the posted write queue's head. -/
def State.perform (s : State) (who : Who) : State :=
  match who with
  | .posted => s.performPosted
  | .chan c => match s.head? c with
    | some e => s.performRequest c e.req
    | none => s

/-- Completes a waiter at the end of its entry without performing it: STALLED or LOST-REPLY (R60, R68). A CONDITIONAL
clears its channel's reservation, a WATCH ends its watch, the posted write queue's head fails. -/
def State.failWaiter (st : Status) (s : State) (who : Who) : State :=
  match who with
  | .posted => s.failPosted st
  | .chan c => match s.head? c with
    | some e => match e.req with
      | .conditional _ _ => (s.clearReservation c).complete c st []
      | .watch _ _ _ => (s.freeWatch c).complete c st []
      | _ => s.complete c st []
    | none => s

/-- Completes the waiter of a D-kind entry at its RESULT (R66). -/
def State.resultWaiter (d : DirectOp) (dataError : Bool) (value : Word) (s : State) (who : Who) : State :=
  match who with
  | .posted => if dataError then s.failPosted .dataError else s.popPosted
  | .chan c =>
    if dataError then s.complete c .dataError []
    else match d with
      | .read _ => s.complete c .ok [value]
      | .write _ _ _ => s.complete c .ok []
      | .atomic _ _ _ _ => s.complete c .ok [value]

end Sys2Proof.Machine
end

