-- ==== Sys2Proof/Machine/Lookup.lean ====
section
/-! DEFINITION. Looking an operation up, joining, allocating, waiting, and running a happening to rest
(R7, R11 to R13, R17, R50 to R56, R114 to R118, R136, R137, R149, R161). -/

namespace Sys2Proof.Machine

/-! ### What a lookup decides -/

/-- The outcome of one lookup (chapter 07, introduction; R7). -/
inductive Decision where
  /-- Performed at once. -/
  | perform
  /-- Completes at once with the status, without a way. -/
  | finish (st : Status)
  /-- Joins the entry of its line. -/
  | join
  /-- Needs an entry of the kind. -/
  | allocate (kind : TableKind)
  /-- A FLUSH of a line held valid. -/
  | flushLine
  /-- A FLUSH that becomes the flush waiter of its line's writeback buffer entry. -/
  | flushWaiter
  /-- Waits. -/
  | wait
  deriving DecidableEq, Repr

/-- A READ-type operation of a cached line (R125, R145, R157, R161). A refetch under a hold waits when the line is not
held valid (R161). -/
def State.decideRead (s : State) (l : LineAddr) (refetch : Bool) : Decision :=
  match s.lookup l with
  | some .invalid =>
    if refetch && s.held l then .wait
    else match s.entryFor l with
      | some e => if e.kind = .share || e.kind = .own then .join else .wait
      | none => .wait
  | some _ => .perform
  | none => if (s.writebackFor l).isSome || s.held l then .wait else .allocate .share

/-- A write-type operation of a cached line (R127, R130, R136, R149). `holdRow` is set for the operations whose table
has a row for a line under a hold: CONDITIONAL and the posted write queue's head (notes/assumptions/10.md). On a sole line
under a hold every write-type operation waits, one that would store nothing too; R41 leaves that one open (DESIGN CHOICE,
notes/assumptions/39.md). -/
def State.decideWrite (s : State) (l : LineAddr) (holdRow : Bool) : Decision :=
  match s.lookup l with
  | some .invalid =>
    if holdRow && s.held l then .wait
    else match s.entryFor l with
      | some e => if e.kind = .own then .join else .wait
      | none => .wait
  | some st =>
    if st.sole then (if s.held l then .wait else .perform)
    else match s.entryFor l with
      | some e => if e.kind = .upgrade && !(holdRow && s.held l) then .join else .wait
      | none => if s.held l then .wait else .allocate .upgrade
  | none => if (s.writebackFor l).isSome || s.held l then .wait else .allocate .own

/-- A direct operation: it waits behind any entry of its line (R126, R128, R131). -/
def State.decideDirect (s : State) (l : LineAddr) (d : DirectOp) : Decision :=
  if (s.entryFor l).isSome || s.held l then .wait else .allocate (.direct d)

/-- A FLUSH (R133, R17, R76). -/
def State.decideFlush (s : State) (l : LineAddr) : Decision :=
  if isDirect l then .finish .ok
  else if s.held l || (s.entryFor l).isSome then .wait
  else match s.lookup l with
    | some .invalid => .wait
    | some _ => .flushLine
    | none => match s.writebackFor l with
      | some e => if e.flush.isSome then .wait else .flushWaiter
      | none => .finish .ok

/-- The watch of the channel is in REFETCH (R156). -/
def State.refetching (s : State) (c : ChanId) : Bool := s.watches[c].any (fun w => w.phase = .refetch)

/-- What the lookup of a channel head's request decides. -/
def State.decideRequest (s : State) (c : ChanId) (r : Request) : Decision :=
  match r with
  | .read a =>
    if isDirect (lineOf a) then s.decideDirect (lineOf a) (.read (wordOf a)) else s.decideRead (lineOf a) false
  | .write a mask v =>
    if isDirect (lineOf a) then s.decideDirect (lineOf a) (.write (wordOf a) mask v)
    else s.decideWrite (lineOf a) false
  | .posted _ _ _ => .wait
  | .atomic op a x y =>
    if isDirect (lineOf a) then s.decideDirect (lineOf a) (.atomic (wordOf a) op x y)
    else s.decideWrite (lineOf a) false
  | .reserve a => s.decideRead (lineOf a) false
  | .conditional a _ => if s.stands c a then s.decideWrite (lineOf a) true else .finish .fail
  | .watch a _ _ => s.decideRead (lineOf a) (s.refetching c)
  | .flush a => s.decideFlush (lineOf a)
  | .fence => .perform
  | .probe _ => .perform
  | .status _ => .perform
  | .undecodable _ => .wait

/-- What the lookup of the posted write queue's head decides (R136). -/
def State.decidePosted (s : State) (p : PostedWrite) : Decision :=
  if isDirect (lineOf p.addr) then s.decideDirect (lineOf p.addr) (.write (wordOf p.addr) p.mask p.value)
  else s.decideWrite (lineOf p.addr) true

/-! ### Allocation (R11 to R13, R53, R54) -/

/-- The line has a valid reservation or an ARMED watch at this station (R11). -/
def State.claimed (s : State) (l : LineAddr) : Bool :=
  channels.any (fun c => s.reservations[c].any (fun a => lineOf a = l)
    || s.watches[c].any (fun w => w.phase = .armed && lineOf w.addr = l))

/-- The way is pinned: FILL-PENDING, or its line has a transaction table entry or a pending flush (R11). -/
def State.pinned (s : State) (way : Way) : Bool :=
  match way.tag with
  | none => false
  | some t => way.state = .invalid || (s.entryFor t).isSome || s.flushPending t

/-- The victim in the set of a line (R11). It may change at a hit or at the end of a claim, which R56's list does not name and
no pass follows (DESIGN CHOICE, notes/assumptions/42.md). -/
def State.victim (s : State) (l : LineAddr) : Option WayId :=
  let lru := s.lines[setOf l].order.reverse
  let free := fun w => (s.wayAt l w).tag = none
  let loose := fun w => !s.pinned (s.wayAt l w)
  let claimless := fun w => match (s.wayAt l w).tag with
    | some t => !s.claimed t
    | none => true
  (lru.find? free).or ((lru.find? (fun w => loose w && claimless w)).or (lru.find? loose))

/-- Makes the way FILL-PENDING for a line (R4). -/
def State.fillPend (s : State) (l : LineAddr) (w : WayId) : State :=
  s.setWay l w { s.wayAt l w with tag := some l, state := .invalid }

/-- Puts a channel's head into JOINED; the posted write queue's head has no host phase (R52, R136). -/
def State.markJoined (s : State) (who : Who) : State :=
  match who with
  | .chan c => s.setPhase c .joined
  | .posted => s

/-- Adds the new entry with its first waiter (R54). -/
def State.addEntry (s : State) (who : Who) (kind : TableKind) (way : Option WayId) (l : LineAddr) : State :=
  let e : TableEntry :=
    { line := l, kind := kind, phase := .queued s.now, way := way, retry := 0, waiters := [who], orphan := false }
  State.markJoined { s with table := s.table ++ [e] } who

/-- Adds a writeback buffer entry for a dirty line that leaves its way (R13, R75). -/
def State.addWriteback (s : State) (l : LineAddr) (d : LineData) (flush : Option ChanId) : State :=
  let e : WritebackEntry := { line := l, data := d, retry := 0, flush := flush, age := s.now }
  { s with writebacks := s.writebacks ++ [e] }

/-- Empties the victim way for a line: a clean victim is invalidated silently, a dirty one moves to the writeback buffer,
and the way becomes FILL-PENDING; none where the victim lacks its room or is under a hold (R12, R13, R53). -/
def State.emptyVictim (s : State) (l : LineAddr) (w : WayId) : Option State :=
  match (s.wayAt l w).tag with
  | none => some (s.fillPend l w)
  | some t =>
    if s.held t then none
    else if (s.wayAt l w).state.dirty then
      if s.writebackRoom then some (((s.addWriteback t (s.wayAt l w).data none).fillPend l w).depart t) else none
    else some ((s.fillPend l w).depart t)

/-- Grants an allocation when all the needs of its kind are met together (R53, R54). -/
def State.grant (s : State) (who : Who) (kind : TableKind) (l : LineAddr) : Option State :=
  if Config.tableEntries ≤ s.table.length || (s.entryFor l).isSome || s.held l then none
  else match kind with
    | .upgrade => some (s.addEntry who kind none l)
    | .direct _ => some (s.addEntry who kind none l)
    | _ =>
      if (s.findWay l).isSome || (s.writebackFor l).isSome || isDirect l then none
      else match s.victim l with
        | none => none
        | some w => (s.emptyVictim l w).map (fun s' => s'.addEntry who kind (some w) l)

/-- No older waiting operation is owed its lookup, so a free resource may be taken (R56; notes/assumptions/9.md). -/
def State.mayTake (s : State) (place : Nat) : Bool := s.waiting.all (fun x => !x.due || place ≤ x.place)

/-! ### Carrying a lookup out -/

/-- Joins the entry of a line as its last waiter (R51, R52). -/
def State.joinEntry (s : State) (who : Who) (l : LineAddr) : State :=
  (s.updateEntry l (fun e => { e with waiters := e.waiters ++ [who], orphan := false })).markJoined who

/-- The operation waits at its acceptance place (R55). -/
def State.waitAt (s : State) (who : Who) (place : Nat) (pendingFlush due : Bool) : State :=
  s.enterWaiting { who := who, place := place, pendingFlush := pendingFlush, due := due }

/-- A FLUSH of a line held valid: a clean line is dropped; a dirty one moves to the writeback buffer with the FLUSH as
its flush waiter, and without room the flush is pending (R17). `mayTake` says that no older waiting operation is owed the
room first. The end of a pending flush is followed by a pass; a FLUSH that was not pending is followed by none, though the
way it leaves is free, for R56's list does not name it (DESIGN CHOICE, notes/assumptions/42.md). -/
def State.flushHeld (s : State) (c : ChanId) (place : Nat) (wasPending mayTake : Bool) (l : LineAddr) : State :=
  let ended := fun (s : State) => if wasPending then s.owePass else s
  if s.heldDirty l then
    if !s.writebackRoom then s.waitAt (.chan c) place true false
    else if mayTake then ended (((s.addWriteback l (s.lineData l) (some c)).dropTag l).depart l)
    else s.waitAt (.chan c) place wasPending true
  else ended (((s.dropTag l).depart l).complete c .ok [])

/-- Completes a head without a way: a FLUSH of a line not held, or a CONDITIONAL whose reservation does not stand, which
clears its channel's entry (R133, R149). -/
def State.finishHead (s : State) (c : ChanId) (st : Status) : State :=
  (if s.conditionalHead c then s.clearReservation c else s).complete c st []

/-- Carries a lookup's outcome out. `mayTake` says that the operation may take a free resource (R56). -/
def State.applyDecision (s : State) (who : Who) (place : Nat) (wasPending mayTake : Bool) (l : LineAddr)
    (d : Decision) : State :=
  match d with
  | .perform => s.perform who
  | .finish st => (match who with
    | .chan c => s.finishHead c st
    | .posted => s)
  | .join => s.joinEntry who l
  | .allocate kind =>
    if mayTake then
      match s.grant who kind l with
      | some s' => s'
      | none => s.waitAt who place false false
    else s.waitAt who place false true
  | .flushLine => (match who with
    | .chan c => s.flushHeld c place wasPending mayTake l
    | .posted => s)
  | .flushWaiter => (match who with
    | .chan c => s.updateWriteback l (fun e => { e with flush := some c })
    | .posted => s)
  | .wait => s.waitAt who place (wasPending && s.heldValid l) false

/-- Looks an operation up and carries the outcome out (R7, R55, R56). `turn` is set when the pass looks it up as the
oldest that is owed a lookup; any other may take a free resource only where no older one is owed it. -/
def State.lookupOp (s : State) (who : Who) (turn : Bool) : State :=
  let wasPending := s.waiting.any (fun x => x.who = who && x.pendingFlush)
  let s := s.unwait who
  match who with
  | .posted => (match s.posted with
    | [] => s
    | p :: _ =>
      s.applyDecision who p.place false (turn || s.mayTake p.place) (lineOf p.addr) (s.decidePosted p))
  | .chan c => (match s.head? c with
    | some e =>
      s.applyDecision who e.place wasPending (turn || s.mayTake e.place) (lineOf (e.req.addr?.getD 0))
        (s.decideRequest c e.req)
    | none => s)

/-! ### Running a happening to rest -/

/-- A head becomes ACTIVE and is presented to host execution; a RESERVE first clears its channel's reservation (R114,
R145). -/
def State.activate (s : State) (c : ChanId) : State :=
  let s := s.setPhase c .active
  match s.head? c with
  | some e => (match e.req with
    | .reserve _ => (s.clearReservation c).lookupOp (.chan c) false
    | _ => s.lookupOp (.chan c) false)
  | none => s

/-- The next entry of a channel becomes its head (R114, R117). -/
def State.promote (s : State) (c : ChanId) : State :=
  match s.head? c with
  | none => s
  | some e => match e.check with
    | some st => s.complete c st []
    | none =>
      if e.req.isPosted then s.setPhase c .active
      else if s.postedOf c then s.setPhase c .draining
      else s.activate c

/-- A posted WRITE head enters the posted write queue and completes OK (R116). -/
def State.enterPosted (s : State) (c : ChanId) : State :=
  match s.head? c with
  | some e => (match e.req with
    | .posted a mask v =>
      let p : PostedWrite := { ch := c, addr := a, mask := mask, value := v, place := e.place }
      State.complete { s with posted := s.posted ++ [p] } c .ok []
    | _ => s)
  | none => s

/-- The posted write queue's head is owed its lookup (R136). -/
def State.owesPosted (s : State) : Bool := !(s.posted.isEmpty || s.isWaiting .posted || s.isWaiter .posted)

/-- R137, 1: the posted write queue's head, when it stands nowhere yet, is looked up (R136). -/
def State.rulePosted (s : State) : Option State :=
  if s.owesPosted then some (s.lookupOp .posted false) else none

/-- R137, 2: a draining head whose channel has no posted write left becomes ACTIVE (R115). -/
def State.ruleDrain (s : State) : Option State :=
  (s.oldestHead (fun c e => e.inPhase .draining && !s.postedOf c)).map s.activate

/-- R117: the next entry of a channel with no head becomes its head. -/
def State.ruleHead (s : State) : Option State :=
  (s.oldestHead (fun _ e => e.inPhase .waiting)).map s.promote

/-- R137, 3: room in the posted write queue is taken by the oldest waiting posted WRITE head (R116). -/
def State.ruleRoom (s : State) : Option State :=
  if s.posted.length < Config.postedEntries then
    (s.oldestHead (fun _ e => e.inPhase .active && e.req.isPosted)).map s.enterPosted
  else none

/-- R56: the oldest waiting operation that is owed a lookup is looked up. -/
def State.rulePass (s : State) : Option State :=
  ((leastBy (fun x => x.place) (s.waiting.filter (fun x => x.due))).head?).map (fun x => s.lookupOp x.who true)

/-- The next thing a happening brings about in the station's own blocks. New heads come before room is offered, so that
the oldest posted WRITE head takes it (notes/assumptions/8.md). -/
def State.nextRule (s : State) : Option State :=
  s.rulePosted.or (s.ruleDrain.or (s.ruleHead.or (s.ruleRoom.or s.rulePass)))

/-- Applies the rules until none applies, or the fuel is spent. -/
def settleLoop : Nat → State → State
  | 0, s => s
  | n + 1, s => match s.nextRule with
    | none => s
    | some s' => settleLoop n s'

/-- How far a host request is from its completion. -/
def HostEntry.stage (e : HostEntry) : Nat :=
  match e.progress with
  | .opened .waiting => 8
  | .opened .draining => 6
  | .opened .active => 4
  | .opened .joined => 4
  | .ready _ _ _ => 0

/-- A bound on what a happening can still bring about: every rule but a fruitless lookup of the pass lowers it. -/
def State.work (s : State) : Nat :=
  (channels.map (fun c => (s.hostTable[c].map HostEntry.stage).sum)).sum + 2 * s.posted.length
    + (if s.owesPosted then 1 else 0) + (Config.tableEntries - s.table.length)
    + (Config.writebackEntries - s.writebacks.length)

/-- More steps than a happening can take: each rule lowers the work left, and adds at most five waiting operations, or
looks up one that was owed it (Laws/Rest.lean; notes/assumptions/32.md). -/
def State.fuel (s : State) : Nat :=
  (s.waiting.filter (fun x => x.due)).length + s.work * (s.waiting.length + 5 * s.work + 1) + 1

/-- The ready completions that stand in no order yet, in the order of acceptance places (R118). -/
def State.freshReady (s : State) : List ReadyToken :=
  let ready := channels.flatMap (fun c => (s.hostTable[c].filter (fun e => !e.isOpen)).map (fun e => (c, e.place)))
  let fresh := ready.filter (fun x => !s.readyOrder.contains (.accepted x.1 x.2))
  (sortBy (fun x => x.2) fresh).map (fun x => .accepted x.1 x.2)

/-- Gives the completions made ready in this happening their places in the completion order (R118). -/
def State.orderReady (s : State) : State := { s with readyOrder := s.readyOrder ++ s.freshReady }

/-- Runs a happening to rest and orders the completions it made ready. -/
def State.settle (s : State) : State := (settleLoop s.fuel s).orderReady

end Sys2Proof.Machine
end

