-- ==== Sys2Proof/Machine/Span.lean ====
section
/-! DEFINITION. The span interface: candidates and arbitration, votes, verdicts, and the taking of replies
(R25 to R46, R58 to R70, R77 to R84, R95, R105, R106, R178). -/

namespace Sys2Proof.Machine

/-! ### Candidates (R28 to R30) -/

/-- A request entry as a candidate: its age, its urgency, and whether it yields since its VOID (R29). -/
structure RequestCandidate where
  which : Candidate
  line : LineAddr
  age : Nat
  urgent : Bool
  deriving DecidableEq, Repr

/-- Urgent: the retry count is 32 or more (R48, R74). -/
def urgentCount (retry : Nat) : Bool := Config.urgentFrom ≤ retry

/-- The station may put entries forward: it is not INERT and it has joined (R28, R34). -/
def State.contends (s : State) : Bool := s.station.mode ≠ .inert && s.span.joined

/-- An entry for a line of this station's own slice is no candidate while the station is CLEARING (R28, R57). -/
def State.lineBarred (s : State) (l : LineAddr) : Bool := s.homeHere l && s.station.mode = .clearing

/-- The request entries that are candidates (R28). -/
def State.requestCandidates (s : State) : List RequestCandidate :=
  (s.table.filterMap (fun e => match e.phase with
    | .queued age =>
      if s.lineBarred e.line then none
      else some { which := .entry e.line, line := e.line, age := age, urgent := urgentCount e.retry }
    | _ => none))
  ++ (s.writebacks.filterMap (fun e =>
      if s.lineBarred e.line then none
      else some { which := .writeback e.line, line := e.line, age := e.age, urgent := urgentCount e.retry }))

/-- The oldest of some request entries; among entries of one age the free order chooses (notes/assumptions/6.md). -/
def State.oldestOf (s : State) (cs : List RequestCandidate) : Option Candidate :=
  (freePick s.now (leastBy (fun c => c.age) cs)).map (fun c => c.which)

/-- The candidate the station puts forward: the oldest reply, else the oldest urgent request entry that does not yield,
else the oldest request entry (R29). -/
def State.chooseCandidate (s : State) : Option Candidate :=
  if !s.contends then none
  else match s.replies with
    | r :: _ => some (.reply r.line)
    | [] =>
      let cs := s.requestCandidates
      match cs.filter (fun c => c.urgent && s.span.yields ≠ some c.line) with
      | [] => s.oldestOf cs
      | us => s.oldestOf us

/-- The candidate still stands as one (R32). -/
def State.stillCandidate (s : State) (c : Candidate) : Bool :=
  s.contends && match c with
    | .reply l => (s.replyFor l).isSome
    | _ => s.requestCandidates.any (fun x => x.which = c)

/-- The class a candidate claims (R30). -/
def State.classOf (s : State) (c : Candidate) : Class :=
  match c with
  | .reply _ => .reply
  | _ => if s.requestCandidates.any (fun x => x.which = c && x.urgent) then .urgent else .normal

/-- The claim of the candidate that the station would put forward now (R29, R30). -/
def State.claimNow (s : State) : Option Claim :=
  s.chooseCandidate.map (fun c => { candidate := some c, cls := s.classOf c })

/-! ### Arbitration (R31, R33, R178) -/

/-- The station lines the peers of a class drive. -/
def classLines (k : Class) (reply urgent normal : BitVec 16) : BitVec 16 :=
  match k with
  | .reply => reply
  | .urgent => urgent
  | .normal => normal

/-- The highest class asserted, by the peers and by this station's own claim (R178, class phase). -/
def highestClass (own : Option Class) (reply urgent normal : BitVec 16) : Option Class :=
  if reply ≠ 0 || own = some .reply then some .reply
  else if urgent ≠ 0 || own = some .urgent then some .urgent
  else if normal ≠ 0 || own = some .normal then some .normal
  else none

/-- The order in which the station lines are searched: from the one after the rotation point, wrapping from the station
count minus 1 to 0, the rotation point last (R31, R178). -/
def searchOrder (rotation count : Nat) : List Nat :=
  (List.range count).filter (fun n => rotation < n) ++ (List.range count).filter (fun n => n ≤ rotation)

/-- The holder's number: the first searched line asserted, else the lowest line at or above the station count (R178). -/
def holderNumber (rotation count : Nat) (lines : BitVec 16) : Option Nat :=
  ((searchOrder rotation count).find? (fun n => lines.getLsbD n)).or
    ((List.range 16).find? (fun n => count ≤ n && lines.getLsbD n))

/-- The rotation point after a frame whose holder has the number (R33). -/
def State.rotationAfter (s : State) (holder : Nat) : Nat :=
  if s.station.count.toNat ≤ holder then s.station.count.toNat - 1 else holder

/-- The holder's number of a peer's frame: the one read at the grant (R25), and a free value where the station read no
grant (notes/assumptions/41.md). -/
def State.holder (s : State) : StationNo := s.span.granted.getD (Config.unseenHolder s.now)

/-- A frame is seen: the rotation point is set and the station has joined (R33, R34). -/
def State.seeFrame (s : State) (holder : StationNo) : State :=
  { s with span := { s.span with granted := some holder, rotation := s.rotationAfter holder.toNat, joined := true } }

/-! ### Votes (R35 to R40) -/

/-- An UPGRADE, the one request kind whose HOME vote reserves nothing (R40, R96). -/
def isUpgradeFrame : RequestBody → Bool
  | .table .upgrade => true
  | _ => false

/-- SHARE or OWN: the kinds that draw SUPPLY and a fill (R38, R42). -/
def wantsLine : RequestBody → Bool
  | .table .share => true
  | .table .own => true
  | _ => false

/-- A D-kind. -/
def isDirectKind : RequestBody → Bool
  | .table (.direct _) => true
  | _ => false

/-- The HOME vote on a request frame (R40). -/
def State.homeVote (s : State) (l : LineAddr) (body : RequestBody) : Bool :=
  s.homeHere l && s.station.mode = .ready && (isUpgradeFrame body || s.homeRoom)

/-- The SUPPLY vote (R38). -/
def State.supplyVote (s : State) (l : LineAddr) (body : RequestBody) : Bool := wantsLine body && s.heldDirty l

/-- A SUPPLY vote sets a reply queue entry aside: there is a free one and none for the line (R38, R80). -/
def State.canSetAside (s : State) (l : LineAddr) : Bool := s.replyRoom && !s.replyHolds l

/-- The RETRY vote on a frame taken as sent (R37). -/
def State.retryVote (s : State) (l : LineAddr) (body : RequestBody) : Bool :=
  (s.table.any (fun e => e.line = l && e.phase.awaiting)) || (s.writebackFor l).isSome || s.replyHolds l
    || (s.supplyVote l body && !s.replyRoom)

/-- The votes on a peer's request frame taken as sent (R37 to R40). -/
def State.votesOn (s : State) (l : LineAddr) (body : RequestBody) : Votes :=
  { copy := s.heldValid l, supply := s.supplyVote l body, home := s.homeVote l body, retry := s.retryVote l body }

/-- The frame cannot be taken as sent (R36): `decodes` says that its kind and payload fields decode. -/
def State.unreadable (s : State) (h : Header) (directKind decodes : Bool) : Bool :=
  !h.good || !decodes || s.station.count.toNat ≤ h.sender.toNat || h.sender ≠ s.holder || h.sender = s.station.number
    || isDirect h.line ≠ directKind

/-- Each station that reads a bad check counts it once (R36, R46); an INERT station counts nothing (R47). -/
def State.countCheck (s : State) (good : Bool) : State :=
  if !good && s.station.mode ≠ .inert then s.raiseCheckErrors else s

/-- Opens a tenure. -/
def State.openTenure (s : State) (t : Tenure) : State := { s with span := { s.span with tenure := t } }

/-- The votes on a frame taken as sent are driven, with what they reserve and set aside (R38, R40, R41). -/
def State.driveVotes (s : State) (sender : StationNo) (l : LineAddr) (body : RequestBody) : State :=
  let v := s.votesOn l body
  let aside := v.supply && s.canSetAside l
  { s with span := { s.span with
      tenure := .peer sender l body v
      setAside := if aside then some l else s.span.setAside
      homeReserved := s.span.homeReserved || (v.home && !isUpgradeFrame body) } }

/-- A peer's request frame is read and voted on (R35 to R41, R46). `decodes` says that its payload fields decode
(R176). -/
def State.readRequest (s : State) (h : Header) (body : RequestBody) (decodes : Bool) : State :=
  let s' := (s.seeFrame s.holder).countCheck h.good
  if s.station.mode = .inert then s'.openTenure (.peerUnreadable false)
  else if s.unreadable h (isDirectKind body) decodes then s'.openTenure (.peerUnreadable true)
  else s'.driveVotes h.sender h.line body

/-- A peer's reply frame is read (R45, R46): RETRY is driven on a bad check alone. -/
def State.readReply (s : State) (h : Header) (addressee : StationNo) (body : ReplyBody) : State :=
  let s' := (s.seeFrame s.holder).countCheck h.good
  s'.openTenure (.peerReply addressee h.line body h.good (!h.good && s.station.mode ≠ .inert))

/-! ### Verdicts (R42) -/

/-- The verdicts of a request tenure. -/
inductive Verdict where
  | void | ownerFill | homeFill | taken
  deriving DecidableEq, Repr

/-- The lines as read: asserted when this station or another drives them. -/
def orVotes (a b : Votes) : Votes :=
  { copy := a.copy || b.copy, supply := a.supply || b.supply, home := a.home || b.home, retry := a.retry || b.retry }

/-- The classification of a request tenure (R42). -/
def classify (body : RequestBody) (v : Votes) : Verdict :=
  if v.retry || !v.home then .void
  else if wantsLine body then (if v.supply then .ownerFill else .homeFill)
  else .taken

/-! ### The reply queue and the home queue's done head (R82, R84, R106) -/

/-- The reply queue takes a home completion: it has a free entry and none for the line (R82). -/
def State.takesReply (s : State) (l : LineAddr) : Bool := s.replyRoom && !s.replyHolds l

/-- Adds a held reply with VOID count 0, the youngest (R81, R82). -/
def State.addReply (s : State) (addressee : StationNo) (l : LineAddr) (body : ReplyBody) : State :=
  { s with replies := s.replies ++ [{ addressee := addressee, line := l, body := body, voids := 0 }] }

/-- The head of the home operation queue leaves and the next operation begins (R99, R105). -/
def State.popHome (s : State) : State := { s with homeQueue := s.homeQueue.tail, homeDone := none }

/-- The done head is offered to the reply queue (R82, R106). -/
def State.offerDone (s : State) : State :=
  match s.homeQueue, s.homeDone with
  | op :: _, some r => if s.takesReply op.line then (s.addReply op.requester op.line r).popHome else s
  | _, _ => s

/-- A reply queue entry leaves, and the freed entry is offered to the done head (R84). -/
def State.removeReply (s : State) (l : LineAddr) : State :=
  { s with replies := s.replies.filter (fun r => r.line ≠ l) }.offerDone

/-! ### Replies taken by the transaction table (R64 to R70) -/

/-- A reply carries poison: a FILL with any flag set, or a RESULT with status DATA-ERROR (R45, R67). -/
def replyPoisoned : ReplyBody → Bool
  | .fill d => d.poison ≠ 0
  | .result _ err _ => err

/-- A FILL is installed and its waiters are performed in join order; the entry ends (R64). An internal FILL for a line
under a hold is installed at once, its storing waiters with it: R41 lists host operations, not installs (DESIGN CHOICE,
notes/assumptions/38.md). -/
def State.installFill (s : State) (e : TableEntry) (st : LineState) (d : LineData) : State :=
  (e.waiters.foldl State.perform (s.install e.line st d)).endEntry e.line

/-- A RESULT completes the waiter of its entry, which ends (R66). -/
def State.takeResult (s : State) (e : TableEntry) (d : DirectOp) (err : Bool) (v : Word) : State :=
  (e.waiters.foldl (State.resultWaiter d err v) s).endEntry e.line

/-- The table takes a reply: matched by line address, kind and phase, and a RESULT by its word number; else it is late
(R64, R66, R70). -/
def State.matchReply (s : State) (l : LineAddr) (body : ReplyBody) : State :=
  match s.entryFor l with
  | none => s.raiseLateReplies
  | some e => match body with
    | .fill d => (match e.phase with
      | .awaitFill st _ => s.installFill e st d
      | _ => s.raiseLateReplies)
    | .result w err v => (match e.phase, e.kind with
      | .awaitResult _, .direct d => if directWord d = w then s.takeResult e d err v else s.raiseLateReplies
      | _, _ => s.raiseLateReplies)

/-- A reply reaches the table, from the span or from this station's own home; poison is counted, matched or late (R45,
R67). -/
def State.takeReply (s : State) (l : LineAddr) (body : ReplyBody) : State :=
  State.matchReply (if replyPoisoned body then s.raisePoisonReceived else s) l body

/-! ### The home operation queue (R43, R95) -/

/-- The home operation that a request's verdict makes of the reserved entry (R95). -/
def homeBody : RequestBody → Option HomeBody
  | .table .share => some .read
  | .table .own => some .read
  | .table .upgrade => none
  | .table (.direct d) => some (.direct d)
  | .ret d => some (.write d)

/-- The reserved home operation queue entry becomes the operation at the tail, or is released (R95). -/
def State.convertHome (s : State) (requester : StationNo) (l : LineAddr) (body : RequestBody) (v : Verdict) : State :=
  let s' := { s with span := { s.span with homeReserved := false } }
  if s.span.homeReserved && (v = .homeFill || v = .taken) then
    match homeBody body with
    | some b => { s' with homeQueue := s'.homeQueue ++ [{ requester := requester, line := l, body := b }] }
    | none => s'
  else s'

/-! ### Snooped verdicts (R18 to R21, R58) -/

/-- A waiter is a CONDITIONAL. -/
def State.conditionalWaiter (s : State) (who : Who) : Bool :=
  match who with
  | .chan c => s.conditionalHead c
  | .posted => false

/-- Completes the CONDITIONAL waiters of an overtaken UPGRADE with FAIL (R58, 1). -/
def State.failConditionals (s : State) (ws : List Who) : State :=
  (ws.filter s.conditionalWaiter).foldl (fun s who => match who with
    | .chan c => (s.clearReservation c).complete c .fail []
    | .posted => s) s

/-- An overtaken UPGRADE: its CONDITIONALs fail, and it is rewritten to OWN on the way that held the line, or withdrawn
where no waiter remains (R58, R21); `rest` are the waiters that remain. -/
def State.overtake (s : State) (e : TableEntry) (way : Option WayId) (rest : List Who) : State :=
  let s' := s.failConditionals e.waiters
  match rest with
  | [] => s'.endEntry e.line
  | _ => s'.updateEntry e.line (fun e => { e with kind := .own, way := way, phase := .queued s.now, waiters := rest })

/-- The pending flushes of a line end, and their FLUSHes complete OK with nothing to write; a pass follows (R17, R56). -/
def State.endPendingFlushes (s : State) (l : LineAddr) : State :=
  channels.foldl (fun s c =>
    match s.head? c with
    | some e => (match e.req with
      | .flush a =>
        if lineOf a = l && s.waiting.any (fun x => x.who = .chan c && x.pendingFlush) then
          (s.complete c .ok []).owePass
        else s
      | _ => s)
    | none => s) s

/-- A snooped verdict takes a held line to INVALID: the pending flushes of the line end, a QUEUED UPGRADE for it is
overtaken, and the line departs (R10, R17, R18, R19, R21). -/
def State.snoopInvalidate (s : State) (l : LineAddr) : State :=
  let way := s.findWay l
  match s.entryFor l with
  | some e =>
    if e.kind = .upgrade then
      let rest := e.waiters.filter (fun w => !s.conditionalWaiter w)
      let s' := if rest.isEmpty then s.dropTag l else s.setLineState l .invalid
      ((s'.endPendingFlushes l).depart l).overtake e way rest
    else ((s.dropTag l).endPendingFlushes l).depart l
  | none => ((s.dropTag l).endPendingFlushes l).depart l

/-- At OWNER-FILL the set-aside entry becomes the FILL entry with the way's snapshot (R20, R81). -/
def State.queueSnapshot (s : State) (sender : StationNo) (l : LineAddr) : State :=
  if s.span.setAside = some l && s.heldDirty l then
    ({ s with span := { s.span with setAside := none } }).addReply sender l (.fill (s.lineData l))
  else s

/-- The line array's part of a peer's request verdict, for a line held valid (R18, R19). -/
def State.snoopLine (s : State) (l : LineAddr) (body : RequestBody) : State :=
  match body with
  | .table .share => (match s.lookup l with
    | some .cleanSole => s.setLineState l .shared
    | some .dirtySole => s.setLineState l .dirtyShared
    | _ => s)
  | .table .own => s.snoopInvalidate l
  | .table .upgrade => s.snoopInvalidate l
  | _ => s

/-- Releases the entry set aside, which the done head is then offered (R38, R81, R82). -/
def State.releaseAside (s : State) : State :=
  if s.span.setAside.isSome then ({ s with span := { s.span with setAside := none } }).offerDone else s

/-- A peer's request verdict reaches the blocks it concerns (R43). -/
def State.snoopVerdict (s : State) (sender : StationNo) (l : LineAddr) (body : RequestBody) (v : Verdict) : State :=
  let s := s.convertHome sender l body v
  match v with
  | .void => s.releaseAside
  | _ =>
    let s := if v = .ownerFill then s.queueSnapshot sender l else s
    (if s.heldValid l then s.snoopLine l body else s).releaseAside

/-! ### The holder's own verdicts (R44, R58 to R63, R77, R78) -/

/-- The install state that a verdict and the COPY line give (R14, R61). -/
def installState (kind : TableKind) (v : Verdict) (copy : Bool) : LineState :=
  match kind, v with
  | .own, .ownerFill => .dirtySole
  | .own, _ => .cleanSole
  | _, .ownerFill => .shared
  | _, _ => if copy then .shared else .cleanSole

/-- Frees the FILL-PENDING way of an entry that ends without an install (R16). -/
def State.freeFillPending (s : State) (l : LineAddr) : State :=
  if s.lookup l = some .invalid then s.dropTag l else s

/-- An entry ends without being served: its way is freed and its waiters complete with the status (R60, R68). -/
def State.giveUpEntry (s : State) (e : TableEntry) (st : Status) : State :=
  (e.waiters.foldl (State.failWaiter st) (s.freeFillPending e.line)).endEntry e.line

/-- A VOID verdict of a transaction table entry's own tenure (R44, R59, R60). -/
def State.voidEntry (s : State) (e : TableEntry) : State :=
  if e.orphan then (s.freeFillPending e.line).endEntry e.line
  else if Config.giveUpAt ≤ e.retry + 1 then (s.giveUpEntry e .stalled).raiseAbandoned
  else
    let s' := s.updateEntry e.line (fun e => { e with retry := e.retry + 1, phase := .queued s.now })
    if urgentCount (e.retry + 1) then { s' with span := { s'.span with yields := some e.line } } else s'

/-- A non-VOID verdict of a transaction table entry's own tenure (R15, R61 to R63). -/
def State.passEntry (s : State) (e : TableEntry) (v : Verdict) (copy : Bool) : State :=
  match e.kind with
  | .upgrade => (e.waiters.foldl State.perform ((s.setLineState e.line .dirtySole).touch e.line)).endEntry e.line
  | .direct _ =>
    s.updateEntry e.line (fun e => { e with phase := .awaitResult Config.replyTimer, orphan := false })
  | k =>
    s.updateEntry e.line (fun e =>
      { e with phase := .awaitFill (installState k v copy) Config.replyTimer, orphan := false })

/-- A verdict of a RETURN (R77, R78). -/
def State.returnVerdict (s : State) (e : WritebackEntry) (v : Verdict) : State :=
  match v with
  | .void =>
    let retry := min (e.retry + 1) Config.giveUpAt
    let s' := s.updateWriteback e.line (fun e => { e with retry := retry, age := s.now })
    if urgentCount retry then { s' with span := { s'.span with yields := some e.line } } else s'
  | _ =>
    let s' := State.owePass { s with writebacks := s.writebacks.filter (fun x => x.line ≠ e.line) }
    match e.flush with
    | some c => s'.complete c .ok []
    | none => s'

/-- At the close of a window the tenure and its grant end, and the idle count starts again (R25, R34). -/
def State.closeTenure (s : State) : State :=
  { s with span := { s.span with tenure := .idle, granted := none, idleCount := 0 } }

/-- The classification of a verdict decides the arbitration for the next tenure: the candidate is put forward (R29,
R31). -/
def State.arbitrate (s : State) : State :=
  { s with span := { s.span with putForward := s.claimNow } }

end Sys2Proof.Machine
end

