-- ==== Sys2Proof/Machine/HomeSlice.lean ====
section
/-! DEFINITION. The home store's operations, their delivery, and the clear sweep (R89 to R107). -/

namespace Sys2Proof.Machine

/-- The key of a word of the home store line of a line address (R89). -/
def lineKey (l : LineAddr) (w : BitVec 3) : Nat := storeKey (indexOf l) (wordIx w)

/-- A D-READ (R102). -/
def homeDirectRead (m : HomeMemory) (l : LineAddr) (w : BitVec 3) : HomeMemory × ReplyBody :=
  let r := readTested m (lineKey l w)
  (r.1, .result w r.2.poison (if r.2.poison then 0 else r.2.value))

/-- A D-WRITE (R103). -/
def homeDirectWrite (m : HomeMemory) (l : LineAddr) (w : BitVec 3) (mask : BitVec 8) (v : Word) :
    HomeMemory × ReplyBody :=
  if mask = fullMask then (memWrite m (lineKey l w) (storeFresh v false), .result w false 0)
  else
    let r := readTested m (lineKey l w)
    if r.2.poison then (r.1, .result w true 0)
    else (memWrite r.1 (lineKey l w) (storeFresh (mergeMask mask r.2.value v) false), .result w false 0)

/-- A D-ATOMIC (R104). -/
def homeDirectAtomic (m : HomeMemory) (l : LineAddr) (w : BitVec 3) (op : AtomicOp) (a b : Word) :
    HomeMemory × ReplyBody :=
  let r := readTested m (lineKey l w)
  if r.2.poison then (r.1, .result w true 0)
  else match atomicNew op r.2.value a b with
    | some v => (memWrite r.1 (lineKey l w) (storeFresh v false), .result w false r.2.value)
    | none => (r.1, .result w false r.2.value)

/-- A home operation finishes: its effect on the store, and its result; a HOME-WRITE has none (R100 to R104). -/
def homePerform (m : HomeMemory) (op : HomeOp) : HomeMemory × Option ReplyBody :=
  match op.body with
  | .read => let r := readLineTested m (indexOf op.line); (r.1, some (.fill r.2))
  | .write d => (writeLine m (indexOf op.line) d, none)
  | .direct (.read w) => let r := homeDirectRead m op.line w; (r.1, some r.2)
  | .direct (.write w mask v) => let r := homeDirectWrite m op.line w mask v; (r.1, some r.2)
  | .direct (.atomic w o a b) => let r := homeDirectAtomic m op.line w o a b; (r.1, some r.2)

/-- The result of the head operation is delivered (R105): none for a HOME-WRITE, inside the station for its own request,
else offered to the reply queue; a refused head stays, done. -/
def State.deliverHome (s : State) (op : HomeOp) (result : Option ReplyBody) : State :=
  match result with
  | none => s.popHome
  | some r =>
    if op.requester = s.station.number then s.popHome.takeReply op.line r
    else if s.takesReply op.line then (s.addReply op.requester op.line r).popHome
    else { s with homeDone := some r }

/-- The head operation finishes and its result is delivered, in one happening (R99, R105). -/
def State.finishHome (s : State) (op : HomeOp) : State :=
  let r := homePerform s.homeStore op
  State.deliverHome { s with homeStore := r.1 } op r.2

/-- The operation performing at the head (R97, R99). -/
def State.performing (s : State) : Option HomeOp :=
  match s.homeDone with
  | some _ => none
  | none => s.homeQueue.head?

/-- One line of the clear sweep: zero words, fresh parity, clear poison; line 2047 ends it and the station is READY
(R92). -/
def State.sweepLine (s : State) : State :=
  let last := s.station.sweep + 1 = Config.homeLines
  { s with
    homeStore := writeLine s.homeStore (BitVec.ofNat 11 s.station.sweep) zeroLine
    station := { s.station with
      sweep := s.station.sweep + 1
      mode := if last then .ready else s.station.mode } }

end Sys2Proof.Machine
end

