-- ==== Sys2Proof/Machine/Happening.lean ====
section
/-! DEFINITION. What every command shares: one happening is counted, and a station held in PORST takes none. -/

namespace Sys2Proof.Machine

/-- The outcome of a command of this machine. -/
abbrev Result := Host.Outcome State Fault Refusal

/-- Counts one happening; the count stamps the ages of R48 (notes/assumptions/26.md). -/
def State.count1 (s : State) : State := { s with now := s.now + 1 }

/-- A command that names a happening: taken when it can come about, and refused by name otherwise. -/
def State.guarded (s : State) (can : Bool) (why : Refusal) (r : Result) : Result :=
  if s.porst then .next s else if can then r else .refused why

end Sys2Proof.Machine
end

