-- ==== Sys2Proof/Machine/HomeCommands.lean ====
section
/-! DEFINITION. The ends of the home operation queue's head: HOME_READ, HOME_WRITE, HOME_D_READ, HOME_D_WRITE,
HOME_D_ATOMIC (R99 to R106). -/

namespace Sys2Proof.Machine

/-- The kinds of a home operation (R97). -/
inductive HomeKind where
  | read | write | dRead | dWrite | dAtomic
  deriving DecidableEq, Repr

/-- The kind of a home operation. -/
def homeKind (op : HomeOp) : HomeKind :=
  match op.body with
  | .read => .read
  | .write _ => .write
  | .direct (.read _) => .dRead
  | .direct (.write _ _ _) => .dWrite
  | .direct (.atomic _ _ _ _) => .dAtomic

/-- The operation performing at the head, of the kind named, finishes (R99). -/
def State.endHome (s : State) (k : HomeKind) : Result :=
  if s.porst then .next s
  else match s.performing with
    | some op => if homeKind op = k then .next (s.count1.finishHome op).settle else .refused .notAtHomeHead
    | none => .refused .notAtHomeHead

/-- HOME_READ (R100). -/
def execHomeRead (s : State) : Result := s.endHome .read

/-- HOME_WRITE (R101). -/
def execHomeWrite (s : State) : Result := s.endHome .write

/-- HOME_D_READ (R102). -/
def execHomeDRead (s : State) : Result := s.endHome .dRead

/-- HOME_D_WRITE (R103). -/
def execHomeDWrite (s : State) : Result := s.endHome .dWrite

/-- HOME_D_ATOMIC (R104). -/
def execHomeDAtomic (s : State) : Result := s.endHome .dAtomic

end Sys2Proof.Machine
end

