-- ==== Sys2Proof/Machine/HostCommands.lean ====
section
/-! DEFINITION. The request records and COMPLETION_EMITTED (R109 to R121, R125 to R134, R143, R145, R149, R157, R170,
R172). Every request record arrives by one shared operation; what the request then does when it is its channel's head is
in Lookup.lean and Perform.lean. -/

namespace Sys2Proof.Machine

/-- The acceptance checks 2 to 5 in their order; the first that fails gives the status (R112). -/
def State.acceptanceCheck (s : State) (r : Request) : Option Status :=
  if s.station.mode = .inert && !r.isStatus then some .badConfig
  else if r.malformed then some .badRequest
  else match r.addr? with
    | none => none
    | some a =>
      if s.station.count.toNat ≤ (homeOf (lineOf a)).toNat then some .noHome
      else if r.cachedOnly && isDirect (lineOf a) then some .region
      else none

/-- An over-credit record is refused: REFUSED rises, and a REFUSED completion is made ready unless the channel has one
waiting (R111, R119, R120). -/
def State.refuse (s : State) (c : ChanId) (tag : BitVec 8) : State :=
  if (s.refused[c]).isSome then s.raiseRefused
  else { s.raiseRefused with
    refused := s.refused.set c (some (tag, s.latchSet c))
    readyOrder := s.readyOrder ++ [.refused c] }

/-- An accepted record takes its place and its credit in the host request table, WAITING until it is its channel's head
(R112 to R114). -/
def State.accept (s : State) (c : ChanId) (tag : BitVec 8) (r : Request) : State :=
  let e : HostEntry :=
    { tag := tag, req := r, place := s.nextPlace, check := s.acceptanceCheck r, progress := .opened .waiting }
  { s with hostTable := s.hostTable.set c (s.hostTable[c] ++ [e]), nextPlace := s.nextPlace + 1 }

/-- A request record arrives. While PORST or HRST is asserted it is discarded (R123, R124); over credit it is refused
(R111); else it is accepted, and the port and host execution run to rest. -/
def State.arrive (s : State) (c : ChanId) (tag : BitVec 8) (r : Request) : Result :=
  if s.porst || s.hrst then .next s
  else if Config.credits ≤ s.hostTable[c].length then .next (s.count1.refuse c tag)
  else .next (s.count1.accept c tag r).settle

/-- READ (R125, R126). -/
def execRead (ch : ChanId) (tag : BitVec 8) (addr : Addr) (s : State) : Result := s.arrive ch tag (.read addr)

/-- WRITE, not posted (R127, R128). -/
def execWrite (ch : ChanId) (tag : BitVec 8) (addr : Addr) (mask : BitVec 8) (value : Word) (s : State) : Result :=
  s.arrive ch tag (.write addr mask value)

/-- POSTED_WRITE (R116). -/
def execPostedWrite (ch : ChanId) (tag : BitVec 8) (addr : Addr) (mask : BitVec 8) (value : Word) (s : State) :
    Result :=
  s.arrive ch tag (.posted addr mask value)

/-- ATOMIC_SWAP (R129). Operand B is taken as zero for every op but CAS (R109). -/
def execAtomicSwap (ch : ChanId) (tag : BitVec 8) (addr : Addr) (a : Word) (s : State) : Result :=
  s.arrive ch tag (.atomic .swap addr a 0)

/-- ATOMIC_ADD (R129). -/
def execAtomicAdd (ch : ChanId) (tag : BitVec 8) (addr : Addr) (a : Word) (s : State) : Result :=
  s.arrive ch tag (.atomic .add addr a 0)

/-- ATOMIC_AND (R129). -/
def execAtomicAnd (ch : ChanId) (tag : BitVec 8) (addr : Addr) (a : Word) (s : State) : Result :=
  s.arrive ch tag (.atomic .and addr a 0)

/-- ATOMIC_OR (R129). -/
def execAtomicOr (ch : ChanId) (tag : BitVec 8) (addr : Addr) (a : Word) (s : State) : Result :=
  s.arrive ch tag (.atomic .or addr a 0)

/-- ATOMIC_MAXU (R129). -/
def execAtomicMaxu (ch : ChanId) (tag : BitVec 8) (addr : Addr) (a : Word) (s : State) : Result :=
  s.arrive ch tag (.atomic .maxu addr a 0)

/-- ATOMIC_CAS (R129). -/
def execAtomicCas (ch : ChanId) (tag : BitVec 8) (addr : Addr) (a b : Word) (s : State) : Result :=
  s.arrive ch tag (.atomic .cas addr a b)

/-- RESERVE (R145, R146). -/
def execReserve (ch : ChanId) (tag : BitVec 8) (addr : Addr) (s : State) : Result := s.arrive ch tag (.reserve addr)

/-- CONDITIONAL (R149, R151). -/
def execConditional (ch : ChanId) (tag : BitVec 8) (addr : Addr) (value : Word) (s : State) : Result :=
  s.arrive ch tag (.conditional addr value)

/-- WATCH (R157, R158). -/
def execWatch (ch : ChanId) (tag : BitVec 8) (addr : Addr) (compare : Word) (timeout : BitVec 16) (s : State) :
    Result :=
  s.arrive ch tag (.watch addr compare timeout)

/-- FLUSH (R133, R134). -/
def execFlush (ch : ChanId) (tag : BitVec 8) (addr : Addr) (s : State) : Result := s.arrive ch tag (.flush addr)

/-- FENCE (R143). -/
def execFence (ch : ChanId) (tag : BitVec 8) (s : State) : Result := s.arrive ch tag .fence

/-- PROBE (R170, R171). -/
def execProbe (ch : ChanId) (tag : BitVec 8) (addr : Addr) (s : State) : Result := s.arrive ch tag (.probe addr)

/-- STATUS with CLEAR clear (R172). -/
def execStatus (ch : ChanId) (tag : BitVec 8) (s : State) : Result := s.arrive ch tag (.status false)

/-- STATUS with CLEAR set (R172, R174). -/
def execStatusClear (ch : ChanId) (tag : BitVec 8) (s : State) : Result := s.arrive ch tag (.status true)

/-- UNDECODABLE_REQUEST_KIND (R175): the record takes its credit and completes BAD-REQUEST in channel order; the fields
that it carries and nothing uses are ignored (R109). -/
def execUndecodableRequestKind (ch : ChanId) (kept : UndecodableRecord) (s : State) : Result :=
  s.arrive ch kept.tag (.undecodable kept.what)

/-- The completion record of a ready entry (R110). -/
def completionOf (c : ChanId) (e : HostEntry) : Option Completion :=
  match e.progress with
  | .ready st d data => some { ch := c, tag := e.tag, status := st, deferred := d, data := data }
  | .opened _ => none

/-- Emits the completion of an accepted request: its entry is removed and its credit returned (R111, R118). -/
def State.emitAccepted (s : State) (c : ChanId) (r : Completion) : State :=
  { s with
    hostTable := s.hostTable.set c s.hostTable[c].tail
    readyOrder := s.readyOrder.tail
    out := { completion := some r, credit := some c } }

/-- Emits a REFUSED completion; no credit is returned (R111, R119). -/
def State.emitRefused (s : State) (c : ChanId) (tag : BitVec 8) (deferred : Bool) : State :=
  { s with
    refused := s.refused.set c none
    readyOrder := s.readyOrder.tail
    out := {
      completion := some { ch := c, tag := tag, status := .refused, deferred := deferred, data := [] }
      credit := none } }

/-- The next emission, if any completion is ready (R118). -/
def State.emission (s : State) : Option State :=
  match s.readyOrder with
  | [] => none
  | .accepted c _ :: _ => (s.hostTable[c].head?).bind (fun e => (completionOf c e).map (s.emitAccepted c))
  | .refused c :: _ => (s.refused[c]).map (fun r => s.emitRefused c r.1 r.2)

/-- COMPLETION_EMITTED (R118): the first completion of the order leaves. -/
def execCompletionEmitted (s : State) : Result :=
  s.guarded s.count1.emission.isSome .noCompletionReady (.next (s.count1.emission.getD s))

end Sys2Proof.Machine
end

