-- ==== Sys2Proof/Machine/Resets.lean ====
section
/-! DEFINITION. PORST_ASSERTED, PORST_RELEASED, HOST_RESET, HRST_RELEASED (R24, R47, R72, R79, R88, R108, R122 to R124,
R140, R155, R165 to R167). -/

namespace Sys2Proof.Machine

/-- Every block at its value after power-on reset; the command queue, the HRST pin and the happening count are not the
station's tables and go on. -/
def State.emptied (s : State) : State :=
  { State.reset with hrst := s.hrst, now := s.now + 1, pending := s.pending }

/-- The station state that the straps give (R166). -/
def modeOfStraps (number : StationNo) (count : BitVec 5) : StationMode :=
  if count.toNat = 0 || Config.maxStations < count.toNat || count.toNat ≤ number.toNat then .inert else .clearing

/-- The entry for a line is in tenure (R32). -/
def State.inTenure (s : State) (l : LineAddr) : Bool :=
  match s.span.tenure with
  | .ownEntry l' _ _ => l' = l
  | _ => false

/-- Host reset withdraws the entry: it is QUEUED and not in tenure (R72). -/
def State.withdrawn (s : State) (e : TableEntry) : Bool := !e.phase.awaiting && !s.inTenure e.line

/-- The claim after a host reset: a withdrawn entry is gone from it, so a grant decided before the reset lapses
(R32, R47). -/
def State.claimLeft (s : State) : Option Claim :=
  s.span.putForward.map (fun p => { p with candidate := p.candidate.filter (fun c => match c with
    | .entry l => s.table.all (fun e => e.line ≠ l || !s.withdrawn e)
    | _ => true) })

/-- Host reset at the transaction table and the line array: QUEUED entries are withdrawn and their ways freed, waiters are
dropped, an entry in tenure is marked, and a withdrawn entry is put forward no longer (R24, R44, R47, R72). -/
def State.resetTable (s : State) : State :=
  let s' := (s.table.filter s.withdrawn).foldl (fun s e => s.freeFillPending e.line) s
  { s' with
    span := { s'.span with putForward := s.claimLeft }
    table := (s.table.filter (fun e => !s.withdrawn e)).map (fun e =>
      { e with waiters := [], orphan := !e.phase.awaiting }) }

/-- Host reset at the host port and the tables that follow it (R79, R122, R155, R165). -/
def State.resetPort (s : State) : State :=
  { s with
    hrst := true
    hostTable := Vector.replicate 4 []
    refused := Vector.replicate 4 none
    readyOrder := []
    latches := Vector.replicate 4 none
    reservations := Vector.replicate 4 none
    watches := Vector.replicate 4 none
    waiting := []
    writebacks := s.writebacks.map (fun e => { e with flush := none })
    out := { completion := none, credit := none } }

/-- The acceptance place after every place still held in the posted write queue (R123). -/
def State.placeAfterPosted (s : State) : Nat := s.posted.foldl (fun n p => max n (p.place + 1)) 0

/-- PORST_ASSERTED (R167, R124): the station drives nothing and every table, queue, way and counter is empty. -/
def execPorstAsserted (s : State) : Result := .next s.emptied

/-- PORST_RELEASED (R166): the straps are read, the station state is set, the sweep and the idle count start, the rotation
point is the station count minus 1. -/
def execPorstReleased (number : StationNo) (count : BitVec 5) (s : State) : Result :=
  if s.porst then
    .next { s.emptied with
      porst := false
      station := { number := number, count := count, mode := modeOfStraps number count, sweep := 0 }
      span := { Span.reset with rotation := count.toNat - 1 } }
  else .refused .porstNotAsserted

/-- HOST_RESET (R122): the host-facing state is emptied and the span-facing state stands; the posted write queue's head is
looked up again (R72, R140). While PORST is asserted only the pin's level is kept. -/
def execHostReset (s : State) : Result :=
  if s.porst then .next { s with hrst := true }
  else .next s.count1.resetTable.resetPort.settle

/-- HRST_RELEASED (R123): the port takes records again, the next acceptance place after those the posted write queue
holds. -/
def execHrstReleased (s : State) : Result :=
  if !s.hrst then .refused .hrstNotAsserted
  else if s.porst then .next { s with hrst := false }
  else .next { s.count1 with hrst := false, nextPlace := s.placeAfterPosted }

end Sys2Proof.Machine
end

