-- ==== Sys2Proof/Machine/SpanCommands.lean ====
section
/-! DEFINITION. GRANT, IDLE_COUNT_EXPIRY and the frames of peers (R25 to R41, R45, R46, R176 to R178). -/

namespace Sys2Proof.Machine

/-- No frame is on the span (R25). -/
def State.spanIdle (s : State) : Bool := s.span.tenure = .idle

/-- This station's own claim at an arbitration: the candidate put forward at the verdict that decided it, or the one
chosen at the first moment of an idle span (R29 to R31). -/
def State.claim (s : State) (decided : ArbitrationAt) : Option Claim :=
  match decided with
  | .verdict => s.span.putForward
  | .idleSpan => s.claimNow

/-- The claim is in the highest class asserted, so the station drives its station line (R178, station phase). -/
def claimLeads (claim : Option Claim) (k : Class) : Bool := claim.any (fun c => c.cls = k)

/-- The station line of a station number. -/
def stationLine (n : StationNo) : BitVec 16 := 1#16 <<< n.toNat

/-- The holder's number that the arbitration finds: of the station lines driven in the highest class, this station's own
among them when its claim leads (R31, R178). None when no station line is asserted. -/
def State.grantHolder (s : State) (claim : Option Claim) (reply urgent normal : BitVec 16) :
    Option StationNo :=
  match highestClass (claim.map Claim.cls) reply urgent normal with
  | none => none
  | some k =>
    let own := if claimLeads claim k then stationLine s.station.number else 0
    (holderNumber s.span.rotation s.station.count.toNat (classLines k reply urgent normal ||| own)).map (BitVec.ofNat 4)

/-- The arbitration names this station's own claim as the holder (R31, R178). -/
def State.winsGrant (s : State) (claim : Option Claim) (reply urgent normal : BitVec 16) : Bool :=
  match highestClass (claim.map Claim.cls) reply urgent normal with
  | none => false
  | some k => claimLeads claim k && s.grantHolder claim reply urgent normal = some s.station.number

/-- The frame of a candidate as it stands, built from its entry (R26, R32). -/
def State.ownTenure (s : State) (c : Candidate) : Option Tenure :=
  let n := s.station.number
  match c with
  | .reply l => (s.replyFor l).map (fun r => .ownReply l (.reply n r.addressee l r.body))
  | .entry l => (s.entryFor l).map (fun e =>
      .ownEntry l (.request n l (.table e.kind)) (s.homeVote l (.table e.kind)))
  | .writeback l => (s.writebackFor l).map (fun e =>
      .ownWriteback l (.request n l (.ret e.data)) (s.homeVote l (.ret e.data)))

/-- The HOME vote this station drives on its own frame reserves a home operation queue entry, an UPGRADE's none (R35,
R40, R95). -/
def tenureReserves (t : Tenure) : Bool :=
  match t with
  | .ownEntry _ (.request _ _ body) home => home && !isUpgradeFrame body
  | .ownWriteback _ _ home => home
  | _ => false

/-- Whether the tenure is a request tenure of this station. -/
def ownRequest (t : Tenure) : Bool :=
  match t with
  | .ownEntry _ _ _ => true
  | .ownWriteback _ _ _ => true
  | _ => false

/-- This station's frame is sent: its entry is in tenure, and an entry that yielded yields no longer when a request tenure
begins (R29, R32, R33). -/
def State.sendFrame (s : State) (t : Tenure) : State :=
  let s := s.seeFrame s.station.number
  { s with span := { s.span with
      tenure := t
      homeReserved := s.span.homeReserved || tenureReserves t
      yields := if ownRequest t then none else s.span.yields } }

/-- A grant made to this station's claim: the frame is sent, or the grant lapses when the entry left (R32). -/
def State.takeGrant (s : State) (c : Claim) : State :=
  match (c.candidate.filter s.stillCandidate).bind s.ownTenure with
  | some t => s.sendFrame t
  | none => s

/-- An arbitration is over, whoever was granted: the claim is spent and the holder's number is read (R25, R29, R31). -/
def State.grantTo (s : State) (claim : Option Claim) (reply urgent normal : BitVec 16) : State :=
  let s' := { s with span := { s.span with putForward := none, granted := s.grantHolder claim reply urgent normal } }
  match claim with
  | some c => if s.winsGrant claim reply urgent normal then s'.takeGrant c else s'
  | none => s'

/-- GRANT (R31, R32, R178). `reply`, `urgent` and `normal` are the station lines of the peers that contend in each
class. -/
def execGrant (decided : ArbitrationAt) (reply urgent normal : BitVec 16) (s : State) : Result :=
  s.guarded s.spanIdle .tenureOpen
    (.next (s.count1.grantTo (s.count1.claim decided) reply urgent normal))

/-- The idle count reaches 4: the rotation point is the station count minus 1, and the station joins (R34). -/
def State.idleExpires (s : State) : State :=
  { s with span := { s.span with
      idleCount := Config.idleLimit, rotation := s.station.count.toNat - 1, joined := true } }

/-- IDLE_COUNT_EXPIRY (R34). -/
def execIdleCountExpiry (s : State) : Result :=
  s.guarded s.spanIdle .tenureOpen (.next s.count1.idleExpires)

/-- A peer's request frame (R35 to R41). -/
def State.peerRequest (s : State) (h : Header) (body : RequestBody) (decodes : Bool) : Result :=
  s.guarded s.spanIdle .tenureOpen (.next (s.count1.readRequest h body decodes))

/-- A peer's reply frame (R45). -/
def State.peerReply (s : State) (h : Header) (addressee : StationNo) (body : ReplyBody) : Result :=
  s.guarded s.spanIdle .tenureOpen (.next (s.count1.readReply h addressee body))

/-- SHARE (R36 to R41). -/
def execShare (h : Header) (s : State) : Result := s.peerRequest h (.table .share) true

/-- OWN (R36 to R41). -/
def execOwn (h : Header) (s : State) : Result := s.peerRequest h (.table .own) true

/-- UPGRADE (R36 to R41, R96). -/
def execUpgrade (h : Header) (s : State) : Result := s.peerRequest h (.table .upgrade) true

/-- RETURN (R36 to R41). -/
def execReturnLine (h : Header) (data : LineData) (s : State) : Result := s.peerRequest h (.ret data) true

/-- D-READ (R36 to R41). -/
def execDRead (h : Header) (word : BitVec 3) (s : State) : Result :=
  s.peerRequest h (.table (.direct (.read word))) true

/-- D-WRITE: a zero byte mask does not decode (R176). -/
def execDWrite (h : Header) (word : BitVec 3) (mask : BitVec 8) (value : Word) (s : State) : Result :=
  s.peerRequest h (.table (.direct (.write word mask value))) (mask ≠ 0)

/-- D-ATOMIC: an op code of 6 or 7 does not decode (R176). -/
def execDAtomic (h : Header) (word op : BitVec 3) (a b : Word) (s : State) : Result :=
  s.peerRequest h (.table (.direct (.atomic word ((opOfCode op).getD .swap) a b))) (opOfCode op).isSome

/-- FILL (R45, R46). -/
def execFill (h : Header) (addressee : StationNo) (data : LineData) (s : State) : Result :=
  s.peerReply h addressee (.fill data)

/-- RESULT: a status of 2 or 3 is taken as DATA-ERROR (R177). -/
def execResult (h : Header) (addressee : StationNo) (word : BitVec 3) (status : BitVec 2) (value : Word) (s : State) :
    Result :=
  s.peerReply h addressee (.result word (status ≠ 0) value)

/-- A frame whose kind does not decode is voted on as an unreadable request frame (R36, R46, R176). -/
def State.readUndecodable (s : State) (good : Bool) : State :=
  ((s.seeFrame s.holder).countCheck good).openTenure (.peerUnreadable (s.station.mode ≠ .inert))

/-- UNDECODABLE_FRAME_KIND (R176): no station takes the frame, whatever its sender as read. -/
def execUndecodableFrameKind (_sender : StationNo) (good : Bool) (s : State) : Result :=
  s.guarded s.spanIdle .tenureOpen (.next (s.count1.readUndecodable good))

end Sys2Proof.Machine
end

