-- ==== Sys2Proof/Machine/TimerCommands.lean ====
section
/-! DEFINITION. REPLY_TIMER_EXPIRY, WATCH_TIMEOUT, the clear sweep, and the timebase tick (R34, R68, R92, R163). -/

namespace Sys2Proof.Machine

/-- A reply timer's expiry: the entry ends, its waiters complete LOST-REPLY, and LOST-REPLIES rises (R68). A STATUS that
becomes ACTIVE in the same happening reads the counter raised; R174 lets either come first (DESIGN CHOICE,
notes/assumptions/40.md). -/
def State.expireEntry (s : State) (e : TableEntry) : State := (s.giveUpEntry e .lostReply).raiseLostReplies

/-- A watch's timeout: the WATCH completes TIMEOUT with its compare value, and its refetch leaves its list (R163). -/
def State.timeOutWatch (s : State) (c : ChanId) (w : Watch) : State :=
  ((s.freeWatch c).dropWaiter (.chan c)).complete c .timeout [w.compare]

/-- REPLY_TIMER_EXPIRY (R68): the timer of the line's entry has run out. -/
def execReplyTimerExpiry (line : LineAddr) (s : State) : Result :=
  if s.porst then .next s
  else match s.entryFor line with
    | some e => if e.phase.awaiting then .next (s.count1.expireEntry e).settle else .refused .noTimerRunning
    | none => .refused .noTimerRunning

/-- WATCH_TIMEOUT (R163): the remaining time of the channel's watch has run out. -/
def execWatchTimeout (ch : ChanId) (s : State) : Result :=
  if s.porst then .next s
  else match s.watches[ch] with
    | some w => .next (s.count1.timeOutWatch ch w).settle
    | none => .refused .noWatchInUse

/-- A line is left to sweep (R92). -/
def State.sweeping (s : State) : Bool := s.station.mode = .clearing && s.station.sweep < Config.homeLines

/-- CLEAR_SWEEP_TICK (R92). The tick that writes line 2047 ends the sweep as well. -/
def execClearSweepTick (s : State) : Result :=
  s.guarded s.sweeping .notSweeping (.next s.count1.sweepLine)

/-- CLEAR_SWEEP_END (R92): the tick that writes line 2047. -/
def execClearSweepEnd (s : State) : Result :=
  s.guarded (s.sweeping && s.station.sweep + 1 = Config.homeLines) .notSweeping (.next s.count1.sweepLine)

/-! ### The timebase tick: what step does on an empty queue (notes/assumptions/2.md) -/

/-- A timer lowered by one tick (R68). -/
def Phase.lowered : Phase → Phase
  | .queued age => .queued age
  | .awaitFill st t => .awaitFill st (t - 1)
  | .awaitResult t => .awaitResult (t - 1)

/-- A timer has reached 0. -/
def Phase.runOut : Phase → Bool
  | .queued _ => false
  | .awaitFill _ t => t = 0
  | .awaitResult t => t = 0

/-- Every running timer is lowered by 1, and the idle count is raised while no frame is on the span (R34, R68, R163). -/
def State.lowerTimers (s : State) : State :=
  { s with
    table := s.table.map (fun e => { e with phase := e.phase.lowered })
    watches := s.watches.map (fun w => w.map (fun w => { w with remaining := w.remaining - 1 }))
    span := { s.span with
      idleCount := if s.span.tenure = .idle && s.span.idleCount < Config.idleLimit then s.span.idleCount + 1
        else s.span.idleCount } }

/-- An expiry due at a tick. -/
inductive Due where
  | reply (line : LineAddr)
  | watch (ch : ChanId)
  deriving DecidableEq, Repr

/-- The expiries due when the timers have been lowered. -/
def State.dues (s : State) : List Due :=
  (s.table.filterMap (fun e => if e.phase.runOut then some (.reply e.line) else none))
    ++ channels.filterMap (fun c => if s.watches[c].any (fun w => w.remaining = 0) then some (.watch c) else none)

/-- One due expiry is taken, unless a happening before it has ended its timer (R69, R164). -/
def State.takeDue (s : State) (d : Due) : State :=
  match d with
  | .reply l => (match s.entryFor l with
    | some e => if e.phase.runOut then (s.count1.expireEntry e).settle else s
    | none => s)
  | .watch c => (match s.watches[c] with
    | some w => if w.remaining = 0 then (s.count1.timeOutWatch c w).settle else s
    | none => s)

/-- Takes the due expiries one after another, the next one chosen by the free order (R69, R164;
notes/assumptions/7.md). -/
def takeDues : Nat → List Due → State → State
  | 0, _, s => s
  | n + 1, ds, s => match freePick s.now ds with
    | none => s
    | some d => takeDues n (ds.erase d) (s.takeDue d)

/-- The tick reaches the idle limit (R34). -/
def State.tickIdle (s : State) (before : Nat) : State :=
  if before < Config.idleLimit && s.span.idleCount = Config.idleLimit then s.idleExpires else s

/-- One timebase tick: the clear sweep writes a line, the timers run, and what runs out is taken. A station held in PORST
has no tick. -/
def State.tick (s : State) : State :=
  if s.porst then s
  else
    let swept := if s.sweeping then s.count1.sweepLine else s.count1
    let lowered := swept.lowerTimers.tickIdle s.span.idleCount
    takeDues lowered.dues.length lowered.dues lowered

end Sys2Proof.Machine
end

