-- ==== Sys2Proof/Machine/VerdictCommands.lean ====
section
/-! DEFINITION. The verdicts of peers' request tenures, of the station's own, and of reply tenures
(R42 to R46, R58 to R63, R77, R78, R84). -/

namespace Sys2Proof.Machine

/-- A peer's request tenure ends: the verdict reaches the station's blocks, the hold of its line ends and a pass follows
(R41, R43, R56). -/
def State.peerVerdict (s : State) (sender : StationNo) (l : LineAddr) (body : RequestBody) (mine others : Votes) : State :=
  (s.closeTenure.snoopVerdict sender l body (classify body (orVotes mine others))).owePass

/-- REQUEST_TENURE_VERDICT (R42, R43); `others` is what the other stations drive on the vote lines. A frame not taken as
sent is classified VOID and taken no further (R42). -/
def execRequestTenureVerdict (others : Votes) (s : State) : Result :=
  if s.porst then .next s
  else match s.span.tenure with
    | .peer sender l body mine => .next (s.count1.peerVerdict sender l body mine others).settle.arbitrate
    | .peerUnreadable _ => .next s.count1.closeTenure.settle.arbitrate
    | _ => .refused .noSuchTenure

/-- The lines of the station's own request tenure: it drives HOME alone (R35). -/
def ownVotes (home : Bool) : Votes := { copy := false, supply := false, home := home, retry := false }

/-- What a frame of this station asks. -/
def frameBody : Frame → RequestBody
  | .request _ _ body => body
  | .reply _ _ _ _ => .table .share

/-- At a VOID of its own request tenure the holder raises VOIDED (R44). -/
def State.countVoid (s : State) (v : Verdict) : State := if v = .void then s.raiseVoided else s

/-- The verdict reaches the transaction table entry that sent the frame (R44). -/
def State.entryVerdict (s : State) (l : LineAddr) (v : Verdict) (copy : Bool) : State :=
  match s.entryFor l with
  | none => s
  | some e => if v = .void then s.voidEntry e else s.passEntry e v copy

/-- The verdict reaches the writeback buffer entry that sent the RETURN (R44). -/
def State.writebackVerdict (s : State) (l : LineAddr) (v : Verdict) : State :=
  match s.writebackFor l with
  | none => s
  | some e => s.returnVerdict e v

/-- The station's own request tenure ends; its home reservation is converted first, as at any home (R43, R44). -/
def State.ownEnds (s : State) (l : LineAddr) (body : RequestBody) (v : Verdict) : State :=
  (s.closeTenure.convertHome s.station.number l body v).countVoid v

/-- OWN_TENURE_VERDICT (R44). -/
def execOwnTenureVerdict (others : Votes) (s : State) : Result :=
  if s.porst then .next s
  else match s.span.tenure with
    | .ownEntry l frame home =>
      let v := classify (frameBody frame) (orVotes (ownVotes home) others)
      .next ((s.count1.ownEnds l (frameBody frame) v).entryVerdict l v others.copy).settle.arbitrate
    | .ownWriteback l frame home =>
      let v := classify (frameBody frame) (orVotes (ownVotes home) others)
      .next ((s.count1.ownEnds l (frameBody frame) v).writebackVerdict l v).settle.arbitrate
    | _ => .refused .noSuchTenure

/-- The VOID of a reply tenure: the count is raised, and the VOID that raises it to 255 discards the reply (R84). -/
def State.voidReply (s : State) (l : LineAddr) : State :=
  match s.replyFor l with
  | none => s
  | some r =>
    if Config.giveUpAt ≤ r.voids + 1 then (s.removeReply l).raiseAbandoned
    else { s with replies := s.replies.map (fun r => if r.line = l then { r with voids := r.voids + 1 } else r) }

/-- The verdict of the station's own reply tenure (R45, R84). -/
def State.ownReplyVerdict (s : State) (l : LineAddr) (retry : Bool) : State :=
  if retry then s.closeTenure.voidReply l else s.closeTenure.removeReply l

/-- The verdict of a peer's reply tenure: at DELIVERED the addressee hands the reply to its transaction table (R45). A
reply whose addressee is the holder's own number goes nowhere (R86). -/
def State.peerReplyVerdict (s : State) (addressee : StationNo) (l : LineAddr) (body : ReplyBody) (good retry : Bool) :
    State :=
  if !retry && good && addressee = s.station.number && s.span.granted ≠ some addressee && s.station.mode ≠ .inert then s.closeTenure.takeReply l body
  else s.closeTenure

/-- REPLY_TENURE_VERDICT (R45); `retry` is what the other stations drive on the RETRY line. -/
def execReplyTenureVerdict (retry : Bool) (s : State) : Result :=
  if s.porst then .next s
  else match s.span.tenure with
    | .ownReply l _ => .next (s.count1.ownReplyVerdict l retry).settle.arbitrate
    | .peerReply addressee l body good mine =>
      .next (s.count1.peerReplyVerdict addressee l body good (mine || retry)).settle.arbitrate
    | _ => .refused .noSuchTenure

end Sys2Proof.Machine
end

