-- ==== Sys2Proof/Machine/Dispatch.lean ====
section
/-! DEFINITION. The meaning of every command, one arm per row of spec/opcode_table.json. -/

namespace Sys2Proof.Machine

def exec (i : Instr) (s : State) : Host.Outcome State Fault Refusal :=
  match i with
  | .porstAsserted => Sys2Proof.Machine.execPorstAsserted s
  | .porstReleased number count => Sys2Proof.Machine.execPorstReleased number count s
  | .hostReset => Sys2Proof.Machine.execHostReset s
  | .hrstReleased => Sys2Proof.Machine.execHrstReleased s
  | .read ch tag addr => Sys2Proof.Machine.execRead ch tag addr s
  | .write ch tag addr mask value => Sys2Proof.Machine.execWrite ch tag addr mask value s
  | .postedWrite ch tag addr mask value => Sys2Proof.Machine.execPostedWrite ch tag addr mask value s
  | .atomicSwap ch tag addr a => Sys2Proof.Machine.execAtomicSwap ch tag addr a s
  | .atomicAdd ch tag addr a => Sys2Proof.Machine.execAtomicAdd ch tag addr a s
  | .atomicAnd ch tag addr a => Sys2Proof.Machine.execAtomicAnd ch tag addr a s
  | .atomicOr ch tag addr a => Sys2Proof.Machine.execAtomicOr ch tag addr a s
  | .atomicMaxu ch tag addr a => Sys2Proof.Machine.execAtomicMaxu ch tag addr a s
  | .atomicCas ch tag addr a b => Sys2Proof.Machine.execAtomicCas ch tag addr a b s
  | .reserve ch tag addr => Sys2Proof.Machine.execReserve ch tag addr s
  | .conditional ch tag addr value => Sys2Proof.Machine.execConditional ch tag addr value s
  | .watch ch tag addr compare timeout => Sys2Proof.Machine.execWatch ch tag addr compare timeout s
  | .flush ch tag addr => Sys2Proof.Machine.execFlush ch tag addr s
  | .fence ch tag => Sys2Proof.Machine.execFence ch tag s
  | .probe ch tag addr => Sys2Proof.Machine.execProbe ch tag addr s
  | .status ch tag => Sys2Proof.Machine.execStatus ch tag s
  | .statusClear ch tag => Sys2Proof.Machine.execStatusClear ch tag s
  | .undecodableRequestKind ch kept _ _ => Sys2Proof.Machine.execUndecodableRequestKind ch kept s
  | .completionEmitted => Sys2Proof.Machine.execCompletionEmitted s
  | .grant decided reply urgent normal => Sys2Proof.Machine.execGrant decided reply urgent normal s
  | .idleCountExpiry => Sys2Proof.Machine.execIdleCountExpiry s
  | .share h => Sys2Proof.Machine.execShare h s
  | .own h => Sys2Proof.Machine.execOwn h s
  | .upgrade h => Sys2Proof.Machine.execUpgrade h s
  | .returnLine h data => Sys2Proof.Machine.execReturnLine h data s
  | .dRead h word => Sys2Proof.Machine.execDRead h word s
  | .dWrite h word mask value => Sys2Proof.Machine.execDWrite h word mask value s
  | .dAtomic h word op a b => Sys2Proof.Machine.execDAtomic h word op a b s
  | .fill h addressee data => Sys2Proof.Machine.execFill h addressee data s
  | .result h addressee word status value => Sys2Proof.Machine.execResult h addressee word status value s
  | .undecodableFrameKind sender _ good => Sys2Proof.Machine.execUndecodableFrameKind sender good s
  | .requestTenureVerdict others => Sys2Proof.Machine.execRequestTenureVerdict others s
  | .ownTenureVerdict others => Sys2Proof.Machine.execOwnTenureVerdict others s
  | .replyTenureVerdict retry => Sys2Proof.Machine.execReplyTenureVerdict retry s
  | .replyTimerExpiry line => Sys2Proof.Machine.execReplyTimerExpiry line s
  | .watchTimeout ch => Sys2Proof.Machine.execWatchTimeout ch s
  | .clearSweepTick => Sys2Proof.Machine.execClearSweepTick s
  | .clearSweepEnd => Sys2Proof.Machine.execClearSweepEnd s
  | .homeRead => Sys2Proof.Machine.execHomeRead s
  | .homeWrite => Sys2Proof.Machine.execHomeWrite s
  | .homeDRead => Sys2Proof.Machine.execHomeDRead s
  | .homeDWrite => Sys2Proof.Machine.execHomeDWrite s
  | .homeDAtomic => Sys2Proof.Machine.execHomeDAtomic s

end Sys2Proof.Machine
end

