-- ==== Sys2Proof/Safety.lean ====
section
/-! DEFINITION. The terms that the statements use: a station at rest, a channel free for its next request, and the laws
that every step keeps. -/

namespace Sys2Proof.Machine

/-! ### At rest -/

/-- Nothing is left for a happening to bring about in the station's own blocks: the posted write queue's head stands in
the waiting list or on an entry (R136), every channel with an open entry has a head that is not WAITING (R114), a
draining head has a posted write left (R115), a posted WRITE waits only for room (R116), and no waiting operation is owed
a lookup (R56). -/
structure State.AtRest (s : State) : Prop where
  posted : s.posted = [] ∨ s.isWaiting .posted = true ∨ s.isWaiter .posted = true
  heads : ∀ c e, s.head? c = some e → e.inPhase .waiting = false
  drains : ∀ c e, s.head? c = some e → e.inPhase .draining = true → s.postedOf c = true
  room : ∀ c e, s.head? c = some e → e.inPhase .active = true → e.req.isPosted = true →
    Config.postedEntries ≤ s.posted.length
  pass : ∀ x ∈ s.waiting, x.due = false

/-- The host port takes records, and the channel has a credit and no request in progress (R111, R114). -/
structure State.ChannelFree (s : State) (c : ChanId) : Prop where
  porst : s.porst = false
  hrst : s.hrst = false
  credit : s.hostTable[c].length < Config.credits
  head : s.head? c = none
  notWaiting : s.isWaiting (.chan c) = false

/-- The request record of a command of the host port: channel, tag, kind and used fields (R109). -/
def requestOf : Instr → Option (ChanId × BitVec 8 × Request)
  | .read ch tag addr => some (ch, tag, .read addr)
  | .write ch tag addr mask v => some (ch, tag, .write addr mask v)
  | .postedWrite ch tag addr mask v => some (ch, tag, .posted addr mask v)
  | .atomicSwap ch tag addr a => some (ch, tag, .atomic .swap addr a 0)
  | .atomicAdd ch tag addr a => some (ch, tag, .atomic .add addr a 0)
  | .atomicAnd ch tag addr a => some (ch, tag, .atomic .and addr a 0)
  | .atomicOr ch tag addr a => some (ch, tag, .atomic .or addr a 0)
  | .atomicMaxu ch tag addr a => some (ch, tag, .atomic .maxu addr a 0)
  | .atomicCas ch tag addr a b => some (ch, tag, .atomic .cas addr a b)
  | .reserve ch tag addr => some (ch, tag, .reserve addr)
  | .conditional ch tag addr v => some (ch, tag, .conditional addr v)
  | .watch ch tag addr v timeout => some (ch, tag, .watch addr v timeout)
  | .flush ch tag addr => some (ch, tag, .flush addr)
  | .fence ch tag => some (ch, tag, .fence)
  | .probe ch tag addr => some (ch, tag, .probe addr)
  | .status ch tag => some (ch, tag, .status false)
  | .statusClear ch tag => some (ch, tag, .status true)
  | .undecodableRequestKind ch kept _ _ => some (ch, kept.tag, .undecodable kept.what)
  | _ => none

/-- What a peer's request frame asks, with its header, and whether its payload fields decode (R26, R176). -/
def frameOf : Instr → Option (Header × RequestBody × Bool)
  | .share h => some (h, .table .share, true)
  | .own h => some (h, .table .own, true)
  | .upgrade h => some (h, .table .upgrade, true)
  | .returnLine h data => some (h, .ret data, true)
  | .dRead h w => some (h, .table (.direct (.read w)), true)
  | .dWrite h w mask v => some (h, .table (.direct (.write w mask v)), mask ≠ 0)
  | .dAtomic h w op a b => some (h, .table (.direct (.atomic w ((opOfCode op).getD .swap) a b)), (opOfCode op).isSome)
  | _ => none

/-- What a peer's reply frame carries, with its header and addressee; a RESULT status of 2 or 3 is DATA-ERROR (R26,
R177). -/
def replyOf : Instr → Option (Header × StationNo × ReplyBody)
  | .fill h addressee data => some (h, addressee, .fill data)
  | .result h addressee w status v => some (h, addressee, .result w (status ≠ 0) v)
  | _ => none

/-- The station can take a peer's request frame as sent (R36). -/
structure State.Readable (s : State) (h : Header) (body : RequestBody) (decodes : Bool) : Prop where
  good : h.good = true
  decodes : decodes = true
  sender : h.sender.toNat < s.station.count.toNat
  holder : h.sender = s.holder
  foreign : h.sender ≠ s.station.number
  region : isDirect h.line = isDirectKind body

/-- The kind of entry a miss of a cached line opens; a CONDITIONAL that passed its test never misses (R49, R149). -/
def missKind : Request → Option TableKind
  | .read _ => some .share
  | .reserve _ => some .share
  | .watch _ _ _ => some .share
  | .write _ _ _ => some .own
  | .atomic _ _ _ _ => some .own
  | _ => none

/-- The direct operation of a channel's request on the direct region (R126, R128, R131). -/
def directOf : Request → Option DirectOp
  | .read a => some (.read (wordOf a))
  | .write a mask v => some (.write (wordOf a) mask v)
  | .atomic op a x y => some (.atomic (wordOf a) op x y)
  | _ => none

/-- The command that ends a home operation of a kind (R99). -/
def homeCommand : HomeKind → Instr
  | .read => .homeRead
  | .write => .homeWrite
  | .dRead => .homeDRead
  | .dWrite => .homeDWrite
  | .dAtomic => .homeDAtomic

/-- The next state of a happening that closes a tenure: its window is closed and its grant with it, the idle count starts
again, the completion order and the claim put forward next are as given (R25, R29, R31, R34, R118). -/
def State.closed (s : State) (order : List ReadyToken) (next : Option Claim) : State :=
  { s with
    now := s.now + 1
    readyOrder := order
    span := { s.span with tenure := .idle, granted := none, idleCount := 0, putForward := next } }

/-- The entry of the host request table that a record makes (R113). -/
def State.entryOf (s : State) (tag : BitVec 8) (r : Request) (p : Progress) : HostEntry :=
  { tag := tag, req := r, place := s.nextPlace, check := s.acceptanceCheck r, progress := p }

/-- The state with an entry added to a channel of the host request table, one acceptance place further and one happening
later, the completion order as given. -/
def State.withEntry (s : State) (c : ChanId) (e : HostEntry) (order : List ReadyToken) : State :=
  { s with
    hostTable := s.hostTable.set c (s.hostTable[c] ++ [e])
    nextPlace := s.nextPlace + 1
    now := s.now + 1
    readyOrder := order }

/-- The host port takes the record, the channel is free and has no posted write left, and the station is at rest: the
request becomes the head and is presented to host execution in its own happening (R114, R115). -/
structure State.Presents (s : State) (c : ChanId) : Prop where
  free : s.ChannelFree c
  rest : s.AtRest
  drained : s.postedOf c = false

/-- No channel's head drains. -/
def State.NoDrain (s : State) : Prop := ∀ c e, s.head? c = some e → e.inPhase .draining = false

/-- No ARMED watch names a word of the line. -/
def State.Unwatched (s : State) (l : LineAddr) : Prop :=
  ∀ (c : ChanId) w, s.watches[c] = some w → w.phase = .armed → lineOf w.addr ≠ l

/-- The one request of a channel, its completion ready. -/
def State.answered (s : State) (c : ChanId) (h : HostEntry) (st : Status) (data : List Word) : State :=
  { s with hostTable := s.hostTable.set c [{ h with progress := .ready st (s.latchSet c) data }] }

/-- The posted write queue's one entry failed (R138, R141). -/
def State.failedPosted (s : State) (p : PostedWrite) (st : Status) : State :=
  { s with posted := [], latches := s.latches.set p.ch (some (takeFailure s.latches[p.ch] st p.addr)) }

/-- A WATCH. -/
def isWatch : Request → Bool
  | .watch _ _ _ => true
  | _ => false

/-- A D-WRITE. -/
def isDirectWrite : DirectOp → Bool
  | .write _ _ _ => true
  | _ => false

/-! ### The waiters of an entry that ends -/

/-- The ARMED watch of a channel whose word a store leaves different completes OK with the word, and its entry is free
(R159). -/
def State.watchAnswered (s : State) (a : Addr) (v : Word) (c : ChanId) : State :=
  match s.watches[c], s.hostTable[c] with
  | some w, [h] =>
    if w.phase = .armed ∧ w.addr = a ∧ w.compare ≠ v ∧ h.isOpen = true then
      State.answered { s with watches := s.watches.set c none } c h .ok [v]
    else s
  | _, _ => s

/-- A store: the word of the line and its way, the reservations on the word and the ARMED watches of it (R6, R8, R9, R148,
R159). -/
def State.stored (s : State) (a : Addr) (v : Word) : State :=
  channels.foldl (fun s c => s.watchAnswered a v c)
    { (s.writeWay a v).touch (lineOf a) with reservations := s.reservations.map (fun r => r.filter (fun b => b ≠ a)) }

/-- What each kind of request does as a waiter performed in the way that holds its line (R65, R146, R151, R158, R162). -/
def State.served (s : State) (c : ChanId) (h : HostEntry) : State :=
  match h.req with
  | .read a =>
    if s.loadPoison a then s.answered c h .dataError [] else (s.touch (lineOf a)).answered c h .ok [s.loadWord a]
  | .write a mask v =>
    if mask ≠ fullMask ∧ s.loadPoison a = true then s.answered c h .dataError []
    else (s.stored a (if mask = fullMask then v else mergeMask mask (s.loadWord a) v)).answered c h .ok []
  | .atomic op a x y =>
    if s.loadPoison a then s.answered c h .dataError []
    else match atomicNew op (s.loadWord a) x y with
      | some v => (s.stored a v).answered c h .ok [s.loadWord a]
      | none => (s.touch (lineOf a)).answered c h .ok [s.loadWord a]
  | .reserve a =>
    if s.loadPoison a then s.answered c h .dataError []
    else State.answered { s.touch (lineOf a) with reservations := s.reservations.set c (some a) } c h .ok [s.loadWord a]
  | .conditional a v =>
    if s.reservations[c] = some a then
      (State.stored { s with reservations := s.reservations.set c none } a v).answered c h .ok []
    else State.answered { s with reservations := s.reservations.set c none } c h .fail []
  | .watch a v n =>
    if s.loadPoison a then State.answered { s with watches := s.watches.set c none } c h .dataError []
    else if s.loadWord a ≠ v then
      State.answered { s.touch (lineOf a) with watches := s.watches.set c none } c h .ok [s.loadWord a]
    else { s.touch (lineOf a) with
      watches := s.watches.set c (some {
        phase := .armed
        addr := a
        compare := v
        remaining := (s.watches[c].map (fun w => w.remaining)).getD n.toNat })
      hostTable := s.hostTable.set c [{ h with progress := .opened .active }] }
  | _ => s

/-- What a waiter does in the way that holds its line: the one request of a channel, or the one entry of the posted write
queue, which is stored or fails DATA-ERROR and leaves (R65, R137, R138). -/
def State.servedWho (s : State) (who : Who) : State :=
  match who with
  | .chan c => (match s.hostTable[c] with
    | [h] => if h.isOpen then s.served c h else s
    | _ => s)
  | .posted => (match s.posted with
    | [p] =>
      if p.mask ≠ fullMask ∧ s.loadPoison p.addr = true then s.failedPosted p .dataError
      else { s.stored p.addr (if p.mask = fullMask then p.value else mergeMask p.mask (s.loadWord p.addr) p.value) with
        posted := [] }
    | _ => s)

/-- What a waiter does when its entry ends unserved: STALLED or LOST-REPLY (R60, R68, R138, R149, R157). -/
def State.failedWho (st : Status) (s : State) (who : Who) : State :=
  match who with
  | .chan c => (match s.hostTable[c] with
    | [h] => { s.answered c h st [] with
      reservations := if h.req.isConditional then s.reservations.set c none else s.reservations
      watches := if isWatch h.req then s.watches.set c none else s.watches }
    | _ => s)
  | .posted => (match s.posted with
    | [p] => s.failedPosted p st
    | _ => s)

/-- What the waiter of a D-kind entry does at its RESULT: DATA-ERROR, or OK with the value, a D-WRITE without data (R66,
R137, R138). -/
def State.resultWho (d : DirectOp) (err : Bool) (v : Word) (s : State) (who : Who) : State :=
  match who with
  | .chan c => (match s.hostTable[c] with
    | [h] =>
      if err then s.answered c h .dataError [] else s.answered c h .ok (if isDirectWrite d then [] else [v])
    | _ => s)
  | .posted => (match s.posted with
    | [p] => if err then s.failedPosted p .dataError else { s with posted := [] }
    | _ => s)

/-- The word of a request that can be a waiter (R51, R52). -/
def Request.word? : Request → Option Addr
  | .read a => some a
  | .write a _ _ => some a
  | .atomic _ a _ _ => some a
  | .reserve a => some a
  | .conditional a _ => some a
  | .watch a _ _ => some a
  | _ => none

/-- The operations `ws` wait on the entry of a line with nothing behind them: each is the one request of its channel, on a
word of the line, or the one entry of the posted write queue, with no head draining (R52). -/
structure State.Lone (s : State) (l : LineAddr) (ws : List Who) : Prop where
  once : ws.Nodup
  chan : ∀ c, .chan c ∈ ws → ∃ h a, s.hostTable[c] = [h] ∧ h.isOpen = true ∧ h.req.word? = some a ∧ lineOf a = l
  posted : .posted ∈ ws → ∃ p, s.posted = [p] ∧ lineOf p.addr = l ∧ s.NoDrain

/-- The WATCH of every ARMED watch is the one request of its channel, and does not wait. -/
def State.LoneWatches (s : State) : Prop :=
  ∀ (c : ChanId) w, s.watches[c] = some w → w.phase = .armed →
    s.isWaiting (.chan c) = false ∧ ∃ h, s.hostTable[c] = [h] ∧ h.isOpen = true

/-- A store to the word meets no waiting CONDITIONAL of a reservation on it, and lone watches alone. -/
structure State.Storable (s : State) (a : Addr) : Prop where
  reservations : ∀ c : ChanId, s.reservations[c] = some a → s.isWaiting (.chan c) = false
  watches : s.LoneWatches

/-- A reply carries poison (R45, R67). -/
def poisonedReply : ReplyBody → Prop
  | .fill d => d.poison ≠ 0
  | .result _ err _ => err = true

/-- The reply is the one that the entry awaits: a FILL in AWAIT-FILL, or a RESULT of the entry's word in AWAIT-RESULT (R64,
R66). -/
def TableEntry.awaits (e : TableEntry) (body : ReplyBody) : Prop :=
  (∃ st n d, e.phase = .awaitFill st n ∧ body = .fill d) ∨
  (∃ n d err v, e.phase = .awaitResult n ∧ e.kind = .direct d ∧ body = .result (directWord d) err v)

/-- The home operation queue with the operation of a verdict behind it, where an entry is reserved (R95). -/
def State.homeWith (s : State) (requester : StationNo) (l : LineAddr) (b : HomeBody) : List HomeOp :=
  if s.span.homeReserved then s.homeQueue ++ [{ requester := requester, line := l, body := b }] else s.homeQueue

/-- The verdict of a peer's tenure for the line releases no reply queue entry that a done home head could take: no head is
done, no entry is set aside, or the one set aside becomes the owner's FILL (R81, R82). -/
def State.NoOffer (s : State) (l : LineAddr) (v : Verdict) : Prop :=
  s.homeDone = none ∨ s.span.setAside = none ∨ (v = .ownerFill ∧ s.span.setAside = some l ∧ s.heldDirty l = true)

/-! ### Misses and departed watches -/

/-- What leaves a victim way leaves it with nothing behind: its line is not under a hold, no ARMED watch names it and
nothing waits, and a dirty one finds its writeback room (R12, R13, R53). -/
def State.Leaves (s : State) (l : LineAddr) (w : WayId) : Prop :=
  ∀ t, (s.wayAt l w).tag = some t → s.held t = false ∧ s.Unwatched t ∧ s.waiting = [] ∧
    ((s.wayAt l w).state.dirty = true → s.writebacks.length < 2)

/-- The line in a victim way leaves it, to the writeback buffer where it is dirty, and its reservations break; the way is
FILL-PENDING for the line asked for (R4, R10, R12, R13). -/
def State.victimGone (s : State) (l : LineAddr) (w : WayId) : State :=
  let old := s.wayAt l w
  { s.setWay l w { tag := some l, state := .invalid, data := old.data } with
    reservations := s.reservations.map (fun r => r.filter (fun b => old.tag ≠ some (lineOf b)))
    writebacks := match old.tag with
      | none => s.writebacks
      | some t =>
        if old.state.dirty then
          s.writebacks ++ [{ line := t, data := old.data, retry := 0, flush := none, age := s.now + 1 }]
        else s.writebacks }

/-- The new entry of a happening, QUEUED, with its one waiter (R54). -/
def State.opens (s : State) (who : Who) (k : TableKind) (way : Option WayId) (l : LineAddr) : State :=
  { s with table := s.table ++ [{
      line := l
      kind := k
      phase := .queued (s.now + 1)
      way := way
      retry := 0
      waiters := [who]
      orphan := false }] }

/-- A miss of the line finds no way it can have: all four are pinned, or the victim's line is under a hold or, dirty, finds no
writeback room (R11, R13, R53). -/
def State.Cramped (s : State) (l : LineAddr) : Prop :=
  s.victim l = none ∨ ∃ w t, s.victim l = some w ∧ (s.wayAt l w).tag = some t ∧
    (s.held t = true ∨ ((s.wayAt l w).state.dirty = true ∧ 2 ≤ s.writebacks.length))

/-- An operation joins the entry of its line, last (R51, R52). -/
def State.joins (s : State) (who : Who) (l : LineAddr) : State :=
  { s with table := s.table.map (fun x =>
      if x.line = l then { x with waiters := x.waiters ++ [who], orphan := false } else x) }

/-- An operation waits at its acceptance place, and holds nothing (R55). -/
def State.waits (s : State) (who : Who) (place : Nat) : State :=
  let x : Waiting := { who := who, place := place, pendingFlush := false, due := false }
  { s with waiting := insertBy (fun y => y.place) x s.waiting }

/-- A waiting operation that the departure of a line ends: a pending FLUSH of it, or a CONDITIONAL whose reservation it breaks;
each is the one request of its channel (R17, R150). -/
def State.EndsWith (s : State) (l : LineAddr) (x : Waiting) : Prop :=
  ∃ c h a, x.who = .chan c ∧ s.hostTable[c] = [h] ∧ h.isOpen = true ∧ lineOf a = l ∧
    ((h.req = .flush a ∧ x.pendingFlush = true) ∨ ((∃ v, h.req = .conditional a v) ∧ s.reservations[c] = some a))

/-- That operation completes: the CONDITIONAL FAIL, the FLUSH OK with nothing to write (R17, R134, R150). -/
def State.endedWait (s : State) (x : Waiting) : State :=
  match x.who with
  | .chan c => (match s.hostTable[c] with
    | [h] => s.answered c h (if h.req.isConditional then .fail else .ok) []
    | _ => s)
  | .posted => s

/-- The one request of a channel in a host phase. -/
def State.rephased (s : State) (c : ChanId) (h : HostEntry) (ph : HostPhase) : State :=
  { s with hostTable := s.hostTable.set c [{ h with progress := .opened ph }] }

/-- The watch of a channel in REFETCH (R160). -/
def State.refetches (s : State) (c : ChanId) (w : Watch) : State :=
  { s with watches := s.watches.set c (some { w with phase := .refetch }) }

/-- The refetch of a departed watch takes its WATCH's place in the waiting list, where nothing else waits (R161). -/
def State.refetchWaits (s : State) (d : ChanId) (w : Watch) (hd : HostEntry) : State :=
  State.refetches
    { s with waiting := [{ who := .chan d, place := hd.place, pendingFlush := false, due := false }] } d w

/-- The refetch of a departed watch opens a SHARE of its line in a way, which is FILL-PENDING (R4, R54, R161). -/
def State.refetchOpens (s : State) (l : LineAddr) (v : WayId) (d : ChanId) (w : Watch) (hd : HostEntry) : State :=
  ((State.refetches { s with lines := (s.setWay l v { s.wayAt l v with tag := some l, state := .invalid }).lines } d w).opens
    (.chan d) .share (some v) l).rephased d hd .joined

/-- The refetch of a departed watch joins the entry of its line (R51, R161). -/
def State.refetchJoins (s : State) (l : LineAddr) (d : ChanId) (w : Watch) (hd : HostEntry) : State :=
  ((s.refetches d w).joins (.chan d) l).rephased d hd .joined

/-- One ARMED watch names a word of the line: that of a channel whose one request is its WATCH, in progress (R156). -/
structure State.WatchedBy (s : State) (l : LineAddr) (d : ChanId) (w : Watch) (hd : HostEntry) : Prop where
  watch : s.watches[d] = some w
  armed : w.phase = .armed
  line : lineOf w.addr = l
  head : s.hostTable[d] = [hd]
  active : hd.inPhase .active = true
  request : ∃ n, hd.req = .watch w.addr w.compare n
  alone : ∀ (x : ChanId) y, x ≠ d → s.watches[x] = some y → y.phase = .armed → lineOf y.addr ≠ l

/-- The commands that cannot come about in a state, with the name each is refused by (notes/assumptions/3.md). -/
def State.refusal (s : State) : Instr → Option Refusal
  | .porstReleased _ _ => if s.porst then none else some .porstNotAsserted
  | .hrstReleased => if s.hrst then none else some .hrstNotAsserted
  | .completionEmitted => if s.porst || s.emission.isSome then none else some .noCompletionReady
  | .grant _ _ _ _ | .idleCountExpiry | .share _ | .own _ | .upgrade _ | .returnLine _ _ | .dRead _ _ | .dWrite _ _ _ _
  | .dAtomic _ _ _ _ _ | .fill _ _ _ | .result _ _ _ _ _ | .undecodableFrameKind _ _ _ =>
    if s.porst || s.span.tenure = .idle then none else some .tenureOpen
  | .requestTenureVerdict _ =>
    if s.porst then none
    else match s.span.tenure with
      | .peer _ _ _ _ => none
      | .peerUnreadable _ => none
      | _ => some .noSuchTenure
  | .ownTenureVerdict _ =>
    if s.porst then none
    else match s.span.tenure with
      | .ownEntry _ _ _ => none
      | .ownWriteback _ _ _ => none
      | _ => some .noSuchTenure
  | .replyTenureVerdict _ =>
    if s.porst then none
    else match s.span.tenure with
      | .ownReply _ _ => none
      | .peerReply _ _ _ _ _ => none
      | _ => some .noSuchTenure
  | .replyTimerExpiry l =>
    if s.porst || (s.entryFor l).any (fun e => e.phase.awaiting) then none else some .noTimerRunning
  | .watchTimeout c => if s.porst || (s.watches[c]).isSome then none else some .noWatchInUse
  | .clearSweepTick => if s.porst || s.sweeping then none else some .notSweeping
  | .clearSweepEnd =>
    if s.porst || (s.sweeping && s.station.sweep + 1 = Config.homeLines) then none else some .notSweeping
  | .homeRead => if s.porst || (s.performing.map homeKind) = some .read then none else some .notAtHomeHead
  | .homeWrite => if s.porst || (s.performing.map homeKind) = some .write then none else some .notAtHomeHead
  | .homeDRead => if s.porst || (s.performing.map homeKind) = some .dRead then none else some .notAtHomeHead
  | .homeDWrite => if s.porst || (s.performing.map homeKind) = some .dWrite then none else some .notAtHomeHead
  | .homeDAtomic => if s.porst || (s.performing.map homeKind) = some .dAtomic then none else some .notAtHomeHead
  | .porstAsserted | .hostReset | .read _ _ _ | .write _ _ _ _ _ | .postedWrite _ _ _ _ _ | .atomicSwap _ _ _ _
  | .atomicAdd _ _ _ _ | .atomicAnd _ _ _ _ | .atomicOr _ _ _ _ | .atomicMaxu _ _ _ _ | .atomicCas _ _ _ _ _
  | .reserve _ _ _ | .conditional _ _ _ _ | .watch _ _ _ _ _ | .flush _ _ _ | .fence _ _ | .probe _ _ _ | .status _ _
  | .statusClear _ _ | .undecodableRequestKind _ _ _ _ => none

/-! ### Laws that every step keeps -/

/-- Every table and queue stays within its entries (R48, R74, R80, R97, R113, R135). -/
structure State.Capacity (s : State) : Prop where
  table : s.table.length ≤ 4
  writebacks : s.writebacks.length ≤ 2
  replies : s.replies.length + (if s.span.setAside.isSome then 1 else 0) ≤ 4
  homeQueue : s.homeQueue.length + (if s.span.homeReserved then 1 else 0) ≤ 6
  posted : s.posted.length ≤ 8
  channels : ∀ c : ChanId, s.hostTable[c].length ≤ 4

/-- Every count of VOID verdicts lies between 0 and 255, and every reply timer at 250 or below (R48, R74, R80). -/
structure State.Counts (s : State) : Prop where
  table : ∀ e ∈ s.table, e.retry ≤ 255
  writebacks : ∀ e ∈ s.writebacks, e.retry ≤ 255
  replies : ∀ r ∈ s.replies, r.voids ≤ 255
  fills : ∀ e ∈ s.table, ∀ st n, e.phase = .awaitFill st n → n ≤ 250
  results : ∀ e ∈ s.table, ∀ n, e.phase = .awaitResult n → n ≤ 250

/-- The tag of a way. -/
def State.tagAt (s : State) (i : Fin 32) (w : WayId) : Option LineAddr := (s.lines[i].ways[w]).tag

/-- A line has one place: at most one transaction table entry, one writeback buffer entry and one reply queue entry; at
most one way, in its own set, of the cached region, and never a way and the writeback buffer at once (R1, R2, R50, R74,
R80). -/
structure State.OnePlace (s : State) : Prop where
  table : (s.table.map (fun e => e.line)).Nodup
  writebacks : (s.writebacks.map (fun e => e.line)).Nodup
  replies : (s.replies.map (fun r => r.line) ++ s.span.setAside.toList).Nodup
  set : ∀ i w l, s.tagAt i w = some l → setOf l = i
  region : ∀ i w l, s.tagAt i w = some l → isDirect l = false
  way : ∀ i w w' l, s.tagAt i w = some l → s.tagAt i w' = some l → w = w'
  apart : ∀ i w l, s.tagAt i w = some l → ∀ e ∈ s.writebacks, e.line ≠ l

/-- Every set's recency order has each way exactly once (R6). -/
def State.Recency (s : State) : Prop := ∀ i : Fin 32, (s.lines[i].order).Perm wayIds

/-- The sweep position agrees with the station state, and a station that is not READY has nothing in its home operation
queue (R92 to R94, R172); a done result is the head's (R97). -/
structure State.StationLaw (s : State) : Prop where
  inert : s.station.mode = .inert → s.station.sweep = 0
  clearing : s.station.mode = .clearing → s.station.sweep < 2048
  ready : s.station.mode = .ready → s.station.sweep = 2048
  idle : s.station.mode ≠ .ready → s.homeQueue = [] ∧ s.span.homeReserved = false
  done : s.homeDone.isSome → s.homeQueue ≠ []

/-- Every operation stands in one place, the one its phase says: a waiter is a JOINED head whose word lies on the entry's
line, on a D-kind entry a READ, WRITE or ATOMIC; what stands in the waiting list, on an ARMED watch or as a flush waiter is
an ACTIVE head; the posted write queue's head waits or is a waiter, never both; a watch is its channel's WATCH in progress;
no entry has more than five waiters (R48, R51, R52, R55, R76, R114, R156). -/
structure State.HeadLaw (s : State) : Prop where
  once : (s.table.flatMap (fun e => e.waiters)).Nodup
  five : ∀ e ∈ s.table, e.waiters.length ≤ 5
  waiter : ∀ e ∈ s.table, ∀ c, .chan c ∈ e.waiters → ∃ h a, s.head? c = some h ∧ h.inPhase .joined = true ∧
    h.req.addr? = some a ∧ lineOf a = e.line ∧ (∀ d, e.kind = .direct d → (directOf h.req).isSome = true)
  postedWaiter : ∀ e ∈ s.table, .posted ∈ e.waiters → ∃ p ps, s.posted = p :: ps ∧ lineOf p.addr = e.line
  waitsOnce : (s.waiting.map (fun x => x.who)).Nodup
  waits : ∀ x ∈ s.waiting, ∀ c, x.who = .chan c → ∃ h, s.head? c = some h ∧ h.inPhase .active = true
  postedOnce : s.isWaiting .posted = true → s.isWaiter .posted = false
  watch : ∀ (c : ChanId) w, s.watches[c] = some w → ∃ h v n, s.head? c = some h ∧ h.req = .watch w.addr v n ∧
    (w.phase = .armed → h.inPhase .active = true ∧ s.isWaiting (.chan c) = false)
  flush : ∀ e ∈ s.writebacks, ∀ c, e.flush = some c → ∃ h a, s.head? c = some h ∧ h.req = .flush a ∧
    h.inPhase .active = true ∧ s.isWaiting (.chan c) = false
  flushOnce : (s.writebacks.filterMap (fun e => e.flush)).Nodup

/-- `t` is `s` after the transaction table took a reply for a line, from the span or from this station's own home: late, its
data discarded; or a FILL installed and the waiters performed in join order; or a RESULT that completes them. The entry
ends. Poison is counted either way (R64 to R67, R70). -/
def State.ReplyTaken (s : State) (l : LineAddr) (body : ReplyBody) (t : State) : Prop :=
  ∃ counted : Counters,
    (poisonedReply body → counted = { s.counters with poisonReceived := s.counters.poisonReceived + 1 }) ∧
    (¬poisonedReply body → counted = s.counters) ∧
    (((∀ e, s.entryFor l = some e → ¬e.awaits body) ∧
        t = { s with counters := { counted with lateReplies := s.counters.lateReplies + 1 } }) ∨
      (∃ e st n d, s.OnePlace ∧ s.HeadLaw ∧ s.waiting = [] ∧ s.entryFor l = some e ∧ e.phase = .awaitFill st n ∧
        body = .fill d ∧ st.valid = true ∧ (s.lookup l).isSome = true ∧ s.Lone l e.waiters ∧ s.LoneWatches ∧
        t = { e.waiters.foldl State.servedWho (s.install l st d) with
          table := s.table.filter (fun x => x.line ≠ l)
          counters := counted }) ∨
      (∃ e n d err v, s.OnePlace ∧ s.waiting = [] ∧ s.entryFor l = some e ∧ e.phase = .awaitResult n ∧ e.kind = .direct d ∧
        body = .result (directWord d) err v ∧ s.Lone l e.waiters ∧
        t = { e.waiters.foldl (State.resultWho d err v) s with
          table := s.table.filter (fun x => x.line ≠ l)
          counters := counted }))

/-- The host request table and the completion order agree: on every channel the ready completions stand first, they have
their places in the completion order once each and in order, the open entries behind the head are WAITING, and acceptance
places rise; a REFUSED completion has one place. While PORST or HRST is asserted the table is empty (R113, R114, R118,
R119, R123, R124). -/
structure State.PortLaw (s : State) : Prop where
  behind : ∀ c : ChanId, ∃ done rest : List HostEntry, s.hostTable[c] = done ++ rest ∧
    (∀ e ∈ done, e.isOpen = false) ∧ (∀ e ∈ rest, e.isOpen = true) ∧
    (∀ e ∈ rest.tail, e.inPhase .waiting = true) ∧
    s.readyOrder.filterMap (fun x => match x with
      | .accepted d n => if d = c then some n else none
      | .refused _ => none) = done.map (fun e => e.place)
  refusals : ∀ c : ChanId, s.readyOrder.count (.refused c) = if (s.refused[c]).isSome then 1 else 0
  places : ∀ c : ChanId, (s.hostTable[c].map (fun e => e.place)).Pairwise (· < ·) ∧
    ∀ e ∈ s.hostTable[c], e.place < s.nextPlace
  reset : s.porst = true ∨ s.hrst = true → ∀ c : ChanId, s.hostTable[c] = [] ∧ s.refused[c] = none

/-- A reservation and an ARMED watch name a word whose line the station holds valid; the ARMED watch's word equals its
compare value, unpoisoned; a SHARE or OWN entry's line is FILL-PENDING, and what an entry is to install is a valid state
(R4, R14, R49, R144, R156). -/
structure State.ClaimLaw (s : State) : Prop where
  reservations : ∀ (c : ChanId) a, s.reservations[c] = some a → s.heldValid (lineOf a) = true
  watches : ∀ (c : ChanId) w, s.watches[c] = some w → w.phase = .armed → s.heldValid (lineOf w.addr) = true ∧
    s.loadWord w.addr = w.compare ∧ s.loadPoison w.addr = false
  pending : ∀ e ∈ s.table, e.kind = .share ∨ e.kind = .own → s.lookup e.line = some .invalid
  installs : ∀ e ∈ s.table, ∀ st n, e.phase = .awaitFill st n → st.valid = true ∧ (e.kind = .share ∨ e.kind = .own)

end Sys2Proof.Machine
end

