-- ==== Sys2Proof/WellFormed.lean ====
section
/-! DEFINITION. Which commands are well formed: the codes that name an undecodable kind do not decode. -/

namespace Sys2Proof

/-- A request record's kind code that names no kind (chapter 12, host request record). -/
def undecodableKindCode (kind : BitVec 4) : Bool := kind = 0 || 11 ≤ kind.toNat

/-- An op code that names no op (chapter 12). -/
def undecodableOpCode (op : BitVec 3) : Bool := 6 ≤ op.toNat

/-- A span frame's kind code that does not decode (chapter 12, span frames). -/
def undecodableFrameCode (kind : BitVec 4) : Bool := kind = 0 || kind = 8 || 11 ≤ kind.toNat

/-- The code an undecodable request record carries names nothing (R112, R175). -/
def Undecodable.wf : Undecodable → Bool
  | .kind code => undecodableKindCode code
  | .op code _ _ => undecodableOpCode code

/-- A well-formed command. Every other field of a command takes every value of its type. -/
def Instr.wf : Instr → Bool
  | .undecodableRequestKind _ kept _ _ => kept.what.wf
  | .undecodableFrameKind _ kind _ => undecodableFrameCode kind
  | _ => true

end Sys2Proof
end

