-- ==== Sys2Proof/Certificates/Slice0/Obligations.lean ====
section
/-! DEFINITION. The statements for the provers. Rules R<n> are those of spec/; the words "free" and "at rest" are those of
Sys2Proof/Safety.lean. -/

open Sys2Proof Sys2Proof.Machine

/-! ### The queue, the answers, the tick -/

/-- A step takes the command at the front of the queue and runs it on the state with the queue's rest. -/
def Obligations.StepTakesTheFrontCommand : Prop :=
  ∀ (s : State) (c : Instr) (rest : List Instr), s.pending = c :: rest → step s = exec c { s with pending := rest }

/-- Every command answers a next state and leaves the queue, or is refused by the name of what keeps it from coming about;
the refusals are the model's (notes/assumptions/3.md). -/
def Obligations.CommandsAnswerOrNameWhy : Prop :=
  ∀ (c : Instr) (s : State), match s.refusal c with
    | none => ∃ t, exec c s = .next t ∧ t.pending = s.pending
    | some r => exec c s = .refused r

/-- On an empty queue one timebase tick passes (the model's choice, notes/assumptions/2.md): while nothing runs out, every
reply timer and every watch is lowered by 1 (R68, R163), the sweep writes its line (R92) and the idle count rises (R34). The
tick that brings one reply timer or one watch's remaining time to 0 is its expiry: REPLY_TIMER_EXPIRY or WATCH_TIMEOUT on the
state so lowered (R68, R163; TimersAndTheSweepRunOut). Several at one tick follow the free order (notes/assumptions/7.md). -/
def Obligations.EmptyQueueTicks : Prop :=
  ∀ s : State, s.pending = [] →
    (s.porst = true → step s = .next s) ∧
    (s.porst = false →
      let timesLeft := ∀ e ∈ s.table, e.phase.lowered.runOut = false
      let watchesLeft := fun (p : ChanId → Prop) => ∀ (c : ChanId) w, p c → s.watches[c] = some w → w.remaining - 1 ≠ 0
      let lowered : State := { s with
        now := s.now + 1
        homeStore := if s.sweeping then writeLine s.homeStore (BitVec.ofNat 11 s.station.sweep) zeroLine
          else s.homeStore
        station := if s.sweeping then { s.station with
            sweep := s.station.sweep + 1
            mode := if s.station.sweep = 2047 then .ready else .clearing }
          else s.station
        table := s.table.map (fun e => { e with phase := e.phase.lowered })
        watches := s.watches.map (fun w => w.map (fun w => { w with remaining := w.remaining - 1 }))
        span := if s.span.tenure = .idle ∧ s.span.idleCount < 4 then { s.span with
            idleCount := s.span.idleCount + 1
            rotation := if s.span.idleCount = 3 then s.station.count.toNat - 1 else s.span.rotation
            joined := s.span.idleCount = 3 || s.span.joined }
          else s.span }
      (timesLeft → watchesLeft (fun _ => True) → step s = .next lowered) ∧
      (∀ e, s.OnePlace → e ∈ s.table → e.phase.lowered.runOut = true →
        (∀ x ∈ s.table, x.line ≠ e.line → x.phase.lowered.runOut = false) → watchesLeft (fun _ => True) →
        step s = exec (.replyTimerExpiry e.line) lowered) ∧
      (∀ (c : ChanId) w, s.watches[c] = some w → w.remaining - 1 = 0 → timesLeft → watchesLeft (fun d => d ≠ c) →
        step s = exec (.watchTimeout c) lowered))

/-! ### Resets (R24, R47, R72, R79, R88, R108, R122 to R124, R142, R155, R165 to R167) -/

/-- What power-on reset leaves, block by block; the station fields before the straps are read are the model's choice
(notes/assumptions/1.md). The state after reset meets every law that the invariants below state. -/
def Obligations.ResetIsEmptyAndMeetsTheLaws : Prop :=
  (∀ (i : Fin 32) (w : WayId), State.reset.lines[i].ways[w] = { tag := none, state := .invalid, data := zeroLine }) ∧
  (∀ i : Fin 32, State.reset.lines[i].order = [0, 1, 2, 3]) ∧
  (∀ w : Fin 8, zeroLine.words[w] = 0) ∧ zeroLine.poison = 0 ∧
  State.reset.table = [] ∧ State.reset.waiting = [] ∧ State.reset.writebacks = [] ∧ State.reset.replies = [] ∧
  State.reset.homeQueue = [] ∧ State.reset.homeDone = none ∧ State.reset.posted = [] ∧ State.reset.readyOrder = [] ∧
  (∀ c : ChanId, State.reset.hostTable[c] = [] ∧ State.reset.refused[c] = none ∧ State.reset.latches[c] = none ∧
    State.reset.reservations[c] = none ∧ State.reset.watches[c] = none) ∧
  State.reset.counters = {
    voided := 0, checkErrors := 0, lateReplies := 0, lostReplies := 0
    abandoned := 0, poisonReceived := 0, refused := 0 } ∧
  State.reset.span.joined = false ∧ State.reset.span.setAside = none ∧ State.reset.span.homeReserved = false ∧
  State.reset.Capacity ∧ State.reset.Counts ∧ State.reset.OnePlace ∧ State.reset.Recency ∧ State.reset.StationLaw ∧
  State.reset.ClaimLaw ∧ State.reset.HeadLaw ∧ State.reset.PortLaw ∧ memWf State.reset.homeStore = true ∧ State.reset.AtRest

/-- PORST_ASSERTED empties the station; PORST_RELEASED reads the straps and sets the station state by the table of R166,
the rotation point at the station count minus 1 and the idle count at 0 (R34, R47, R166, R167). The model's choice are the
HRST level kept through PORST (notes/assumptions/22.md), the station number, count, state and rotation point while PORST is
asserted (notes/assumptions/1.md), and a rotation point of 0 for a strapped count of 0 (notes/assumptions/23.md). -/
def Obligations.PowerOnResetReadsTheStraps : Prop :=
  (∀ s : State, exec .porstAsserted s = .next { State.reset with
    hrst := s.hrst, now := s.now + 1, pending := s.pending }) ∧
  (∀ (s : State) (n : StationNo) (k : BitVec 5), s.porst = true → exec (.porstReleased n k) s = .next { State.reset with
    porst := false
    hrst := s.hrst
    now := s.now + 1
    pending := s.pending
    station := {
      number := n
      count := k
      sweep := 0
      mode := if k.toNat = 0 ∨ 17 ≤ k.toNat ∨ k.toNat ≤ n.toNat then .inert else .clearing }
    span := {
      tenure := .idle
      granted := none
      rotation := k.toNat - 1
      idleCount := 0
      joined := false
      putForward := none
      yields := none
      setAside := none
      homeReserved := false } })

/-- HOST_RESET empties the host-facing state and leaves the span-facing state and the recency orders standing (R24,
R72, R79, R122, R155, R165). The tables are given for an empty posted write queue. A queue that is not empty is kept,
and its head, dropped from its entry or from the waiting list, is looked up again on top of that state, with its own
acceptance place: it is stored, or fails, where it is the queue's one entry, opens its entry, joins one that the reset
kept, or waits (R72, R136, R140), on a sole line under a hold whatever it would store, which is the model's choice
(notes/assumptions/39.md). At HRST_RELEASED the next acceptance place is the one after every place the posted write
queue holds (R123), and 0 where it holds none, which is the model's choice (notes/assumptions/17.md). What stood in
the claim and is withdrawn is put forward no longer, so its grant lapses (R32, R47; the class it was claimed in stays,
notes/assumptions/13.md). -/
def Obligations.HostResetEmptiesTheHostSide : Prop :=
  ∀ s : State, s.porst = false →
    (s.hrst = true → ∃ p, exec .hrstReleased s = .next { s with hrst := false, now := s.now + 1, nextPlace := p } ∧
      (s.posted = [] → p = 0) ∧ (∀ q ∈ s.posted, q.place < p) ∧
      (s.posted ≠ [] → ∃ q ∈ s.posted, p = q.place + 1)) ∧
    ∃ t, exec .hostReset s = .next t ∧
    t.porst = false ∧ t.hrst = true ∧ t.station = s.station ∧ t.span = { s.span with putForward := t.span.putForward } ∧
    (t.span.putForward.map (fun p => p.cls) = s.span.putForward.map (fun p => p.cls)) ∧
    (∀ p, s.span.putForward = some p → ∀ p', t.span.putForward = some p' →
      (∀ e ∈ s.table, e.phase.awaiting = false → s.inTenure e.line = false → p.candidate = some (.entry e.line) →
        p'.candidate = none) ∧
      ((∀ e ∈ s.table, e.phase.awaiting = false → s.inTenure e.line = false → p.candidate ≠ some (.entry e.line)) →
        p' = p)) ∧ t.replies = s.replies ∧
    t.homeStore = s.homeStore ∧ t.homeQueue = s.homeQueue ∧ t.homeDone = s.homeDone ∧ t.counters = s.counters ∧
    (∀ c : ChanId, t.hostTable[c] = [] ∧ t.refused[c] = none ∧ t.reservations[c] = none ∧ t.watches[c] = none) ∧
    t.readyOrder = [] ∧ t.nextPlace = s.nextPlace ∧
    (s.posted = [] → t.posted = [] ∧ t.waiting = [] ∧ (∀ c : ChanId, t.latches[c] = none) ∧
      t.writebacks = s.writebacks.map (fun e => { e with flush := none }) ∧
      t.table = (s.table.filter (fun e => e.phase.awaiting || s.inTenure e.line)).map
        (fun e => { e with waiters := [], orphan := !e.phase.awaiting }) ∧
      (∀ i : Fin 32, t.lines[i].order = s.lines[i].order) ∧
      (∀ l, s.heldValid l = true → t.lookup l = s.lookup l ∧ t.lineData l = s.lineData l) ∧
      (s.OnePlace → ∀ e ∈ s.table, e.phase.awaiting = false → s.inTenure e.line = false →
        s.lookup e.line = some .invalid → t.lookup e.line = none)) ∧
    (∀ p ps u, s.posted = p :: ps → exec .hostReset { s with posted := [] } = .next u →
      let l := lineOf p.addr
      let kept : State := { u with posted := p :: ps, now := s.now }
      let becomes := fun (t : State) => exec .hostReset s = .next { t with now := s.now + 1 }
      let shared := u.lookup l = some .shared ∨ u.lookup l = some .dirtyShared
      (∀ st, ps = [] → u.lookup l = some st → st.sole = true → u.held l = false →
        becomes (if p.mask ≠ fullMask ∧ u.loadPoison p.addr = true then kept.failedPosted p .dataError
          else { kept.stored p.addr (if p.mask = fullMask then p.value
            else mergeMask p.mask (u.loadWord p.addr) p.value) with posted := [] })) ∧
      (u.held l = false → u.entryFor l = none → u.table.length < 4 →
        (∀ w, isDirect l = false → u.lookup l = none → u.writebackFor l = none → u.victim l = some w → u.Leaves l w →
          becomes ((kept.victimGone l w).opens .posted .own (some w) l)) ∧
        (shared → becomes (kept.opens .posted .upgrade none l)) ∧
        (isDirect l = true → becomes (kept.opens .posted (.direct (.write (wordOf p.addr) p.mask p.value)) none l))) ∧
      (∀ e, u.held l = false → u.entryFor l = some e →
        (u.lookup l = some .invalid ∧ e.kind = .own) ∨ (shared ∧ e.kind = .upgrade) → becomes (kept.joins .posted l)) ∧
      (u.held l = true ∨ (u.lookup l = none ∧ isDirect l = false ∧ ((u.writebackFor l).isSome = true ∨ u.Cramped l)) ∨
          (∃ e, u.entryFor l = some e ∧ ((u.lookup l = some .invalid ∧ e.kind ≠ .own) ∨ isDirect l = true)) ∨
          (4 ≤ u.table.length ∧ u.entryFor l = none ∧ (isDirect l = true ∨ u.lookup l = none ∨ shared)) →
        becomes (kept.waits .posted p.place)))

/-! ### The host port (R109 to R121, R175) -/

/-- A record presented while PORST or HRST is asserted is discarded (R123, R124); over credit it is refused: REFUSED rises,
and a REFUSED completion is made ready unless the channel has one waiting (R111, R119, R120). The acceptance checks 2 to 5
follow in their order, the first that fails giving the status (R112, R175). -/
def Obligations.RecordsAreDiscardedRefusedOrChecked : Prop :=
  (∀ (i : Instr) (c : ChanId) (tag : BitVec 8) (r : Request) (s : State), requestOf i = some (c, tag, r) →
     (s.porst = true ∨ s.hrst = true → exec i s = .next s) ∧
     (s.porst = false → s.hrst = false → 4 ≤ s.hostTable[c].length →
       exec i s = .next { s with
         now := s.now + 1
         counters := { s.counters with refused := s.counters.refused + 1 }
         refused := if s.refused[c] = none then s.refused.set c (some (tag, s.latches[c].isSome)) else s.refused
         readyOrder := if s.refused[c] = none then s.readyOrder ++ [.refused c] else s.readyOrder })) ∧
  (∀ (s : State) (r : Request),
     let barred := s.station.mode = .inert ∧ ∀ b, r ≠ .status b
     let formed := (∀ u, r ≠ .undecodable u) ∧ (∀ a, r.addr? = some a → a.toNat % 8 = 0) ∧ (∀ a v, r ≠ .write a 0 v) ∧
       (∀ a v, r ≠ .posted a 0 v) ∧ (∀ a v, r ≠ .watch a v 0)
     let homeless := ∃ a, r.addr? = some a ∧ s.station.count.toNat ≤ a.toNat / 131072
     let outside := ∃ a, (r = .reserve a ∨ (∃ v, r = .conditional a v) ∨ (∃ v n, r = .watch a v n)) ∧
       1792 ≤ a.toNat / 64 % 2048
     (barred → s.acceptanceCheck r = some .badConfig) ∧
     (¬barred → ¬formed → s.acceptanceCheck r = some .badRequest) ∧
     (¬barred → formed → homeless → s.acceptanceCheck r = some .noHome) ∧
     (¬barred → formed → ¬homeless → outside → s.acceptanceCheck r = some .region) ∧
     (¬barred → formed → ¬homeless → ¬outside → s.acceptanceCheck r = none))

/-- A record that failed a check on a free channel completes at once with its status, without data, and reaches nothing
(R112, R117, R121), UNDECODABLE_REQUEST_KIND among them. A record accepted behind its channel's head waits, and a non-posted
head drains behind its channel's posted writes; both reach nothing (R113 to R115). -/
def Obligations.RecordsFailOrWaitTheirTurn : Prop :=
  (∀ (i : Instr) (c : ChanId) (tag : BitVec 8) (r : Request) (s : State) (st : Status), requestOf i = some (c, tag, r) →
     s.ChannelFree c → s.AtRest → s.acceptanceCheck r = some st →
     ∃ order, s.readyOrder <+: order ∧
       exec i s = .next (s.withEntry c (s.entryOf tag r (.ready st (s.latchSet c) [])) order)) ∧
  (∀ (i : Instr) (c : ChanId) (tag : BitVec 8) (r : Request) (s : State), requestOf i = some (c, tag, r) → s.AtRest →
     (∀ h, s.porst = false → s.hrst = false → s.hostTable[c].length < 4 → s.head? c = some h →
       ∃ order, s.readyOrder <+: order ∧
         exec i s = .next (s.withEntry c (s.entryOf tag r (.opened .waiting)) order)) ∧
     (s.ChannelFree c → s.acceptanceCheck r = none → r.isPosted = false → s.postedOf c = true →
       ∃ order, s.readyOrder <+: order ∧
         exec i s = .next (s.withEntry c (s.entryOf tag r (.opened .draining)) order)))

/-- The completions made ready in a happening take their places in the completion order behind those already there, in
the order of acceptance places (R118): so do all that one command makes ready, on whichever channels, and a REFUSED one takes
its own. COMPLETION_EMITTED: the first completion of the order leaves; an accepted request's
entry is removed and its credit returned, a REFUSED completion returns none (R110, R111, R118). -/
def Obligations.CompletionsAreOrderedAndEmitted : Prop :=
  (∀ s : State, ∃ fresh : List (ChanId × Nat),
     s.orderReady = { s with readyOrder := s.readyOrder ++ fresh.map (fun x => .accepted x.1 x.2) } ∧
     fresh.Pairwise (fun x y => x.2 ≤ y.2) ∧
     ∀ c n, (c, n) ∈ fresh ↔
       (∃ e ∈ s.hostTable[c], e.isOpen = false ∧ e.place = n) ∧ .accepted c n ∉ s.readyOrder) ∧
  (∀ (i : Instr) (s t : State), exec i s = .next t → i ≠ .porstAsserted → (∀ n k, i ≠ .porstReleased n k) →
     i ≠ .hostReset → i ≠ .completionEmitted →
     (∀ c : ChanId, ∀ e ∈ s.hostTable[c], e.isOpen = false → .accepted c e.place ∈ s.readyOrder) →
     ∃ fresh, t.readyOrder = s.readyOrder ++ fresh ∧
       (fresh.filterMap (fun x => match x with
         | .accepted _ n => some n
         | .refused _ => none)).Pairwise (· ≤ ·) ∧
       (∀ c n, .accepted c n ∈ fresh ↔
         (∃ e ∈ t.hostTable[c], e.isOpen = false ∧ e.place = n) ∧ .accepted c n ∉ s.readyOrder) ∧
       ∀ c, .refused c ∈ fresh ↔ s.refused[c] = none ∧ (t.refused[c]).isSome = true) ∧
  (∀ (s : State) (c : ChanId) (rest : List ReadyToken), s.porst = false →
     (∀ n e es st d data, s.readyOrder = .accepted c n :: rest → s.hostTable[c] = e :: es →
       e.progress = .ready st d data →
       exec .completionEmitted s = .next { s with
         now := s.now + 1
         hostTable := s.hostTable.set c es
         readyOrder := rest
         out := {
           completion := some { ch := c, tag := e.tag, status := st, deferred := d, data := data }
           credit := some c } }) ∧
     (∀ tag d, s.readyOrder = .refused c :: rest → s.refused[c] = some (tag, d) →
       exec .completionEmitted s = .next { s with
         now := s.now + 1
         refused := s.refused.set c none
         readyOrder := rest
         out := {
           completion := some { ch := c, tag := tag, status := .refused, deferred := d, data := [] }
           credit := none } }))

/-! ### Addresses and values -/

/-- The fields of a shared address (00_scope.md, conventions); the merge under a byte mask, byte by byte (R8, R103); the
new word of each op with whether it is stored (R129). A store reaches one word of one line: the word holds the value with its
poison clear and the line is DIRTY-SOLE; every other word of every line, and every other line's state, stand (R5, R8). -/
def Obligations.ValuesAndTheOneWordStored : Prop :=
  (∀ a : Addr, (lineOf a).toNat = a.toNat / 64 ∧ (wordOf a).toNat = a.toNat / 8 % 8 ∧
    (homeOf (lineOf a)).toNat = a.toNat / 131072 ∧ (indexOf (lineOf a)).toNat = a.toNat / 64 % 2048 ∧
    (setOf (lineOf a)).val = a.toNat / 64 % 32 ∧ (isDirect (lineOf a) = true ↔ 1792 ≤ a.toNat / 64 % 2048) ∧
    (aligned a = true ↔ a.toNat % 8 = 0)) ∧
  (∀ (mask : BitVec 8) (old new : Word) (n : Fin 8), (mergeMask mask old new).extractLsb' (8 * n.val) 8
    = if mask.getLsbD n.val then new.extractLsb' (8 * n.val) 8 else old.extractLsb' (8 * n.val) 8) ∧
  (∀ old a b : Word, atomicNew .swap old a b = some a ∧
    (atomicNew .add old a b).map BitVec.toNat = some ((old.toNat + a.toNat) % 2 ^ 64) ∧
    atomicNew .and old a b = some (old &&& a) ∧ atomicNew .or old a b = some (old ||| a) ∧
    (atomicNew .maxu old a b).map BitVec.toNat = some (max old.toNat a.toNat) ∧
    (old = b → atomicNew .cas old a b = some a) ∧ (old ≠ b → atomicNew .cas old a b = none)) ∧
  (∀ (s : State) (a : Addr) (v : Word), (s.findWay (lineOf a)).isSome = true →
     (s.writeWay a v).lookup (lineOf a) = some .dirtySole ∧ (s.writeWay a v).loadWord a = v ∧
     (s.writeWay a v).loadPoison a = false ∧
     (∀ b, lineOf b ≠ lineOf a ∨ wordOf b ≠ wordOf a →
       (s.writeWay a v).loadWord b = s.loadWord b ∧ (s.writeWay a v).loadPoison b = s.loadPoison b) ∧
     (∀ l, l ≠ lineOf a → (s.writeWay a v).lookup l = s.lookup l) ∧
     (∀ i : Fin 32, (s.writeWay a v).lines[i].order = s.lines[i].order))

/-- The reports of the line array: a store breaks every reservation on its word and ends every ARMED watch of it whose
compare value differs, and that WATCH completes OK with the new word (R9, R148, R159); a departure breaks every reservation
on the line and moves its ARMED watches to REFETCH with their remaining time, each refetch in the waiting list at its WATCH's
place (R10, R147, R160, R161). A CONDITIONAL that waits completes FAIL when its reservation breaks (R150). -/
def Obligations.ReportsReachEveryChannel : Prop :=
  ∀ (s : State) (c : ChanId),
    (∀ a v, (s.reportStore a v).reservations[c] = (if s.reservations[c] = some a then none else s.reservations[c]) ∧
      (∀ w, s.watches[c] = some w → (s.reportStore a v).watches[c]
        = if w.phase = .armed ∧ w.addr = a ∧ v ≠ w.compare then none else some w) ∧
      (s.watches[c] = none → (s.reportStore a v).watches[c] = none)) ∧
    (∀ l, (∀ a, s.reservations[c] = some a →
        (s.depart l).reservations[c] = if lineOf a = l then none else some a) ∧
      (s.reservations[c] = none → (s.depart l).reservations[c] = none) ∧
      (∀ w, s.watches[c] = some w → (s.depart l).watches[c]
        = some (if w.phase = .armed ∧ lineOf w.addr = l then { w with phase := .refetch } else w)) ∧
      (s.watches[c] = none → (s.depart l).watches[c] = none)) ∧
    (∀ h, s.hostTable[c] = [h] → h.isOpen = true →
      let answered := fun (st : Status) (data : List Word) => [{ h with progress := .ready st (s.latchSet c) data }]
      (∀ w v, s.watches[c] = some w → w.phase = .armed → v ≠ w.compare → h.req.isConditional = false →
        (s.reportStore w.addr v).hostTable[c] = answered .ok [v]) ∧
      (∀ l w, s.watches[c] = some w → w.phase = .armed → lineOf w.addr = l → h.req.isConditional = false →
        { who := .chan c, place := h.place, pendingFlush := false, due := true } ∈ (s.depart l).waiting) ∧
      (∀ a v, s.reservations[c] = some a → h.req.isConditional = true → s.isWaiting (.chan c) = true →
        (s.reportStore a v).hostTable[c] = answered .fail [] ∧ (s.reportStore a v).isWaiting (.chan c) = false ∧
        (s.depart (lineOf a)).hostTable[c] = answered .fail [] ∧
        (s.watches[c] = none → (s.depart (lineOf a)).isWaiting (.chan c) = false)))

/-! ### Requests performed at once (R125 to R134, R143, R146, R149, R151, R158, R170 to R173) -/

/-- READ of a line held valid, under a hold or behind a QUEUED UPGRADE too (R125). No pass over the waiting list
follows, which is the model's choice (notes/assumptions/42.md). -/
def Obligations.ReadHitAnswersTheWord : Prop :=
  ∀ (s : State) (c : ChanId) (tag : BitVec 8) (a : Addr), s.Presents c → s.acceptanceCheck (.read a) = none →
    s.heldValid (lineOf a) = true →
    ∃ order, s.readyOrder <+: order ∧ exec (.read c tag a) s = .next
      (if s.loadPoison a then
        s.withEntry c (s.entryOf tag (.read a) (.ready .dataError (s.latchSet c) [])) order
      else
        (s.touch (lineOf a)).withEntry c (s.entryOf tag (.read a) (.ready .ok (s.latchSet c) [s.loadWord a])) order)

/-- WRITE of a line held sole, not under a hold: the word is stored under its mask, what claims the word hears of it,
and a partial mask on a poisoned word stores nothing (R5, R8, R9, R127, R148, R159). No pass over the waiting list
follows, which is the model's choice (notes/assumptions/42.md). -/
def Obligations.WriteHitStores : Prop :=
  ∀ (s : State) (c : ChanId) (tag : BitVec 8) (a : Addr) (mask : BitVec 8) (v : Word) (st : LineState), s.Presents c →
    s.acceptanceCheck (.write a mask v) = none → s.lookup (lineOf a) = some st → st.sole = true →
    s.held (lineOf a) = false → s.Storable a →
    ∃ order, s.readyOrder <+: order ∧ exec (.write c tag a mask v) s = .next
      (if mask ≠ fullMask ∧ s.loadPoison a = true then
        s.withEntry c (s.entryOf tag (.write a mask v) (.ready .dataError (s.latchSet c) [])) order
      else
        (s.stored a (if mask = fullMask then v else mergeMask mask (s.loadWord a) v)).withEntry c
          (s.entryOf tag (.write a mask v) (.ready .ok (s.latchSet c) [])) order)

/-- The six ATOMICs on a line held sole, not under a hold; what claims the word hears of a store (R9, R129, R130, R148,
R159). No pass over the waiting list follows, which is the model's choice (notes/assumptions/42.md). -/
def Obligations.AtomicHitReturnsTheOldWord : Prop :=
  ∀ (i : Instr) (s : State) (c : ChanId) (tag : BitVec 8) (op : AtomicOp) (a : Addr) (x y : Word) (st : LineState),
    requestOf i = some (c, tag, .atomic op a x y) → s.Presents c → s.acceptanceCheck (.atomic op a x y) = none →
    s.lookup (lineOf a) = some st → st.sole = true → s.held (lineOf a) = false → s.Storable a →
    ∃ order, s.readyOrder <+: order ∧ exec i s = .next
      (if s.loadPoison a then
        s.withEntry c (s.entryOf tag (.atomic op a x y) (.ready .dataError (s.latchSet c) [])) order
      else
        State.withEntry (match atomicNew op (s.loadWord a) x y with
          | some v => s.stored a v
          | none => s.touch (lineOf a)) c
          (s.entryOf tag (.atomic op a x y) (.ready .ok (s.latchSet c) [s.loadWord a])) order)

/-- RESERVE of a line held valid: the channel's reservation is the word's, or none where the word is poisoned (R145,
R146). No pass over the waiting list follows, which is the model's choice (notes/assumptions/42.md). -/
def Obligations.ReserveHitReserves : Prop :=
  ∀ (s : State) (c : ChanId) (tag : BitVec 8) (a : Addr), s.Presents c → s.acceptanceCheck (.reserve a) = none →
    s.heldValid (lineOf a) = true →
    ∃ order, s.readyOrder <+: order ∧ exec (.reserve c tag a) s = .next
      (if s.loadPoison a then
        State.withEntry { s with reservations := s.reservations.set c none } c
          (s.entryOf tag (.reserve a) (.ready .dataError (s.latchSet c) [])) order
      else
        State.withEntry { s.touch (lineOf a) with reservations := s.reservations.set c (some a) } c
          (s.entryOf tag (.reserve a) (.ready .ok (s.latchSet c) [s.loadWord a])) order)

/-- CONDITIONAL: FAIL at once where the reservation does not stand on the word (R149); where it stands and the line is held
sole, the full word is stored, and what else claims the word hears of it (R9, R148, R151, R159). The reservation is cleared
either way. No pass over the waiting list follows, which is the model's choice (notes/assumptions/42.md). -/
def Obligations.ConditionalStoresOrFails : Prop :=
  ∀ (s : State) (c : ChanId) (tag : BitVec 8) (a : Addr) (v : Word), s.Presents c →
    s.acceptanceCheck (.conditional a v) = none →
    (s.reservations[c] ≠ some a → ∃ order, s.readyOrder <+: order ∧ exec (.conditional c tag a v) s = .next
      (State.withEntry { s with reservations := s.reservations.set c none } c
        (s.entryOf tag (.conditional a v) (.ready .fail (s.latchSet c) [])) order)) ∧
    (∀ st, s.reservations[c] = some a → s.lookup (lineOf a) = some st → st.sole = true → s.held (lineOf a) = false →
      s.Storable a → ∃ order, s.readyOrder <+: order ∧ exec (.conditional c tag a v) s = .next
        ((State.stored { s with reservations := s.reservations.set c none } a v).withEntry c
          (s.entryOf tag (.conditional a v) (.ready .ok (s.latchSet c) [])) order))

/-- WATCH of a line held valid: DATA-ERROR on a poisoned word, OK with a word that differs, else ARMED with its timeout
(R157, R158). No pass over the waiting list follows, which is the model's choice (notes/assumptions/42.md). -/
def Obligations.WatchComparesOrArms : Prop :=
  ∀ (s : State) (c : ChanId) (tag : BitVec 8) (a : Addr) (v : Word) (n : BitVec 16), s.Presents c →
    s.acceptanceCheck (.watch a v n) = none → s.watches[c] = none → s.heldValid (lineOf a) = true →
    ∃ order, s.readyOrder <+: order ∧ exec (.watch c tag a v n) s = .next
      (if s.loadPoison a then
        s.withEntry c (s.entryOf tag (.watch a v n) (.ready .dataError (s.latchSet c) [])) order
      else if s.loadWord a ≠ v then
        (s.touch (lineOf a)).withEntry c (s.entryOf tag (.watch a v n) (.ready .ok (s.latchSet c) [s.loadWord a])) order
      else
        State.withEntry { s.touch (lineOf a) with
            watches := s.watches.set c (some { phase := .armed, addr := a, compare := v, remaining := n.toNat }) } c
          (s.entryOf tag (.watch a v n) (.opened .active)) order)

/-- FLUSH: nothing to do for a direct line or one not held; the flush waiter of its line's writeback buffer entry,
where that has none (R76); it waits behind a hold, an entry and a FILL-PENDING way (R17, R133). A clean line is
dropped, a dirty line moves to the writeback buffer with its FLUSH, and its reservations break; its flush is pending
where the buffer is full (R10, R17, R133, R147). A line that an ARMED watch names is in another statement
(DepartedWatchesFetchAgain). No pass over the waiting list follows a line that leaves so, which is the model's choice
(notes/assumptions/42.md). -/
def Obligations.FlushActsOnTheHeldCopy : Prop :=
  ∀ (s : State) (c : ChanId) (tag : BitVec 8) (a : Addr), s.Presents c → s.acceptanceCheck (.flush a) = none →
    let l := lineOf a
    let becomes := fun (t : State) (p : Progress) => ∃ order, s.readyOrder <+: order ∧
      exec (.flush c tag a) s = .next (t.withEntry c (s.entryOf tag (.flush a) p) order)
    let done := Progress.ready .ok (s.latchSet c) []
    (isDirect l = true ∨ (s.held l = false ∧ s.entryFor l = none ∧ s.lookup l = none ∧ s.writebackFor l = none) →
      becomes s done) ∧
    (isDirect l = false → s.held l = true ∨ (s.entryFor l).isSome = true ∨ s.lookup l = some .invalid →
      becomes (s.waits (.chan c) s.nextPlace) (.opened .active)) ∧
    (∀ e, isDirect l = false → s.held l = false → s.entryFor l = none → s.lookup l = none → s.writebackFor l = some e →
      (e.flush = none → becomes { s with
        writebacks := s.writebacks.map (fun x => if x.line = l then { x with flush := some c } else x) }
        (.opened .active)) ∧
      (e.flush.isSome = true → becomes (s.waits (.chan c) s.nextPlace) (.opened .active))) ∧
    (s.held l = false → s.entryFor l = none → s.heldValid l = true →
      let gone : State := { s.dropTag l with reservations := s.reservations.map (fun r => r.filter (fun b => lineOf b ≠ l)) }
      let quiet := s.Unwatched l ∧
        ∀ (d : ChanId) b, s.reservations[d] = some b → lineOf b = l → s.isWaiting (.chan d) = false
      (s.heldDirty l = false → quiet → becomes gone done) ∧
      (s.heldDirty l = true → s.writebacks.length < 2 → quiet → becomes { gone with
        writebacks := s.writebacks ++ [{
          line := l
          data := s.lineData l
          retry := 0
          flush := some c
          age := s.now + 1 }] } (.opened .active)) ∧
      (s.heldDirty l = true → 2 ≤ s.writebacks.length → becomes { s with
        waiting := insertBy (fun y => y.place)
          { who := .chan c, place := s.nextPlace, pendingFlush := true, due := false } s.waiting } (.opened .active)))

/-- FENCE: the latch goes into the data word and is cleared, DEFERRED shows it as it stood; no other latch is touched
(R142, R143; chapter 12, FENCE latch word). -/
def Obligations.FenceReportsTheLatch : Prop :=
  ∀ (s : State) (c : ChanId) (tag : BitVec 8), s.Presents c → s.acceptanceCheck .fence = none →
    ∃ order w, s.readyOrder <+: order ∧ exec (.fence c tag) s = .next
      (State.withEntry { s with latches := s.latches.set c none } c
        (s.entryOf tag .fence (.ready .ok (s.latches[c].isSome) [w])) order) ∧
      (s.latches[c] = none → w = 0) ∧
      (∀ l, s.latches[c] = some l → w.getLsbD 63 = true ∧ w.extractLsb' 59 4 = statusCode l.status ∧
        w.getLsbD 58 = l.more ∧ w.extractLsb' 21 37 = 0 ∧ w.extractLsb' 0 21 = l.addr)

/-- PROBE answers the line report and changes nothing (R170, R171); STATUS answers the four status words, and with CLEAR set
zeroes the seven counters (R172, R174). -/
def Obligations.ProbeAndStatusReport : Prop :=
  ∀ (s : State) (c : ChanId) (tag : BitVec 8), s.Presents c →
    (∀ a, s.acceptanceCheck (.probe a) = none → ∃ order, s.readyOrder <+: order ∧ exec (.probe c tag a) s = .next
      (s.withEntry c (s.entryOf tag (.probe a) (.ready .ok (s.latchSet c) [(s.lineReport a).word])) order)) ∧
    (∃ order, s.readyOrder <+: order ∧ exec (.status c tag) s = .next
      (s.withEntry c (s.entryOf tag (.status false) (.ready .ok (s.latchSet c) s.statusWords)) order)) ∧
    (∃ order, s.readyOrder <+: order ∧ exec (.statusClear c tag) s = .next
      (State.withEntry { s with counters := {
          voided := 0, checkErrors := 0, lateReplies := 0, lostReplies := 0
          abandoned := 0, poisonReceived := 0, refused := 0 } } c
        (s.entryOf tag (.status true) (.ready .ok (s.latchSet c) s.statusWords)) order))

/-- The words that PROBE and STATUS answer with, field by field, from the station's blocks (R170, R172, R173; chapter 12):
the line report, the four STATUS words; and the header of a completion record with its codes (R110; chapter 12). -/
def Obligations.ReportsFollowTheirLayouts : Prop :=
  (∀ (s : State) (a : Addr),
    let l := lineOf a
    let w := (s.lineReport a).word
    (w.getLsbD 63 = true ↔ 1792 ≤ a.toNat / 64 % 2048) ∧ (w.getLsbD 62 = true ↔ homeOf l = s.station.number) ∧
    w.extractLsb' 59 3 = (match s.lookup l with
      | some .shared => 1
      | some .cleanSole => 2
      | some .dirtyShared => 3
      | some .dirtySole => 4
      | _ => 0) ∧
    (w.getLsbD 58 = true ↔ s.lookup l = some .invalid) ∧
    (s.findWay l = none → w.extractLsb' 52 6 = 0) ∧
    (∀ x, s.findWay l = some x → w.getLsbD 57 = true ∧ (w.extractLsb' 55 2).toNat = x.val ∧
      (s.Recency → (w.extractLsb' 52 3).toNat = s.lines[setOf l].order.idxOf x + 1)) ∧
    w.extractLsb' 44 8 = (if s.heldValid l then (s.lineData l).poison else 0) ∧
    (w.getLsbD 43 = true ↔ ∃ (c : ChanId) (h : HostEntry) (b : Addr), s.head? c = some h ∧ h.req = .flush b ∧
      lineOf b = l ∧ ∃ x ∈ s.waiting, x.who = .chan c ∧ x.pendingFlush = true) ∧
    (w.extractLsb' 40 3).toNat = s.reservations.toList.countP (fun r => r.any (fun b => lineOf b = l)) ∧
    (w.extractLsb' 37 3).toNat
      = s.watches.toList.countP (fun x => x.any (fun x => x.phase = .armed && lineOf x.addr = l)) ∧
    (s.entryFor l = none → w.extractLsb' 20 17 = 0) ∧
    (∀ e, s.entryFor l = some e → w.getLsbD 36 = true ∧
      w.extractLsb' 33 3 = (match e.kind with
        | .share => 0
        | .own => 1
        | .upgrade => 2
        | .direct (.read _) => 3
        | .direct (.write _ _ _) => 4
        | .direct (.atomic _ _ _ _) => 5) ∧
      w.extractLsb' 31 2 = (match e.phase with
        | .queued _ => 0
        | .awaitFill _ _ => 1
        | .awaitResult _ => 2) ∧
      (e.retry ≤ 255 → (w.extractLsb' 23 8).toNat = e.retry) ∧
      (e.waiters.length ≤ 5 → (w.extractLsb' 20 3).toNat = e.waiters.length)) ∧
    (s.writebackFor l = none → w.extractLsb' 10 10 = 0) ∧
    (∀ e, s.writebackFor l = some e → w.getLsbD 19 = true ∧ w.getLsbD 10 = e.flush.isSome ∧
      (e.retry ≤ 255 → (w.extractLsb' 11 8).toNat = e.retry)) ∧
    (s.replyFor l = none → w.extractLsb' 0 10 = if s.span.setAside = some l then 0x100 else 0) ∧
    (∀ r, s.replyFor l = some r → w.extractLsb' 8 2 = (match r.body with
        | .fill _ => 2
        | .result _ _ _ => 3) ∧
      (r.voids ≤ 255 → (w.extractLsb' 0 8).toNat = r.voids))) ∧
  (∀ s : State, ∃ w0 w1 w2 w3 : Word, s.statusWords = [w0, w1, w2, w3] ∧
    w0.extractLsb' 56 8 = 0x6B ∧ w0.extractLsb' 52 4 = s.station.number ∧ w0.extractLsb' 47 5 = s.station.count ∧
    w0.extractLsb' 45 2 = (match s.station.mode with
      | .inert => 0
      | .clearing => 1
      | .ready => 2) ∧
    (s.station.sweep ≤ 2048 → (w0.extractLsb' 33 12).toNat = s.station.sweep) ∧ w0.extractLsb' 0 32 = s.counters.voided ∧
    w1.extractLsb' 32 32 = s.counters.checkErrors ∧ w1.extractLsb' 0 32 = s.counters.lateReplies ∧
    w2.extractLsb' 32 32 = s.counters.lostReplies ∧ w2.extractLsb' 0 32 = s.counters.abandoned ∧
    w3.extractLsb' 32 32 = s.counters.poisonReceived ∧ w3.extractLsb' 0 32 = s.counters.refused) ∧
  (∀ c : Completion, ∃ h : Word, completionBeats c = h :: c.data ∧ (h.extractLsb' 62 2).toNat = c.ch.val ∧
    h.extractLsb' 54 8 = c.tag ∧ h.getLsbD 49 = c.deferred ∧ (c.data.length ≤ 4 →
      (h.extractLsb' 46 3).toNat = c.data.length) ∧
    (h.extractLsb' 50 4).toNat = (match c.status with
      | .ok => 0
      | .fail => 1
      | .timeout => 2
      | .dataError => 3
      | .lostReply => 4
      | .stalled => 5
      | .noHome => 6
      | .region => 7
      | .badRequest => 8
      | .refused => 9
      | .badConfig => 10))

/-- The identification value of a STATUS is 0x6B, whatever the straps, the station state and the resets have left (R173). -/
def Obligations.StatusIdentifiesTheStation : Prop :=
  ∀ (s : State) (c : ChanId) (tag : BitVec 8), s.Presents c →
    ∃ t e w ws d, exec (.status c tag) s = .next t ∧ e ∈ t.hostTable[c] ∧ e.progress = .ready .ok d (w :: ws) ∧
      ws.length = 3 ∧ w.extractLsb' 56 8 = 0x6B#8 ∧ w.extractLsb' 52 4 = s.station.number ∧
      w.extractLsb' 47 5 = s.station.count ∧ w.extractLsb' 0 32 = s.counters.voided

/-- POSTED_WRITE: it enters the posted write queue behind its head and completes OK; it waits for room in a full queue
(R116); on an empty queue it is stored at once into a line held sole, and what claims the word hears of it (R8, R9,
R136, R137). What else an empty queue's new head does is in PostedHeadFollowsItsTable. No pass over the waiting list
follows the store, which is the model's choice (notes/assumptions/42.md). -/
def Obligations.PostedWriteEntersTheQueue : Prop :=
  ∀ (s : State) (c : ChanId) (tag : BitVec 8) (a : Addr) (mask : BitVec 8) (v : Word), s.ChannelFree c → s.AtRest →
    s.acceptanceCheck (.posted a mask v) = none →
    (s.posted ≠ [] → s.posted.length < 8 → ∃ order, s.readyOrder <+: order ∧
      exec (.postedWrite c tag a mask v) s = .next
        (State.withEntry { s with
            posted := s.posted ++ [{ ch := c, addr := a, mask := mask, value := v, place := s.nextPlace }] } c
          (s.entryOf tag (.posted a mask v) (.ready .ok (s.latchSet c) [])) order)) ∧
    (8 ≤ s.posted.length → ∃ order, s.readyOrder <+: order ∧
      exec (.postedWrite c tag a mask v) s = .next
        (s.withEntry c (s.entryOf tag (.posted a mask v) (.opened .active)) order)) ∧
    (∀ st, s.posted = [] → s.isWaiting .posted = false → s.isWaiter .posted = false →
      s.lookup (lineOf a) = some st → st.sole = true → s.held (lineOf a) = false → s.Storable a →
      mask = fullMask ∨ s.loadPoison a = false → ∃ order, s.readyOrder <+: order ∧
      exec (.postedWrite c tag a mask v) s = .next
        ((s.stored a (if mask = fullMask then v else mergeMask mask (s.loadWord a) v)).withEntry c
          (s.entryOf tag (.posted a mask v) (.ready .ok (s.latchSet c) [])) order))

/-- The head of the posted write queue, looked up as it enters an empty queue (R136). It fails DATA-ERROR where a
partial mask meets a poisoned word, and its channel's latch takes the failure (R138, R141); a miss opens an OWN, a
shared line an UPGRADE, a direct line a D-WRITE (R49, R54); it joins an OWN or an UPGRADE of its line but under a hold
(R51); else it waits (R55): under a hold (on a sole line whatever it would store, which is the model's choice,
notes/assumptions/39.md), behind an entry or a writeback, for a free entry, for a way, or for the victim's writeback
room or the end of its hold (R11, R13, R53). Its WRITE has completed OK before any of this (R116). -/
def Obligations.PostedHeadFollowsItsTable : Prop :=
  ∀ (s : State) (c : ChanId) (tag : BitVec 8) (a : Addr) (mask : BitVec 8) (v : Word), s.ChannelFree c → s.AtRest →
    s.acceptanceCheck (.posted a mask v) = none → s.posted = [] → s.isWaiting .posted = false →
    s.isWaiter .posted = false →
    let l := lineOf a
    let p : PostedWrite := { ch := c, addr := a, mask := mask, value := v, place := s.nextPlace }
    let entered : State := { s with posted := [p] }
    let becomes := fun (t : State) => ∃ order, s.readyOrder <+: order ∧ exec (.postedWrite c tag a mask v) s
      = .next (t.withEntry c (s.entryOf tag (.posted a mask v) (.ready .ok (s.latchSet c) [])) order)
    let shared := s.lookup l = some .shared ∨ s.lookup l = some .dirtyShared
    (∀ st, s.lookup l = some st → st.sole = true → s.held l = false → mask ≠ fullMask → s.loadPoison a = true →
      becomes (s.failedPosted p .dataError)) ∧
    (s.held l = false → s.entryFor l = none → s.table.length < 4 →
      (∀ w, isDirect l = false → s.lookup l = none → s.writebackFor l = none → s.victim l = some w → s.Leaves l w →
        becomes ((entered.victimGone l w).opens .posted .own (some w) l)) ∧
      (shared → becomes (entered.opens .posted .upgrade none l)) ∧
      (isDirect l = true → becomes (entered.opens .posted (.direct (.write (wordOf a) mask v)) none l))) ∧
    (∀ e, s.held l = false → s.entryFor l = some e →
      (s.lookup l = some .invalid ∧ e.kind = .own) ∨ (shared ∧ e.kind = .upgrade) → becomes (entered.joins .posted l)) ∧
    (s.held l = true ∨ (s.lookup l = none ∧ isDirect l = false ∧ (s.writebackFor l).isSome = true) ∨
        (∃ e, s.entryFor l = some e ∧ ((s.lookup l = some .invalid ∧ e.kind ≠ .own) ∨ isDirect l = true)) ∨
        (4 ≤ s.table.length ∧ s.entryFor l = none ∧ (isDirect l = true ∨ s.lookup l = none ∨ shared)) ∨
        (s.lookup l = none ∧ isDirect l = false ∧ s.Cramped l) →
      becomes (entered.waits .posted s.nextPlace))

/-- What the removal of the posted write queue's head brings with it, in the order of R137, shown where a
REPLY_TIMER_EXPIRY ends its entry, whatever the timer reads (notes/assumptions/5.md), and it fails LOST-REPLY (R68,
R138, R141): the next entry becomes the head and is stored at once, or waits; a draining FENCE of the channel becomes
ACTIVE and reads the failure (R115, R143); the freed room goes to the oldest posted WRITE head that waits for it
(R116). The order shows twice: the new head takes the one free entry, and the drained READ of the removed head's
channel waits for it; and a posted WRITE behind a drained FENCE becomes its channel's head and takes the room before a
younger one that was waiting, which is the model's reading of R116 and R137 (notes/assumptions/8.md). -/
def Obligations.PostedQueueMovesOn : Prop :=
  ∀ (s : State) (l : LineAddr) (e : TableEntry) (p : PostedWrite) (rest : List PostedWrite), s.porst = false → s.AtRest →
    s.OnePlace → s.HeadLaw → s.waiting = [] → s.entryFor l = some e → e.phase.awaiting = true → e.waiters = [.posted] →
    s.posted = p :: rest →
    let failure := takeFailure s.latches[p.ch] .lostReply p.addr
    let ended : State := { s with
      now := s.now + 1
      lines := (s.freeFillPending l).lines
      table := s.table.filter (fun x => x.line ≠ l)
      counters := { s.counters with lostReplies := s.counters.lostReplies + 1 }
      latches := s.latches.set p.ch (some failure)
      posted := rest }
    let becomes := fun (t : State) => ∃ order, s.readyOrder <+: order ∧
      exec (.replyTimerExpiry l) s = .next { t with readyOrder := order }
    (∀ q st, rest = [q] → s.NoDrain → ended.lookup (lineOf q.addr) = some st → st.sole = true →
      ended.held (lineOf q.addr) = false → ended.Storable q.addr → q.mask = fullMask ∨ ended.loadPoison q.addr = false →
      becomes { ended.stored q.addr (if q.mask = fullMask then q.value
        else mergeMask q.mask (ended.loadWord q.addr) q.value) with posted := [] }) ∧
    (∀ h, rest = [] → s.hostTable[p.ch] = [h] → h.inPhase .draining = true → h.req = .fence →
      (∀ d h', d ≠ p.ch → s.head? d = some h' → h'.inPhase .draining = false) →
      becomes { ended.answered p.ch h .ok [latchWord (some failure)] with latches := s.latches.set p.ch none }) ∧
    (∀ q qs d h a mask v, rest = q :: qs → rest.length = 7 → ended.held (lineOf q.addr) = true →
      (∀ d h', s.head? d = some h' → h'.inPhase .draining = true → rest.any (fun x => x.ch = d) = true) →
      s.hostTable[d] = [h] → h.inPhase .active = true → h.req = .posted a mask v →
      (∀ d' h', d' ≠ d → s.head? d' = some h' → h'.inPhase .active = true → h'.req.isPosted = true → h.place < h'.place) →
      becomes { ((ended.waits .posted q.place).answered d h .ok []) with
        posted := rest ++ [{ ch := d, addr := a, mask := mask, value := v, place := h.place }] }) ∧
    (∀ q h b, rest = [q] → s.table.length = 4 → isDirect (lineOf q.addr) = true → s.entryFor (lineOf q.addr) = none →
      s.held (lineOf q.addr) = false → q.ch ≠ p.ch → s.hostTable[p.ch] = [h] → h.inPhase .draining = true →
      h.req = .read b → isDirect (lineOf b) = true →
      (∀ d h', s.head? d = some h' → h'.inPhase .draining = true → d = p.ch ∨ d = q.ch) →
      becomes { ((State.opens { ended with now := s.now } .posted (.direct (.write (wordOf q.addr) q.mask q.value)) none
        (lineOf q.addr)).waits (.chan p.ch) h.place).rephased p.ch h .active with now := s.now + 1 }) ∧
    (∀ q qs h g a mask v, rest = q :: qs → rest.length = 7 → ended.held (lineOf q.addr) = true →
      (∀ x ∈ rest, x.ch ≠ p.ch) → s.hostTable[p.ch] = [h, g] → h.inPhase .draining = true → h.req = .fence →
      g.inPhase .waiting = true → g.check = none → g.req = .posted a mask v →
      (∀ d h', d ≠ p.ch → s.head? d = some h' →
        (h'.inPhase .draining = true → rest.any (fun x => x.ch = d) = true) ∧
        (h'.inPhase .active = true → h'.req.isPosted = true → g.place < h'.place)) →
      becomes { ended.waits .posted q.place with
        hostTable := s.hostTable.set p.ch [
          { h with progress := .ready .ok true [latchWord (some failure)] },
          { g with progress := .ready .ok false [] }]
        latches := s.latches.set p.ch none
        posted := rest ++ [{ ch := p.ch, addr := a, mask := mask, value := v, place := g.place }] })

/-! ### Requests that need the span (R11, R49, R53, R54, R126 to R131, R145, R149, R157) -/

/-- The victim: the least recent free way; with no free way the least recent that is not pinned and whose line no claim
stands on; with none of those the least recent that is not pinned; no way when all four are pinned (R11). -/
def Obligations.VictimIsTheLeastRecentOfItsRank : Prop :=
  ∀ (s : State) (l : LineAddr) (w : WayId), s.Recency →
    let tag := fun w => (s.wayAt l w).tag
    let free := fun w => tag w = none
    let pinned := fun w => ∃ t, tag w = some t ∧
      ((s.wayAt l w).state = .invalid ∨ (∃ e ∈ s.table, e.line = t) ∨ s.flushPending t = true)
    let claimed := fun w => ∃ t, tag w = some t ∧ ((∃ (c : ChanId) (a : Addr), s.reservations[c] = some a ∧ lineOf a = t) ∨
      ∃ (c : ChanId) (x : Watch), s.watches[c] = some x ∧ x.phase = .armed ∧ lineOf x.addr = t)
    let least := fun (p : WayId → Prop) => p w ∧ ∀ v, p v →
      s.lines[setOf l].order.idxOf v ≤ s.lines[setOf l].order.idxOf w
    (s.victim l = some w ↔ least free ∨
      ((∀ v, ¬free v) ∧ least (fun v => ¬pinned v ∧ ¬claimed v)) ∨
      ((∀ v, ¬free v) ∧ (∀ v, pinned v ∨ claimed v) ∧ least (fun v => ¬pinned v)))

/-- A miss with a free entry and a victim: the victim way becomes FILL-PENDING for the line and a QUEUED entry of the kind
is made with the operation as its one waiter (R4, R49, R54). A line in the victim way departs: clean it is dropped, dirty
it moves to the writeback buffer; its reservations break (R10, R12, R13). A victim that an ARMED watch names is in another
statement (DepartedWatchesFetchAgain). -/
def Obligations.MissOpensAnEntry : Prop :=
  ∀ (i : Instr) (s : State) (c : ChanId) (tag : BitVec 8) (r : Request) (a : Addr) (k : TableKind) (w : WayId),
    requestOf i = some (c, tag, r) → r.addr? = some a → missKind r = some k → s.Presents c →
    s.acceptanceCheck r = none → isDirect (lineOf a) = false → s.lookup (lineOf a) = none →
    s.writebackFor (lineOf a) = none → s.held (lineOf a) = false → s.entryFor (lineOf a) = none → s.table.length < 4 →
    let base : State := { s with reservations := if r = .reserve a then s.reservations.set c none else s.reservations }
    base.victim (lineOf a) = some w → s.Leaves (lineOf a) w →
    ∃ order, s.readyOrder <+: order ∧ exec i s = .next
      (((base.victimGone (lineOf a) w).opens (.chan c) k (some w) (lineOf a)).withEntry c
        (s.entryOf tag r (.opened .joined)) order)

/-- A write-type request on a line held SHARED or DIRTY-SHARED opens an UPGRADE, a direct request opens its D-kind entry:
QUEUED, with no way and the operation as its one waiter (R49, R54, R126 to R131, R149). -/
def Obligations.UpgradeAndDirectOpenAnEntry : Prop :=
  ∀ (i : Instr) (s : State) (c : ChanId) (tag : BitVec 8) (r : Request) (a : Addr) (k : TableKind),
    requestOf i = some (c, tag, r) → r.addr? = some a → s.Presents c → s.acceptanceCheck r = none →
    s.held (lineOf a) = false → s.entryFor (lineOf a) = none → s.table.length < 4 →
    (k = .upgrade ∧ (s.lookup (lineOf a) = some .shared ∨ s.lookup (lineOf a) = some .dirtyShared) ∧
        (missKind r = some .own ∨ (∃ v, r = .conditional a v) ∧ s.reservations[c] = some a)) ∨
      (isDirect (lineOf a) = true ∧ ∃ d, directOf r = some d ∧ k = .direct d) →
    ∃ order, s.readyOrder <+: order ∧ exec i s = .next
      ((s.opens (.chan c) k none (lineOf a)).withEntry c (s.entryOf tag r (.opened .joined)) order)

/-- A request joins the entry of its line, last and JOINED, where the entry's kind admits it: READ, RESERVE and WATCH
a SHARE or OWN of a FILL-PENDING line, WRITE and ATOMIC its OWN, WRITE, ATOMIC and CONDITIONAL the UPGRADE of a line
held shared (R51, R52, R114). Else it waits in the waiting list at its acceptance place and holds nothing: behind an
entry it may not join, behind its line's writeback, under a hold, for a free entry, for a way while all four are
pinned, or for the victim's writeback room or the end of its hold (R11, R13, R41, R53, R55). A RESERVE clears its
channel's reservation first (R145). That a READ, WRITE or ATOMIC joins under a hold too, and a CONDITIONAL does not,
is read from their tables (notes/assumptions/10.md); that every write-type request waits on a sole line under a hold
is the model's choice (notes/assumptions/39.md). -/
def Obligations.RequestsJoinOrWait : Prop :=
  ∀ (i : Instr) (s : State) (c : ChanId) (tag : BitVec 8) (r : Request) (a : Addr),
    requestOf i = some (c, tag, r) → r.addr? = some a → s.Presents c → s.acceptanceCheck r = none →
    s.watches[c] = none →
    let l := lineOf a
    let base : State := { s with reservations := if r = .reserve a then s.reservations.set c none else s.reservations }
    let reads := missKind r = some .share
    let writes := missKind r = some .own
    let stands := (∃ v, r = .conditional a v) ∧ s.reservations[c] = some a
    let shared := s.lookup l = some .shared ∨ s.lookup l = some .dirtyShared
    let direct := isDirect l = true ∧ (directOf r).isSome = true
    let becomes := fun (t : State) (ph : HostPhase) => ∃ order, s.readyOrder <+: order ∧
      exec i s = .next (t.withEntry c (s.entryOf tag r (.opened ph)) order)
    (∀ e, s.entryFor l = some e →
      (s.lookup l = some .invalid → (reads ∧ (e.kind = .share ∨ e.kind = .own)) ∨ (writes ∧ e.kind = .own) →
        becomes (base.joins (.chan c) l) .joined) ∧
      (shared → e.kind = .upgrade → writes ∨ (stands ∧ s.held l = false) →
        becomes (base.joins (.chan c) l) .joined) ∧
      (direct ∨ (s.lookup l = some .invalid ∧ writes ∧ e.kind ≠ .own) ∨ (shared ∧ stands ∧ s.held l = true) →
        becomes (base.waits (.chan c) s.nextPlace) .active)) ∧
    ((s.lookup l = none ∧ isDirect l = false ∧ (reads ∨ writes) ∧ ((s.writebackFor l).isSome = true ∨ s.held l = true)) ∨
        (s.held l = true ∧ (direct ∨ ((writes ∨ stands) ∧ shared ∧ s.entryFor l = none))) ∨
        (s.held l = true ∧ (writes ∨ stands) ∧ ∃ st, s.lookup l = some st ∧ st.sole = true) ∨
        (4 ≤ s.table.length ∧ s.entryFor l = none ∧ (direct ∨ (s.lookup l = none ∧ isDirect l = false ∧ (reads ∨ writes)) ∨
          (shared ∧ (writes ∨ stands)))) ∨
        (s.lookup l = none ∧ isDirect l = false ∧ (reads ∨ writes) ∧ base.Cramped l) →
      becomes (base.waits (.chan c) s.nextPlace) .active)

/-- The waiting list is served in the happening that frees what it waits for, oldest first by acceptance place (R56), shown
where a VOID verdict ends the hold of a line (R41): an operation of the line is performed, or joins, or is granted its entry;
on one free entry the older of two direct operations is granted and the younger waits on, and an older one that cannot be
granted does not stop the younger. -/
def Obligations.WaitingListIsServed : Prop :=
  ∀ (s : State) (others mine : Votes) (sender : StationNo) (l : LineAddr) (body : RequestBody), s.porst = false →
    s.AtRest → s.NoOffer l .void → s.span.tenure = .peer sender l body mine →
    classify body (orVotes mine others) = .void →
    let quiet := { s.span with setAside := none, homeReserved := false }
    let becomes := fun (t : State) => ∃ order next, s.readyOrder <+: order ∧
      exec (.requestTenureVerdict others) s = .next (State.closed { t with span := quiet } order next)
    let stands := fun (c : ChanId) (h : HostEntry) => s.hostTable[c] = [h] ∧ h.inPhase .active = true
    let item := fun (c : ChanId) (h : HostEntry) =>
      ({ who := .chan c, place := h.place, pendingFlush := false, due := false } : Waiting)
    (∀ c h a st, s.waiting = [item c h] → stands c h → h.req.word? = some a → lineOf a = l → s.lookup l = some st →
      st.sole = true →
      (∀ (x : ChanId) w, s.watches[x] = some w → w.phase = .armed → x ≠ c ∧ ∃ g, s.hostTable[x] = [g] ∧ g.isOpen = true) →
      becomes { s.served c h with waiting := [] }) ∧
    (∀ p st, s.waiting = [{ who := .posted, place := p.place, pendingFlush := false, due := false }] → s.posted = [p] →
      s.NoDrain → lineOf p.addr = l → s.lookup l = some st → st.sole = true → s.LoneWatches →
      becomes { s.servedWho .posted with waiting := [] }) ∧
    (∀ c h a v, s.waiting = [item c h] → stands c h → lineOf a = l → s.lookup l = some .shared ∨
        s.lookup l = some .dirtyShared →
      missKind h.req = some .own ∧ h.req.addr? = some a ∨ (h.req = .conditional a v ∧ s.reservations[c] = some a) →
      (∀ e, s.entryFor l = some e → e.kind = .upgrade →
        becomes { (s.joins (.chan c) l).rephased c h .joined with waiting := [] }) ∧
      (s.entryFor l = none → s.table.length < 4 →
        becomes { (s.opens (.chan c) .upgrade none l).rephased c h .joined with waiting := [] })) ∧
    (∀ c h d a c' h' d' a', s.waiting = [item c h, item c' h'] → c ≠ c' → h.place < h'.place → stands c h → stands c' h' →
      h.req.addr? = some a → h'.req.addr? = some a' → directOf h.req = some d → directOf h'.req = some d' →
      isDirect (lineOf a) = true → isDirect (lineOf a') = true → s.table.length = 3 →
      (s.entryFor (lineOf a) = none →
        becomes { (s.opens (.chan c) (.direct d) none (lineOf a)).rephased c h .joined with waiting := [item c' h'] }) ∧
      ((s.entryFor (lineOf a)).isSome = true → s.entryFor (lineOf a') = none →
        becomes { (s.opens (.chan c') (.direct d') none (lineOf a')).rephased c' h' .joined with waiting := [item c h] }))

/-- A line that leaves under an ARMED watch: the watch moves to REFETCH and its refetch is looked up in the same
happening, at its WATCH's place (R10, R160, R161). It opens a SHARE in the victim way that it finds once the line has
left, or waits: for a free entry, or behind the line's writeback. Shown where a peer takes the line, where a FLUSH
drops it or writes it back, and where it is the victim of a miss. -/
def Obligations.DepartedWatchesFetchAgain : Prop :=
  ∀ (s : State) (l : LineAddr) (d : ChanId) (w : Watch) (hd : HostEntry) (v : WayId), s.porst = false → s.AtRest →
    s.OnePlace → s.waiting = [] → s.heldValid l = true → s.WatchedBy l d w hd → s.entryFor l = none →
    s.writebackFor l = none →
    let broken := s.reservations.map (fun r => r.filter (fun a => lineOf a ≠ l))
    let waits := fun (t : State) => t.refetchWaits d w hd
    let opens := fun (t : State) => t.refetchOpens l v d w hd
    let left : State := { s.dropTag l with reservations := broken }
    ((s.dropTag l).victim l = some v →
      (∀ others mine sender k x, k = .own ∨ k = .upgrade → s.span.tenure = .peer sender l (.table k) mine →
        classify (.table k) (orVotes mine others) = x → x ≠ .void → s.NoOffer l x →
        let taken := { left with
          replies := if x = .ownerFill ∧ s.span.setAside = some l ∧ s.heldDirty l = true then
            s.replies ++ [{ addressee := sender, line := l, body := .fill (s.lineData l), voids := 0 }] else s.replies
          homeQueue := if x = .homeFill then s.homeWith sender l .read else s.homeQueue
          span := { s.span with setAside := none, homeReserved := false } }
        ∃ order next, s.readyOrder <+: order ∧ exec (.requestTenureVerdict others) s = .next
          (State.closed (if s.table.length < 4 then opens taken else waits taken) order next)) ∧
      (∀ c tag a, s.Presents c → s.acceptanceCheck (.flush a) = none → lineOf a = l → s.held l = false →
        s.heldDirty l = false → ∃ order, s.readyOrder <+: order ∧ exec (.flush c tag a) s = .next
        ((if s.table.length < 4 then opens left else waits left).withEntry c
          (s.entryOf tag (.flush a) (.ready .ok (s.latchSet c) [])) order))) ∧
    (∀ c tag a, s.Presents c → s.acceptanceCheck (.flush a) = none → lineOf a = l → s.held l = false →
      s.heldDirty l = true → s.writebacks.length < 2 → ∃ order, s.readyOrder <+: order ∧
      exec (.flush c tag a) s = .next ((waits { left with
        writebacks := s.writebacks ++ [{
          line := l
          data := s.lineData l
          retry := 0
          flush := some c
          age := s.now + 1 }] }).withEntry c (s.entryOf tag (.flush a) (.opened .active)) order)) ∧
    (∀ i c tag r a k x, requestOf i = some (c, tag, r) → r.addr? = some a → missKind r = some k → s.Presents c →
      s.acceptanceCheck r = none → isDirect (lineOf a) = false → s.lookup (lineOf a) = none →
      s.writebackFor (lineOf a) = none → s.held (lineOf a) = false → s.entryFor (lineOf a) = none → s.table.length = 3 →
      (∀ b, r ≠ .reserve b) → s.victim (lineOf a) = some x → (s.wayAt (lineOf a) x).tag = some l → s.held l = false →
      ((s.wayAt (lineOf a) x).state.dirty = true → s.writebacks.length < 2) → ∃ order, s.readyOrder <+: order ∧
      exec i s = .next ((waits ((s.victimGone (lineOf a) x).opens (.chan c) k (some x) (lineOf a))).withEntry c
        (s.entryOf tag r (.opened .joined)) order))

/-! ### Contending and the grant (R28 to R33, R178) -/

/-- While no frame is on the span: the request entries that are candidates of a station that has joined and is not INERT
(R28, R34, R57), and the one put forward: the oldest reply, else the oldest urgent request entry that does not yield, else
the oldest request entry (R29). Which of two entries of one age goes first is left open (notes/assumptions/6.md). -/
def Obligations.CandidateIsTheOldestOfItsKind : Prop :=
  ∀ s : State, s.span.tenure = .idle →
    (s.station.mode = .inert ∨ s.span.joined = false → s.chooseCandidate = none) ∧
    (s.station.mode ≠ .inert → s.span.joined = true →
      (∀ x, x ∈ s.requestCandidates ↔
        (¬(homeOf x.line = s.station.number ∧ s.station.mode = .clearing) ∧
          ((∃ e ∈ s.table, e.phase = .queued x.age ∧ x.line = e.line ∧ x.which = .entry e.line ∧
              (x.urgent = true ↔ 32 ≤ e.retry)) ∨
            (∃ e ∈ s.writebacks, e.age = x.age ∧ x.line = e.line ∧ x.which = .writeback e.line ∧
              (x.urgent = true ↔ 32 ≤ e.retry))))) ∧
      (∀ r rs, s.replies = r :: rs → s.chooseCandidate = some (.reply r.line)) ∧
      (s.replies = [] → s.requestCandidates = [] → s.chooseCandidate = none) ∧
      (s.replies = [] → s.requestCandidates ≠ [] →
        ∃ x ∈ s.requestCandidates, s.chooseCandidate = some x.which ∧
          ((x.urgent = true ∧ s.span.yields ≠ some x.line ∧
              ∀ y ∈ s.requestCandidates, y.urgent = true → s.span.yields ≠ some y.line → x.age ≤ y.age) ∨
            ((∀ y ∈ s.requestCandidates, ¬(y.urgent = true ∧ s.span.yields ≠ some y.line)) ∧
              ∀ y ∈ s.requestCandidates, x.age ≤ y.age))))

/-- The holder of a set of station lines: below the station count the first found after the rotation point, which is
searched last; failing one, the lowest line at or above the station count; none when no line is asserted (R31, R178). -/
def Obligations.HolderIsTheFirstAfterTheRotationPoint : Prop :=
  ∀ (rotation count : Nat) (lines : BitVec 16), count ≤ 16 → rotation < count →
    (∀ n < count, (holderNumber rotation count lines = some n ↔ lines.getLsbD n = true ∧
      ∀ m < count, lines.getLsbD m = true →
        (n + count - 1 - rotation) % count ≤ (m + count - 1 - rotation) % count)) ∧
    ((∀ n < count, lines.getLsbD n = false) →
      ∀ n < 16, (holderNumber rotation count lines = some n ↔ lines.getLsbD n = true ∧
        ∀ m < 16, lines.getLsbD m = true → n ≤ m)) ∧
    (lines = 0 → holderNumber rotation count lines = none)

/-- GRANT: a claim in the highest class, found first and still a candidate, sends its entry's frame with this station's own
HOME vote on it (R31, R32, R35); in every other case the span stays idle. Either way the claim is spent, and the holder's
number is the one that the search of the highest class's station lines finds (R25, R29, R31, R32, R178). -/
def Obligations.GrantSendsTheFrameOrPassesBy : Prop :=
  ∀ (s : State) (decided : ArbitrationAt) (reply urgent normal : BitVec 16), s.porst = false → s.span.tenure = .idle →
    let n := s.station.number
    let own := s.count1.claim decided
    let driven := fun (k : Machine.Class) => own.map Claim.cls = some k
    let asserts := fun (k : Machine.Class) => classLines k reply urgent normal ≠ 0 ∨ driven k
    let highest := fun (k : Machine.Class) =>
      asserts k ∧ (k ≠ .reply → ¬asserts .reply) ∧ (k = .normal → ¬asserts .urgent)
    let found := fun (k : Machine.Class) (mine : Bool) => holderNumber s.span.rotation s.station.count.toNat
      (classLines k reply urgent normal ||| if mine then 1#16 <<< n.toNat else 0)
    let wins := fun (k : Machine.Class) => highest k ∧ found k true = some n.toNat
    let sent := fun (t : Tenure) (reserves : Bool) (yields : Option LineAddr) => { s with
      now := s.now + 1
      span := { s.span with
        tenure := t
        granted := some n
        rotation := if s.station.count.toNat ≤ n.toNat then s.station.count.toNat - 1 else n.toNat
        joined := true
        putForward := none
        yields := yields
        homeReserved := s.span.homeReserved || reserves } }
    (∀ c k, own = some { candidate := some c, cls := k } → wins k → s.stillCandidate c = true →
      (∀ l r, c = .reply l → s.replyFor l = some r → exec (.grant decided reply urgent normal) s
        = .next (sent (.ownReply l (.reply n r.addressee l r.body)) false s.span.yields)) ∧
      (∀ l e, c = .entry l → s.entryFor l = some e → exec (.grant decided reply urgent normal) s
        = .next (sent (.ownEntry l (.request n l (.table e.kind)) (s.homeVote l (.table e.kind)))
            (s.homeVote l (.table e.kind) && e.kind ≠ .upgrade) none)) ∧
      (∀ l e, c = .writeback l → s.writebackFor l = some e → exec (.grant decided reply urgent normal) s
        = .next (sent (.ownWriteback l (.request n l (.ret e.data)) (s.homeVote l (.ret e.data)))
            (s.homeVote l (.ret e.data)) none))) ∧
    ((∀ c k, own = some { candidate := some c, cls := k } → wins k → s.stillCandidate c = false) →
      ∃ g, exec (.grant decided reply urgent normal) s = .next { s with
          now := s.now + 1
          span := { s.span with putForward := none, granted := g } } ∧
        (∀ k, highest k → (driven k → g = (found k true).map (BitVec.ofNat 4)) ∧
          (¬driven k → g = (found k false).map (BitVec.ofNat 4))) ∧
        ((∀ k, ¬asserts k) → g = none))

/-! ### Peers' frames (R33 to R41, R45, R46, R176, R177) -/

/-- A peer's request frame taken as sent is voted on by R37 to R40; a SUPPLY vote sets a reply queue entry aside, a HOME
vote but on an UPGRADE reserves a home operation queue entry; the rotation point follows the holder, whose number the
station read at the grant (R25, R33). -/
def Obligations.PeerRequestIsVotedOn : Prop :=
  ∀ (i : Instr) (s : State) (h : Header) (body : RequestBody) (decodes : Bool), frameOf i = some (h, body, decodes) →
    s.porst = false → s.span.tenure = .idle → s.station.mode ≠ .inert → s.count1.Readable h body decodes →
    let l := h.line
    let room := s.replies.length + (if s.span.setAside.isSome then 1 else 0) < 4
    let owed := (∃ r ∈ s.replies, r.line = l) ∨ s.span.setAside = some l
    ∃ v : Votes,
      (v.copy = s.heldValid l) ∧
      (v.supply = true ↔ (body = .table .share ∨ body = .table .own) ∧ s.heldDirty l = true) ∧
      (v.home = true ↔ homeOf l = s.station.number ∧ s.station.mode = .ready ∧ (body = .table .upgrade ∨
        s.homeQueue.length + (if s.span.homeReserved then 1 else 0) < 6)) ∧
      (v.retry = true ↔ (∃ e ∈ s.table, e.line = l ∧ e.phase.awaiting = true) ∨ (∃ e ∈ s.writebacks, e.line = l) ∨
        owed ∨ (v.supply = true ∧ ¬room)) ∧
      ∃ aside, (v.supply = true ∧ room ∧ ¬owed → aside = some l) ∧
        (¬(v.supply = true ∧ room ∧ ¬owed) → aside = s.span.setAside) ∧
        exec i s = .next { s with
          now := s.now + 1
          span := { s.span with
            tenure := .peer h.sender l body v
            granted := some h.sender
            rotation := h.sender.toNat
            joined := true
            setAside := aside
            homeReserved := s.span.homeReserved || (v.home && body ≠ .table .upgrade) } }

/-- A peer's request frame that cannot be taken as sent, or whose kind does not decode, draws RETRY alone, a bad check
counted once; an INERT station reads and drives nothing (R35, R36, R46, R47, R176). A reply frame is heard: RETRY is
driven on a bad check alone (R45). The rotation point follows the holder's number read at the grant, or a number left open
where the station read no grant (notes/assumptions/41.md). -/
def Obligations.FramesNotVotedOn : Prop :=
  ∀ s : State, s.porst = false → s.span.tenure = .idle →
    let holder := s.count1.holder
    let heard := fun (good : Bool) (t : Tenure) => { s with
      now := s.now + 1
      counters := if good = false ∧ s.station.mode ≠ .inert then
        { s.counters with checkErrors := s.counters.checkErrors + 1 } else s.counters
      span := { s.span with
        tenure := t
        granted := some holder
        rotation := if s.station.count.toNat ≤ holder.toNat then s.station.count.toNat - 1 else holder.toNat
        joined := true } }
    (∀ g, s.span.granted = some g → holder = g) ∧
    (∀ i h body decodes, frameOf i = some (h, body, decodes) →
      (s.station.mode = .inert → exec i s = .next (heard h.good (.peerUnreadable false))) ∧
      (s.station.mode ≠ .inert → ¬s.count1.Readable h body decodes →
        exec i s = .next (heard h.good (.peerUnreadable true)))) ∧
    (∀ sender kind good, exec (.undecodableFrameKind sender kind good) s
      = .next (heard good (.peerUnreadable (s.station.mode ≠ .inert)))) ∧
    (∀ i h addressee body, replyOf i = some (h, addressee, body) → exec i s
      = .next (heard h.good (.peerReply addressee h.line body h.good (h.good = false && s.station.mode ≠ .inert))))

/-! ### Verdicts (R42 to R45) -/

/-- R42: the classification by RETRY, HOME, SUPPLY and the kind; COPY does not enter it and stays for the install state of
a SHARE; a station that took the frame as unreadable takes the tenure no further. -/
def Obligations.VerdictFollowsTheVoteLines : Prop :=
  (∀ (body : RequestBody) (v : Votes),
    (v.retry = true → classify body v = .void) ∧
    (v.retry = false → v.home = false → classify body v = .void) ∧
    (v.retry = false → v.home = true → body = .table .share ∨ body = .table .own →
      classify body v = if v.supply then .ownerFill else .homeFill) ∧
    (v.retry = false → v.home = true → body ≠ .table .share → body ≠ .table .own → classify body v = .taken)) ∧
  (∀ copy : Bool, installState .share .homeFill copy = if copy then .shared else .cleanSole) ∧
  (∀ (s : State) (others : Votes) (b : Bool), s.porst = false → s.AtRest → s.span.tenure = .peerUnreadable b →
    ∃ order next, s.readyOrder <+: order ∧ exec (.requestTenureVerdict others) s = .next (s.closed order next))

/-- Every verdict ends its tenure and its grant, starts the idle count again and decides the next arbitration: the station
puts forward the candidate it then has, in the class that candidate claims (R25, R29 to R31, R34). -/
def Obligations.VerdictsDecideTheNextClaim : Prop :=
  ∀ (i : Instr) (s t : State), s.porst = false →
    (∃ others, i = .requestTenureVerdict others) ∨ (∃ others, i = .ownTenureVerdict others) ∨
      (∃ retry, i = .replyTenureVerdict retry) →
    exec i s = .next t → t.span.tenure = .idle ∧ t.span.granted = none ∧ t.span.idleCount = 0 ∧
      t.span.putForward = t.chooseCandidate.map (fun c => { candidate := some c, cls := t.classOf c })

/-- The verdict of a peer's request tenure where no waiting operation follows it: at VOID what was reserved and set
aside is released, and a done head of the home operation queue is offered the reply queue entry so freed in the same
happening, and the queue takes it unless it is full or has an entry for its line (R38, R81, R82, R106); at TAKEN of a
RETURN or D-kind the reserved entry becomes the operation, in span order (R43, R95). A peer's SHARE at OWNER-FILL or
HOME-FILL: a sole line becomes shared, a dirty owner's snapshot becomes the FILL in the entry set aside, the home
reads at HOME-FILL alone (R18, R20, R43, R81, R95). -/
def Obligations.PeerVerdictReleasesQueuesOrShares : Prop :=
  (∀ (s : State) (others mine : Votes) (sender : StationNo) (l : LineAddr) (body : RequestBody), s.porst = false →
     s.AtRest → s.waiting = [] → s.span.tenure = .peer sender l body mine →
     let quiet := { s.span with setAside := none, homeReserved := false }
     (classify body (orVotes mine others) = .void → s.NoOffer l .void →
       ∃ order next, s.readyOrder <+: order ∧ exec (.requestTenureVerdict others) s
         = .next (State.closed { s with span := quiet } order next)) ∧
     (∀ x op rest b, classify body (orVotes mine others) = .void → s.span.setAside = some x → s.homeDone = some b →
       s.homeQueue = op :: rest →
       let room := s.replies.length < 4 ∧ ∀ r ∈ s.replies, r.line ≠ op.line
       (room → ∃ order next, s.readyOrder <+: order ∧ exec (.requestTenureVerdict others) s = .next (State.closed
         { s with
           replies := s.replies ++ [{ addressee := op.requester, line := op.line, body := b, voids := 0 }]
           homeQueue := rest
           homeDone := none
           span := quiet } order next)) ∧
       (¬room → ∃ order next, s.readyOrder <+: order ∧ exec (.requestTenureVerdict others) s
         = .next (State.closed { s with span := quiet } order next))) ∧
     (∀ b, classify body (orVotes mine others) = .taken → s.NoOffer l .taken →
       (∃ d, body = .ret d ∧ b = .write d) ∨ (∃ d, body = .table (.direct d) ∧ b = .direct d) →
       ∃ order next, s.readyOrder <+: order ∧ exec (.requestTenureVerdict others) s
         = .next (State.closed { s with span := quiet, homeQueue := s.homeWith sender l b } order next))) ∧
  (∀ (s : State) (others mine : Votes) (sender : StationNo) (l : LineAddr), s.porst = false → s.AtRest →
     s.waiting = [] → s.span.tenure = .peer sender l (.table .share) mine →
     ∀ v, classify (.table .share) (orVotes mine others) = v → v ≠ .void → s.NoOffer l v →
       ∃ order next, s.readyOrder <+: order ∧ exec (.requestTenureVerdict others) s = .next (State.closed
         { s with
           lines := (if s.lookup l = some .cleanSole then s.setLineState l .shared
             else if s.lookup l = some .dirtySole then s.setLineState l .dirtyShared else s).lines
           replies := if v = .ownerFill ∧ s.span.setAside = some l ∧ s.heldDirty l = true then
             s.replies ++ [{ addressee := sender, line := l, body := .fill (s.lineData l), voids := 0 }] else s.replies
           homeQueue := if v = .homeFill then s.homeWith sender l .read else s.homeQueue
           span := { s.span with setAside := none, homeReserved := false } } order next))

/-- A peer's OWN or UPGRADE at a verdict but VOID takes the line away: its way is INVALID, its reservations break, a
dirty owner's snapshot goes to an OWN's requester, the home reads at HOME-FILL alone, whether the line is held here or
not (R10, R18 to R20, R43, R95, R147). What waits on the line ends with it: a CONDITIONAL completes FAIL (R150), a
pending FLUSH OK with nothing to write (R17, R134). A watched line is in another statement
(DepartedWatchesFetchAgain). -/
def Obligations.PeerTakesTheLine : Prop :=
  ∀ (s : State) (others mine : Votes) (sender : StationNo) (l : LineAddr) (k : TableKind), s.porst = false →
    s.AtRest → k = .own ∨ k = .upgrade → s.span.tenure = .peer sender l (.table k) mine →
    ∀ v, classify (.table k) (orVotes mine others) = v → v ≠ .void → s.NoOffer l v →
      let becomes := fun (t : State) => ∃ order next, s.readyOrder <+: order ∧
        exec (.requestTenureVerdict others) s = .next (State.closed { t with
          homeQueue := if v = .homeFill then s.homeWith sender l .read else s.homeQueue
          span := { s.span with setAside := none, homeReserved := false } } order next)
      let taken : State := { s with
        lines := (s.dropTag l).lines
        reservations := s.reservations.map (fun r => r.filter (fun a => lineOf a ≠ l))
        replies := if v = .ownerFill ∧ s.span.setAside = some l ∧ s.heldDirty l = true then
          s.replies ++ [{ addressee := sender, line := l, body := .fill (s.lineData l), voids := 0 }] else s.replies }
      (s.heldValid l = false → s.waiting = [] → becomes s) ∧
      (s.heldValid l = true → s.entryFor l = none → s.Unwatched l → (∀ x ∈ s.waiting, s.EndsWith l x) →
        becomes { s.waiting.foldl State.endedWait taken with waiting := [] })

/-- A QUEUED UPGRADE overtaken by a peer's OWN or UPGRADE (R21, R58): the CONDITIONALs among its waiters complete
FAIL. With waiters left it is rewritten to OWN, on the way that held the line, FILL-PENDING, with those waiters in
their order and its retry count kept; with none left it is withdrawn and the way freed. The line departs: its
reservations break, a dirty owner's snapshot goes to an OWN's requester, the home reads at HOME-FILL (R10, R20, R81,
R95). What waits on the line and ends with it completes too: a CONDITIONAL FAIL, a pending FLUSH OK (R17, R150). Where
one ARMED watch names the line it moves to REFETCH, and its refetch, looked up in the same happening, joins the
rewritten OWN, last, or opens a SHARE in a victim way where the UPGRADE was withdrawn (R160, R161). -/
def Obligations.OvertakenUpgradeIsRewrittenOrWithdrawn : Prop :=
  ∀ (s : State) (others mine : Votes) (sender : StationNo) (l : LineAddr) (k : TableKind) (e : TableEntry),
    s.porst = false → s.AtRest → s.OnePlace → k = .own ∨ k = .upgrade →
    s.span.tenure = .peer sender l (.table k) mine → s.heldValid l = true → s.entryFor l = some e →
    e.kind = .upgrade → (∀ x ∈ s.waiting, s.EndsWith l x) →
    (∀ c, .chan c ∈ e.waiters → s.conditionalHead c = true → ∃ h, s.hostTable[c] = [h]) →
    ∀ v, classify (.table k) (orVotes mine others) = v → v ≠ .void → s.NoOffer l v →
      let left := e.waiters.filter (fun w => !s.conditionalWaiter w)
      let taken : State := { s with
        reservations := s.reservations.map (fun r => r.filter (fun a => lineOf a ≠ l))
        replies := if v = .ownerFill ∧ s.span.setAside = some l ∧ s.heldDirty l = true then
          s.replies ++ [{ addressee := sender, line := l, body := .fill (s.lineData l), voids := 0 }] else s.replies
        homeQueue := if v = .homeFill then s.homeWith sender l .read else s.homeQueue
        span := { s.span with setAside := none, homeReserved := false } }
      let failed := (e.waiters.filter s.conditionalWaiter).foldl (State.failedWho .fail)
        (s.waiting.foldl State.endedWait taken)
      let becomes := fun (t : State) => ∃ order next, s.readyOrder <+: order ∧
        exec (.requestTenureVerdict others) s = .next (State.closed { t with waiting := [] } order next)
      let rewritten : State := { failed with
        lines := (s.setLineState l .invalid).lines
        table := s.table.map (fun x => if x.line = l then
          { x with kind := .own, way := s.findWay l, phase := .queued (s.now + 1), waiters := left } else x) }
      let withdrawn : State := { failed with
        lines := (s.dropTag l).lines
        table := s.table.filter (fun x => x.line ≠ l) }
      (s.Unwatched l → (left ≠ [] → becomes rewritten) ∧ (left = [] → becomes withdrawn)) ∧
      (∀ d w hd, s.WatchedBy l d w hd →
        (left ≠ [] → becomes (rewritten.refetchJoins l d w hd)) ∧
        (∀ way, left = [] → s.table.length ≤ 4 → (s.dropTag l).victim l = some way →
          becomes (withdrawn.refetchOpens l way d w hd)))

/-- A VOID of the station's own request tenure raises VOIDED. Below 255 the entry is QUEUED again with its retry count
raised, and yields once it is urgent, from the VOID that raises its count to 32 on, which is the model's reading of R29
(notes/assumptions/20.md); at 255 it is abandoned, its waiters complete STALLED and ABANDONED rises (R29, R44, R59, R60). An
entry left by a host reset is withdrawn (R44, R72). -/
def Obligations.OwnVoidRequeuesOrAbandons : Prop :=
  ∀ (s : State) (others : Votes) (n : StationNo) (l : LineAddr) (home : Bool) (e : TableEntry), s.porst = false →
    s.AtRest → s.OnePlace → s.span.tenure = .ownEntry l (.request n l (.table e.kind)) home → s.entryFor l = some e →
    classify (.table e.kind) (orVotes (ownVotes home) others) = .void →
    let free := { s.span with homeReserved := false }
    let counted := { s.counters with voided := s.counters.voided + 1 }
    (e.orphan = false → e.retry < 254 →
      ∃ order next, s.readyOrder <+: order ∧ exec (.ownTenureVerdict others) s = .next (State.closed
        { s with
          counters := counted
          table := s.table.map (fun x => if x.line = l then
            { x with retry := x.retry + 1, phase := .queued (s.now + 1) } else x)
          span := { free with yields := if 32 ≤ e.retry + 1 then some l else s.span.yields } } order next)) ∧
    (e.orphan = false → 254 ≤ e.retry → s.waiting = [] → s.Lone l e.waiters →
      ∃ order next, s.readyOrder <+: order ∧ exec (.ownTenureVerdict others) s = .next (State.closed
        { e.waiters.foldl (State.failedWho .stalled) s with
          counters := { counted with abandoned := s.counters.abandoned + 1 }
          lines := (s.freeFillPending l).lines
          table := s.table.filter (fun x => x.line ≠ l)
          span := free } order next)) ∧
    (e.orphan = true → s.waiting = [] → e.waiters = [] →
      ∃ order next, s.readyOrder <+: order ∧ exec (.ownTenureVerdict others) s = .next (State.closed
        { s with
          counters := counted
          lines := (s.freeFillPending l).lines
          table := s.table.filter (fun x => x.line ≠ l)
          span := free } order next))

/-- At a verdict but VOID of the station's own request: a D-kind awaits its RESULT and a SHARE or OWN its FILL, each with
250 µs and the install state of its verdict; the station's own home reservation becomes the operation (R14, R44, R61, R63,
R95). -/
def Obligations.OwnRequestAwaitsItsReply : Prop :=
  ∀ (s : State) (others : Votes) (n : StationNo) (l : LineAddr) (home : Bool) (e : TableEntry), s.porst = false →
    s.AtRest → s.span.tenure = .ownEntry l (.request n l (.table e.kind)) home → s.entryFor l = some e →
    others.retry = false → home = true ∨ others.home = true →
    let waits := fun (p : Phase) => s.table.map (fun x => if x.line = l then
      { x with phase := p, orphan := false } else x)
    (∀ d, e.kind = .direct d → ∃ order next, s.readyOrder <+: order ∧ exec (.ownTenureVerdict others) s = .next
      (State.closed { s with
        table := waits (.awaitResult 250)
        homeQueue := s.homeWith s.station.number l (.direct d)
        span := { s.span with homeReserved := false } } order next)) ∧
    (e.kind = .share ∨ e.kind = .own → ∃ order next, s.readyOrder <+: order ∧
      exec (.ownTenureVerdict others) s = .next
      (State.closed { s with
        table := waits (.awaitFill (if e.kind = .own then (if others.supply then .dirtySole else .cleanSole)
          else if others.supply || others.copy then .shared else .cleanSole) 250)
        homeQueue := if others.supply then s.homeQueue else s.homeWith s.station.number l .read
        span := { s.span with homeReserved := false } } order next))

/-- TAKEN of the station's own UPGRADE: the line becomes DIRTY-SOLE and most recent, its waiters are performed in join
order, each as the earlier ones leave the line, the reservations and the watches, and the entry ends (R15, R62, R64,
R65, R152). So a CONDITIONAL behind a WRITE of its word completes FAIL, and one before it OK, the WRITE stored over it
(R152). -/
def Obligations.OwnUpgradeMakesTheLineSole : Prop :=
  ∀ (s : State) (others : Votes) (n : StationNo) (l : LineAddr) (home : Bool) (e : TableEntry), s.porst = false →
    s.AtRest → s.OnePlace → s.waiting = [] → (s.lookup l).isSome = true →
    s.span.tenure = .ownEntry l (.request n l (.table .upgrade)) home → s.entryFor l = some e → e.kind = .upgrade →
    others.retry = false → home = true ∨ others.home = true → s.HeadLaw → s.Lone l e.waiters → s.LoneWatches →
    let sole := (s.setLineState l .dirtySole).touch l
    let performed := e.waiters.foldl State.servedWho sole
    (∃ order next, s.readyOrder <+: order ∧ exec (.ownTenureVerdict others) s = .next (State.closed
      { performed with
        table := s.table.filter (fun x => x.line ≠ l)
        span := { s.span with homeReserved := false } } order next)) ∧
    (∀ (c c' : ChanId) h h' a v v', c ≠ c' → s.hostTable[c] = [h] → s.hostTable[c'] = [h'] →
      h.req = .write a fullMask v → h'.req = .conditional a v' → s.reservations[c'] = some a →
      (e.waiters = [.chan c, .chan c'] →
        performed.hostTable[c'] = [{ h' with progress := .ready .fail (s.latchSet c') [] }] ∧ performed.loadWord a = v) ∧
      (e.waiters = [.chan c', .chan c] →
        performed.hostTable[c'] = [{ h' with progress := .ready .ok (s.latchSet c') [] }] ∧ performed.loadWord a = v))

/-- The verdict of the station's own RETURN: VOID raises its retry count, up to 255, and it is youngest again; at
TAKEN the writeback buffer entry leaves and its flush waiter completes OK (R44, R77, R78), and the freed room goes to
the oldest pending FLUSH: its line moves to the buffer as it then stands, with the FLUSH as its flush waiter, and a
younger pending FLUSH stays pending (R17, R56, R75, R134). That the entry yields from the VOID that raises its count
to 32 on is the model's reading of R29 (notes/assumptions/20.md). -/
def Obligations.OwnReturnIsRetriedOrWritten : Prop :=
  ∀ (s : State) (others : Votes) (n : StationNo) (l : LineAddr) (home : Bool) (d : LineData) (e : WritebackEntry),
    s.porst = false → s.AtRest → s.span.tenure = .ownWriteback l (.request n l (.ret d)) home →
    s.writebackFor l = some e →
    (others.retry = true ∨ (home = false ∧ others.home = false) →
      ∃ order next, s.readyOrder <+: order ∧ exec (.ownTenureVerdict others) s = .next (State.closed
        { s with
          counters := { s.counters with voided := s.counters.voided + 1 }
          writebacks := s.writebacks.map (fun x => if x.line = l then
            { x with retry := min (e.retry + 1) 255, age := s.now + 1 } else x)
          span := { s.span with
            homeReserved := false
            yields := if 32 ≤ min (e.retry + 1) 255 then some l else s.span.yields } } order next)) ∧
    (∀ t, others.retry = false → home = true ∨ others.home = true → s.waiting = [] →
      (e.flush = none ∧ t = s) ∨ (∃ c h, e.flush = some c ∧ s.hostTable[c] = [h] ∧ h.isOpen = true ∧
        t = s.answered c h .ok []) →
      ∃ order next, s.readyOrder <+: order ∧ exec (.ownTenureVerdict others) s = .next (State.closed
        { t with
          writebacks := s.writebacks.filter (fun x => x.line ≠ l)
          homeQueue := s.homeWith s.station.number l (.write d)
          span := { s.span with homeReserved := false } } order next)) ∧
    (∀ t c h a later, others.retry = false → home = true ∨ others.home = true →
      let item := fun (c : ChanId) (h : HostEntry) =>
        ({ who := .chan c, place := h.place, pendingFlush := true, due := false } : Waiting)
      s.waiting = item c h :: later → s.hostTable[c] = [h] → h.req = .flush a → h.inPhase .active = true →
      s.heldDirty (lineOf a) = true → s.entryFor (lineOf a) = none → s.Unwatched (lineOf a) →
      later = [] ∨ (∃ c' h' a', later = [item c' h'] ∧ c' ≠ c ∧ h.place < h'.place ∧ s.hostTable[c'] = [h'] ∧
        h'.req = .flush a' ∧ h'.inPhase .active = true ∧ lineOf a' ≠ lineOf a ∧ s.heldDirty (lineOf a') = true ∧
        s.entryFor (lineOf a') = none) →
      (s.writebacks.filter (fun x => x.line ≠ l)).length = 1 →
      (e.flush = none ∧ t = s) ∨ (∃ b g, e.flush = some b ∧ s.isWaiting (.chan b) = false ∧ s.hostTable[b] = [g] ∧
        g.isOpen = true ∧ t = s.answered b g .ok []) →
      ∃ order next, s.readyOrder <+: order ∧ exec (.ownTenureVerdict others) s = .next (State.closed
        { t with
          lines := (s.dropTag (lineOf a)).lines
          reservations := s.reservations.map (fun r => r.filter (fun b => lineOf b ≠ lineOf a))
          waiting := later
          writebacks := s.writebacks.filter (fun x => x.line ≠ l) ++ [{
            line := lineOf a
            data := s.lineData (lineOf a)
            retry := 0
            flush := some c
            age := s.now + 1 }]
          homeQueue := s.homeWith s.station.number l (.write d)
          span := { s.span with homeReserved := false } } order next))

/-- The verdict of the station's own reply: DELIVERED removes it, VOID raises its count, and the VOID that raises it to 255
discards it; a freed entry takes the done head of the home operation queue (R45, R82, R84, R106). -/
def Obligations.OwnReplyLeavesOrIsCounted : Prop :=
  ∀ (s : State) (retry : Bool) (l : LineAddr) (f : Frame) (r : ReplyEntry), s.porst = false → s.AtRest →
    s.span.tenure = .ownReply l f → s.replyFor l = some r →
    let others := s.replies.filter (fun x => x.line ≠ l)
    let counters := if retry then { s.counters with abandoned := s.counters.abandoned + 1 } else s.counters
    (retry = true → r.voids < 254 → ∃ order next, s.readyOrder <+: order ∧
      exec (.replyTenureVerdict retry) s = .next (State.closed
        { s with replies := s.replies.map (fun x => if x.line = l then { x with voids := x.voids + 1 } else x) }
        order next)) ∧
    (retry = false ∨ 254 ≤ r.voids → s.homeDone = none → ∃ order next, s.readyOrder <+: order ∧
      exec (.replyTenureVerdict retry) s = .next (State.closed
        { s with replies := others, counters := counters } order next)) ∧
    (∀ op rest b, retry = false ∨ 254 ≤ r.voids → s.homeDone = some b → s.homeQueue = op :: rest →
      others.length + (if s.span.setAside.isSome then 1 else 0) < 4 → (∀ x ∈ others, x.line ≠ op.line) →
      s.span.setAside ≠ some op.line → ∃ order next, s.readyOrder <+: order ∧
      exec (.replyTenureVerdict retry) s = .next (State.closed
        { s with
          replies := others ++ [{ addressee := op.requester, line := op.line, body := b, voids := 0 }]
          homeQueue := rest
          homeDone := none
          counters := counters } order next))

/-- A peer's reply delivered to this station reaches its transaction table: a FILL is installed in the entry's state, its way
most recent, and the waiters are performed in join order, each as the earlier ones leave the line; a RESULT completes its
waiter; the entry ends; a reply that no entry awaits is late; poison is counted either way (R14, R45, R64 to R67, R70). A
reply reaches nothing when its tenure is VOID, when this station is not its addressee or is INERT (R45, R47), or when its
addressee is the holder (R86). -/
def Obligations.PeerReplyIsTakenOrPasses : Prop :=
  ∀ (s : State) (l : LineAddr) (body : ReplyBody), s.porst = false → s.AtRest →
    (∀ retry addressee good mine, s.span.tenure = .peerReply addressee l body good mine →
      mine = true ∨ retry = true ∨ good = false ∨ addressee ≠ s.station.number ∨ s.span.granted = some addressee ∨
        s.station.mode = .inert →
      ∃ order next, s.readyOrder <+: order ∧ exec (.replyTenureVerdict retry) s = .next (s.closed order next)) ∧
    (∀ t, s.station.mode ≠ .inert → s.span.tenure = .peerReply s.station.number l body true false →
      s.span.granted ≠ some s.station.number → s.ReplyTaken l body t →
      ∃ order next, s.readyOrder <+: order ∧ exec (.replyTenureVerdict false) s = .next (t.closed order next))

/-! ### The home slice (R89 to R106) -/

/-- A line read of the home store tests each word's parity and sets the poison flag of one that fails; a line write
writes all eight words with fresh parity; no other line is reached (R90, R91, R100, R101). The direct operations act
on one word: its new value, parity and flag, and the RESULT; every other word stands (R102 to R104). -/
def Obligations.HomeStoreReadsWritesAndOperates : Prop :=
  (∀ (m : HomeMemory) (ix : BitVec 11), memWf m = true →
     let sound := fun (x : StoreWord) => x.parity = parityOf x.value
     (∀ w : Fin 8,
       (readLineTested m ix).2.words[w] = (memRead m (storeKey ix w)).value ∧
       ((readLineTested m ix).2.poison.getLsbD w.val = true ↔
         (memRead m (storeKey ix w)).poison = true ∨ ¬sound (memRead m (storeKey ix w))) ∧
       memRead (readLineTested m ix).1 (storeKey ix w) = { memRead m (storeKey ix w) with
         poison := (readLineTested m ix).2.poison.getLsbD w.val } ∧
       ∀ d : LineData, memRead (writeLine m ix d) (storeKey ix w)
         = { value := d.words[w], parity := parityOf d.words[w], poison := d.poison.getLsbD w.val }) ∧
     (∀ k, k / 8 ≠ ix.toNat → memRead (readLineTested m ix).1 k = memRead m k ∧
       ∀ d, memRead (writeLine m ix d) k = memRead m k)) ∧
  (∀ (m : HomeMemory) (l : LineAddr) (w : BitVec 3), memWf m = true →
     let k := storeKey (indexOf l) w.toFin
     let old := memRead m k
     let bad := old.poison = true ∨ old.parity ≠ parityOf old.value
     let fresh := fun (v : Word) => ({ value := v, parity := parityOf v, poison := false } : StoreWord)
     (bad → homeDirectRead m l w = ((homeDirectRead m l w).1, .result w true 0) ∧
       memRead (homeDirectRead m l w).1 k = { old with poison := true }) ∧
     (¬bad → homeDirectRead m l w = (m, .result w false old.value)) ∧
     (∀ v, (homeDirectWrite m l w fullMask v).2 = .result w false 0 ∧
       memRead (homeDirectWrite m l w fullMask v).1 k = fresh v) ∧
     (∀ mask v, mask ≠ fullMask →
       (bad → (homeDirectWrite m l w mask v).2 = .result w true 0 ∧
         memRead (homeDirectWrite m l w mask v).1 k = { old with poison := true }) ∧
       (¬bad → (homeDirectWrite m l w mask v).2 = .result w false 0 ∧
         memRead (homeDirectWrite m l w mask v).1 k = fresh (mergeMask mask old.value v))) ∧
     (∀ op a b,
       (bad → (homeDirectAtomic m l w op a b).2 = .result w true 0 ∧
         memRead (homeDirectAtomic m l w op a b).1 k = { old with poison := true }) ∧
       (¬bad → (homeDirectAtomic m l w op a b).2 = .result w false old.value ∧
         memRead (homeDirectAtomic m l w op a b).1 k
           = match atomicNew op old.value a b with
             | some v => fresh v
             | none => old)) ∧
     (∀ j, j ≠ k → memRead (homeDirectRead m l w).1 j = memRead m j ∧
       (∀ mask v, memRead (homeDirectWrite m l w mask v).1 j = memRead m j) ∧
       ∀ op a b, memRead (homeDirectAtomic m l w op a b).1 j = memRead m j))

/-- The end of a home operation, by its kind (R99 to R104): a HOME-WRITE leaves without a result; a peer's result
becomes a reply, or waits at the head, done, while the reply queue refuses it; the station's own is taken by its
transaction table, as a delivered reply is, or is late (R67, R70, R105, R106), a FILL for a line under a peer's hold
at once too, which is the model's choice (notes/assumptions/38.md). -/
def Obligations.HomeOperationDeliversItsResult : Prop :=
  ∀ (s : State) (op : HomeOp) (rest : List HomeOp) (m : HomeMemory), s.porst = false → s.AtRest → s.homeDone = none →
    s.homeQueue = op :: rest →
    let ends := fun (i : Instr) (t : State) => ∃ order, s.readyOrder <+: order ∧
      exec i s = .next { t with now := s.now + 1, homeStore := m, readyOrder := order }
    (∀ d, op.body = .write d → m = writeLine s.homeStore (indexOf op.line) d → ends .homeWrite { s with homeQueue := rest }) ∧
    (∀ i b, (i = .homeRead ∧ op.body = .read ∧ ∃ d, readLineTested s.homeStore (indexOf op.line) = (m, d) ∧ b = .fill d) ∨
        (i = .homeDRead ∧ ∃ w, op.body = .direct (.read w) ∧ homeDirectRead s.homeStore op.line w = (m, b)) ∨
        (i = .homeDWrite ∧ ∃ w mask v, op.body = .direct (.write w mask v) ∧
          homeDirectWrite s.homeStore op.line w mask v = (m, b)) ∨
        (i = .homeDAtomic ∧ ∃ w o x y, op.body = .direct (.atomic w o x y) ∧
          homeDirectAtomic s.homeStore op.line w o x y = (m, b)) →
      let room := s.replies.length + (if s.span.setAside.isSome then 1 else 0) < 4 ∧
        (∀ r ∈ s.replies, r.line ≠ op.line) ∧ s.span.setAside ≠ some op.line
      (op.requester ≠ s.station.number →
        (room → ends i { s with
          homeQueue := rest
          replies := s.replies ++ [{ addressee := op.requester, line := op.line, body := b, voids := 0 }] }) ∧
        (¬room → ends i { s with homeDone := some b })) ∧
      (∀ t, op.requester = s.station.number → s.ReplyTaken op.line b t → ends i { t with homeQueue := rest }))

/-! ### Timers and the sweep (R34, R68, R92, R163) -/

/-- REPLY_TIMER_EXPIRY ends the entry: its way is freed, its waiters complete LOST-REPLY, LOST-REPLIES rises (R68).
WATCH_TIMEOUT completes the WATCH with its compare value and takes its refetch out of its list (R163).
IDLE_COUNT_EXPIRY sets the rotation point and joins the span (R34); a sweep tick writes one line of zeros, and the
tick of line 2047 makes the station READY (R92). Each command is taken whatever its timer, remaining time or idle
count reads, which is the model's choice (notes/assumptions/5.md). So is that no pass over the waiting list follows a
WATCH_TIMEOUT (notes/assumptions/42.md). -/
def Obligations.TimersAndTheSweepRunOut : Prop :=
  (∀ s : State, s.porst = false → s.AtRest →
     (∀ l e, s.OnePlace → s.waiting = [] → s.entryFor l = some e → e.phase.awaiting = true → s.Lone l e.waiters →
       ∃ order, s.readyOrder <+: order ∧
       exec (.replyTimerExpiry l) s = .next { e.waiters.foldl (State.failedWho .lostReply) s with
         now := s.now + 1
         lines := (s.freeFillPending l).lines
         table := s.table.filter (fun x => x.line ≠ l)
         counters := { s.counters with lostReplies := s.counters.lostReplies + 1 }
         readyOrder := order }) ∧
     (∀ (c : ChanId) w h, s.watches[c] = some w → s.hostTable[c] = [h] → h.isOpen = true →
       ∃ order, s.readyOrder <+: order ∧
       exec (.watchTimeout c) s = .next { s.answered c h .timeout [w.compare] with
         now := s.now + 1
         watches := s.watches.set c none
         waiting := s.waiting.filter (fun x => x.who ≠ .chan c)
         table := s.table.map (fun x => { x with waiters := x.waiters.filter (fun y => y ≠ .chan c) })
         readyOrder := order })) ∧
  (∀ s : State, s.porst = false →
     (s.span.tenure = .idle → exec .idleCountExpiry s = .next { s with
       now := s.now + 1
       span := { s.span with idleCount := 4, rotation := s.station.count.toNat - 1, joined := true } }) ∧
     (s.station.mode = .clearing → s.station.sweep < 2048 →
       let swept := { s with
         now := s.now + 1
         homeStore := writeLine s.homeStore (BitVec.ofNat 11 s.station.sweep) zeroLine
         station := { s.station with
           sweep := s.station.sweep + 1
           mode := if s.station.sweep = 2047 then .ready else .clearing } }
       exec .clearSweepTick s = .next swept ∧ (s.station.sweep = 2047 → exec .clearSweepEnd s = .next swept)))

/-! ### The whole machine -/

/-- No command but PORST and the clear sweep changes the station number, count, state and sweep position (R166, R167); no
command but those, the sweep and the five home operations reaches the home store (R89, R98). -/
def Obligations.OnlyTheirCommandsReachStationAndHomeStore : Prop :=
  ∀ (i : Instr) (s t : State), exec i s = .next t → i ≠ .porstAsserted → (∀ n k, i ≠ .porstReleased n k) →
    i ≠ .clearSweepTick → i ≠ .clearSweepEnd →
    t.station = s.station ∧ t.hrst = (match i with
      | .hostReset => true
      | .hrstReleased => false
      | _ => s.hrst) ∧
    ((∀ k, i ≠ homeCommand k) → t.homeStore = s.homeStore)

/-- Every happening runs to rest: from a state at rest a step leaves nothing that it was to bring about in the station's own
blocks (R55, R56, R114 to R117, R136, R137). -/
def Obligations.StepsEndAtRest : Prop := ∀ s t : State, s.AtRest → step s = .next t → t.AtRest

/-- Every step keeps every table and queue within its entries, every count within its range, every recency order a
permutation of the four ways, and each line in one place (R1, R2, R6, R48, R50, R74, R80, R97, R113, R135). -/
def Obligations.StepsKeepTheBounds : Prop :=
  ∀ s t : State, s.Capacity ∧ s.Counts ∧ s.Recency ∧ s.OnePlace → step s = .next t →
    t.Capacity ∧ t.Counts ∧ t.Recency ∧ t.OnePlace

/-- Every step keeps each line in one place: one way of its own set, one entry of each table, and never a way and the
writeback buffer at once (R1, R2, R50, R74, R80). -/
def Obligations.StepsKeepOnePlace : Prop := ∀ s t : State, s.OnePlace → step s = .next t → t.OnePlace

/-- Every step keeps the sweep position in step with the station state, the home operation queue of a station that is not
READY empty, and the home store's memory in its canonical form (R92 to R94, R97, R172). -/
def Obligations.StepsKeepTheHomeSlice : Prop :=
  ∀ s t : State, s.StationLaw ∧ memWf s.homeStore = true → step s = .next t →
    t.StationLaw ∧ memWf t.homeStore = true

/-- Every step keeps each operation in the one place that its phase says, and at most five waiters on an entry (R48,
R51, R52, R55, R76, R114, R156). -/
def Obligations.StepsKeepEachOperationInItsPlace : Prop :=
  ∀ s t : State, s.OnePlace ∧ s.HeadLaw → step s = .next t → t.OnePlace ∧ t.HeadLaw

/-- Every step keeps the completion order and the host request table in agreement: the ready completions of each channel
stand in the order once each, in their places, and every place in the order is a ready completion's (R113, R114, R118,
R119). -/
def Obligations.StepsKeepTheCompletionOrder : Prop := ∀ s t : State, s.PortLaw → step s = .next t → t.PortLaw

/-- Every step keeps a reservation on a line that the station holds valid, and an ARMED watch on a word of such a line that
equals its compare value and is clear of poison (R144, R147, R156, R159, R160); and the line of a SHARE or OWN entry
FILL-PENDING (R4, R49). -/
def Obligations.StepsKeepClaimsOnHeldLines : Prop :=
  ∀ s t : State, s.OnePlace ∧ s.HeadLaw ∧ s.ClaimLaw → step s = .next t → t.OnePlace ∧ t.HeadLaw ∧ t.ClaimLaw

/-! ### Records and frames (chapter 12) -/

/-- A well-formed command of the host port is read back from its request record, every operand at every value; no other
command has a record (R109, R175). An ATOMIC whose op code names no op is UNDECODABLE_REQUEST_KIND (notes/assumptions/19.md),
and the fields that a kind does not use are ignored (notes/assumptions/35.md), as the model reads them. -/
def Obligations.RecordsRoundTrip : Prop :=
  ∀ i : Instr, ((encodeRecord i).isSome = (requestOf i).isSome) ∧
    ∀ r, i.wf = true → encodeRecord i = some r →
      decodeRecord r = i ∧ readRecord [r.beat0, r.beat1, r.beat2] = some i

/-- A frame as sent is read back by every station as the command of that frame with a good check, every field at every
value (R26, R27, R176, R177). The holder's number is no field of it (R25; notes/assumptions/11.md), and the check code
is sent without inversion (notes/assumptions/36.md), as the model reads them. -/
def Obligations.FramesRoundTrip : Prop := ∀ f : Frame, readFrame (encodeFrame f) false = some (commandOfFrame f)
end

