-- ==== Sys2Proof/Laws/State.lean ====
section
/-! SUPPORT. What each update of the state leaves as it was: one lemma per field per update, so that no later proof
unfolds a record update. -/

namespace Sys2Proof.Machine

variable (s : State)

@[simp] theorem State.count1_porst : s.count1.porst = s.porst := rfl
@[simp] theorem State.count1_hrst : s.count1.hrst = s.hrst := rfl
@[simp] theorem State.count1_station : s.count1.station = s.station := rfl
@[simp] theorem State.count1_span : s.count1.span = s.span := rfl
@[simp] theorem State.count1_lines : s.count1.lines = s.lines := rfl
@[simp] theorem State.count1_table : s.count1.table = s.table := rfl
@[simp] theorem State.count1_waiting : s.count1.waiting = s.waiting := rfl
@[simp] theorem State.count1_writebacks : s.count1.writebacks = s.writebacks := rfl
@[simp] theorem State.count1_replies : s.count1.replies = s.replies := rfl
@[simp] theorem State.count1_homeStore : s.count1.homeStore = s.homeStore := rfl
@[simp] theorem State.count1_homeQueue : s.count1.homeQueue = s.homeQueue := rfl
@[simp] theorem State.count1_homeDone : s.count1.homeDone = s.homeDone := rfl
@[simp] theorem State.count1_hostTable : s.count1.hostTable = s.hostTable := rfl
@[simp] theorem State.count1_refused : s.count1.refused = s.refused := rfl
@[simp] theorem State.count1_readyOrder : s.count1.readyOrder = s.readyOrder := rfl
@[simp] theorem State.count1_nextPlace : s.count1.nextPlace = s.nextPlace := rfl
@[simp] theorem State.count1_latches : s.count1.latches = s.latches := rfl
@[simp] theorem State.count1_reservations : s.count1.reservations = s.reservations := rfl
@[simp] theorem State.count1_watches : s.count1.watches = s.watches := rfl
@[simp] theorem State.count1_posted : s.count1.posted = s.posted := rfl
@[simp] theorem State.count1_counters : s.count1.counters = s.counters := rfl
@[simp] theorem State.count1_out : s.count1.out = s.out := rfl
@[simp] theorem State.count1_pending : s.count1.pending = s.pending := rfl

@[simp] theorem State.setWay_porst (l : LineAddr) (w : WayId) (x : Way) : (s.setWay l w x).porst = s.porst := rfl
@[simp] theorem State.setWay_hrst (l : LineAddr) (w : WayId) (x : Way) : (s.setWay l w x).hrst = s.hrst := rfl
@[simp] theorem State.setWay_station (l : LineAddr) (w : WayId) (x : Way) : (s.setWay l w x).station = s.station := rfl
@[simp] theorem State.setWay_span (l : LineAddr) (w : WayId) (x : Way) : (s.setWay l w x).span = s.span := rfl
@[simp] theorem State.setWay_table (l : LineAddr) (w : WayId) (x : Way) : (s.setWay l w x).table = s.table := rfl
@[simp] theorem State.setWay_waiting (l : LineAddr) (w : WayId) (x : Way) : (s.setWay l w x).waiting = s.waiting := rfl
@[simp] theorem State.setWay_writebacks (l : LineAddr) (w : WayId) (x : Way) : (s.setWay l w x).writebacks = s.writebacks := rfl
@[simp] theorem State.setWay_replies (l : LineAddr) (w : WayId) (x : Way) : (s.setWay l w x).replies = s.replies := rfl
@[simp] theorem State.setWay_homeStore (l : LineAddr) (w : WayId) (x : Way) : (s.setWay l w x).homeStore = s.homeStore := rfl
@[simp] theorem State.setWay_homeQueue (l : LineAddr) (w : WayId) (x : Way) : (s.setWay l w x).homeQueue = s.homeQueue := rfl
@[simp] theorem State.setWay_homeDone (l : LineAddr) (w : WayId) (x : Way) : (s.setWay l w x).homeDone = s.homeDone := rfl
@[simp] theorem State.setWay_hostTable (l : LineAddr) (w : WayId) (x : Way) : (s.setWay l w x).hostTable = s.hostTable := rfl
@[simp] theorem State.setWay_refused (l : LineAddr) (w : WayId) (x : Way) : (s.setWay l w x).refused = s.refused := rfl
@[simp] theorem State.setWay_readyOrder (l : LineAddr) (w : WayId) (x : Way) : (s.setWay l w x).readyOrder = s.readyOrder := rfl
@[simp] theorem State.setWay_nextPlace (l : LineAddr) (w : WayId) (x : Way) : (s.setWay l w x).nextPlace = s.nextPlace := rfl
@[simp] theorem State.setWay_latches (l : LineAddr) (w : WayId) (x : Way) : (s.setWay l w x).latches = s.latches := rfl
@[simp] theorem State.setWay_reservations (l : LineAddr) (w : WayId) (x : Way) : (s.setWay l w x).reservations = s.reservations := rfl
@[simp] theorem State.setWay_watches (l : LineAddr) (w : WayId) (x : Way) : (s.setWay l w x).watches = s.watches := rfl
@[simp] theorem State.setWay_posted (l : LineAddr) (w : WayId) (x : Way) : (s.setWay l w x).posted = s.posted := rfl
@[simp] theorem State.setWay_counters (l : LineAddr) (w : WayId) (x : Way) : (s.setWay l w x).counters = s.counters := rfl
@[simp] theorem State.setWay_out (l : LineAddr) (w : WayId) (x : Way) : (s.setWay l w x).out = s.out := rfl
@[simp] theorem State.setWay_now (l : LineAddr) (w : WayId) (x : Way) : (s.setWay l w x).now = s.now := rfl
@[simp] theorem State.setWay_pending (l : LineAddr) (w : WayId) (x : Way) : (s.setWay l w x).pending = s.pending := rfl

@[simp] theorem State.touchWay_porst (l : LineAddr) (w : WayId) : (s.touchWay l w).porst = s.porst := rfl
@[simp] theorem State.touchWay_hrst (l : LineAddr) (w : WayId) : (s.touchWay l w).hrst = s.hrst := rfl
@[simp] theorem State.touchWay_station (l : LineAddr) (w : WayId) : (s.touchWay l w).station = s.station := rfl
@[simp] theorem State.touchWay_span (l : LineAddr) (w : WayId) : (s.touchWay l w).span = s.span := rfl
@[simp] theorem State.touchWay_table (l : LineAddr) (w : WayId) : (s.touchWay l w).table = s.table := rfl
@[simp] theorem State.touchWay_waiting (l : LineAddr) (w : WayId) : (s.touchWay l w).waiting = s.waiting := rfl
@[simp] theorem State.touchWay_writebacks (l : LineAddr) (w : WayId) : (s.touchWay l w).writebacks = s.writebacks := rfl
@[simp] theorem State.touchWay_replies (l : LineAddr) (w : WayId) : (s.touchWay l w).replies = s.replies := rfl
@[simp] theorem State.touchWay_homeStore (l : LineAddr) (w : WayId) : (s.touchWay l w).homeStore = s.homeStore := rfl
@[simp] theorem State.touchWay_homeQueue (l : LineAddr) (w : WayId) : (s.touchWay l w).homeQueue = s.homeQueue := rfl
@[simp] theorem State.touchWay_homeDone (l : LineAddr) (w : WayId) : (s.touchWay l w).homeDone = s.homeDone := rfl
@[simp] theorem State.touchWay_hostTable (l : LineAddr) (w : WayId) : (s.touchWay l w).hostTable = s.hostTable := rfl
@[simp] theorem State.touchWay_refused (l : LineAddr) (w : WayId) : (s.touchWay l w).refused = s.refused := rfl
@[simp] theorem State.touchWay_readyOrder (l : LineAddr) (w : WayId) : (s.touchWay l w).readyOrder = s.readyOrder := rfl
@[simp] theorem State.touchWay_nextPlace (l : LineAddr) (w : WayId) : (s.touchWay l w).nextPlace = s.nextPlace := rfl
@[simp] theorem State.touchWay_latches (l : LineAddr) (w : WayId) : (s.touchWay l w).latches = s.latches := rfl
@[simp] theorem State.touchWay_reservations (l : LineAddr) (w : WayId) : (s.touchWay l w).reservations = s.reservations := rfl
@[simp] theorem State.touchWay_watches (l : LineAddr) (w : WayId) : (s.touchWay l w).watches = s.watches := rfl
@[simp] theorem State.touchWay_posted (l : LineAddr) (w : WayId) : (s.touchWay l w).posted = s.posted := rfl
@[simp] theorem State.touchWay_counters (l : LineAddr) (w : WayId) : (s.touchWay l w).counters = s.counters := rfl
@[simp] theorem State.touchWay_out (l : LineAddr) (w : WayId) : (s.touchWay l w).out = s.out := rfl
@[simp] theorem State.touchWay_now (l : LineAddr) (w : WayId) : (s.touchWay l w).now = s.now := rfl
@[simp] theorem State.touchWay_pending (l : LineAddr) (w : WayId) : (s.touchWay l w).pending = s.pending := rfl

@[simp] theorem State.updateEntry_porst (l : LineAddr) (f : TableEntry → TableEntry) : (s.updateEntry l f).porst = s.porst := rfl
@[simp] theorem State.updateEntry_hrst (l : LineAddr) (f : TableEntry → TableEntry) : (s.updateEntry l f).hrst = s.hrst := rfl
@[simp] theorem State.updateEntry_station (l : LineAddr) (f : TableEntry → TableEntry) : (s.updateEntry l f).station = s.station := rfl
@[simp] theorem State.updateEntry_span (l : LineAddr) (f : TableEntry → TableEntry) : (s.updateEntry l f).span = s.span := rfl
@[simp] theorem State.updateEntry_lines (l : LineAddr) (f : TableEntry → TableEntry) : (s.updateEntry l f).lines = s.lines := rfl
@[simp] theorem State.updateEntry_waiting (l : LineAddr) (f : TableEntry → TableEntry) : (s.updateEntry l f).waiting = s.waiting := rfl
@[simp] theorem State.updateEntry_writebacks (l : LineAddr) (f : TableEntry → TableEntry) : (s.updateEntry l f).writebacks = s.writebacks := rfl
@[simp] theorem State.updateEntry_replies (l : LineAddr) (f : TableEntry → TableEntry) : (s.updateEntry l f).replies = s.replies := rfl
@[simp] theorem State.updateEntry_homeStore (l : LineAddr) (f : TableEntry → TableEntry) : (s.updateEntry l f).homeStore = s.homeStore := rfl
@[simp] theorem State.updateEntry_homeQueue (l : LineAddr) (f : TableEntry → TableEntry) : (s.updateEntry l f).homeQueue = s.homeQueue := rfl
@[simp] theorem State.updateEntry_homeDone (l : LineAddr) (f : TableEntry → TableEntry) : (s.updateEntry l f).homeDone = s.homeDone := rfl
@[simp] theorem State.updateEntry_hostTable (l : LineAddr) (f : TableEntry → TableEntry) : (s.updateEntry l f).hostTable = s.hostTable := rfl
@[simp] theorem State.updateEntry_refused (l : LineAddr) (f : TableEntry → TableEntry) : (s.updateEntry l f).refused = s.refused := rfl
@[simp] theorem State.updateEntry_readyOrder (l : LineAddr) (f : TableEntry → TableEntry) : (s.updateEntry l f).readyOrder = s.readyOrder := rfl
@[simp] theorem State.updateEntry_nextPlace (l : LineAddr) (f : TableEntry → TableEntry) : (s.updateEntry l f).nextPlace = s.nextPlace := rfl
@[simp] theorem State.updateEntry_latches (l : LineAddr) (f : TableEntry → TableEntry) : (s.updateEntry l f).latches = s.latches := rfl
@[simp] theorem State.updateEntry_reservations (l : LineAddr) (f : TableEntry → TableEntry) : (s.updateEntry l f).reservations = s.reservations := rfl
@[simp] theorem State.updateEntry_watches (l : LineAddr) (f : TableEntry → TableEntry) : (s.updateEntry l f).watches = s.watches := rfl
@[simp] theorem State.updateEntry_posted (l : LineAddr) (f : TableEntry → TableEntry) : (s.updateEntry l f).posted = s.posted := rfl
@[simp] theorem State.updateEntry_counters (l : LineAddr) (f : TableEntry → TableEntry) : (s.updateEntry l f).counters = s.counters := rfl
@[simp] theorem State.updateEntry_out (l : LineAddr) (f : TableEntry → TableEntry) : (s.updateEntry l f).out = s.out := rfl
@[simp] theorem State.updateEntry_now (l : LineAddr) (f : TableEntry → TableEntry) : (s.updateEntry l f).now = s.now := rfl
@[simp] theorem State.updateEntry_pending (l : LineAddr) (f : TableEntry → TableEntry) : (s.updateEntry l f).pending = s.pending := rfl

@[simp] theorem State.updateWriteback_porst (l : LineAddr) (f : WritebackEntry → WritebackEntry) : (s.updateWriteback l f).porst = s.porst := rfl
@[simp] theorem State.updateWriteback_hrst (l : LineAddr) (f : WritebackEntry → WritebackEntry) : (s.updateWriteback l f).hrst = s.hrst := rfl
@[simp] theorem State.updateWriteback_station (l : LineAddr) (f : WritebackEntry → WritebackEntry) : (s.updateWriteback l f).station = s.station := rfl
@[simp] theorem State.updateWriteback_span (l : LineAddr) (f : WritebackEntry → WritebackEntry) : (s.updateWriteback l f).span = s.span := rfl
@[simp] theorem State.updateWriteback_lines (l : LineAddr) (f : WritebackEntry → WritebackEntry) : (s.updateWriteback l f).lines = s.lines := rfl
@[simp] theorem State.updateWriteback_table (l : LineAddr) (f : WritebackEntry → WritebackEntry) : (s.updateWriteback l f).table = s.table := rfl
@[simp] theorem State.updateWriteback_waiting (l : LineAddr) (f : WritebackEntry → WritebackEntry) : (s.updateWriteback l f).waiting = s.waiting := rfl
@[simp] theorem State.updateWriteback_replies (l : LineAddr) (f : WritebackEntry → WritebackEntry) : (s.updateWriteback l f).replies = s.replies := rfl
@[simp] theorem State.updateWriteback_homeStore (l : LineAddr) (f : WritebackEntry → WritebackEntry) : (s.updateWriteback l f).homeStore = s.homeStore := rfl
@[simp] theorem State.updateWriteback_homeQueue (l : LineAddr) (f : WritebackEntry → WritebackEntry) : (s.updateWriteback l f).homeQueue = s.homeQueue := rfl
@[simp] theorem State.updateWriteback_homeDone (l : LineAddr) (f : WritebackEntry → WritebackEntry) : (s.updateWriteback l f).homeDone = s.homeDone := rfl
@[simp] theorem State.updateWriteback_hostTable (l : LineAddr) (f : WritebackEntry → WritebackEntry) : (s.updateWriteback l f).hostTable = s.hostTable := rfl
@[simp] theorem State.updateWriteback_refused (l : LineAddr) (f : WritebackEntry → WritebackEntry) : (s.updateWriteback l f).refused = s.refused := rfl
@[simp] theorem State.updateWriteback_readyOrder (l : LineAddr) (f : WritebackEntry → WritebackEntry) : (s.updateWriteback l f).readyOrder = s.readyOrder := rfl
@[simp] theorem State.updateWriteback_nextPlace (l : LineAddr) (f : WritebackEntry → WritebackEntry) : (s.updateWriteback l f).nextPlace = s.nextPlace := rfl
@[simp] theorem State.updateWriteback_latches (l : LineAddr) (f : WritebackEntry → WritebackEntry) : (s.updateWriteback l f).latches = s.latches := rfl
@[simp] theorem State.updateWriteback_reservations (l : LineAddr) (f : WritebackEntry → WritebackEntry) : (s.updateWriteback l f).reservations = s.reservations := rfl
@[simp] theorem State.updateWriteback_watches (l : LineAddr) (f : WritebackEntry → WritebackEntry) : (s.updateWriteback l f).watches = s.watches := rfl
@[simp] theorem State.updateWriteback_posted (l : LineAddr) (f : WritebackEntry → WritebackEntry) : (s.updateWriteback l f).posted = s.posted := rfl
@[simp] theorem State.updateWriteback_counters (l : LineAddr) (f : WritebackEntry → WritebackEntry) : (s.updateWriteback l f).counters = s.counters := rfl
@[simp] theorem State.updateWriteback_out (l : LineAddr) (f : WritebackEntry → WritebackEntry) : (s.updateWriteback l f).out = s.out := rfl
@[simp] theorem State.updateWriteback_now (l : LineAddr) (f : WritebackEntry → WritebackEntry) : (s.updateWriteback l f).now = s.now := rfl
@[simp] theorem State.updateWriteback_pending (l : LineAddr) (f : WritebackEntry → WritebackEntry) : (s.updateWriteback l f).pending = s.pending := rfl

@[simp] theorem State.addWriteback_porst (l : LineAddr) (d : LineData) (o : Option ChanId) : (s.addWriteback l d o).porst = s.porst := rfl
@[simp] theorem State.addWriteback_hrst (l : LineAddr) (d : LineData) (o : Option ChanId) : (s.addWriteback l d o).hrst = s.hrst := rfl
@[simp] theorem State.addWriteback_station (l : LineAddr) (d : LineData) (o : Option ChanId) : (s.addWriteback l d o).station = s.station := rfl
@[simp] theorem State.addWriteback_span (l : LineAddr) (d : LineData) (o : Option ChanId) : (s.addWriteback l d o).span = s.span := rfl
@[simp] theorem State.addWriteback_lines (l : LineAddr) (d : LineData) (o : Option ChanId) : (s.addWriteback l d o).lines = s.lines := rfl
@[simp] theorem State.addWriteback_table (l : LineAddr) (d : LineData) (o : Option ChanId) : (s.addWriteback l d o).table = s.table := rfl
@[simp] theorem State.addWriteback_waiting (l : LineAddr) (d : LineData) (o : Option ChanId) : (s.addWriteback l d o).waiting = s.waiting := rfl
@[simp] theorem State.addWriteback_replies (l : LineAddr) (d : LineData) (o : Option ChanId) : (s.addWriteback l d o).replies = s.replies := rfl
@[simp] theorem State.addWriteback_homeStore (l : LineAddr) (d : LineData) (o : Option ChanId) : (s.addWriteback l d o).homeStore = s.homeStore := rfl
@[simp] theorem State.addWriteback_homeQueue (l : LineAddr) (d : LineData) (o : Option ChanId) : (s.addWriteback l d o).homeQueue = s.homeQueue := rfl
@[simp] theorem State.addWriteback_homeDone (l : LineAddr) (d : LineData) (o : Option ChanId) : (s.addWriteback l d o).homeDone = s.homeDone := rfl
@[simp] theorem State.addWriteback_hostTable (l : LineAddr) (d : LineData) (o : Option ChanId) : (s.addWriteback l d o).hostTable = s.hostTable := rfl
@[simp] theorem State.addWriteback_refused (l : LineAddr) (d : LineData) (o : Option ChanId) : (s.addWriteback l d o).refused = s.refused := rfl
@[simp] theorem State.addWriteback_readyOrder (l : LineAddr) (d : LineData) (o : Option ChanId) : (s.addWriteback l d o).readyOrder = s.readyOrder := rfl
@[simp] theorem State.addWriteback_nextPlace (l : LineAddr) (d : LineData) (o : Option ChanId) : (s.addWriteback l d o).nextPlace = s.nextPlace := rfl
@[simp] theorem State.addWriteback_latches (l : LineAddr) (d : LineData) (o : Option ChanId) : (s.addWriteback l d o).latches = s.latches := rfl
@[simp] theorem State.addWriteback_reservations (l : LineAddr) (d : LineData) (o : Option ChanId) : (s.addWriteback l d o).reservations = s.reservations := rfl
@[simp] theorem State.addWriteback_watches (l : LineAddr) (d : LineData) (o : Option ChanId) : (s.addWriteback l d o).watches = s.watches := rfl
@[simp] theorem State.addWriteback_posted (l : LineAddr) (d : LineData) (o : Option ChanId) : (s.addWriteback l d o).posted = s.posted := rfl
@[simp] theorem State.addWriteback_counters (l : LineAddr) (d : LineData) (o : Option ChanId) : (s.addWriteback l d o).counters = s.counters := rfl
@[simp] theorem State.addWriteback_out (l : LineAddr) (d : LineData) (o : Option ChanId) : (s.addWriteback l d o).out = s.out := rfl
@[simp] theorem State.addWriteback_now (l : LineAddr) (d : LineData) (o : Option ChanId) : (s.addWriteback l d o).now = s.now := rfl
@[simp] theorem State.addWriteback_pending (l : LineAddr) (d : LineData) (o : Option ChanId) : (s.addWriteback l d o).pending = s.pending := rfl

@[simp] theorem State.dropWaiter_porst (x : Who) : (s.dropWaiter x).porst = s.porst := rfl
@[simp] theorem State.dropWaiter_hrst (x : Who) : (s.dropWaiter x).hrst = s.hrst := rfl
@[simp] theorem State.dropWaiter_station (x : Who) : (s.dropWaiter x).station = s.station := rfl
@[simp] theorem State.dropWaiter_span (x : Who) : (s.dropWaiter x).span = s.span := rfl
@[simp] theorem State.dropWaiter_lines (x : Who) : (s.dropWaiter x).lines = s.lines := rfl
@[simp] theorem State.dropWaiter_waiting (x : Who) : (s.dropWaiter x).waiting = s.waiting := rfl
@[simp] theorem State.dropWaiter_writebacks (x : Who) : (s.dropWaiter x).writebacks = s.writebacks := rfl
@[simp] theorem State.dropWaiter_replies (x : Who) : (s.dropWaiter x).replies = s.replies := rfl
@[simp] theorem State.dropWaiter_homeStore (x : Who) : (s.dropWaiter x).homeStore = s.homeStore := rfl
@[simp] theorem State.dropWaiter_homeQueue (x : Who) : (s.dropWaiter x).homeQueue = s.homeQueue := rfl
@[simp] theorem State.dropWaiter_homeDone (x : Who) : (s.dropWaiter x).homeDone = s.homeDone := rfl
@[simp] theorem State.dropWaiter_hostTable (x : Who) : (s.dropWaiter x).hostTable = s.hostTable := rfl
@[simp] theorem State.dropWaiter_refused (x : Who) : (s.dropWaiter x).refused = s.refused := rfl
@[simp] theorem State.dropWaiter_readyOrder (x : Who) : (s.dropWaiter x).readyOrder = s.readyOrder := rfl
@[simp] theorem State.dropWaiter_nextPlace (x : Who) : (s.dropWaiter x).nextPlace = s.nextPlace := rfl
@[simp] theorem State.dropWaiter_latches (x : Who) : (s.dropWaiter x).latches = s.latches := rfl
@[simp] theorem State.dropWaiter_reservations (x : Who) : (s.dropWaiter x).reservations = s.reservations := rfl
@[simp] theorem State.dropWaiter_watches (x : Who) : (s.dropWaiter x).watches = s.watches := rfl
@[simp] theorem State.dropWaiter_posted (x : Who) : (s.dropWaiter x).posted = s.posted := rfl
@[simp] theorem State.dropWaiter_counters (x : Who) : (s.dropWaiter x).counters = s.counters := rfl
@[simp] theorem State.dropWaiter_out (x : Who) : (s.dropWaiter x).out = s.out := rfl
@[simp] theorem State.dropWaiter_now (x : Who) : (s.dropWaiter x).now = s.now := rfl
@[simp] theorem State.dropWaiter_pending (x : Who) : (s.dropWaiter x).pending = s.pending := rfl

@[simp] theorem State.owePass_porst : s.owePass.porst = s.porst := rfl
@[simp] theorem State.owePass_hrst : s.owePass.hrst = s.hrst := rfl
@[simp] theorem State.owePass_station : s.owePass.station = s.station := rfl
@[simp] theorem State.owePass_span : s.owePass.span = s.span := rfl
@[simp] theorem State.owePass_lines : s.owePass.lines = s.lines := rfl
@[simp] theorem State.owePass_table : s.owePass.table = s.table := rfl
@[simp] theorem State.owePass_writebacks : s.owePass.writebacks = s.writebacks := rfl
@[simp] theorem State.owePass_replies : s.owePass.replies = s.replies := rfl
@[simp] theorem State.owePass_homeStore : s.owePass.homeStore = s.homeStore := rfl
@[simp] theorem State.owePass_homeQueue : s.owePass.homeQueue = s.homeQueue := rfl
@[simp] theorem State.owePass_homeDone : s.owePass.homeDone = s.homeDone := rfl
@[simp] theorem State.owePass_hostTable : s.owePass.hostTable = s.hostTable := rfl
@[simp] theorem State.owePass_refused : s.owePass.refused = s.refused := rfl
@[simp] theorem State.owePass_readyOrder : s.owePass.readyOrder = s.readyOrder := rfl
@[simp] theorem State.owePass_nextPlace : s.owePass.nextPlace = s.nextPlace := rfl
@[simp] theorem State.owePass_latches : s.owePass.latches = s.latches := rfl
@[simp] theorem State.owePass_reservations : s.owePass.reservations = s.reservations := rfl
@[simp] theorem State.owePass_watches : s.owePass.watches = s.watches := rfl
@[simp] theorem State.owePass_posted : s.owePass.posted = s.posted := rfl
@[simp] theorem State.owePass_counters : s.owePass.counters = s.counters := rfl
@[simp] theorem State.owePass_out : s.owePass.out = s.out := rfl
@[simp] theorem State.owePass_now : s.owePass.now = s.now := rfl
@[simp] theorem State.owePass_pending : s.owePass.pending = s.pending := rfl

@[simp] theorem State.unwait_porst (x : Who) : (s.unwait x).porst = s.porst := rfl
@[simp] theorem State.unwait_hrst (x : Who) : (s.unwait x).hrst = s.hrst := rfl
@[simp] theorem State.unwait_station (x : Who) : (s.unwait x).station = s.station := rfl
@[simp] theorem State.unwait_span (x : Who) : (s.unwait x).span = s.span := rfl
@[simp] theorem State.unwait_lines (x : Who) : (s.unwait x).lines = s.lines := rfl
@[simp] theorem State.unwait_table (x : Who) : (s.unwait x).table = s.table := rfl
@[simp] theorem State.unwait_writebacks (x : Who) : (s.unwait x).writebacks = s.writebacks := rfl
@[simp] theorem State.unwait_replies (x : Who) : (s.unwait x).replies = s.replies := rfl
@[simp] theorem State.unwait_homeStore (x : Who) : (s.unwait x).homeStore = s.homeStore := rfl
@[simp] theorem State.unwait_homeQueue (x : Who) : (s.unwait x).homeQueue = s.homeQueue := rfl
@[simp] theorem State.unwait_homeDone (x : Who) : (s.unwait x).homeDone = s.homeDone := rfl
@[simp] theorem State.unwait_hostTable (x : Who) : (s.unwait x).hostTable = s.hostTable := rfl
@[simp] theorem State.unwait_refused (x : Who) : (s.unwait x).refused = s.refused := rfl
@[simp] theorem State.unwait_readyOrder (x : Who) : (s.unwait x).readyOrder = s.readyOrder := rfl
@[simp] theorem State.unwait_nextPlace (x : Who) : (s.unwait x).nextPlace = s.nextPlace := rfl
@[simp] theorem State.unwait_latches (x : Who) : (s.unwait x).latches = s.latches := rfl
@[simp] theorem State.unwait_reservations (x : Who) : (s.unwait x).reservations = s.reservations := rfl
@[simp] theorem State.unwait_watches (x : Who) : (s.unwait x).watches = s.watches := rfl
@[simp] theorem State.unwait_posted (x : Who) : (s.unwait x).posted = s.posted := rfl
@[simp] theorem State.unwait_counters (x : Who) : (s.unwait x).counters = s.counters := rfl
@[simp] theorem State.unwait_out (x : Who) : (s.unwait x).out = s.out := rfl
@[simp] theorem State.unwait_now (x : Who) : (s.unwait x).now = s.now := rfl
@[simp] theorem State.unwait_pending (x : Who) : (s.unwait x).pending = s.pending := rfl

@[simp] theorem State.enterWaiting_porst (x : Waiting) : (s.enterWaiting x).porst = s.porst := rfl
@[simp] theorem State.enterWaiting_hrst (x : Waiting) : (s.enterWaiting x).hrst = s.hrst := rfl
@[simp] theorem State.enterWaiting_station (x : Waiting) : (s.enterWaiting x).station = s.station := rfl
@[simp] theorem State.enterWaiting_span (x : Waiting) : (s.enterWaiting x).span = s.span := rfl
@[simp] theorem State.enterWaiting_lines (x : Waiting) : (s.enterWaiting x).lines = s.lines := rfl
@[simp] theorem State.enterWaiting_table (x : Waiting) : (s.enterWaiting x).table = s.table := rfl
@[simp] theorem State.enterWaiting_writebacks (x : Waiting) : (s.enterWaiting x).writebacks = s.writebacks := rfl
@[simp] theorem State.enterWaiting_replies (x : Waiting) : (s.enterWaiting x).replies = s.replies := rfl
@[simp] theorem State.enterWaiting_homeStore (x : Waiting) : (s.enterWaiting x).homeStore = s.homeStore := rfl
@[simp] theorem State.enterWaiting_homeQueue (x : Waiting) : (s.enterWaiting x).homeQueue = s.homeQueue := rfl
@[simp] theorem State.enterWaiting_homeDone (x : Waiting) : (s.enterWaiting x).homeDone = s.homeDone := rfl
@[simp] theorem State.enterWaiting_hostTable (x : Waiting) : (s.enterWaiting x).hostTable = s.hostTable := rfl
@[simp] theorem State.enterWaiting_refused (x : Waiting) : (s.enterWaiting x).refused = s.refused := rfl
@[simp] theorem State.enterWaiting_readyOrder (x : Waiting) : (s.enterWaiting x).readyOrder = s.readyOrder := rfl
@[simp] theorem State.enterWaiting_nextPlace (x : Waiting) : (s.enterWaiting x).nextPlace = s.nextPlace := rfl
@[simp] theorem State.enterWaiting_latches (x : Waiting) : (s.enterWaiting x).latches = s.latches := rfl
@[simp] theorem State.enterWaiting_reservations (x : Waiting) : (s.enterWaiting x).reservations = s.reservations := rfl
@[simp] theorem State.enterWaiting_watches (x : Waiting) : (s.enterWaiting x).watches = s.watches := rfl
@[simp] theorem State.enterWaiting_posted (x : Waiting) : (s.enterWaiting x).posted = s.posted := rfl
@[simp] theorem State.enterWaiting_counters (x : Waiting) : (s.enterWaiting x).counters = s.counters := rfl
@[simp] theorem State.enterWaiting_out (x : Waiting) : (s.enterWaiting x).out = s.out := rfl
@[simp] theorem State.enterWaiting_now (x : Waiting) : (s.enterWaiting x).now = s.now := rfl
@[simp] theorem State.enterWaiting_pending (x : Waiting) : (s.enterWaiting x).pending = s.pending := rfl

@[simp] theorem State.endEntry_porst (l : LineAddr) : (s.endEntry l).porst = s.porst := rfl
@[simp] theorem State.endEntry_hrst (l : LineAddr) : (s.endEntry l).hrst = s.hrst := rfl
@[simp] theorem State.endEntry_station (l : LineAddr) : (s.endEntry l).station = s.station := rfl
@[simp] theorem State.endEntry_span (l : LineAddr) : (s.endEntry l).span = s.span := rfl
@[simp] theorem State.endEntry_lines (l : LineAddr) : (s.endEntry l).lines = s.lines := rfl
@[simp] theorem State.endEntry_writebacks (l : LineAddr) : (s.endEntry l).writebacks = s.writebacks := rfl
@[simp] theorem State.endEntry_replies (l : LineAddr) : (s.endEntry l).replies = s.replies := rfl
@[simp] theorem State.endEntry_homeStore (l : LineAddr) : (s.endEntry l).homeStore = s.homeStore := rfl
@[simp] theorem State.endEntry_homeQueue (l : LineAddr) : (s.endEntry l).homeQueue = s.homeQueue := rfl
@[simp] theorem State.endEntry_homeDone (l : LineAddr) : (s.endEntry l).homeDone = s.homeDone := rfl
@[simp] theorem State.endEntry_hostTable (l : LineAddr) : (s.endEntry l).hostTable = s.hostTable := rfl
@[simp] theorem State.endEntry_refused (l : LineAddr) : (s.endEntry l).refused = s.refused := rfl
@[simp] theorem State.endEntry_readyOrder (l : LineAddr) : (s.endEntry l).readyOrder = s.readyOrder := rfl
@[simp] theorem State.endEntry_nextPlace (l : LineAddr) : (s.endEntry l).nextPlace = s.nextPlace := rfl
@[simp] theorem State.endEntry_latches (l : LineAddr) : (s.endEntry l).latches = s.latches := rfl
@[simp] theorem State.endEntry_reservations (l : LineAddr) : (s.endEntry l).reservations = s.reservations := rfl
@[simp] theorem State.endEntry_watches (l : LineAddr) : (s.endEntry l).watches = s.watches := rfl
@[simp] theorem State.endEntry_posted (l : LineAddr) : (s.endEntry l).posted = s.posted := rfl
@[simp] theorem State.endEntry_counters (l : LineAddr) : (s.endEntry l).counters = s.counters := rfl
@[simp] theorem State.endEntry_out (l : LineAddr) : (s.endEntry l).out = s.out := rfl
@[simp] theorem State.endEntry_now (l : LineAddr) : (s.endEntry l).now = s.now := rfl
@[simp] theorem State.endEntry_pending (l : LineAddr) : (s.endEntry l).pending = s.pending := rfl

@[simp] theorem State.raiseVoided_porst : s.raiseVoided.porst = s.porst := rfl
@[simp] theorem State.raiseVoided_hrst : s.raiseVoided.hrst = s.hrst := rfl
@[simp] theorem State.raiseVoided_station : s.raiseVoided.station = s.station := rfl
@[simp] theorem State.raiseVoided_span : s.raiseVoided.span = s.span := rfl
@[simp] theorem State.raiseVoided_lines : s.raiseVoided.lines = s.lines := rfl
@[simp] theorem State.raiseVoided_table : s.raiseVoided.table = s.table := rfl
@[simp] theorem State.raiseVoided_waiting : s.raiseVoided.waiting = s.waiting := rfl
@[simp] theorem State.raiseVoided_writebacks : s.raiseVoided.writebacks = s.writebacks := rfl
@[simp] theorem State.raiseVoided_replies : s.raiseVoided.replies = s.replies := rfl
@[simp] theorem State.raiseVoided_homeStore : s.raiseVoided.homeStore = s.homeStore := rfl
@[simp] theorem State.raiseVoided_homeQueue : s.raiseVoided.homeQueue = s.homeQueue := rfl
@[simp] theorem State.raiseVoided_homeDone : s.raiseVoided.homeDone = s.homeDone := rfl
@[simp] theorem State.raiseVoided_hostTable : s.raiseVoided.hostTable = s.hostTable := rfl
@[simp] theorem State.raiseVoided_refused : s.raiseVoided.refused = s.refused := rfl
@[simp] theorem State.raiseVoided_readyOrder : s.raiseVoided.readyOrder = s.readyOrder := rfl
@[simp] theorem State.raiseVoided_nextPlace : s.raiseVoided.nextPlace = s.nextPlace := rfl
@[simp] theorem State.raiseVoided_latches : s.raiseVoided.latches = s.latches := rfl
@[simp] theorem State.raiseVoided_reservations : s.raiseVoided.reservations = s.reservations := rfl
@[simp] theorem State.raiseVoided_watches : s.raiseVoided.watches = s.watches := rfl
@[simp] theorem State.raiseVoided_posted : s.raiseVoided.posted = s.posted := rfl
@[simp] theorem State.raiseVoided_out : s.raiseVoided.out = s.out := rfl
@[simp] theorem State.raiseVoided_now : s.raiseVoided.now = s.now := rfl
@[simp] theorem State.raiseVoided_pending : s.raiseVoided.pending = s.pending := rfl

@[simp] theorem State.raiseCheckErrors_porst : s.raiseCheckErrors.porst = s.porst := rfl
@[simp] theorem State.raiseCheckErrors_hrst : s.raiseCheckErrors.hrst = s.hrst := rfl
@[simp] theorem State.raiseCheckErrors_station : s.raiseCheckErrors.station = s.station := rfl
@[simp] theorem State.raiseCheckErrors_span : s.raiseCheckErrors.span = s.span := rfl
@[simp] theorem State.raiseCheckErrors_lines : s.raiseCheckErrors.lines = s.lines := rfl
@[simp] theorem State.raiseCheckErrors_table : s.raiseCheckErrors.table = s.table := rfl
@[simp] theorem State.raiseCheckErrors_waiting : s.raiseCheckErrors.waiting = s.waiting := rfl
@[simp] theorem State.raiseCheckErrors_writebacks : s.raiseCheckErrors.writebacks = s.writebacks := rfl
@[simp] theorem State.raiseCheckErrors_replies : s.raiseCheckErrors.replies = s.replies := rfl
@[simp] theorem State.raiseCheckErrors_homeStore : s.raiseCheckErrors.homeStore = s.homeStore := rfl
@[simp] theorem State.raiseCheckErrors_homeQueue : s.raiseCheckErrors.homeQueue = s.homeQueue := rfl
@[simp] theorem State.raiseCheckErrors_homeDone : s.raiseCheckErrors.homeDone = s.homeDone := rfl
@[simp] theorem State.raiseCheckErrors_hostTable : s.raiseCheckErrors.hostTable = s.hostTable := rfl
@[simp] theorem State.raiseCheckErrors_refused : s.raiseCheckErrors.refused = s.refused := rfl
@[simp] theorem State.raiseCheckErrors_readyOrder : s.raiseCheckErrors.readyOrder = s.readyOrder := rfl
@[simp] theorem State.raiseCheckErrors_nextPlace : s.raiseCheckErrors.nextPlace = s.nextPlace := rfl
@[simp] theorem State.raiseCheckErrors_latches : s.raiseCheckErrors.latches = s.latches := rfl
@[simp] theorem State.raiseCheckErrors_reservations : s.raiseCheckErrors.reservations = s.reservations := rfl
@[simp] theorem State.raiseCheckErrors_watches : s.raiseCheckErrors.watches = s.watches := rfl
@[simp] theorem State.raiseCheckErrors_posted : s.raiseCheckErrors.posted = s.posted := rfl
@[simp] theorem State.raiseCheckErrors_out : s.raiseCheckErrors.out = s.out := rfl
@[simp] theorem State.raiseCheckErrors_now : s.raiseCheckErrors.now = s.now := rfl
@[simp] theorem State.raiseCheckErrors_pending : s.raiseCheckErrors.pending = s.pending := rfl

@[simp] theorem State.raiseLateReplies_porst : s.raiseLateReplies.porst = s.porst := rfl
@[simp] theorem State.raiseLateReplies_hrst : s.raiseLateReplies.hrst = s.hrst := rfl
@[simp] theorem State.raiseLateReplies_station : s.raiseLateReplies.station = s.station := rfl
@[simp] theorem State.raiseLateReplies_span : s.raiseLateReplies.span = s.span := rfl
@[simp] theorem State.raiseLateReplies_lines : s.raiseLateReplies.lines = s.lines := rfl
@[simp] theorem State.raiseLateReplies_table : s.raiseLateReplies.table = s.table := rfl
@[simp] theorem State.raiseLateReplies_waiting : s.raiseLateReplies.waiting = s.waiting := rfl
@[simp] theorem State.raiseLateReplies_writebacks : s.raiseLateReplies.writebacks = s.writebacks := rfl
@[simp] theorem State.raiseLateReplies_replies : s.raiseLateReplies.replies = s.replies := rfl
@[simp] theorem State.raiseLateReplies_homeStore : s.raiseLateReplies.homeStore = s.homeStore := rfl
@[simp] theorem State.raiseLateReplies_homeQueue : s.raiseLateReplies.homeQueue = s.homeQueue := rfl
@[simp] theorem State.raiseLateReplies_homeDone : s.raiseLateReplies.homeDone = s.homeDone := rfl
@[simp] theorem State.raiseLateReplies_hostTable : s.raiseLateReplies.hostTable = s.hostTable := rfl
@[simp] theorem State.raiseLateReplies_refused : s.raiseLateReplies.refused = s.refused := rfl
@[simp] theorem State.raiseLateReplies_readyOrder : s.raiseLateReplies.readyOrder = s.readyOrder := rfl
@[simp] theorem State.raiseLateReplies_nextPlace : s.raiseLateReplies.nextPlace = s.nextPlace := rfl
@[simp] theorem State.raiseLateReplies_latches : s.raiseLateReplies.latches = s.latches := rfl
@[simp] theorem State.raiseLateReplies_reservations : s.raiseLateReplies.reservations = s.reservations := rfl
@[simp] theorem State.raiseLateReplies_watches : s.raiseLateReplies.watches = s.watches := rfl
@[simp] theorem State.raiseLateReplies_posted : s.raiseLateReplies.posted = s.posted := rfl
@[simp] theorem State.raiseLateReplies_out : s.raiseLateReplies.out = s.out := rfl
@[simp] theorem State.raiseLateReplies_now : s.raiseLateReplies.now = s.now := rfl
@[simp] theorem State.raiseLateReplies_pending : s.raiseLateReplies.pending = s.pending := rfl

@[simp] theorem State.raiseLostReplies_porst : s.raiseLostReplies.porst = s.porst := rfl
@[simp] theorem State.raiseLostReplies_hrst : s.raiseLostReplies.hrst = s.hrst := rfl
@[simp] theorem State.raiseLostReplies_station : s.raiseLostReplies.station = s.station := rfl
@[simp] theorem State.raiseLostReplies_span : s.raiseLostReplies.span = s.span := rfl
@[simp] theorem State.raiseLostReplies_lines : s.raiseLostReplies.lines = s.lines := rfl
@[simp] theorem State.raiseLostReplies_table : s.raiseLostReplies.table = s.table := rfl
@[simp] theorem State.raiseLostReplies_waiting : s.raiseLostReplies.waiting = s.waiting := rfl
@[simp] theorem State.raiseLostReplies_writebacks : s.raiseLostReplies.writebacks = s.writebacks := rfl
@[simp] theorem State.raiseLostReplies_replies : s.raiseLostReplies.replies = s.replies := rfl
@[simp] theorem State.raiseLostReplies_homeStore : s.raiseLostReplies.homeStore = s.homeStore := rfl
@[simp] theorem State.raiseLostReplies_homeQueue : s.raiseLostReplies.homeQueue = s.homeQueue := rfl
@[simp] theorem State.raiseLostReplies_homeDone : s.raiseLostReplies.homeDone = s.homeDone := rfl
@[simp] theorem State.raiseLostReplies_hostTable : s.raiseLostReplies.hostTable = s.hostTable := rfl
@[simp] theorem State.raiseLostReplies_refused : s.raiseLostReplies.refused = s.refused := rfl
@[simp] theorem State.raiseLostReplies_readyOrder : s.raiseLostReplies.readyOrder = s.readyOrder := rfl
@[simp] theorem State.raiseLostReplies_nextPlace : s.raiseLostReplies.nextPlace = s.nextPlace := rfl
@[simp] theorem State.raiseLostReplies_latches : s.raiseLostReplies.latches = s.latches := rfl
@[simp] theorem State.raiseLostReplies_reservations : s.raiseLostReplies.reservations = s.reservations := rfl
@[simp] theorem State.raiseLostReplies_watches : s.raiseLostReplies.watches = s.watches := rfl
@[simp] theorem State.raiseLostReplies_posted : s.raiseLostReplies.posted = s.posted := rfl
@[simp] theorem State.raiseLostReplies_out : s.raiseLostReplies.out = s.out := rfl
@[simp] theorem State.raiseLostReplies_now : s.raiseLostReplies.now = s.now := rfl
@[simp] theorem State.raiseLostReplies_pending : s.raiseLostReplies.pending = s.pending := rfl

@[simp] theorem State.raiseAbandoned_porst : s.raiseAbandoned.porst = s.porst := rfl
@[simp] theorem State.raiseAbandoned_hrst : s.raiseAbandoned.hrst = s.hrst := rfl
@[simp] theorem State.raiseAbandoned_station : s.raiseAbandoned.station = s.station := rfl
@[simp] theorem State.raiseAbandoned_span : s.raiseAbandoned.span = s.span := rfl
@[simp] theorem State.raiseAbandoned_lines : s.raiseAbandoned.lines = s.lines := rfl
@[simp] theorem State.raiseAbandoned_table : s.raiseAbandoned.table = s.table := rfl
@[simp] theorem State.raiseAbandoned_waiting : s.raiseAbandoned.waiting = s.waiting := rfl
@[simp] theorem State.raiseAbandoned_writebacks : s.raiseAbandoned.writebacks = s.writebacks := rfl
@[simp] theorem State.raiseAbandoned_replies : s.raiseAbandoned.replies = s.replies := rfl
@[simp] theorem State.raiseAbandoned_homeStore : s.raiseAbandoned.homeStore = s.homeStore := rfl
@[simp] theorem State.raiseAbandoned_homeQueue : s.raiseAbandoned.homeQueue = s.homeQueue := rfl
@[simp] theorem State.raiseAbandoned_homeDone : s.raiseAbandoned.homeDone = s.homeDone := rfl
@[simp] theorem State.raiseAbandoned_hostTable : s.raiseAbandoned.hostTable = s.hostTable := rfl
@[simp] theorem State.raiseAbandoned_refused : s.raiseAbandoned.refused = s.refused := rfl
@[simp] theorem State.raiseAbandoned_readyOrder : s.raiseAbandoned.readyOrder = s.readyOrder := rfl
@[simp] theorem State.raiseAbandoned_nextPlace : s.raiseAbandoned.nextPlace = s.nextPlace := rfl
@[simp] theorem State.raiseAbandoned_latches : s.raiseAbandoned.latches = s.latches := rfl
@[simp] theorem State.raiseAbandoned_reservations : s.raiseAbandoned.reservations = s.reservations := rfl
@[simp] theorem State.raiseAbandoned_watches : s.raiseAbandoned.watches = s.watches := rfl
@[simp] theorem State.raiseAbandoned_posted : s.raiseAbandoned.posted = s.posted := rfl
@[simp] theorem State.raiseAbandoned_out : s.raiseAbandoned.out = s.out := rfl
@[simp] theorem State.raiseAbandoned_now : s.raiseAbandoned.now = s.now := rfl
@[simp] theorem State.raiseAbandoned_pending : s.raiseAbandoned.pending = s.pending := rfl

@[simp] theorem State.raisePoisonReceived_porst : s.raisePoisonReceived.porst = s.porst := rfl
@[simp] theorem State.raisePoisonReceived_hrst : s.raisePoisonReceived.hrst = s.hrst := rfl
@[simp] theorem State.raisePoisonReceived_station : s.raisePoisonReceived.station = s.station := rfl
@[simp] theorem State.raisePoisonReceived_span : s.raisePoisonReceived.span = s.span := rfl
@[simp] theorem State.raisePoisonReceived_lines : s.raisePoisonReceived.lines = s.lines := rfl
@[simp] theorem State.raisePoisonReceived_table : s.raisePoisonReceived.table = s.table := rfl
@[simp] theorem State.raisePoisonReceived_waiting : s.raisePoisonReceived.waiting = s.waiting := rfl
@[simp] theorem State.raisePoisonReceived_writebacks : s.raisePoisonReceived.writebacks = s.writebacks := rfl
@[simp] theorem State.raisePoisonReceived_replies : s.raisePoisonReceived.replies = s.replies := rfl
@[simp] theorem State.raisePoisonReceived_homeStore : s.raisePoisonReceived.homeStore = s.homeStore := rfl
@[simp] theorem State.raisePoisonReceived_homeQueue : s.raisePoisonReceived.homeQueue = s.homeQueue := rfl
@[simp] theorem State.raisePoisonReceived_homeDone : s.raisePoisonReceived.homeDone = s.homeDone := rfl
@[simp] theorem State.raisePoisonReceived_hostTable : s.raisePoisonReceived.hostTable = s.hostTable := rfl
@[simp] theorem State.raisePoisonReceived_refused : s.raisePoisonReceived.refused = s.refused := rfl
@[simp] theorem State.raisePoisonReceived_readyOrder : s.raisePoisonReceived.readyOrder = s.readyOrder := rfl
@[simp] theorem State.raisePoisonReceived_nextPlace : s.raisePoisonReceived.nextPlace = s.nextPlace := rfl
@[simp] theorem State.raisePoisonReceived_latches : s.raisePoisonReceived.latches = s.latches := rfl
@[simp] theorem State.raisePoisonReceived_reservations : s.raisePoisonReceived.reservations = s.reservations := rfl
@[simp] theorem State.raisePoisonReceived_watches : s.raisePoisonReceived.watches = s.watches := rfl
@[simp] theorem State.raisePoisonReceived_posted : s.raisePoisonReceived.posted = s.posted := rfl
@[simp] theorem State.raisePoisonReceived_out : s.raisePoisonReceived.out = s.out := rfl
@[simp] theorem State.raisePoisonReceived_now : s.raisePoisonReceived.now = s.now := rfl
@[simp] theorem State.raisePoisonReceived_pending : s.raisePoisonReceived.pending = s.pending := rfl

@[simp] theorem State.raiseRefused_porst : s.raiseRefused.porst = s.porst := rfl
@[simp] theorem State.raiseRefused_hrst : s.raiseRefused.hrst = s.hrst := rfl
@[simp] theorem State.raiseRefused_station : s.raiseRefused.station = s.station := rfl
@[simp] theorem State.raiseRefused_span : s.raiseRefused.span = s.span := rfl
@[simp] theorem State.raiseRefused_lines : s.raiseRefused.lines = s.lines := rfl
@[simp] theorem State.raiseRefused_table : s.raiseRefused.table = s.table := rfl
@[simp] theorem State.raiseRefused_waiting : s.raiseRefused.waiting = s.waiting := rfl
@[simp] theorem State.raiseRefused_writebacks : s.raiseRefused.writebacks = s.writebacks := rfl
@[simp] theorem State.raiseRefused_replies : s.raiseRefused.replies = s.replies := rfl
@[simp] theorem State.raiseRefused_homeStore : s.raiseRefused.homeStore = s.homeStore := rfl
@[simp] theorem State.raiseRefused_homeQueue : s.raiseRefused.homeQueue = s.homeQueue := rfl
@[simp] theorem State.raiseRefused_homeDone : s.raiseRefused.homeDone = s.homeDone := rfl
@[simp] theorem State.raiseRefused_hostTable : s.raiseRefused.hostTable = s.hostTable := rfl
@[simp] theorem State.raiseRefused_refused : s.raiseRefused.refused = s.refused := rfl
@[simp] theorem State.raiseRefused_readyOrder : s.raiseRefused.readyOrder = s.readyOrder := rfl
@[simp] theorem State.raiseRefused_nextPlace : s.raiseRefused.nextPlace = s.nextPlace := rfl
@[simp] theorem State.raiseRefused_latches : s.raiseRefused.latches = s.latches := rfl
@[simp] theorem State.raiseRefused_reservations : s.raiseRefused.reservations = s.reservations := rfl
@[simp] theorem State.raiseRefused_watches : s.raiseRefused.watches = s.watches := rfl
@[simp] theorem State.raiseRefused_posted : s.raiseRefused.posted = s.posted := rfl
@[simp] theorem State.raiseRefused_out : s.raiseRefused.out = s.out := rfl
@[simp] theorem State.raiseRefused_now : s.raiseRefused.now = s.now := rfl
@[simp] theorem State.raiseRefused_pending : s.raiseRefused.pending = s.pending := rfl

@[simp] theorem State.updateHead_porst (c : ChanId) (f : HostEntry → HostEntry) : (s.updateHead c f).porst = s.porst := rfl
@[simp] theorem State.updateHead_hrst (c : ChanId) (f : HostEntry → HostEntry) : (s.updateHead c f).hrst = s.hrst := rfl
@[simp] theorem State.updateHead_station (c : ChanId) (f : HostEntry → HostEntry) : (s.updateHead c f).station = s.station := rfl
@[simp] theorem State.updateHead_span (c : ChanId) (f : HostEntry → HostEntry) : (s.updateHead c f).span = s.span := rfl
@[simp] theorem State.updateHead_lines (c : ChanId) (f : HostEntry → HostEntry) : (s.updateHead c f).lines = s.lines := rfl
@[simp] theorem State.updateHead_table (c : ChanId) (f : HostEntry → HostEntry) : (s.updateHead c f).table = s.table := rfl
@[simp] theorem State.updateHead_waiting (c : ChanId) (f : HostEntry → HostEntry) : (s.updateHead c f).waiting = s.waiting := rfl
@[simp] theorem State.updateHead_writebacks (c : ChanId) (f : HostEntry → HostEntry) : (s.updateHead c f).writebacks = s.writebacks := rfl
@[simp] theorem State.updateHead_replies (c : ChanId) (f : HostEntry → HostEntry) : (s.updateHead c f).replies = s.replies := rfl
@[simp] theorem State.updateHead_homeStore (c : ChanId) (f : HostEntry → HostEntry) : (s.updateHead c f).homeStore = s.homeStore := rfl
@[simp] theorem State.updateHead_homeQueue (c : ChanId) (f : HostEntry → HostEntry) : (s.updateHead c f).homeQueue = s.homeQueue := rfl
@[simp] theorem State.updateHead_homeDone (c : ChanId) (f : HostEntry → HostEntry) : (s.updateHead c f).homeDone = s.homeDone := rfl
@[simp] theorem State.updateHead_refused (c : ChanId) (f : HostEntry → HostEntry) : (s.updateHead c f).refused = s.refused := rfl
@[simp] theorem State.updateHead_readyOrder (c : ChanId) (f : HostEntry → HostEntry) : (s.updateHead c f).readyOrder = s.readyOrder := rfl
@[simp] theorem State.updateHead_nextPlace (c : ChanId) (f : HostEntry → HostEntry) : (s.updateHead c f).nextPlace = s.nextPlace := rfl
@[simp] theorem State.updateHead_latches (c : ChanId) (f : HostEntry → HostEntry) : (s.updateHead c f).latches = s.latches := rfl
@[simp] theorem State.updateHead_reservations (c : ChanId) (f : HostEntry → HostEntry) : (s.updateHead c f).reservations = s.reservations := rfl
@[simp] theorem State.updateHead_watches (c : ChanId) (f : HostEntry → HostEntry) : (s.updateHead c f).watches = s.watches := rfl
@[simp] theorem State.updateHead_posted (c : ChanId) (f : HostEntry → HostEntry) : (s.updateHead c f).posted = s.posted := rfl
@[simp] theorem State.updateHead_counters (c : ChanId) (f : HostEntry → HostEntry) : (s.updateHead c f).counters = s.counters := rfl
@[simp] theorem State.updateHead_out (c : ChanId) (f : HostEntry → HostEntry) : (s.updateHead c f).out = s.out := rfl
@[simp] theorem State.updateHead_now (c : ChanId) (f : HostEntry → HostEntry) : (s.updateHead c f).now = s.now := rfl
@[simp] theorem State.updateHead_pending (c : ChanId) (f : HostEntry → HostEntry) : (s.updateHead c f).pending = s.pending := rfl

@[simp] theorem State.setPhase_porst (c : ChanId) (p : HostPhase) : (s.setPhase c p).porst = s.porst := rfl
@[simp] theorem State.setPhase_hrst (c : ChanId) (p : HostPhase) : (s.setPhase c p).hrst = s.hrst := rfl
@[simp] theorem State.setPhase_station (c : ChanId) (p : HostPhase) : (s.setPhase c p).station = s.station := rfl
@[simp] theorem State.setPhase_span (c : ChanId) (p : HostPhase) : (s.setPhase c p).span = s.span := rfl
@[simp] theorem State.setPhase_lines (c : ChanId) (p : HostPhase) : (s.setPhase c p).lines = s.lines := rfl
@[simp] theorem State.setPhase_table (c : ChanId) (p : HostPhase) : (s.setPhase c p).table = s.table := rfl
@[simp] theorem State.setPhase_waiting (c : ChanId) (p : HostPhase) : (s.setPhase c p).waiting = s.waiting := rfl
@[simp] theorem State.setPhase_writebacks (c : ChanId) (p : HostPhase) : (s.setPhase c p).writebacks = s.writebacks := rfl
@[simp] theorem State.setPhase_replies (c : ChanId) (p : HostPhase) : (s.setPhase c p).replies = s.replies := rfl
@[simp] theorem State.setPhase_homeStore (c : ChanId) (p : HostPhase) : (s.setPhase c p).homeStore = s.homeStore := rfl
@[simp] theorem State.setPhase_homeQueue (c : ChanId) (p : HostPhase) : (s.setPhase c p).homeQueue = s.homeQueue := rfl
@[simp] theorem State.setPhase_homeDone (c : ChanId) (p : HostPhase) : (s.setPhase c p).homeDone = s.homeDone := rfl
@[simp] theorem State.setPhase_refused (c : ChanId) (p : HostPhase) : (s.setPhase c p).refused = s.refused := rfl
@[simp] theorem State.setPhase_readyOrder (c : ChanId) (p : HostPhase) : (s.setPhase c p).readyOrder = s.readyOrder := rfl
@[simp] theorem State.setPhase_nextPlace (c : ChanId) (p : HostPhase) : (s.setPhase c p).nextPlace = s.nextPlace := rfl
@[simp] theorem State.setPhase_latches (c : ChanId) (p : HostPhase) : (s.setPhase c p).latches = s.latches := rfl
@[simp] theorem State.setPhase_reservations (c : ChanId) (p : HostPhase) : (s.setPhase c p).reservations = s.reservations := rfl
@[simp] theorem State.setPhase_watches (c : ChanId) (p : HostPhase) : (s.setPhase c p).watches = s.watches := rfl
@[simp] theorem State.setPhase_posted (c : ChanId) (p : HostPhase) : (s.setPhase c p).posted = s.posted := rfl
@[simp] theorem State.setPhase_counters (c : ChanId) (p : HostPhase) : (s.setPhase c p).counters = s.counters := rfl
@[simp] theorem State.setPhase_out (c : ChanId) (p : HostPhase) : (s.setPhase c p).out = s.out := rfl
@[simp] theorem State.setPhase_now (c : ChanId) (p : HostPhase) : (s.setPhase c p).now = s.now := rfl
@[simp] theorem State.setPhase_pending (c : ChanId) (p : HostPhase) : (s.setPhase c p).pending = s.pending := rfl

@[simp] theorem State.complete_porst (c : ChanId) (st : Status) (d : List Word) : (s.complete c st d).porst = s.porst := rfl
@[simp] theorem State.complete_hrst (c : ChanId) (st : Status) (d : List Word) : (s.complete c st d).hrst = s.hrst := rfl
@[simp] theorem State.complete_station (c : ChanId) (st : Status) (d : List Word) : (s.complete c st d).station = s.station := rfl
@[simp] theorem State.complete_span (c : ChanId) (st : Status) (d : List Word) : (s.complete c st d).span = s.span := rfl
@[simp] theorem State.complete_lines (c : ChanId) (st : Status) (d : List Word) : (s.complete c st d).lines = s.lines := rfl
@[simp] theorem State.complete_table (c : ChanId) (st : Status) (d : List Word) : (s.complete c st d).table = s.table := rfl
@[simp] theorem State.complete_writebacks (c : ChanId) (st : Status) (d : List Word) : (s.complete c st d).writebacks = s.writebacks := rfl
@[simp] theorem State.complete_replies (c : ChanId) (st : Status) (d : List Word) : (s.complete c st d).replies = s.replies := rfl
@[simp] theorem State.complete_homeStore (c : ChanId) (st : Status) (d : List Word) : (s.complete c st d).homeStore = s.homeStore := rfl
@[simp] theorem State.complete_homeQueue (c : ChanId) (st : Status) (d : List Word) : (s.complete c st d).homeQueue = s.homeQueue := rfl
@[simp] theorem State.complete_homeDone (c : ChanId) (st : Status) (d : List Word) : (s.complete c st d).homeDone = s.homeDone := rfl
@[simp] theorem State.complete_refused (c : ChanId) (st : Status) (d : List Word) : (s.complete c st d).refused = s.refused := rfl
@[simp] theorem State.complete_readyOrder (c : ChanId) (st : Status) (d : List Word) : (s.complete c st d).readyOrder = s.readyOrder := rfl
@[simp] theorem State.complete_nextPlace (c : ChanId) (st : Status) (d : List Word) : (s.complete c st d).nextPlace = s.nextPlace := rfl
@[simp] theorem State.complete_latches (c : ChanId) (st : Status) (d : List Word) : (s.complete c st d).latches = s.latches := rfl
@[simp] theorem State.complete_reservations (c : ChanId) (st : Status) (d : List Word) : (s.complete c st d).reservations = s.reservations := rfl
@[simp] theorem State.complete_watches (c : ChanId) (st : Status) (d : List Word) : (s.complete c st d).watches = s.watches := rfl
@[simp] theorem State.complete_posted (c : ChanId) (st : Status) (d : List Word) : (s.complete c st d).posted = s.posted := rfl
@[simp] theorem State.complete_counters (c : ChanId) (st : Status) (d : List Word) : (s.complete c st d).counters = s.counters := rfl
@[simp] theorem State.complete_out (c : ChanId) (st : Status) (d : List Word) : (s.complete c st d).out = s.out := rfl
@[simp] theorem State.complete_now (c : ChanId) (st : Status) (d : List Word) : (s.complete c st d).now = s.now := rfl
@[simp] theorem State.complete_pending (c : ChanId) (st : Status) (d : List Word) : (s.complete c st d).pending = s.pending := rfl

@[simp] theorem State.accept_porst (c : ChanId) (tag : BitVec 8) (r : Request) : (s.accept c tag r).porst = s.porst := rfl
@[simp] theorem State.accept_hrst (c : ChanId) (tag : BitVec 8) (r : Request) : (s.accept c tag r).hrst = s.hrst := rfl
@[simp] theorem State.accept_station (c : ChanId) (tag : BitVec 8) (r : Request) : (s.accept c tag r).station = s.station := rfl
@[simp] theorem State.accept_span (c : ChanId) (tag : BitVec 8) (r : Request) : (s.accept c tag r).span = s.span := rfl
@[simp] theorem State.accept_lines (c : ChanId) (tag : BitVec 8) (r : Request) : (s.accept c tag r).lines = s.lines := rfl
@[simp] theorem State.accept_table (c : ChanId) (tag : BitVec 8) (r : Request) : (s.accept c tag r).table = s.table := rfl
@[simp] theorem State.accept_waiting (c : ChanId) (tag : BitVec 8) (r : Request) : (s.accept c tag r).waiting = s.waiting := rfl
@[simp] theorem State.accept_writebacks (c : ChanId) (tag : BitVec 8) (r : Request) : (s.accept c tag r).writebacks = s.writebacks := rfl
@[simp] theorem State.accept_replies (c : ChanId) (tag : BitVec 8) (r : Request) : (s.accept c tag r).replies = s.replies := rfl
@[simp] theorem State.accept_homeStore (c : ChanId) (tag : BitVec 8) (r : Request) : (s.accept c tag r).homeStore = s.homeStore := rfl
@[simp] theorem State.accept_homeQueue (c : ChanId) (tag : BitVec 8) (r : Request) : (s.accept c tag r).homeQueue = s.homeQueue := rfl
@[simp] theorem State.accept_homeDone (c : ChanId) (tag : BitVec 8) (r : Request) : (s.accept c tag r).homeDone = s.homeDone := rfl
@[simp] theorem State.accept_refused (c : ChanId) (tag : BitVec 8) (r : Request) : (s.accept c tag r).refused = s.refused := rfl
@[simp] theorem State.accept_readyOrder (c : ChanId) (tag : BitVec 8) (r : Request) : (s.accept c tag r).readyOrder = s.readyOrder := rfl
@[simp] theorem State.accept_latches (c : ChanId) (tag : BitVec 8) (r : Request) : (s.accept c tag r).latches = s.latches := rfl
@[simp] theorem State.accept_reservations (c : ChanId) (tag : BitVec 8) (r : Request) : (s.accept c tag r).reservations = s.reservations := rfl
@[simp] theorem State.accept_watches (c : ChanId) (tag : BitVec 8) (r : Request) : (s.accept c tag r).watches = s.watches := rfl
@[simp] theorem State.accept_posted (c : ChanId) (tag : BitVec 8) (r : Request) : (s.accept c tag r).posted = s.posted := rfl
@[simp] theorem State.accept_counters (c : ChanId) (tag : BitVec 8) (r : Request) : (s.accept c tag r).counters = s.counters := rfl
@[simp] theorem State.accept_out (c : ChanId) (tag : BitVec 8) (r : Request) : (s.accept c tag r).out = s.out := rfl
@[simp] theorem State.accept_now (c : ChanId) (tag : BitVec 8) (r : Request) : (s.accept c tag r).now = s.now := rfl
@[simp] theorem State.accept_pending (c : ChanId) (tag : BitVec 8) (r : Request) : (s.accept c tag r).pending = s.pending := rfl

@[simp] theorem State.popPosted_porst : s.popPosted.porst = s.porst := rfl
@[simp] theorem State.popPosted_hrst : s.popPosted.hrst = s.hrst := rfl
@[simp] theorem State.popPosted_station : s.popPosted.station = s.station := rfl
@[simp] theorem State.popPosted_span : s.popPosted.span = s.span := rfl
@[simp] theorem State.popPosted_lines : s.popPosted.lines = s.lines := rfl
@[simp] theorem State.popPosted_table : s.popPosted.table = s.table := rfl
@[simp] theorem State.popPosted_waiting : s.popPosted.waiting = s.waiting := rfl
@[simp] theorem State.popPosted_writebacks : s.popPosted.writebacks = s.writebacks := rfl
@[simp] theorem State.popPosted_replies : s.popPosted.replies = s.replies := rfl
@[simp] theorem State.popPosted_homeStore : s.popPosted.homeStore = s.homeStore := rfl
@[simp] theorem State.popPosted_homeQueue : s.popPosted.homeQueue = s.homeQueue := rfl
@[simp] theorem State.popPosted_homeDone : s.popPosted.homeDone = s.homeDone := rfl
@[simp] theorem State.popPosted_hostTable : s.popPosted.hostTable = s.hostTable := rfl
@[simp] theorem State.popPosted_refused : s.popPosted.refused = s.refused := rfl
@[simp] theorem State.popPosted_readyOrder : s.popPosted.readyOrder = s.readyOrder := rfl
@[simp] theorem State.popPosted_nextPlace : s.popPosted.nextPlace = s.nextPlace := rfl
@[simp] theorem State.popPosted_latches : s.popPosted.latches = s.latches := rfl
@[simp] theorem State.popPosted_reservations : s.popPosted.reservations = s.reservations := rfl
@[simp] theorem State.popPosted_watches : s.popPosted.watches = s.watches := rfl
@[simp] theorem State.popPosted_counters : s.popPosted.counters = s.counters := rfl
@[simp] theorem State.popPosted_out : s.popPosted.out = s.out := rfl
@[simp] theorem State.popPosted_now : s.popPosted.now = s.now := rfl
@[simp] theorem State.popPosted_pending : s.popPosted.pending = s.pending := rfl

@[simp] theorem State.clearReservation_porst (c : ChanId) : (s.clearReservation c).porst = s.porst := rfl
@[simp] theorem State.clearReservation_hrst (c : ChanId) : (s.clearReservation c).hrst = s.hrst := rfl
@[simp] theorem State.clearReservation_station (c : ChanId) : (s.clearReservation c).station = s.station := rfl
@[simp] theorem State.clearReservation_span (c : ChanId) : (s.clearReservation c).span = s.span := rfl
@[simp] theorem State.clearReservation_lines (c : ChanId) : (s.clearReservation c).lines = s.lines := rfl
@[simp] theorem State.clearReservation_table (c : ChanId) : (s.clearReservation c).table = s.table := rfl
@[simp] theorem State.clearReservation_waiting (c : ChanId) : (s.clearReservation c).waiting = s.waiting := rfl
@[simp] theorem State.clearReservation_writebacks (c : ChanId) : (s.clearReservation c).writebacks = s.writebacks := rfl
@[simp] theorem State.clearReservation_replies (c : ChanId) : (s.clearReservation c).replies = s.replies := rfl
@[simp] theorem State.clearReservation_homeStore (c : ChanId) : (s.clearReservation c).homeStore = s.homeStore := rfl
@[simp] theorem State.clearReservation_homeQueue (c : ChanId) : (s.clearReservation c).homeQueue = s.homeQueue := rfl
@[simp] theorem State.clearReservation_homeDone (c : ChanId) : (s.clearReservation c).homeDone = s.homeDone := rfl
@[simp] theorem State.clearReservation_hostTable (c : ChanId) : (s.clearReservation c).hostTable = s.hostTable := rfl
@[simp] theorem State.clearReservation_refused (c : ChanId) : (s.clearReservation c).refused = s.refused := rfl
@[simp] theorem State.clearReservation_readyOrder (c : ChanId) : (s.clearReservation c).readyOrder = s.readyOrder := rfl
@[simp] theorem State.clearReservation_nextPlace (c : ChanId) : (s.clearReservation c).nextPlace = s.nextPlace := rfl
@[simp] theorem State.clearReservation_latches (c : ChanId) : (s.clearReservation c).latches = s.latches := rfl
@[simp] theorem State.clearReservation_watches (c : ChanId) : (s.clearReservation c).watches = s.watches := rfl
@[simp] theorem State.clearReservation_posted (c : ChanId) : (s.clearReservation c).posted = s.posted := rfl
@[simp] theorem State.clearReservation_counters (c : ChanId) : (s.clearReservation c).counters = s.counters := rfl
@[simp] theorem State.clearReservation_out (c : ChanId) : (s.clearReservation c).out = s.out := rfl
@[simp] theorem State.clearReservation_now (c : ChanId) : (s.clearReservation c).now = s.now := rfl
@[simp] theorem State.clearReservation_pending (c : ChanId) : (s.clearReservation c).pending = s.pending := rfl

@[simp] theorem State.freeWatch_porst (c : ChanId) : (s.freeWatch c).porst = s.porst := rfl
@[simp] theorem State.freeWatch_hrst (c : ChanId) : (s.freeWatch c).hrst = s.hrst := rfl
@[simp] theorem State.freeWatch_station (c : ChanId) : (s.freeWatch c).station = s.station := rfl
@[simp] theorem State.freeWatch_span (c : ChanId) : (s.freeWatch c).span = s.span := rfl
@[simp] theorem State.freeWatch_lines (c : ChanId) : (s.freeWatch c).lines = s.lines := rfl
@[simp] theorem State.freeWatch_table (c : ChanId) : (s.freeWatch c).table = s.table := rfl
@[simp] theorem State.freeWatch_waiting (c : ChanId) : (s.freeWatch c).waiting = s.waiting := rfl
@[simp] theorem State.freeWatch_writebacks (c : ChanId) : (s.freeWatch c).writebacks = s.writebacks := rfl
@[simp] theorem State.freeWatch_replies (c : ChanId) : (s.freeWatch c).replies = s.replies := rfl
@[simp] theorem State.freeWatch_homeStore (c : ChanId) : (s.freeWatch c).homeStore = s.homeStore := rfl
@[simp] theorem State.freeWatch_homeQueue (c : ChanId) : (s.freeWatch c).homeQueue = s.homeQueue := rfl
@[simp] theorem State.freeWatch_homeDone (c : ChanId) : (s.freeWatch c).homeDone = s.homeDone := rfl
@[simp] theorem State.freeWatch_hostTable (c : ChanId) : (s.freeWatch c).hostTable = s.hostTable := rfl
@[simp] theorem State.freeWatch_refused (c : ChanId) : (s.freeWatch c).refused = s.refused := rfl
@[simp] theorem State.freeWatch_readyOrder (c : ChanId) : (s.freeWatch c).readyOrder = s.readyOrder := rfl
@[simp] theorem State.freeWatch_nextPlace (c : ChanId) : (s.freeWatch c).nextPlace = s.nextPlace := rfl
@[simp] theorem State.freeWatch_latches (c : ChanId) : (s.freeWatch c).latches = s.latches := rfl
@[simp] theorem State.freeWatch_reservations (c : ChanId) : (s.freeWatch c).reservations = s.reservations := rfl
@[simp] theorem State.freeWatch_posted (c : ChanId) : (s.freeWatch c).posted = s.posted := rfl
@[simp] theorem State.freeWatch_counters (c : ChanId) : (s.freeWatch c).counters = s.counters := rfl
@[simp] theorem State.freeWatch_out (c : ChanId) : (s.freeWatch c).out = s.out := rfl
@[simp] theorem State.freeWatch_now (c : ChanId) : (s.freeWatch c).now = s.now := rfl
@[simp] theorem State.freeWatch_pending (c : ChanId) : (s.freeWatch c).pending = s.pending := rfl

@[simp] theorem State.openTenure_porst (t : Tenure) : (s.openTenure t).porst = s.porst := rfl
@[simp] theorem State.openTenure_hrst (t : Tenure) : (s.openTenure t).hrst = s.hrst := rfl
@[simp] theorem State.openTenure_station (t : Tenure) : (s.openTenure t).station = s.station := rfl
@[simp] theorem State.openTenure_lines (t : Tenure) : (s.openTenure t).lines = s.lines := rfl
@[simp] theorem State.openTenure_table (t : Tenure) : (s.openTenure t).table = s.table := rfl
@[simp] theorem State.openTenure_waiting (t : Tenure) : (s.openTenure t).waiting = s.waiting := rfl
@[simp] theorem State.openTenure_writebacks (t : Tenure) : (s.openTenure t).writebacks = s.writebacks := rfl
@[simp] theorem State.openTenure_replies (t : Tenure) : (s.openTenure t).replies = s.replies := rfl
@[simp] theorem State.openTenure_homeStore (t : Tenure) : (s.openTenure t).homeStore = s.homeStore := rfl
@[simp] theorem State.openTenure_homeQueue (t : Tenure) : (s.openTenure t).homeQueue = s.homeQueue := rfl
@[simp] theorem State.openTenure_homeDone (t : Tenure) : (s.openTenure t).homeDone = s.homeDone := rfl
@[simp] theorem State.openTenure_hostTable (t : Tenure) : (s.openTenure t).hostTable = s.hostTable := rfl
@[simp] theorem State.openTenure_refused (t : Tenure) : (s.openTenure t).refused = s.refused := rfl
@[simp] theorem State.openTenure_readyOrder (t : Tenure) : (s.openTenure t).readyOrder = s.readyOrder := rfl
@[simp] theorem State.openTenure_nextPlace (t : Tenure) : (s.openTenure t).nextPlace = s.nextPlace := rfl
@[simp] theorem State.openTenure_latches (t : Tenure) : (s.openTenure t).latches = s.latches := rfl
@[simp] theorem State.openTenure_reservations (t : Tenure) : (s.openTenure t).reservations = s.reservations := rfl
@[simp] theorem State.openTenure_watches (t : Tenure) : (s.openTenure t).watches = s.watches := rfl
@[simp] theorem State.openTenure_posted (t : Tenure) : (s.openTenure t).posted = s.posted := rfl
@[simp] theorem State.openTenure_counters (t : Tenure) : (s.openTenure t).counters = s.counters := rfl
@[simp] theorem State.openTenure_out (t : Tenure) : (s.openTenure t).out = s.out := rfl
@[simp] theorem State.openTenure_now (t : Tenure) : (s.openTenure t).now = s.now := rfl
@[simp] theorem State.openTenure_pending (t : Tenure) : (s.openTenure t).pending = s.pending := rfl

@[simp] theorem State.closeTenure_porst : s.closeTenure.porst = s.porst := rfl
@[simp] theorem State.closeTenure_hrst : s.closeTenure.hrst = s.hrst := rfl
@[simp] theorem State.closeTenure_station : s.closeTenure.station = s.station := rfl
@[simp] theorem State.closeTenure_lines : s.closeTenure.lines = s.lines := rfl
@[simp] theorem State.closeTenure_table : s.closeTenure.table = s.table := rfl
@[simp] theorem State.closeTenure_waiting : s.closeTenure.waiting = s.waiting := rfl
@[simp] theorem State.closeTenure_writebacks : s.closeTenure.writebacks = s.writebacks := rfl
@[simp] theorem State.closeTenure_replies : s.closeTenure.replies = s.replies := rfl
@[simp] theorem State.closeTenure_homeStore : s.closeTenure.homeStore = s.homeStore := rfl
@[simp] theorem State.closeTenure_homeQueue : s.closeTenure.homeQueue = s.homeQueue := rfl
@[simp] theorem State.closeTenure_homeDone : s.closeTenure.homeDone = s.homeDone := rfl
@[simp] theorem State.closeTenure_hostTable : s.closeTenure.hostTable = s.hostTable := rfl
@[simp] theorem State.closeTenure_refused : s.closeTenure.refused = s.refused := rfl
@[simp] theorem State.closeTenure_readyOrder : s.closeTenure.readyOrder = s.readyOrder := rfl
@[simp] theorem State.closeTenure_nextPlace : s.closeTenure.nextPlace = s.nextPlace := rfl
@[simp] theorem State.closeTenure_latches : s.closeTenure.latches = s.latches := rfl
@[simp] theorem State.closeTenure_reservations : s.closeTenure.reservations = s.reservations := rfl
@[simp] theorem State.closeTenure_watches : s.closeTenure.watches = s.watches := rfl
@[simp] theorem State.closeTenure_posted : s.closeTenure.posted = s.posted := rfl
@[simp] theorem State.closeTenure_counters : s.closeTenure.counters = s.counters := rfl
@[simp] theorem State.closeTenure_out : s.closeTenure.out = s.out := rfl
@[simp] theorem State.closeTenure_now : s.closeTenure.now = s.now := rfl
@[simp] theorem State.closeTenure_pending : s.closeTenure.pending = s.pending := rfl

@[simp] theorem State.seeFrame_porst (n : StationNo) : (s.seeFrame n).porst = s.porst := rfl
@[simp] theorem State.seeFrame_hrst (n : StationNo) : (s.seeFrame n).hrst = s.hrst := rfl
@[simp] theorem State.seeFrame_station (n : StationNo) : (s.seeFrame n).station = s.station := rfl
@[simp] theorem State.seeFrame_lines (n : StationNo) : (s.seeFrame n).lines = s.lines := rfl
@[simp] theorem State.seeFrame_table (n : StationNo) : (s.seeFrame n).table = s.table := rfl
@[simp] theorem State.seeFrame_waiting (n : StationNo) : (s.seeFrame n).waiting = s.waiting := rfl
@[simp] theorem State.seeFrame_writebacks (n : StationNo) : (s.seeFrame n).writebacks = s.writebacks := rfl
@[simp] theorem State.seeFrame_replies (n : StationNo) : (s.seeFrame n).replies = s.replies := rfl
@[simp] theorem State.seeFrame_homeStore (n : StationNo) : (s.seeFrame n).homeStore = s.homeStore := rfl
@[simp] theorem State.seeFrame_homeQueue (n : StationNo) : (s.seeFrame n).homeQueue = s.homeQueue := rfl
@[simp] theorem State.seeFrame_homeDone (n : StationNo) : (s.seeFrame n).homeDone = s.homeDone := rfl
@[simp] theorem State.seeFrame_hostTable (n : StationNo) : (s.seeFrame n).hostTable = s.hostTable := rfl
@[simp] theorem State.seeFrame_refused (n : StationNo) : (s.seeFrame n).refused = s.refused := rfl
@[simp] theorem State.seeFrame_readyOrder (n : StationNo) : (s.seeFrame n).readyOrder = s.readyOrder := rfl
@[simp] theorem State.seeFrame_nextPlace (n : StationNo) : (s.seeFrame n).nextPlace = s.nextPlace := rfl
@[simp] theorem State.seeFrame_latches (n : StationNo) : (s.seeFrame n).latches = s.latches := rfl
@[simp] theorem State.seeFrame_reservations (n : StationNo) : (s.seeFrame n).reservations = s.reservations := rfl
@[simp] theorem State.seeFrame_watches (n : StationNo) : (s.seeFrame n).watches = s.watches := rfl
@[simp] theorem State.seeFrame_posted (n : StationNo) : (s.seeFrame n).posted = s.posted := rfl
@[simp] theorem State.seeFrame_counters (n : StationNo) : (s.seeFrame n).counters = s.counters := rfl
@[simp] theorem State.seeFrame_out (n : StationNo) : (s.seeFrame n).out = s.out := rfl
@[simp] theorem State.seeFrame_now (n : StationNo) : (s.seeFrame n).now = s.now := rfl
@[simp] theorem State.seeFrame_pending (n : StationNo) : (s.seeFrame n).pending = s.pending := rfl

@[simp] theorem State.arbitrate_porst : s.arbitrate.porst = s.porst := rfl
@[simp] theorem State.arbitrate_hrst : s.arbitrate.hrst = s.hrst := rfl
@[simp] theorem State.arbitrate_station : s.arbitrate.station = s.station := rfl
@[simp] theorem State.arbitrate_lines : s.arbitrate.lines = s.lines := rfl
@[simp] theorem State.arbitrate_table : s.arbitrate.table = s.table := rfl
@[simp] theorem State.arbitrate_waiting : s.arbitrate.waiting = s.waiting := rfl
@[simp] theorem State.arbitrate_writebacks : s.arbitrate.writebacks = s.writebacks := rfl
@[simp] theorem State.arbitrate_replies : s.arbitrate.replies = s.replies := rfl
@[simp] theorem State.arbitrate_homeStore : s.arbitrate.homeStore = s.homeStore := rfl
@[simp] theorem State.arbitrate_homeQueue : s.arbitrate.homeQueue = s.homeQueue := rfl
@[simp] theorem State.arbitrate_homeDone : s.arbitrate.homeDone = s.homeDone := rfl
@[simp] theorem State.arbitrate_hostTable : s.arbitrate.hostTable = s.hostTable := rfl
@[simp] theorem State.arbitrate_refused : s.arbitrate.refused = s.refused := rfl
@[simp] theorem State.arbitrate_readyOrder : s.arbitrate.readyOrder = s.readyOrder := rfl
@[simp] theorem State.arbitrate_nextPlace : s.arbitrate.nextPlace = s.nextPlace := rfl
@[simp] theorem State.arbitrate_latches : s.arbitrate.latches = s.latches := rfl
@[simp] theorem State.arbitrate_reservations : s.arbitrate.reservations = s.reservations := rfl
@[simp] theorem State.arbitrate_watches : s.arbitrate.watches = s.watches := rfl
@[simp] theorem State.arbitrate_posted : s.arbitrate.posted = s.posted := rfl
@[simp] theorem State.arbitrate_counters : s.arbitrate.counters = s.counters := rfl
@[simp] theorem State.arbitrate_out : s.arbitrate.out = s.out := rfl
@[simp] theorem State.arbitrate_now : s.arbitrate.now = s.now := rfl
@[simp] theorem State.arbitrate_pending : s.arbitrate.pending = s.pending := rfl

@[simp] theorem State.addReply_porst (n : StationNo) (l : LineAddr) (b : ReplyBody) : (s.addReply n l b).porst = s.porst := rfl
@[simp] theorem State.addReply_hrst (n : StationNo) (l : LineAddr) (b : ReplyBody) : (s.addReply n l b).hrst = s.hrst := rfl
@[simp] theorem State.addReply_station (n : StationNo) (l : LineAddr) (b : ReplyBody) : (s.addReply n l b).station = s.station := rfl
@[simp] theorem State.addReply_span (n : StationNo) (l : LineAddr) (b : ReplyBody) : (s.addReply n l b).span = s.span := rfl
@[simp] theorem State.addReply_lines (n : StationNo) (l : LineAddr) (b : ReplyBody) : (s.addReply n l b).lines = s.lines := rfl
@[simp] theorem State.addReply_table (n : StationNo) (l : LineAddr) (b : ReplyBody) : (s.addReply n l b).table = s.table := rfl
@[simp] theorem State.addReply_waiting (n : StationNo) (l : LineAddr) (b : ReplyBody) : (s.addReply n l b).waiting = s.waiting := rfl
@[simp] theorem State.addReply_writebacks (n : StationNo) (l : LineAddr) (b : ReplyBody) : (s.addReply n l b).writebacks = s.writebacks := rfl
@[simp] theorem State.addReply_homeStore (n : StationNo) (l : LineAddr) (b : ReplyBody) : (s.addReply n l b).homeStore = s.homeStore := rfl
@[simp] theorem State.addReply_homeQueue (n : StationNo) (l : LineAddr) (b : ReplyBody) : (s.addReply n l b).homeQueue = s.homeQueue := rfl
@[simp] theorem State.addReply_homeDone (n : StationNo) (l : LineAddr) (b : ReplyBody) : (s.addReply n l b).homeDone = s.homeDone := rfl
@[simp] theorem State.addReply_hostTable (n : StationNo) (l : LineAddr) (b : ReplyBody) : (s.addReply n l b).hostTable = s.hostTable := rfl
@[simp] theorem State.addReply_refused (n : StationNo) (l : LineAddr) (b : ReplyBody) : (s.addReply n l b).refused = s.refused := rfl
@[simp] theorem State.addReply_readyOrder (n : StationNo) (l : LineAddr) (b : ReplyBody) : (s.addReply n l b).readyOrder = s.readyOrder := rfl
@[simp] theorem State.addReply_nextPlace (n : StationNo) (l : LineAddr) (b : ReplyBody) : (s.addReply n l b).nextPlace = s.nextPlace := rfl
@[simp] theorem State.addReply_latches (n : StationNo) (l : LineAddr) (b : ReplyBody) : (s.addReply n l b).latches = s.latches := rfl
@[simp] theorem State.addReply_reservations (n : StationNo) (l : LineAddr) (b : ReplyBody) : (s.addReply n l b).reservations = s.reservations := rfl
@[simp] theorem State.addReply_watches (n : StationNo) (l : LineAddr) (b : ReplyBody) : (s.addReply n l b).watches = s.watches := rfl
@[simp] theorem State.addReply_posted (n : StationNo) (l : LineAddr) (b : ReplyBody) : (s.addReply n l b).posted = s.posted := rfl
@[simp] theorem State.addReply_counters (n : StationNo) (l : LineAddr) (b : ReplyBody) : (s.addReply n l b).counters = s.counters := rfl
@[simp] theorem State.addReply_out (n : StationNo) (l : LineAddr) (b : ReplyBody) : (s.addReply n l b).out = s.out := rfl
@[simp] theorem State.addReply_now (n : StationNo) (l : LineAddr) (b : ReplyBody) : (s.addReply n l b).now = s.now := rfl
@[simp] theorem State.addReply_pending (n : StationNo) (l : LineAddr) (b : ReplyBody) : (s.addReply n l b).pending = s.pending := rfl

@[simp] theorem State.popHome_porst : s.popHome.porst = s.porst := rfl
@[simp] theorem State.popHome_hrst : s.popHome.hrst = s.hrst := rfl
@[simp] theorem State.popHome_station : s.popHome.station = s.station := rfl
@[simp] theorem State.popHome_span : s.popHome.span = s.span := rfl
@[simp] theorem State.popHome_lines : s.popHome.lines = s.lines := rfl
@[simp] theorem State.popHome_table : s.popHome.table = s.table := rfl
@[simp] theorem State.popHome_waiting : s.popHome.waiting = s.waiting := rfl
@[simp] theorem State.popHome_writebacks : s.popHome.writebacks = s.writebacks := rfl
@[simp] theorem State.popHome_replies : s.popHome.replies = s.replies := rfl
@[simp] theorem State.popHome_homeStore : s.popHome.homeStore = s.homeStore := rfl
@[simp] theorem State.popHome_hostTable : s.popHome.hostTable = s.hostTable := rfl
@[simp] theorem State.popHome_refused : s.popHome.refused = s.refused := rfl
@[simp] theorem State.popHome_readyOrder : s.popHome.readyOrder = s.readyOrder := rfl
@[simp] theorem State.popHome_nextPlace : s.popHome.nextPlace = s.nextPlace := rfl
@[simp] theorem State.popHome_latches : s.popHome.latches = s.latches := rfl
@[simp] theorem State.popHome_reservations : s.popHome.reservations = s.reservations := rfl
@[simp] theorem State.popHome_watches : s.popHome.watches = s.watches := rfl
@[simp] theorem State.popHome_posted : s.popHome.posted = s.posted := rfl
@[simp] theorem State.popHome_counters : s.popHome.counters = s.counters := rfl
@[simp] theorem State.popHome_out : s.popHome.out = s.out := rfl
@[simp] theorem State.popHome_now : s.popHome.now = s.now := rfl
@[simp] theorem State.popHome_pending : s.popHome.pending = s.pending := rfl

@[simp] theorem State.orderReady_porst : s.orderReady.porst = s.porst := rfl
@[simp] theorem State.orderReady_hrst : s.orderReady.hrst = s.hrst := rfl
@[simp] theorem State.orderReady_station : s.orderReady.station = s.station := rfl
@[simp] theorem State.orderReady_span : s.orderReady.span = s.span := rfl
@[simp] theorem State.orderReady_lines : s.orderReady.lines = s.lines := rfl
@[simp] theorem State.orderReady_table : s.orderReady.table = s.table := rfl
@[simp] theorem State.orderReady_waiting : s.orderReady.waiting = s.waiting := rfl
@[simp] theorem State.orderReady_writebacks : s.orderReady.writebacks = s.writebacks := rfl
@[simp] theorem State.orderReady_replies : s.orderReady.replies = s.replies := rfl
@[simp] theorem State.orderReady_homeStore : s.orderReady.homeStore = s.homeStore := rfl
@[simp] theorem State.orderReady_homeQueue : s.orderReady.homeQueue = s.homeQueue := rfl
@[simp] theorem State.orderReady_homeDone : s.orderReady.homeDone = s.homeDone := rfl
@[simp] theorem State.orderReady_hostTable : s.orderReady.hostTable = s.hostTable := rfl
@[simp] theorem State.orderReady_refused : s.orderReady.refused = s.refused := rfl
@[simp] theorem State.orderReady_nextPlace : s.orderReady.nextPlace = s.nextPlace := rfl
@[simp] theorem State.orderReady_latches : s.orderReady.latches = s.latches := rfl
@[simp] theorem State.orderReady_reservations : s.orderReady.reservations = s.reservations := rfl
@[simp] theorem State.orderReady_watches : s.orderReady.watches = s.watches := rfl
@[simp] theorem State.orderReady_posted : s.orderReady.posted = s.posted := rfl
@[simp] theorem State.orderReady_counters : s.orderReady.counters = s.counters := rfl
@[simp] theorem State.orderReady_out : s.orderReady.out = s.out := rfl
@[simp] theorem State.orderReady_now : s.orderReady.now = s.now := rfl
@[simp] theorem State.orderReady_pending : s.orderReady.pending = s.pending := rfl

end Sys2Proof.Machine
end

