-- ==== Sys2Proof/Laws/Frame.lean ====
section
/-! SUPPORT. What the station's own blocks never touch while a happening runs to rest: the pins, the station state, the
span interface, the reply queue, the home slice, the refused records, the places, the count and the command queue. -/

namespace Sys2Proof.Machine

/-- The parts of the state that host execution, the transaction table and the line array do not write. -/
structure Base where
  porst : Bool
  hrst : Bool
  station : Station
  span : Span
  replies : List ReplyEntry
  homeStore : List (Nat × StoreWord)
  homeQueue : List HomeOp
  homeDone : Option ReplyBody
  refused : Vector (Option (BitVec 8 × Bool)) 4
  nextPlace : Nat
  out : HostOut
  now : Nat
  pending : List Instr

/-- The base of a state. -/
def State.base (s : State) : Base :=
  { porst := s.porst, hrst := s.hrst, station := s.station, span := s.span, replies := s.replies,
    homeStore := s.homeStore, homeQueue := s.homeQueue, homeDone := s.homeDone, refused := s.refused,
    nextPlace := s.nextPlace, out := s.out, now := s.now, pending := s.pending }

theorem base_porst {s t : State} (h : s.base = t.base) : s.porst = t.porst := congrArg Base.porst h
theorem base_hrst {s t : State} (h : s.base = t.base) : s.hrst = t.hrst := congrArg Base.hrst h
theorem base_station {s t : State} (h : s.base = t.base) : s.station = t.station := congrArg Base.station h
theorem base_span {s t : State} (h : s.base = t.base) : s.span = t.span := congrArg Base.span h
theorem base_replies {s t : State} (h : s.base = t.base) : s.replies = t.replies := congrArg Base.replies h
theorem base_homeStore {s t : State} (h : s.base = t.base) : s.homeStore = t.homeStore := congrArg Base.homeStore h
theorem base_homeQueue {s t : State} (h : s.base = t.base) : s.homeQueue = t.homeQueue := congrArg Base.homeQueue h
theorem base_homeDone {s t : State} (h : s.base = t.base) : s.homeDone = t.homeDone := congrArg Base.homeDone h
theorem base_refused {s t : State} (h : s.base = t.base) : s.refused = t.refused := congrArg Base.refused h
theorem base_nextPlace {s t : State} (h : s.base = t.base) : s.nextPlace = t.nextPlace := congrArg Base.nextPlace h
theorem base_out {s t : State} (h : s.base = t.base) : s.out = t.out := congrArg Base.out h
theorem base_now {s t : State} (h : s.base = t.base) : s.now = t.now := congrArg Base.now h
theorem base_pending {s t : State} (h : s.base = t.base) : s.pending = t.pending := congrArg Base.pending h

/-- A fold keeps what each of its steps keeps. -/
theorem foldl_keeps {α β γ : Type} (g : α → γ) (f : α → β → α) (h : ∀ s x, g (f s x) = g s) (xs : List β) (s : α) :
    g (xs.foldl f s) = g s := by
  induction xs generalizing s with
  | nil => rfl
  | cons x xs ih => simp [ih, h]

variable (s : State)

/-! ### Updates -/

@[simp] theorem State.setWay_base (l : LineAddr) (w : WayId) (x : Way) : (s.setWay l w x).base = s.base := rfl
@[simp] theorem State.touchWay_base (l : LineAddr) (w : WayId) : (s.touchWay l w).base = s.base := rfl
@[simp] theorem State.updateEntry_base (l : LineAddr) (f : TableEntry → TableEntry) :
    (s.updateEntry l f).base = s.base := rfl
@[simp] theorem State.updateWriteback_base (l : LineAddr) (f : WritebackEntry → WritebackEntry) :
    (s.updateWriteback l f).base = s.base := rfl
@[simp] theorem State.addWriteback_base (l : LineAddr) (d : LineData) (o : Option ChanId) :
    (s.addWriteback l d o).base = s.base := rfl
@[simp] theorem State.dropWaiter_base (x : Who) : (s.dropWaiter x).base = s.base := rfl
@[simp] theorem State.owePass_base : s.owePass.base = s.base := rfl
@[simp] theorem State.unwait_base (x : Who) : (s.unwait x).base = s.base := rfl
@[simp] theorem State.enterWaiting_base (x : Waiting) : (s.enterWaiting x).base = s.base := rfl
@[simp] theorem State.endEntry_base (l : LineAddr) : (s.endEntry l).base = s.base := rfl
@[simp] theorem State.raiseVoided_base : s.raiseVoided.base = s.base := rfl
@[simp] theorem State.raiseCheckErrors_base : s.raiseCheckErrors.base = s.base := rfl
@[simp] theorem State.raiseLateReplies_base : s.raiseLateReplies.base = s.base := rfl
@[simp] theorem State.raiseLostReplies_base : s.raiseLostReplies.base = s.base := rfl
@[simp] theorem State.raiseAbandoned_base : s.raiseAbandoned.base = s.base := rfl
@[simp] theorem State.raisePoisonReceived_base : s.raisePoisonReceived.base = s.base := rfl
@[simp] theorem State.updateHead_base (c : ChanId) (f : HostEntry → HostEntry) : (s.updateHead c f).base = s.base := rfl
@[simp] theorem State.setPhase_base (c : ChanId) (p : HostPhase) : (s.setPhase c p).base = s.base := rfl
@[simp] theorem State.complete_base (c : ChanId) (st : Status) (d : List Word) : (s.complete c st d).base = s.base := rfl
@[simp] theorem State.popPosted_base : s.popPosted.base = s.base := rfl
@[simp] theorem State.clearReservation_base (c : ChanId) : (s.clearReservation c).base = s.base := rfl
@[simp] theorem State.freeWatch_base (c : ChanId) : (s.freeWatch c).base = s.base := rfl
@[simp] theorem State.orderReady_base : s.orderReady.base = s.base := rfl
@[simp] theorem State.waitAt_base (x : Who) (p : Nat) (a b : Bool) : (s.waitAt x p a b).base = s.base := rfl
@[simp] theorem State.fillPend_base (l : LineAddr) (w : WayId) : (s.fillPend l w).base = s.base := rfl

@[simp] theorem State.touch_base (l : LineAddr) : (s.touch l).base = s.base := by
  unfold State.touch; split <;> simp
@[simp] theorem State.setLineState_base (l : LineAddr) (st : LineState) : (s.setLineState l st).base = s.base := by
  unfold State.setLineState; split <;> simp
@[simp] theorem State.dropTag_base (l : LineAddr) : (s.dropTag l).base = s.base := by
  unfold State.dropTag; split <;> simp
@[simp] theorem State.install_base (l : LineAddr) (st : LineState) (d : LineData) : (s.install l st d).base = s.base := by
  unfold State.install; split <;> simp
@[simp] theorem State.failPosted_base (st : Status) : (s.failPosted st).base = s.base := by
  unfold State.failPosted; split
  · rfl
  · simp only [State.popPosted_base]; rfl

/-! ### Reservations, watches, stores -/

@[simp] theorem State.breakReservation_base (c : ChanId) : (s.breakReservation c).base = s.base := by
  unfold State.breakReservation; simp only; split <;> simp
@[simp] theorem State.breakReservations_base (p : Addr → Bool) : (s.breakReservations p).base = s.base :=
  foldl_keeps State.base _ (fun s c => by split <;> simp) _ s
@[simp] theorem State.watchStore_base (c : ChanId) (a : Addr) (v : Word) : (s.watchStore c a v).base = s.base := by
  unfold State.watchStore; split
  · split <;> simp
  · rfl
@[simp] theorem State.reportStore_base (a : Addr) (v : Word) : (s.reportStore a v).base = s.base := by
  unfold State.reportStore; rw [foldl_keeps State.base _ (fun s c => by simp)]; simp
@[simp] theorem State.watchDepart_base (c : ChanId) (l : LineAddr) : (s.watchDepart c l).base = s.base := by
  unfold State.watchDepart; split
  · split <;> rfl
  · rfl
@[simp] theorem State.depart_base (l : LineAddr) : (s.depart l).base = s.base := by
  unfold State.depart; rw [foldl_keeps State.base _ (fun s c => by simp)]; simp
@[simp] theorem State.writeWay_base (a : Addr) (v : Word) : (s.writeWay a v).base = s.base := by
  unfold State.writeWay; split <;> simp
@[simp] theorem State.storeWord_base (a : Addr) (v : Word) : (s.storeWord a v).base = s.base := by
  simp [State.storeWord]
theorem State.storeMasked_base {a : Addr} {m : BitVec 8} {v : Word} {t : State} (h : s.storeMasked a m v = some t) :
    t.base = s.base := by
  unfold State.storeMasked at h; split at h
  · cases h
  · rw [← Option.some.inj h]; simp

/-! ### Performing -/

@[simp] theorem State.performRead_base (c : ChanId) (a : Addr) : (s.performRead c a).base = s.base := by
  unfold State.performRead; split <;> simp
@[simp] theorem State.performWrite_base (c : ChanId) (a : Addr) (m : BitVec 8) (v : Word) :
    (s.performWrite c a m v).base = s.base := by
  unfold State.performWrite; split
  · rename_i h; simp [State.storeMasked_base s h]
  · simp
@[simp] theorem State.performAtomic_base (c : ChanId) (op : AtomicOp) (a : Addr) (x y : Word) :
    (s.performAtomic c op a x y).base = s.base := by
  unfold State.performAtomic; split
  · simp
  · split <;> simp
@[simp] theorem State.performReserve_base (c : ChanId) (a : Addr) : (s.performReserve c a).base = s.base := by
  unfold State.performReserve; split
  · rfl
  · split
    · simp
    · rw [State.complete_base]; exact State.touch_base s (lineOf a)
@[simp] theorem State.performConditional_base (c : ChanId) (a : Addr) (v : Word) :
    (s.performConditional c a v).base = s.base := by
  unfold State.performConditional; split <;> simp
@[simp] theorem State.performWatch_base (c : ChanId) (a : Addr) (v : Word) (n : BitVec 16) :
    (s.performWatch c a v n).base = s.base := by
  unfold State.performWatch; split
  · rfl
  · split
    · simp
    · split
      · simp
      · simp only [State.setPhase_base]; exact State.touch_base s (lineOf a)
@[simp] theorem State.performFence_base (c : ChanId) : (s.performFence c).base = s.base := rfl
@[simp] theorem State.performProbe_base (c : ChanId) (a : Addr) : (s.performProbe c a).base = s.base := rfl
@[simp] theorem State.performStatus_base (c : ChanId) (b : Bool) : (s.performStatus c b).base = s.base := by
  unfold State.performStatus; split <;> rfl
@[simp] theorem State.performRequest_base (c : ChanId) (r : Request) : (s.performRequest c r).base = s.base := by
  cases r <;> simp [State.performRequest]
@[simp] theorem State.performPosted_base : s.performPosted.base = s.base := by
  unfold State.performPosted; split
  · rfl
  · split
    · rename_i h; simp [State.storeMasked_base s h]
    · simp
@[simp] theorem State.perform_base (w : Who) : (s.perform w).base = s.base := by
  unfold State.perform; split
  · simp
  · split <;> simp
@[simp] theorem State.failWaiter_base (st : Status) (w : Who) : (State.failWaiter st s w).base = s.base := by
  unfold State.failWaiter; split
  · simp
  · split
    · split <;> simp
    · rfl
@[simp] theorem State.resultWaiter_base (d : DirectOp) (e : Bool) (v : Word) (w : Who) :
    (State.resultWaiter d e v s w).base = s.base := by
  unfold State.resultWaiter; split
  · split <;> simp
  · split
    · simp
    · split <;> simp

/-! ### Lookups -/

@[simp] theorem State.markJoined_base (w : Who) : (s.markJoined w).base = s.base := by
  unfold State.markJoined; split <;> simp
@[simp] theorem State.addEntry_base (w : Who) (k : TableKind) (o : Option WayId) (l : LineAddr) :
    (s.addEntry w k o l).base = s.base := by
  unfold State.addEntry; simp only [State.markJoined_base]; rfl
/-- All that the emptying of a victim way can be, when it has the room it needs (R12, R13, R53). -/
theorem State.emptyVictim_cases {s t : State} {l : LineAddr} {w : WayId} (h : s.emptyVictim l w = some t) :
    ((s.wayAt l w).tag = none ∧ t = s.fillPend l w) ∨
    ∃ x, (s.wayAt l w).tag = some x ∧ s.held x = false ∧
      (((s.wayAt l w).state.dirty = true ∧ s.writebackRoom = true ∧
          t = ((s.addWriteback x (s.wayAt l w).data none).fillPend l w).depart x) ∨
        ((s.wayAt l w).state.dirty = false ∧ t = (s.fillPend l w).depart x)) := by
  unfold State.emptyVictim at h
  cases hx : (s.wayAt l w).tag with
  | none => rw [hx] at h; exact .inl ⟨rfl, (Option.some.inj h).symm⟩
  | some x =>
    simp only [hx, Option.ite_none_left_eq_some, Bool.not_eq_true] at h
    refine .inr ⟨x, rfl, h.1, ?_⟩
    cases hd : (s.wayAt l w).state.dirty <;> simp only [hd, ↓reduceIte, Bool.false_eq_true] at h
    · exact .inr ⟨rfl, (Option.some.inj h.2).symm⟩
    · rw [Option.ite_none_right_eq_some] at h
      exact .inl ⟨rfl, h.2.1, (Option.some.inj h.2.2).symm⟩
/-- All that a granted allocation can be: the table had room and no entry of the line, and the line was under no hold; a
kind with no way takes an entry alone, and the others a victim way too (R53, R54). -/
theorem State.grant_cases {s t : State} {who : Who} {k : TableKind} {l : LineAddr} (h : s.grant who k l = some t) :
    s.table.length < Config.tableEntries ∧ (s.entryFor l).isSome = false ∧ s.held l = false ∧
    (((k = .upgrade ∨ ∃ d, k = .direct d) ∧ t = s.addEntry who k none l) ∨
      ∃ w u, ((s.findWay l).isSome || (s.writebackFor l).isSome || isDirect l) = false ∧ s.victim l = some w ∧
        s.emptyVictim l w = some u ∧ t = u.addEntry who k (some w) l) := by
  unfold State.grant at h
  rw [Option.ite_none_left_eq_some, Bool.not_eq_true, Bool.or_eq_false_iff, Bool.or_eq_false_iff] at h
  obtain ⟨⟨⟨room, free⟩, loose⟩, h⟩ := h
  have room : s.table.length < Config.tableEntries := Nat.lt_of_not_le (of_decide_eq_false room)
  refine ⟨room, free, loose, ?_⟩
  cases k with
  | upgrade => exact .inl ⟨.inl rfl, (Option.some.inj h).symm⟩
  | direct d => exact .inl ⟨.inr ⟨d, rfl⟩, (Option.some.inj h).symm⟩
  | _ =>
    refine .inr ?_
    simp only [Option.ite_none_left_eq_some, Bool.not_eq_true] at h
    cases hv : s.victim l with
    | none => rw [hv] at h; exact absurd h.2 (by simp)
    | some w =>
      rw [hv, Option.map_eq_some_iff] at h
      obtain ⟨none', u, hu, rfl⟩ := h
      exact ⟨w, u, none', rfl, hu, rfl⟩
theorem State.emptyVictim_base {l : LineAddr} {w : WayId} {t : State} (h : s.emptyVictim l w = some t) :
    t.base = s.base := by
  rcases State.emptyVictim_cases h with h | ⟨_, -, -, h | h⟩
  · rw [h.2]; simp
  · rw [h.2.2]; simp
  · rw [h.2]; simp
theorem State.grant_base {w : Who} {k : TableKind} {l : LineAddr} {t : State} (h : s.grant w k l = some t) :
    t.base = s.base := by
  obtain ⟨-, -, -, ⟨-, rfl⟩ | ⟨_, _, -, -, hu, rfl⟩⟩ := State.grant_cases h
  · simp
  · simp [State.emptyVictim_base s hu]
@[simp] theorem State.joinEntry_base (w : Who) (l : LineAddr) : (s.joinEntry w l).base = s.base := by
  simp [State.joinEntry]
@[simp] theorem State.flushHeld_base (c : ChanId) (p : Nat) (b m : Bool) (l : LineAddr) :
    (s.flushHeld c p b m l).base = s.base := by
  unfold State.flushHeld; simp only; split
  · split
    · simp
    · split
      · split <;> simp
      · simp
  · split <;> simp
@[simp] theorem State.finishHead_base (c : ChanId) (st : Status) : (s.finishHead c st).base = s.base := by
  unfold State.finishHead; split <;> simp
@[simp] theorem State.applyDecision_base (w : Who) (p : Nat) (b m : Bool) (l : LineAddr) (d : Decision) :
    (s.applyDecision w p b m l d).base = s.base := by
  unfold State.applyDecision; split
  · simp
  · split <;> simp
  · simp
  · split
    · split
      · rename_i h; exact State.grant_base s h
      · simp
    · simp
  · split <;> simp
  · split <;> simp
  · simp
@[simp] theorem State.lookupOp_base (w : Who) (b : Bool) : (s.lookupOp w b).base = s.base := by
  unfold State.lookupOp; simp only; split
  · split <;> simp
  · split <;> simp

/-! ### Running to rest -/

@[simp] theorem State.activate_base (c : ChanId) : (s.activate c).base = s.base := by
  unfold State.activate; simp only; split
  · split <;> simp
  · simp
@[simp] theorem State.promote_base (c : ChanId) : (s.promote c).base = s.base := by
  unfold State.promote; split
  · rfl
  · split
    · simp
    · split
      · simp
      · split <;> simp
@[simp] theorem State.enterPosted_base (c : ChanId) : (s.enterPosted c).base = s.base := by
  unfold State.enterPosted; split
  · split
    · rfl
    · rfl
  · rfl
/-- Whatever a rule brings about, the base stands. -/
theorem State.nextRule_base {t : State} (h : s.nextRule = some t) : t.base = s.base := by
  unfold State.nextRule State.rulePosted State.ruleDrain State.ruleRoom State.ruleHead State.rulePass at h
  simp only [Option.or_eq_some_iff] at h
  rcases h with h | ⟨-, h | ⟨-, h | ⟨-, h | ⟨-, h⟩⟩⟩⟩
  · split at h
    · rw [← Option.some.inj h]; simp
    · cases h
  · simp only [Option.map_eq_some_iff] at h; obtain ⟨_, -, rfl⟩ := h; simp
  · simp only [Option.map_eq_some_iff] at h; obtain ⟨_, -, rfl⟩ := h; simp
  · split at h
    · simp only [Option.map_eq_some_iff] at h; obtain ⟨_, -, rfl⟩ := h; simp
    · cases h
  · simp only [Option.map_eq_some_iff] at h; obtain ⟨_, -, rfl⟩ := h; simp
@[simp] theorem settleLoop_base (n : Nat) : (settleLoop n s).base = s.base := by
  induction n generalizing s with
  | zero => rfl
  | succ n ih =>
    unfold settleLoop; split
    · rfl
    · rename_i h; rw [ih, State.nextRule_base s h]
/-- Running to rest leaves the base as it was. -/
@[simp] theorem State.settle_base : s.settle.base = s.base := by simp [State.settle]

/-! ### Verdicts, replies, expiries -/

@[simp] theorem State.freeFillPending_base (l : LineAddr) : (s.freeFillPending l).base = s.base := by
  unfold State.freeFillPending; split <;> simp
@[simp] theorem State.giveUpEntry_base (e : TableEntry) (st : Status) : (s.giveUpEntry e st).base = s.base := by
  unfold State.giveUpEntry; rw [State.endEntry_base, foldl_keeps State.base _ (fun s w => by simp)]; simp
@[simp] theorem State.installFill_base (e : TableEntry) (st : LineState) (d : LineData) :
    (s.installFill e st d).base = s.base := by
  unfold State.installFill; rw [State.endEntry_base, foldl_keeps State.base _ (fun s w => by simp)]; simp
@[simp] theorem State.takeResult_base (e : TableEntry) (d : DirectOp) (b : Bool) (v : Word) :
    (s.takeResult e d b v).base = s.base := by
  unfold State.takeResult; rw [State.endEntry_base, foldl_keeps State.base _ (fun s w => by simp)]
@[simp] theorem State.matchReply_base (l : LineAddr) (b : ReplyBody) : (s.matchReply l b).base = s.base := by
  unfold State.matchReply; split
  · simp
  · split
    · split <;> simp
    · split
      · split <;> simp
      · simp
@[simp] theorem State.takeReply_base (l : LineAddr) (b : ReplyBody) : (s.takeReply l b).base = s.base := by
  unfold State.takeReply; split <;> simp
@[simp] theorem State.failConditionals_base (ws : List Who) : (s.failConditionals ws).base = s.base :=
  foldl_keeps State.base _ (fun s w => by split <;> simp) _ s
@[simp] theorem State.overtake_base (e : TableEntry) (o : Option WayId) (r : List Who) :
    (s.overtake e o r).base = s.base := by
  unfold State.overtake; split <;> simp
@[simp] theorem State.endPendingFlushes_base (l : LineAddr) : (s.endPendingFlushes l).base = s.base :=
  foldl_keeps State.base _ (fun s c => by split <;> (try split) <;> (try split) <;> simp) _ s
@[simp] theorem State.snoopInvalidate_base (l : LineAddr) : (s.snoopInvalidate l).base = s.base := by
  unfold State.snoopInvalidate; simp only; split
  · split
    · split <;> simp
    · simp
  · simp
@[simp] theorem State.snoopLine_base (l : LineAddr) (b : RequestBody) : (s.snoopLine l b).base = s.base := by
  unfold State.snoopLine; split
  · split <;> simp
  · simp
  · simp
  · rfl
@[simp] theorem State.passEntry_base (e : TableEntry) (v : Verdict) (b : Bool) : (s.passEntry e v b).base = s.base := by
  unfold State.passEntry; split
  · rw [State.endEntry_base, foldl_keeps State.base _ (fun s w => by simp)]; simp
  · simp
  · simp
@[simp] theorem State.expireEntry_base (e : TableEntry) : (s.expireEntry e).base = s.base := by
  simp [State.expireEntry]
@[simp] theorem State.timeOutWatch_base (c : ChanId) (w : Watch) : (s.timeOutWatch c w).base = s.base := by
  simp [State.timeOutWatch]

end Sys2Proof.Machine
end

