-- ==== Sys2Proof/Laws/Lines.lean ====
section
/-! SUPPORT. The line array: what the write of one way leaves of every other, and what a lookup then finds. -/

namespace Sys2Proof.Machine

variable {s : State}

/-! ### One way -/

/-- The written way reads as written. -/
@[simp] theorem wayAt_setWay_same (l : LineAddr) (w : WayId) (x : Way) : (s.setWay l w x).wayAt l w = x := by
  simp [State.wayAt, State.setWay]

/-- Every other way stands. -/
theorem wayAt_setWay_other {l k : LineAddr} {w v : WayId} (x : Way) (h : setOf k ≠ setOf l ∨ v ≠ w) :
    (s.setWay l w x).wayAt k v = s.wayAt k v := by
  by_cases hk : setOf k = setOf l
  · have hv : (w : Nat) ≠ v := fun hc => (h.resolve_left (fun hn => hn hk)) (Fin.ext hc.symm)
    simp only [State.wayAt, State.setWay, hk, Fin.getElem_fin, Vector.getElem_set_self]
    rw [Vector.getElem_set_ne _ _ hv]
  · have hn : ((setOf l : Fin 32) : Nat) ≠ (setOf k : Fin 32) := fun hc => hk (Fin.ext hc.symm)
    have he : (s.setWay l w x).lines[setOf k] = s.lines[setOf k] := Vector.getElem_set_ne (setOf l).isLt (setOf k).isLt hn
    exact congrArg (fun c : CacheSet => c.ways[v]) he

/-- A move to the front leaves every way as it was. -/
@[simp] theorem wayAt_touchWay (l k : LineAddr) (w v : WayId) : (s.touchWay l w).wayAt k v = s.wayAt k v := by
  by_cases hk : setOf k = setOf l
  · simp [State.wayAt, State.touchWay, hk]
  · have hn : ((setOf l : Fin 32) : Nat) ≠ (setOf k : Fin 32) := fun hc => hk (Fin.ext hc.symm)
    have he : (s.touchWay l w).lines[setOf k] = s.lines[setOf k] := Vector.getElem_set_ne (setOf l).isLt (setOf k).isLt hn
    exact congrArg (fun c : CacheSet => c.ways[v]) he

@[simp] theorem wayAt_touch (l k : LineAddr) (v : WayId) : (s.touch l).wayAt k v = s.wayAt k v := by
  unfold State.touch; split <;> simp

/-! ### Looking up -/

/-- A way found carries the line's tag, and the line is of the cached region (R1). -/
theorem findWay_some {l : LineAddr} {w : WayId} (h : s.findWay l = some w) :
    isDirect l = false ∧ (s.wayAt l w).tag = some l := by
  unfold State.findWay at h
  split at h
  · cases h
  · rename_i hd
    exact ⟨by simpa using hd, by simpa using List.find?_some h⟩

/-- A line not found is carried by no way of its set, or is of the direct region. -/
theorem findWay_none {l : LineAddr} (h : s.findWay l = none) (hd : isDirect l = false) (w : WayId) :
    (s.wayAt l w).tag ≠ some l := by
  unfold State.findWay at h
  rw [if_neg (by simp [hd])] at h
  have hw : w ∈ wayIds := by fin_cases w <;> simp [wayIds]
  simpa using List.find?_eq_none.1 h w hw

/-- A lookup depends on the tags of the line's set alone. -/
theorem findWay_congr {t : State} {l : LineAddr}
    (h : ∀ w : WayId, (t.wayAt l w).tag = some l ↔ (s.wayAt l w).tag = some l) : t.findWay l = s.findWay l := by
  have : (fun w => decide ((t.wayAt l w).tag = some l)) = (fun w => decide ((s.wayAt l w).tag = some l)) :=
    funext (fun w => decide_eq_decide.2 (h w))
  simp only [State.findWay, this]

@[simp] theorem findWay_touch (l k : LineAddr) : (s.touch l).findWay k = s.findWay k :=
  findWay_congr (fun w => by simp)

@[simp] theorem lookup_touch (l k : LineAddr) : (s.touch l).lookup k = s.lookup k := by simp [State.lookup]

@[simp] theorem lineData_touch (l k : LineAddr) : (s.touch l).lineData k = s.lineData k := by simp [State.lineData]

@[simp] theorem heldValid_touch (l k : LineAddr) : (s.touch l).heldValid k = s.heldValid k := by
  simp [State.heldValid]

/-- A write to a way that keeps its tag leaves every lookup finding the way it found. -/
theorem findWay_setWay_tag {l : LineAddr} {w : WayId} {x : Way} (h : x.tag = (s.wayAt l w).tag) (k : LineAddr) :
    (s.setWay l w x).findWay k = s.findWay k := by
  refine findWay_congr (fun v => ?_)
  by_cases hk : setOf k = setOf l
  · by_cases hv : v = w
    · subst hv
      have e1 : (s.setWay l v x).wayAt k v = x := by
        have := wayAt_setWay_same (s := s) l v x
        simpa only [State.wayAt, hk] using this
      have e2 : s.wayAt k v = s.wayAt l v := by simp only [State.wayAt, hk]
      rw [e1, e2, h]
    · rw [wayAt_setWay_other x (.inr hv)]
  · rw [wayAt_setWay_other x (.inl hk)]

/-- The state given to a line held is the one found; every other line stands (R15, R18). -/
theorem lookup_setLineState {l : LineAddr} (st : LineState) (h : (s.findWay l).isSome = true) :
    (s.setLineState l st).lookup l = some st := by
  obtain ⟨w, hw⟩ := Option.isSome_iff_exists.1 h
  have he : s.setLineState l st = s.setWay l w { s.wayAt l w with state := st } := by simp [State.setLineState, hw]
  rw [he, State.lookup, findWay_setWay_tag (by rfl), hw]
  simp

end Sys2Proof.Machine
end

