-- ==== Sys2Proof/Laws/Memory.lean ====
section
/-! SUPPORT. The home store's memory: a read after a write, and the canonical form that every operation on it keeps. -/

namespace Sys2Proof.Machine

/-! ### The canonical form -/

theorem memWf_cons {j : Nat} {w : StoreWord} {rest : HomeMemory} :
    memWf ((j, w) :: rest) = true ↔ w ≠ StoreWord.blank ∧ (∀ c ∈ rest, j < c.1) ∧ memWf rest = true := by
  simp [memWf, and_assoc]

/-- A key below every listed one reads as blank. -/
theorem memRead_below {m : HomeMemory} {k : Nat} (h : ∀ c ∈ m, k < c.1) : memRead m k = StoreWord.blank := by
  induction m with
  | nil => rfl
  | cons c rest ih =>
    obtain ⟨j, w⟩ := c
    have hj : j ≠ k := by have := h (j, w) (by simp); simp at this; omega
    simp [memRead, hj, ih (fun c hc => h c (by simp [hc]))]

/-- The cells of a written memory are the old ones and the new. -/
theorem mem_memWrite {m : HomeMemory} {k : Nat} {v : StoreWord} {c : Nat × StoreWord} (h : c ∈ memWrite m k v) :
    c = (k, v) ∨ c ∈ m := by
  induction m with
  | nil =>
    unfold memWrite at h; split at h
    · cases h
    · simp at h; simp [h]
  | cons d rest ih =>
    obtain ⟨j, w⟩ := d
    unfold memWrite at h; split at h
    · split at h
      · exact .inr h
      · simpa using h
    · split at h
      · split at h
        · exact .inr (by simp [h])
        · rcases List.mem_cons.1 h with h | h
          · exact .inl h
          · exact .inr (by simp [h])
      · rcases List.mem_cons.1 h with h | h
        · exact .inr (by simp [h])
        · rcases ih h with h | h
          · exact .inl h
          · exact .inr (by simp [h])

/-- A write keeps the canonical form. -/
theorem memWf_memWrite {m : HomeMemory} (h : memWf m = true) (k : Nat) (v : StoreWord) : memWf (memWrite m k v) = true := by
  induction m with
  | nil =>
    unfold memWrite; split
    · rfl
    · rename_i hv; exact memWf_cons.2 ⟨hv, by simp, rfl⟩
  | cons c rest ih =>
    obtain ⟨j, w⟩ := c
    obtain ⟨hw, hlt, hr⟩ := memWf_cons.1 h
    unfold memWrite; split
    · rename_i hkj
      split
      · exact h
      · rename_i hv
        refine memWf_cons.2 ⟨hv, ?_, h⟩
        intro c hc
        rcases List.mem_cons.1 hc with rfl | hc
        · exact hkj
        · exact lt_trans hkj (hlt c hc)
    · split
      · rename_i hkj
        subst hkj
        split
        · exact hr
        · rename_i hv; exact memWf_cons.2 ⟨hv, hlt, hr⟩
      · refine memWf_cons.2 ⟨hw, ?_, ih hr⟩
        intro c hc
        rcases mem_memWrite hc with rfl | hc
        · show j < k; omega
        · exact hlt c hc

/-! ### Read after write -/

/-- A read after a write to the same key gives the word written. -/
theorem memRead_memWrite_same {m : HomeMemory} (h : memWf m = true) (k : Nat) (v : StoreWord) :
    memRead (memWrite m k v) k = v := by
  induction m with
  | nil =>
    unfold memWrite; split
    · rename_i hv; simp [memRead, hv]
    · simp [memRead]
  | cons c rest ih =>
    obtain ⟨j, w⟩ := c
    obtain ⟨_, hlt, hr⟩ := memWf_cons.1 h
    unfold memWrite; split
    · rename_i hkj
      split
      · rename_i hv
        rw [hv]
        apply memRead_below
        intro c hc
        rcases List.mem_cons.1 hc with rfl | hc
        · exact hkj
        · exact lt_trans hkj (hlt c hc)
      · simp [memRead]
    · split
      · rename_i hkj
        subst hkj
        split
        · rename_i hv; rw [hv]; exact memRead_below hlt
        · simp [memRead]
      · rename_i hkj
        simp [memRead, Ne.symm hkj, ih hr]

/-- A write leaves every other key alone. -/
theorem memRead_memWrite_other {m : HomeMemory} {k i : Nat} (hi : i ≠ k) (v : StoreWord) :
    memRead (memWrite m k v) i = memRead m i := by
  induction m with
  | nil =>
    unfold memWrite; split
    · rfl
    · simp [memRead, Ne.symm hi]
  | cons c rest ih =>
    obtain ⟨j, w⟩ := c
    unfold memWrite; split
    · split
      · rfl
      · simp [memRead, Ne.symm hi]
    · split
      · rename_i hkj
        subst hkj
        split
        · simp [memRead, Ne.symm hi]
        · simp [memRead, Ne.symm hi]
      · simp [memRead, ih]

/-! ### The operations of the home slice keep the canonical form -/

theorem memWf_readTested {m : HomeMemory} (h : memWf m = true) (k : Nat) : memWf (readTested m k).1 = true := by
  unfold readTested; simp only; split
  · exact h
  · exact memWf_memWrite h _ _

theorem memWf_writeLine {m : HomeMemory} (h : memWf m = true) (ix : BitVec 11) (d : LineData) :
    memWf (writeLine m ix d) = true := by
  unfold writeLine
  generalize wordIds = ws
  induction ws generalizing m with
  | nil => exact h
  | cons w ws ih => exact ih (memWf_memWrite h _ _)

theorem memWf_readLineTested {m : HomeMemory} (h : memWf m = true) (ix : BitVec 11) :
    memWf (readLineTested m ix).1 = true := by
  unfold readLineTested
  generalize wordIds = ws
  generalize zeroLine = d
  induction ws generalizing m d with
  | nil => exact h
  | cons w ws ih => exact ih (memWf_readTested h _) _

theorem memWf_homeDirectRead {m : HomeMemory} (h : memWf m = true) (l : LineAddr) (w : BitVec 3) :
    memWf (homeDirectRead m l w).1 = true := memWf_readTested h _

theorem memWf_homeDirectWrite {m : HomeMemory} (h : memWf m = true) (l : LineAddr) (w : BitVec 3) (mask : BitVec 8)
    (v : Word) : memWf (homeDirectWrite m l w mask v).1 = true := by
  unfold homeDirectWrite; split
  · exact memWf_memWrite h _ _
  · simp only; split
    · exact memWf_readTested h _
    · exact memWf_memWrite (memWf_readTested h _) _ _

theorem memWf_homeDirectAtomic {m : HomeMemory} (h : memWf m = true) (l : LineAddr) (w : BitVec 3) (op : AtomicOp)
    (a b : Word) : memWf (homeDirectAtomic m l w op a b).1 = true := by
  unfold homeDirectAtomic; simp only; split
  · exact memWf_readTested h _
  · split
    · exact memWf_memWrite (memWf_readTested h _) _ _
    · exact memWf_readTested h _

/-- What each kind of home operation leaves in the store. -/
theorem homePerform_store (m : HomeMemory) (op : HomeOp) : (homePerform m op).1 = match op.body with
    | .read => (readLineTested m (indexOf op.line)).1
    | .write d => writeLine m (indexOf op.line) d
    | .direct (.read w) => (homeDirectRead m op.line w).1
    | .direct (.write w mask v) => (homeDirectWrite m op.line w mask v).1
    | .direct (.atomic w o a b) => (homeDirectAtomic m op.line w o a b).1 := by
  unfold homePerform
  split <;> simp only [*]

/-- Every home operation keeps the canonical form. -/
theorem memWf_homePerform {m : HomeMemory} (h : memWf m = true) (op : HomeOp) : memWf (homePerform m op).1 = true := by
  rw [homePerform_store]
  split
  · exact memWf_readLineTested h _
  · exact memWf_writeLine h _ _
  · exact memWf_homeDirectRead h _ _
  · exact memWf_homeDirectWrite h _ _ _ _
  · exact memWf_homeDirectAtomic h _ _ _ _ _

/-- The sweep keeps the canonical form. -/
theorem memWf_sweepLine {s : State} (h : memWf s.homeStore = true) : memWf s.sweepLine.homeStore = true :=
  memWf_writeLine h _ _

/-- The home store after power-on reset has the canonical form. -/
theorem memWf_reset : memWf State.reset.homeStore = true := rfl

/-! ### What a tested read says -/

/-- A tested read of a word whose parity fails sets its poison flag; every other word stands (R90). -/
theorem memRead_readTested_other {m : HomeMemory} {k i : Nat} (hi : i ≠ k) :
    memRead (readTested m k).1 i = memRead m i := by
  unfold readTested; simp only; split
  · rfl
  · exact memRead_memWrite_other hi _

/-- The word a tested read answers is the one the store then holds (R90). -/
theorem memRead_readTested_same {m : HomeMemory} (h : memWf m = true) (k : Nat) :
    memRead (readTested m k).1 k = (readTested m k).2 := by
  unfold readTested; simp only; split
  · rfl
  · exact memRead_memWrite_same h _ _

/-- A tested read, case by case. -/
theorem readTested_good {m : HomeMemory} {k : Nat}
    (h : (memRead m k).parity = parityOf (memRead m k).value ∨ (memRead m k).poison = true) :
    readTested m k = (m, memRead m k) := by
  unfold readTested
  exact if_pos (by simpa using h)

theorem readTested_bad {m : HomeMemory} {k : Nat}
    (h : ¬((memRead m k).parity = parityOf (memRead m k).value ∨ (memRead m k).poison = true)) :
    readTested m k = (memWrite m k { memRead m k with poison := true }, { memRead m k with poison := true }) := by
  unfold readTested
  exact if_neg (by simpa using h)

/-- The value of a tested read is the stored one. -/
theorem readTested_value (m : HomeMemory) (k : Nat) : (readTested m k).2.value = (memRead m k).value := by
  by_cases h : (memRead m k).parity = parityOf (memRead m k).value ∨ (memRead m k).poison = true
  · rw [readTested_good h]
  · rw [readTested_bad h]

/-- The poison flag after a tested read: set where it was set or where the parity fails (R90). -/
theorem readTested_poison (m : HomeMemory) (k : Nat) : ((readTested m k).2.poison = true ↔
    (memRead m k).poison = true ∨ (memRead m k).parity ≠ parityOf (memRead m k).value) := by
  by_cases h : (memRead m k).parity = parityOf (memRead m k).value ∨ (memRead m k).poison = true
  · rw [readTested_good h]
    rcases h with h | h
    · simp only [h, ne_eq, not_true, or_false]
    · simp only [h, true_or]
  · rw [readTested_bad h]
    simp only [true_iff]
    exact .inr (fun hp => h (.inl hp))

end Sys2Proof.Machine
end

