-- ==== Sys2Proof/Laws/PerInstr.lean ====
section
/-! SUPPORT. One lemma per command: a request record carries its channel in bits 63..62 and its tag in bits 61..54 of its
first beat, whatever its kind (R109; chapter 12); the other commands have no record. -/

namespace Sys2Proof.Laws

open Sys2Proof.Machine

theorem beat_ch (f : RecordFields) : f.beat.extractLsb' 62 2 = f.ch := by
  apply BitVec.eq_of_getLsbD_eq
  intro i hi
  simp only [RecordFields.beat, BitVec.getLsbD_extractLsb', BitVec.getLsbD_append]
  have : i < 2 := hi
  interval_cases i <;> simp

theorem beat_tag (f : RecordFields) : f.beat.extractLsb' 54 8 = f.tag := by
  apply BitVec.eq_of_getLsbD_eq
  intro i hi
  simp only [RecordFields.beat, BitVec.getLsbD_extractLsb', BitVec.getLsbD_append]
  have : i < 8 := hi
  interval_cases i <;> simp

/-- The record of the command, if it has one, carries the channel and the tag of the request. -/
def ChannelAndTag.Statement (i : Instr) : Prop :=
  ∀ r c t q, encodeRecord i = some r → requestOf i = some (c, t, q) →
    r.beat0.extractLsb' 62 2 = BitVec.ofFin (w := 2) c ∧ r.beat0.extractLsb' 54 8 = t

/-- A record built from fields carries theirs. -/
theorem channelAndTag_of {i : Instr} {f : RecordFields} {v w : Word} {c : ChanId} {t : BitVec 8} {q : Request}
    (he : encodeRecord i = some (recordOf f v w)) (hr : requestOf i = some (c, t, q))
    (hc : f.ch = BitVec.ofFin (w := 2) c) (ht : f.tag = t) : ChannelAndTag.Statement i := by
  intro r c' t' q' h1 h2
  rw [he] at h1
  rw [hr] at h2
  obtain ⟨rfl, rfl, -⟩ : c = c' ∧ t = t' ∧ q = q' := by simpa using h2
  rw [← Option.some.inj h1]
  exact ⟨(beat_ch f).trans hc, (beat_tag f).trans ht⟩

/-- A command without a record. -/
theorem channelAndTag_none {i : Instr} (h : encodeRecord i = none) : ChannelAndTag.Statement i := by
  intro r c t q h1
  rw [h] at h1
  cases h1

theorem ChannelAndTag.porstAsserted : ChannelAndTag.Statement .porstAsserted := channelAndTag_none rfl
theorem ChannelAndTag.porstReleased (number : StationNo) (count : BitVec 5) :
    ChannelAndTag.Statement (.porstReleased number count) := channelAndTag_none rfl
theorem ChannelAndTag.hostReset : ChannelAndTag.Statement .hostReset := channelAndTag_none rfl
theorem ChannelAndTag.hrstReleased : ChannelAndTag.Statement .hrstReleased := channelAndTag_none rfl
theorem ChannelAndTag.read (ch : ChanId) (tag : BitVec 8) (addr : Addr) :
    ChannelAndTag.Statement (.read ch tag addr) := channelAndTag_of rfl rfl rfl rfl
theorem ChannelAndTag.write (ch : ChanId) (tag : BitVec 8) (addr : Addr) (mask : BitVec 8) (value : Word) :
    ChannelAndTag.Statement (.write ch tag addr mask value) := channelAndTag_of rfl rfl rfl rfl
theorem ChannelAndTag.postedWrite (ch : ChanId) (tag : BitVec 8) (addr : Addr) (mask : BitVec 8) (value : Word) :
    ChannelAndTag.Statement (.postedWrite ch tag addr mask value) := channelAndTag_of rfl rfl rfl rfl
theorem ChannelAndTag.atomicSwap (ch : ChanId) (tag : BitVec 8) (addr : Addr) (a : Word) :
    ChannelAndTag.Statement (.atomicSwap ch tag addr a) := channelAndTag_of rfl rfl rfl rfl
theorem ChannelAndTag.atomicAdd (ch : ChanId) (tag : BitVec 8) (addr : Addr) (a : Word) :
    ChannelAndTag.Statement (.atomicAdd ch tag addr a) := channelAndTag_of rfl rfl rfl rfl
theorem ChannelAndTag.atomicAnd (ch : ChanId) (tag : BitVec 8) (addr : Addr) (a : Word) :
    ChannelAndTag.Statement (.atomicAnd ch tag addr a) := channelAndTag_of rfl rfl rfl rfl
theorem ChannelAndTag.atomicOr (ch : ChanId) (tag : BitVec 8) (addr : Addr) (a : Word) :
    ChannelAndTag.Statement (.atomicOr ch tag addr a) := channelAndTag_of rfl rfl rfl rfl
theorem ChannelAndTag.atomicMaxu (ch : ChanId) (tag : BitVec 8) (addr : Addr) (a : Word) :
    ChannelAndTag.Statement (.atomicMaxu ch tag addr a) := channelAndTag_of rfl rfl rfl rfl
theorem ChannelAndTag.atomicCas (ch : ChanId) (tag : BitVec 8) (addr : Addr) (a : Word) (b : Word) :
    ChannelAndTag.Statement (.atomicCas ch tag addr a b) := channelAndTag_of rfl rfl rfl rfl
theorem ChannelAndTag.reserve (ch : ChanId) (tag : BitVec 8) (addr : Addr) :
    ChannelAndTag.Statement (.reserve ch tag addr) := channelAndTag_of rfl rfl rfl rfl
theorem ChannelAndTag.conditional (ch : ChanId) (tag : BitVec 8) (addr : Addr) (value : Word) :
    ChannelAndTag.Statement (.conditional ch tag addr value) := channelAndTag_of rfl rfl rfl rfl
theorem ChannelAndTag.watch (ch : ChanId) (tag : BitVec 8) (addr : Addr) (compare : Word) (timeout : BitVec 16) :
    ChannelAndTag.Statement (.watch ch tag addr compare timeout) := channelAndTag_of rfl rfl rfl rfl
theorem ChannelAndTag.flush (ch : ChanId) (tag : BitVec 8) (addr : Addr) :
    ChannelAndTag.Statement (.flush ch tag addr) := channelAndTag_of rfl rfl rfl rfl
theorem ChannelAndTag.fence (ch : ChanId) (tag : BitVec 8) :
    ChannelAndTag.Statement (.fence ch tag) := channelAndTag_of rfl rfl rfl rfl
theorem ChannelAndTag.probe (ch : ChanId) (tag : BitVec 8) (addr : Addr) :
    ChannelAndTag.Statement (.probe ch tag addr) := channelAndTag_of rfl rfl rfl rfl
theorem ChannelAndTag.status (ch : ChanId) (tag : BitVec 8) :
    ChannelAndTag.Statement (.status ch tag) := channelAndTag_of rfl rfl rfl rfl
theorem ChannelAndTag.statusClear (ch : ChanId) (tag : BitVec 8) :
    ChannelAndTag.Statement (.statusClear ch tag) := channelAndTag_of rfl rfl rfl rfl
theorem ChannelAndTag.undecodableRequestKind (ch : ChanId) (kept : UndecodableRecord) (ignored : IgnoredFields) (b : Word) :
    ChannelAndTag.Statement (.undecodableRequestKind ch kept ignored b) := by
  obtain ⟨_, _ | _⟩ := kept <;> exact channelAndTag_of rfl rfl rfl rfl
theorem ChannelAndTag.completionEmitted : ChannelAndTag.Statement .completionEmitted := channelAndTag_none rfl
theorem ChannelAndTag.grant (decided : ArbitrationAt) (reply : BitVec 16) (urgent : BitVec 16) (normal : BitVec 16) :
    ChannelAndTag.Statement (.grant decided reply urgent normal) := channelAndTag_none rfl
theorem ChannelAndTag.idleCountExpiry : ChannelAndTag.Statement .idleCountExpiry := channelAndTag_none rfl
theorem ChannelAndTag.share (h : Header) : ChannelAndTag.Statement (.share h) := channelAndTag_none rfl
theorem ChannelAndTag.own (h : Header) : ChannelAndTag.Statement (.own h) := channelAndTag_none rfl
theorem ChannelAndTag.upgrade (h : Header) : ChannelAndTag.Statement (.upgrade h) := channelAndTag_none rfl
theorem ChannelAndTag.returnLine (h : Header) (data : LineData) :
    ChannelAndTag.Statement (.returnLine h data) := channelAndTag_none rfl
theorem ChannelAndTag.dRead (h : Header) (word : BitVec 3) :
    ChannelAndTag.Statement (.dRead h word) := channelAndTag_none rfl
theorem ChannelAndTag.dWrite (h : Header) (word : BitVec 3) (mask : BitVec 8) (value : Word) :
    ChannelAndTag.Statement (.dWrite h word mask value) := channelAndTag_none rfl
theorem ChannelAndTag.dAtomic (h : Header) (word : BitVec 3) (op : BitVec 3) (a : Word) (b : Word) :
    ChannelAndTag.Statement (.dAtomic h word op a b) := channelAndTag_none rfl
theorem ChannelAndTag.fill (h : Header) (addressee : StationNo) (data : LineData) :
    ChannelAndTag.Statement (.fill h addressee data) := channelAndTag_none rfl
theorem ChannelAndTag.result (h : Header) (addressee : StationNo) (word : BitVec 3) (status : BitVec 2) (value : Word) :
    ChannelAndTag.Statement (.result h addressee word status value) := channelAndTag_none rfl
theorem ChannelAndTag.undecodableFrameKind (sender : StationNo) (kind : BitVec 4) (good : Bool) :
    ChannelAndTag.Statement (.undecodableFrameKind sender kind good) := channelAndTag_none rfl
theorem ChannelAndTag.requestTenureVerdict (others : Votes) :
    ChannelAndTag.Statement (.requestTenureVerdict others) := channelAndTag_none rfl
theorem ChannelAndTag.ownTenureVerdict (others : Votes) :
    ChannelAndTag.Statement (.ownTenureVerdict others) := channelAndTag_none rfl
theorem ChannelAndTag.replyTenureVerdict (retry : Bool) :
    ChannelAndTag.Statement (.replyTenureVerdict retry) := channelAndTag_none rfl
theorem ChannelAndTag.replyTimerExpiry (line : LineAddr) :
    ChannelAndTag.Statement (.replyTimerExpiry line) := channelAndTag_none rfl
theorem ChannelAndTag.watchTimeout (ch : ChanId) :
    ChannelAndTag.Statement (.watchTimeout ch) := channelAndTag_none rfl
theorem ChannelAndTag.clearSweepTick : ChannelAndTag.Statement .clearSweepTick := channelAndTag_none rfl
theorem ChannelAndTag.clearSweepEnd : ChannelAndTag.Statement .clearSweepEnd := channelAndTag_none rfl
theorem ChannelAndTag.homeRead : ChannelAndTag.Statement .homeRead := channelAndTag_none rfl
theorem ChannelAndTag.homeWrite : ChannelAndTag.Statement .homeWrite := channelAndTag_none rfl
theorem ChannelAndTag.homeDRead : ChannelAndTag.Statement .homeDRead := channelAndTag_none rfl
theorem ChannelAndTag.homeDWrite : ChannelAndTag.Statement .homeDWrite := channelAndTag_none rfl
theorem ChannelAndTag.homeDAtomic : ChannelAndTag.Statement .homeDAtomic := channelAndTag_none rfl

end Sys2Proof.Laws
end

