-- ==== Sys2Proof/Laws/Settle.lean ====
section
/-! SUPPORT. When a happening is at rest, and what running it to rest does: nothing when no rule applies, one rule when one
applies and leaves rest behind. -/

namespace Sys2Proof.Machine

/-! ### Lists -/

/-- A list that is not empty has an element of least key. -/
theorem exists_least {α : Type} (key : α → Nat) (xs : List α) (h : xs ≠ []) : ∃ x ∈ xs, ∀ y ∈ xs, key x ≤ key y := by
  induction xs with
  | nil => exact absurd rfl h
  | cons z zs ih =>
    by_cases hz : zs = []
    · exact ⟨z, by simp, by simp [hz]⟩
    · obtain ⟨m, hm, hmin⟩ := ih hz
      by_cases hle : key z ≤ key m
      · exact ⟨z, by simp, by simpa using fun y hy => le_trans hle (hmin y hy)⟩
      · exact ⟨m, by simp [hm], by simpa using ⟨by omega, hmin⟩⟩

theorem leastBy_eq_nil {α : Type} (key : α → Nat) (xs : List α) : leastBy key xs = [] ↔ xs = [] := by
  constructor
  · intro h
    by_contra hne
    obtain ⟨x, hx, hmin⟩ := exists_least key xs hne
    have : x ∈ leastBy key xs := by simpa [leastBy] using ⟨hx, hmin⟩
    simp [h] at this
  · rintro rfl; rfl

@[simp] theorem leastBy_singleton {α : Type} (key : α → Nat) (x : α) : leastBy key [x] = [x] := by
  simp [leastBy]

theorem mem_channels (c : ChanId) : c ∈ channels := by
  fin_cases c <;> simp [channels]

variable {s : State}

/-! ### The oldest head -/

theorem State.oldestHead_eq_none (p : ChanId → HostEntry → Bool) :
    s.oldestHead p = none ↔ ∀ c e, s.head? c = some e → p c e = false := by
  unfold State.oldestHead
  simp only [Option.map_eq_none_iff, List.head?_eq_none_iff, leastBy_eq_nil, List.filterMap_eq_nil_iff]
  constructor
  · intro h c e he
    have := h c (mem_channels c)
    simp only [he, Option.bind_some] at this
    by_contra hp
    simp [hp] at this
  · intro h c _
    cases hc : s.head? c with
    | none => rfl
    | some e => simp [h c e hc]

/-- One channel's head alone satisfies the test: it is the oldest. -/
theorem State.oldestHead_eq_some {p : ChanId → HostEntry → Bool} {c : ChanId} {e : HostEntry} (hc : s.head? c = some e)
    (hp : p c e = true) (only : ∀ c' e', s.head? c' = some e' → p c' e' = true → c' = c) : s.oldestHead p = some c := by
  have hcs : ∀ xs : List ChanId, xs.Nodup → xs.filterMap (fun c =>
      (s.head? c).bind (fun e => if p c e then some (c, e.place) else none))
      = if c ∈ xs then [(c, e.place)] else [] := by
    intro xs hn
    induction xs with
    | nil => simp
    | cons x xs ih =>
      have hn' := List.nodup_cons.1 hn
      rw [List.filterMap_cons, ih hn'.2]
      by_cases hx : x = c
      · subst hx
        simp [hc, hp, hn'.1]
      · have hnone : (s.head? x).bind (fun e => if p x e then some (x, e.place) else none) = none := by
          cases hxe : s.head? x with
          | none => rfl
          | some e' =>
            have : p x e' = false := by
              by_contra hpe
              exact hx (only x e' hxe (by simpa using hpe))
            simp [this]
        simp only [hnone, List.mem_cons]
        by_cases hm : c ∈ xs
        · simp [hm]
        · simp [hm, Ne.symm hx]
  unfold State.oldestHead
  rw [hcs channels (by decide)]
  simp [mem_channels]

/-! ### Rest -/

theorem State.nextRule_eq_none : s.nextRule = none ↔
    s.rulePosted = none ∧ s.ruleDrain = none ∧ s.ruleHead = none ∧ s.ruleRoom = none ∧ s.rulePass = none := by
  simp [State.nextRule]

/-- No rule applies exactly when the station is at rest. -/
theorem State.atRest_iff : s.AtRest ↔ s.nextRule = none := by
  rw [State.nextRule_eq_none]
  constructor
  · intro h
    refine ⟨?_, ?_, ?_, ?_, ?_⟩
    · rcases h.posted with hp | hp | hp <;> simp [State.rulePosted, State.owesPosted, hp]
    · simp only [State.ruleDrain, Option.map_eq_none_iff, State.oldestHead_eq_none]
      intro c e he
      by_cases hd : e.inPhase .draining = true
      · simp [h.drains c e he hd]
      · simp [Bool.not_eq_true _ ▸ hd]
    · simp only [State.ruleHead, Option.map_eq_none_iff, State.oldestHead_eq_none]
      exact fun c e he => h.heads c e he
    · unfold State.ruleRoom; split
      · rename_i hlt
        simp only [Option.map_eq_none_iff, State.oldestHead_eq_none]
        intro c e he
        by_contra hcon
        simp only [Bool.not_eq_false, Bool.and_eq_true] at hcon
        have := h.room c e he hcon.1 hcon.2
        omega
      · rfl
    · simp only [State.rulePass, Option.map_eq_none_iff, List.head?_eq_none_iff, leastBy_eq_nil,
        List.filter_eq_nil_iff]
      intro x hx
      simp [h.pass x hx]
  · rintro ⟨h1, h2, h4, h3, h5⟩
    refine ⟨?_, ?_, ?_, ?_, ?_⟩
    · unfold State.rulePosted at h1
      split at h1
      · cases h1
      · rename_i h
        simpa only [State.owesPosted, Bool.not_eq_true, Bool.not_eq_false', Bool.or_eq_true, List.isEmpty_iff,
          or_assoc] using h
    · simp only [State.ruleHead, Option.map_eq_none_iff, State.oldestHead_eq_none] at h4
      exact h4
    · simp only [State.ruleDrain, Option.map_eq_none_iff, State.oldestHead_eq_none] at h2
      intro c e he hd
      have := h2 c e he
      simpa [hd] using this
    · intro c e he ha hp
      unfold State.ruleRoom at h3
      split at h3
      · simp only [Option.map_eq_none_iff, State.oldestHead_eq_none] at h3
        have := h3 c e he
        simp [ha, hp] at this
      · omega
    · simp only [State.rulePass, Option.map_eq_none_iff, List.head?_eq_none_iff, leastBy_eq_nil,
        List.filter_eq_nil_iff] at h5
      intro x hx
      simpa using h5 x hx

theorem settleLoop_rest (h : s.AtRest) (n : Nat) : settleLoop n s = s := by
  cases n with
  | zero => rfl
  | succ n => simp [settleLoop, State.atRest_iff.1 h]

/-- At rest nothing follows but the order of the completions. -/
theorem State.settle_rest (h : s.AtRest) : s.settle = s.orderReady := by
  simp [State.settle, settleLoop_rest h]

/-- One rule applies and leaves rest behind. -/
theorem State.settle_once {t : State} (h : s.nextRule = some t) (ht : t.AtRest) : s.settle = t.orderReady := by
  simp [State.settle, State.fuel, settleLoop, h, settleLoop_rest ht]

end Sys2Proof.Machine
end

