-- ==== Sys2Proof/Laws/Port.lean ====
section
/-! SUPPORT. A record that arrives at a station at rest on a channel that is free: it becomes the head, and what follows is
its own performing. -/

namespace Sys2Proof.Machine

variable {s : State} {c : ChanId}

theorem mapFirst_append {α : Type} (p : α → Bool) (f : α → α) (xs : List α) (x : α) (h : xs.find? p = none)
    (hx : p x = true) : mapFirst p f (xs ++ [x]) = xs ++ [f x] := by
  induction xs with
  | nil => simp [mapFirst, hx]
  | cons y ys ih =>
    rw [List.find?_cons] at h
    cases hy : p y with
    | true => simp [hy] at h
    | false => simp only [hy] at h; simp [mapFirst, hy, ih h]

/-- The head of a channel whose older entries are all ready. -/
theorem head_withEntry {e : HostEntry} {o : List ReadyToken} (h : s.head? c = none) (he : e.isOpen = true) :
    (s.withEntry c e o).head? c = some e := by
  unfold State.head? State.withEntry
  simp only [Fin.getElem_fin, Vector.getElem_set_self]
  unfold State.head? at h
  rw [List.find?_append]
  simp only [Fin.getElem_fin] at h
  simp [h, he]

/-- A completed entry is no head. -/
theorem head_withEntry_ready {e : HostEntry} {o : List ReadyToken} (h : s.head? c = none) (he : e.isOpen = false) :
    (s.withEntry c e o).head? c = none := by
  unfold State.head? State.withEntry
  simp only [Fin.getElem_fin, Vector.getElem_set_self]
  unfold State.head? at h
  rw [List.find?_append]
  simp only [Fin.getElem_fin] at h
  simp [h, he]

/-- The heads of the other channels stand. -/
theorem head_withEntry_ne {c' : ChanId} {e : HostEntry} {o : List ReadyToken} (h : c' ≠ c) :
    (s.withEntry c e o).head? c' = s.head? c' := by
  unfold State.head? State.withEntry
  have : (c : Nat) ≠ c' := fun hc => h (Fin.ext hc.symm)
  simp only [Fin.getElem_fin, Vector.getElem_set_ne _ _ this]

/-- An accepted record is an entry in WAITING. -/
theorem accept_eq (tag : BitVec 8) (r : Request) :
    s.count1.accept c tag r = s.withEntry c (s.entryOf tag r (.opened .waiting)) s.readyOrder := rfl

/-- The head of the new entry changes its phase. -/
theorem setPhase_withEntry {tag : BitVec 8} {r : Request} {o : List ReadyToken} {p q : HostPhase}
    (h : s.head? c = none) :
    (s.withEntry c (s.entryOf tag r (.opened p)) o).setPhase c q
      = s.withEntry c (s.entryOf tag r (.opened q)) o := by
  unfold State.setPhase State.updateHead State.withEntry
  unfold State.head? at h
  simp only [Fin.getElem_fin, Vector.getElem_set_self, Vector.set_set] at h ⊢
  rw [mapFirst_append _ _ _ _ h (by rfl)]
  rfl

theorem unwait_self {x : Who} (h : s.isWaiting x = false) : s.unwait x = s := by
  unfold State.unwait
  have : s.waiting.filter (fun y => y.who ≠ x) = s.waiting := by
    rw [List.filter_eq_self]
    intro y hy
    unfold State.isWaiting at h
    simp only [List.any_eq_false, decide_eq_true_eq] at h
    simpa using h y hy
  rw [this]

/-- The new entry completes. -/
theorem complete_withEntry {tag : BitVec 8} {r : Request} {o : List ReadyToken} {p : HostPhase} {st : Status}
    {d : List Word} (h : s.head? c = none) (hw : s.isWaiting (.chan c) = false) :
    (s.withEntry c (s.entryOf tag r (.opened p)) o).complete c st d
      = s.withEntry c (s.entryOf tag r (.ready st (s.latchSet c) d)) o := by
  unfold State.complete
  rw [unwait_self]
  · unfold State.updateHead State.withEntry
    unfold State.head? at h
    simp only [Fin.getElem_fin, Vector.getElem_set_self, Vector.set_set] at h ⊢
    rw [mapFirst_append _ _ _ _ h (by rfl)]
    rfl
  · exact hw

/-- A completed entry added to a station at rest leaves it at rest. -/
theorem atRest_withEntry_ready {e : HostEntry} {o : List ReadyToken} (hr : s.AtRest) (h : s.head? c = none)
    (he : e.isOpen = false) : (s.withEntry c e o).AtRest := by
  have other : ∀ c' e', (s.withEntry c e o).head? c' = some e' → s.head? c' = some e' := by
    intro c' e' h'
    by_cases hc : c' = c
    · subst hc; rw [head_withEntry_ready h he] at h'; cases h'
    · rwa [head_withEntry_ne hc] at h'
  exact ⟨hr.posted, fun c' e' h' => hr.heads c' e' (other c' e' h'), fun c' e' h' => hr.drains c' e' (other c' e' h'),
    fun c' e' h' => hr.room c' e' (other c' e' h'), hr.pass⟩

/-- An open entry added to a station at rest leaves it at rest when its phase has nothing left to do. -/
theorem atRest_withEntry_open {e : HostEntry} {o : List ReadyToken} (hr : s.AtRest) (h : s.head? c = none)
    (he : e.isOpen = true) (hw : e.inPhase .waiting = false) (hd : e.inPhase .draining = true → s.postedOf c = true)
    (hp : e.inPhase .active = true → e.req.isPosted = true → Config.postedEntries ≤ s.posted.length) :
    (s.withEntry c e o).AtRest := by
  have split : ∀ c' e', (s.withEntry c e o).head? c' = some e' → (c' = c ∧ e' = e) ∨ s.head? c' = some e' := by
    intro c' e' h'
    by_cases hc : c' = c
    · subst hc; rw [head_withEntry h he] at h'; left; exact ⟨rfl, (Option.some.inj h').symm⟩
    · right; rwa [head_withEntry_ne hc] at h'
  refine ⟨hr.posted, ?_, ?_, ?_, hr.pass⟩
  · intro c' e' h'
    rcases split c' e' h' with ⟨rfl, rfl⟩ | h'
    · exact hw
    · exact hr.heads c' e' h'
  · intro c' e' h'
    rcases split c' e' h' with ⟨rfl, rfl⟩ | h'
    · exact hd
    · exact hr.drains c' e' h'
  · intro c' e' h'
    rcases split c' e' h' with ⟨rfl, rfl⟩ | h'
    · exact hp
    · exact hr.room c' e' h'

/-- A record that arrives on a free channel of a station at rest becomes its channel's head in the same happening. -/
theorem accept_nextRule (hf : s.ChannelFree c) (hr : s.AtRest) (tag : BitVec 8) (r : Request) :
    (s.count1.accept c tag r).nextRule = some ((s.count1.accept c tag r).promote c) := by
  rw [accept_eq]
  generalize ho : s.readyOrder = o
  have hhead : (s.withEntry c (s.entryOf tag r (.opened .waiting)) o).head? c
      = some (s.entryOf tag r (.opened .waiting)) := head_withEntry hf.head (by rfl)
  have other : ∀ c' e', (s.withEntry c (s.entryOf tag r (.opened .waiting)) o).head? c' = some e' →
      c' ≠ c → s.head? c' = some e' := by
    intro c' e' h' hc
    rwa [head_withEntry_ne hc] at h'
  have h1 : (s.withEntry c (s.entryOf tag r (.opened .waiting)) o).rulePosted = none := by
    rcases hr.posted with hp | hp | hp
    · simp [State.rulePosted, State.owesPosted, State.withEntry, hp]
    · have : (s.withEntry c (s.entryOf tag r (.opened .waiting)) o).isWaiting .posted = true := hp
      simp [State.rulePosted, State.owesPosted, this]
    · have : (s.withEntry c (s.entryOf tag r (.opened .waiting)) o).isWaiter .posted = true := hp
      simp [State.rulePosted, State.owesPosted, this]
  have h2 : (s.withEntry c (s.entryOf tag r (.opened .waiting)) o).ruleDrain = none := by
    simp only [State.ruleDrain, Option.map_eq_none_iff, State.oldestHead_eq_none]
    intro c' e' h'
    by_cases hc : c' = c
    · subst hc; rw [hhead] at h'; cases Option.some.inj h'; rfl
    · by_cases hd : e'.inPhase .draining = true
      · have := hr.drains c' e' (other c' e' h' hc) hd
        simp only [hd, Bool.true_and, Bool.not_eq_false']
        exact this
      · simp [hd]
  have h4 : (s.withEntry c (s.entryOf tag r (.opened .waiting)) o).ruleHead
      = some ((s.withEntry c (s.entryOf tag r (.opened .waiting)) o).promote c) := by
    unfold State.ruleHead
    rw [State.oldestHead_eq_some hhead (by rfl)]
    · rfl
    · intro c' e' h' hp
      by_contra hc
      rw [hr.heads c' e' (other c' e' h' hc)] at hp
      cases hp
  unfold State.nextRule
  rw [h1, h2, h4]
  rfl

/-- A record that arrives on a free channel of a station at rest, when the promotion of its entry leaves rest behind. -/
theorem arrive_once {t : State} (hf : s.ChannelFree c) (hr : s.AtRest) (tag : BitVec 8) (r : Request)
    (h : (s.withEntry c (s.entryOf tag r (.opened .waiting)) s.readyOrder).promote c = t) (ht : t.AtRest) :
    s.arrive c tag r = .next t.orderReady := by
  have hc := hf.credit
  unfold State.arrive
  simp only [hf.porst, hf.hrst, Bool.or_self, Bool.false_eq_true, if_false]
  rw [if_neg (by omega), State.settle_once (accept_nextRule hf hr tag r)]
  · rw [accept_eq]; rw [h]
  · rw [accept_eq]; rw [h]; exact ht

/-- The promotion of a non-posted entry that passed every check on a channel with no posted write: it is looked up. -/
theorem promote_activate {o : List ReadyToken} (h : s.head? c = none) {tag : BitVec 8} {r : Request}
    (hk : s.acceptanceCheck r = none) (hp : r.isPosted = false) (hd : s.postedOf c = false) :
    (s.withEntry c (s.entryOf tag r (.opened .waiting)) o).promote c
      = (s.withEntry c (s.entryOf tag r (.opened .waiting)) o).activate c := by
  unfold State.promote
  rw [head_withEntry h (by rfl)]
  have h1 : (s.entryOf tag r (.opened .waiting)).check = none := hk
  have h2 : (s.entryOf tag r (.opened .waiting)).req.isPosted = false := hp
  have h3 : (s.withEntry c (s.entryOf tag r (.opened .waiting)) o).postedOf c = false := hd
  simp [h1, h2, h3]

/-- The lookup of the new head. -/
theorem activate_lookup {o : List ReadyToken} (h : s.head? c = none) (hw : s.isWaiting (.chan c) = false)
    {tag : BitVec 8} {r : Request} (hr : ∀ a, r ≠ .reserve a) :
    (s.withEntry c (s.entryOf tag r (.opened .waiting)) o).activate c
      = (s.withEntry c (s.entryOf tag r (.opened .active)) o).applyDecision (.chan c) s.nextPlace false
          (s.mayTake s.nextPlace) (lineOf (r.addr?.getD 0))
          ((s.withEntry c (s.entryOf tag r (.opened .active)) o).decideRequest c r) := by
  have hlook : (s.withEntry c (s.entryOf tag r (.opened .active)) o).lookupOp (.chan c) false
      = (s.withEntry c (s.entryOf tag r (.opened .active)) o).applyDecision (.chan c) s.nextPlace false
          (s.mayTake s.nextPlace) (lineOf (r.addr?.getD 0))
          ((s.withEntry c (s.entryOf tag r (.opened .active)) o).decideRequest c r) := by
    unfold State.lookupOp
    have hw' : (s.withEntry c (s.entryOf tag r (.opened .active)) o).isWaiting (.chan c) = false := hw
    have hany : (s.withEntry c (s.entryOf tag r (.opened .active)) o).waiting.any
        (fun x => x.who = .chan c && x.pendingFlush) = false := by
      unfold State.isWaiting at hw
      simp only [List.any_eq_false, decide_eq_true_eq] at hw
      simp only [List.any_eq_false, Bool.and_eq_true, decide_eq_true_eq, not_and]
      intro x hx hxc
      exact absurd hxc (hw x hx)
    rw [hany, unwait_self hw']
    simp only [head_withEntry h (show (s.entryOf tag r (.opened .active)).isOpen = true from rfl)]
    rfl
  unfold State.activate
  simp only [setPhase_withEntry h]
  rw [head_withEntry h (by rfl)]
  simp only [State.entryOf] at hlook ⊢
  exact hlook

end Sys2Proof.Machine
end

