-- ==== Sys2Proof/Laws/Reports.lean ====
section
/-! SUPPORT. What a report of the line array does where no CONDITIONAL waits and each watch stands alone: the reservations
it names break, and, at a store, the watches of the word answer. -/

namespace Sys2Proof.Machine

variable {s : State}

/-- Setting every channel's place to what a function makes of it is mapping the function. -/
theorem foldl_set_eq_map {α : Type} (f : α → α) (r : Vector α 4) :
    channels.foldl (fun r c => r.set c (f r[c])) r = r.map f := by
  ext i hi
  interval_cases i <;> simp [channels]

theorem isWaiting_congr {t : State} (h : t.waiting = s.waiting) (w : Who) : t.isWaiting w = s.isWaiting w := by
  simp [State.isWaiting, h]

/-- Breaking the reservations that a test names, where none of their channels waits (R147, R148, R150). -/
theorem State.breakReservations_quiet (p : Addr → Bool)
    (h : ∀ c : ChanId, s.reservations[c].any p = true → s.isWaiting (.chan c) = false) :
    s.breakReservations p = { s with reservations := s.reservations.map (fun r => r.filter (fun a => !p a)) } := by
  have step : ∀ (r : Vector (Option Addr) 4) (c : ChanId), (r[c].any p = true → s.reservations[c].any p = true) →
      (if r[c].any p then State.breakReservation { s with reservations := r } c else { s with reservations := r })
        = { s with reservations := r.set c (r[c].filter (fun a => !p a)) } := by
    intro r c hr
    split
    · rename_i hp
      have hw : State.isWaiting { s with reservations := r.set c none } (.chan c) = false :=
        (isWaiting_congr rfl _).trans (h c (hr hp))
      have hf : r[c].filter (fun a => !p a) = none := by
        cases hc : r[c] <;> simp_all
      rw [hf]
      simp [State.breakReservation, State.clearReservation, hw]
    · rename_i hp
      have hf : r[c].filter (fun a => !p a) = r[c] := by
        cases hc : r[c] <;> simp_all
      rw [hf]
      congr 1
      ext i hi
      by_cases hci : (c : Nat) = i
      · subst hci; simp
      · simp
  have fold : ∀ (cs : List ChanId) (r : Vector (Option Addr) 4),
      (∀ c : ChanId, r[c].any p = true → s.reservations[c].any p = true) →
      cs.foldl (fun s c => if s.reservations[c].any p then s.breakReservation c else s) { s with reservations := r }
        = { s with reservations := cs.foldl (fun (r : Vector (Option Addr) 4) (c : ChanId) => r.set c (r[c].filter (fun a => !p a))) r } := by
    intro cs
    induction cs with
    | nil => intro r _; rfl
    | cons c cs ih =>
      intro r hr
      rw [List.foldl_cons, List.foldl_cons]
      rw [show _ = _ from step r c (hr c)]
      refine ih _ fun d hd => hr d ?_
      by_cases hdc : (c : Nat) = d
      · have : d = c := Fin.ext hdc.symm
        subst this
        cases hc : r[d] <;> simp_all
      · simpa [Vector.getElem_set, hdc] using hd
  have := fold channels s.reservations fun _ h => h
  rw [foldl_set_eq_map] at this
  exact this

/-- A channel's WATCH, alone, takes the report of a store (R159). -/
theorem State.watchStore_alone (h : s.LoneWatches) (a : Addr) (v : Word) (c : ChanId) :
    s.watchStore c a v = s.watchAnswered a v c := by
  unfold State.watchStore State.watchAnswered
  cases hw : s.watches[c] with
  | none => rfl
  | some w =>
    by_cases ha : w.phase = .armed
    · obtain ⟨hwait, e, he, ho⟩ := h c w hw ha
      by_cases hm : w.addr = a ∧ w.compare ≠ v
      · have hu : ∀ t : State, t.waiting = s.waiting → t.unwait (.chan c) = t := fun t ht =>
          unwait_self ((isWaiting_congr ht _).trans hwait)
        simp [ha, hm, he, ho, State.freeWatch, State.complete, State.updateHead, State.answered, State.latchSet, mapFirst]
        exact hu _ rfl
      · have : ¬(w.addr = a ∧ ¬w.compare = v) := hm
        simp [ha, he, ho, this]
    · cases hh : s.hostTable[c] with
      | nil => simp [ha]
      | cons e es => cases es <;> simp [ha]

/-- The others stay alone. -/
theorem State.watchAnswered_alone (h : s.LoneWatches) (a : Addr) (v : Word) (c : ChanId) :
    (s.watchAnswered a v c).LoneWatches := by
  unfold State.watchAnswered
  split
  · rename_i w e hw he
    split
    · intro d x hx ha
      by_cases hdc : (c : Nat) = d
      · have : d = c := Fin.ext hdc.symm
        subst this
        simp [State.answered] at hx
      · have hx' : s.watches[d] = some x := by simpa [State.answered, Vector.getElem_set, hdc] using hx
        obtain ⟨hwait, g, hg, ho⟩ := h d x hx' ha
        exact ⟨(isWaiting_congr rfl _).trans hwait, g, by simpa [State.answered, Vector.getElem_set, hdc] using hg, ho⟩
    · exact h
  · exact h

/-- A store that meets no waiting CONDITIONAL and lone watches alone (R6, R8, R9, R148, R159). -/
theorem State.storeWord_eq_stored {a : Addr} (v : Word) (h : s.Storable a) : s.storeWord a v = s.stored a v := by
  have lone : ∀ (cs : List ChanId) (t : State), t.LoneWatches →
      cs.foldl (fun s c => s.watchStore c a v) t = cs.foldl (fun s c => s.watchAnswered a v c) t := by
    intro cs
    induction cs with
    | nil => intro t _; rfl
    | cons c cs ih =>
      intro t ht
      rw [List.foldl_cons, List.foldl_cons, State.watchStore_alone ht]
      exact ih _ (State.watchAnswered_alone ht a v c)
  have hsame : ((s.writeWay a v).touch (lineOf a)).reservations = s.reservations ∧
      ((s.writeWay a v).touch (lineOf a)).waiting = s.waiting ∧ ((s.writeWay a v).touch (lineOf a)).watches = s.watches ∧
      ((s.writeWay a v).touch (lineOf a)).hostTable = s.hostTable := by
    unfold State.touch State.writeWay
    repeat' split
    all_goals exact ⟨rfl, rfl, rfl, rfl⟩
  obtain ⟨hres, hwait, hwat, hht⟩ := hsame
  unfold State.storeWord State.reportStore State.stored
  rw [State.breakReservations_quiet, hres]
  · have hf : ∀ r : Option Addr, r.filter (fun b => !decide (b = a)) = r.filter (fun b => decide (b ≠ a)) :=
      fun r => by congr 1; funext b; simp
    simp only [hf]
    refine lone _ _ fun d x hx ha => ?_
    obtain ⟨h1, g, hg, ho⟩ := h.watches d x (by simpa [hwat] using hx) ha
    exact ⟨(isWaiting_congr hwait _).trans h1, g, by simpa [hht] using hg, ho⟩
  · intro c hc
    rw [isWaiting_congr hwait]
    refine h.reservations c ?_
    rw [hres] at hc
    cases hr : s.reservations[c] with
    | none => simp [hr] at hc
    | some b => simp [hr] at hc; rw [hc]

/-- A departure of a line that no watch names, where no CONDITIONAL waits on it (R10, R147). -/
theorem State.depart_quiet {l : LineAddr} (hu : s.Unwatched l)
    (hr : ∀ (c : ChanId) b, s.reservations[c] = some b → lineOf b = l → s.isWaiting (.chan c) = false) :
    s.depart l = { s with reservations := s.reservations.map (fun r => r.filter (fun b => lineOf b ≠ l)) } := by
  unfold State.depart
  rw [State.breakReservations_quiet]
  · have hf : ∀ r : Option Addr, r.filter (fun b => !decide (lineOf b = l)) = r.filter (fun b => decide (lineOf b ≠ l)) :=
      fun r => by congr 1; funext b; simp
    simp only [hf]
    have : ∀ (cs : List ChanId) (t : State), t.Unwatched l → cs.foldl (fun s c => s.watchDepart c l) t = t := by
      intro cs
      induction cs with
      | nil => intro t _; rfl
      | cons c cs ih =>
        intro t ht
        have hc : t.watchDepart c l = t := by
          unfold State.watchDepart
          cases hw : t.watches[c] with
          | none => rfl
          | some w =>
            have := ht c w hw
            by_cases ha : w.phase = .armed <;> simp_all
        rw [List.foldl_cons, hc]
        exact ih t ht
    exact this _ _ hu
  · intro c hc
    cases hr' : s.reservations[c] with
    | none => simp [hr'] at hc
    | some b => exact hr c b hr' (by simpa [hr'] using hc)

end Sys2Proof.Machine
end

