-- ==== Sys2Proof/Laws/Rest.lean ====
section
/-! SUPPORT. Running to rest ends: every rule lowers the work left, or looks up one waiting operation that was owed it, so
the fuel that a happening is given is never spent (notes/assumptions/32.md). -/

namespace Sys2Proof.Machine

variable {s t : State}

/-! ### The work left in the host request table -/

/-- The stages of one channel's entries. -/
def stageSum (xs : List HostEntry) : Nat := (xs.map HostEntry.stage).sum

/-- The stages of all entries. -/
def State.stages (s : State) : Nat := (channels.map (fun c => stageSum s.hostTable[c])).sum

/-- The work left but for a posted write queue's head that is owed its lookup. -/
def State.load (s : State) : Nat :=
  s.stages + 2 * s.posted.length + (Config.tableEntries - s.table.length)
    + (Config.writebackEntries - s.writebacks.length)

theorem State.work_eq (s : State) : s.work = s.load + (if s.owesPosted then 1 else 0) := by
  unfold State.work State.load State.stages
  simp only [stageSum]
  omega

theorem State.work_le (s : State) : s.work ≤ s.load + 1 := by
  rw [State.work_eq]; split <;> omega

theorem State.load_le (s : State) : s.load ≤ s.work := by
  rw [State.work_eq]; omega

theorem mapFirst_sum {p : HostEntry → Bool} {f : HostEntry → HostEntry} {xs : List HostEntry} {e : HostEntry}
    (h : xs.find? p = some e) :
    stageSum (mapFirst p f xs) + e.stage = stageSum xs + (f e).stage := by
  induction xs with
  | nil => cases h
  | cons y ys ih =>
    rw [List.find?_cons] at h
    cases hy : p y with
    | true =>
      simp only [hy] at h
      rw [← Option.some.inj h]
      simp [mapFirst, hy, stageSum]; omega
    | false =>
      simp only [hy] at h
      have := ih h
      simp only [stageSum] at this
      simp [mapFirst, hy, stageSum]; omega

theorem mapFirst_none {p : HostEntry → Bool} {f : HostEntry → HostEntry} {xs : List HostEntry}
    (h : xs.find? p = none) : mapFirst p f xs = xs := by
  induction xs with
  | nil => rfl
  | cons y ys ih =>
    rw [List.find?_cons] at h
    cases hy : p y with
    | true => simp [hy] at h
    | false => simp only [hy] at h; simp [mapFirst, hy, ih h]

/-- One channel's entries written again. -/
theorem stages_set (s : State) (c : ChanId) (xs : List HostEntry) :
    State.stages { s with hostTable := s.hostTable.set c xs } + stageSum s.hostTable[c] = s.stages + stageSum xs := by
  unfold State.stages channels
  fin_cases c <;> simp [Vector.getElem_set] <;> omega

theorem stages_updateHead_some {c : ChanId} {e : HostEntry} (h : s.head? c = some e) (f : HostEntry → HostEntry) :
    (s.updateHead c f).stages + e.stage = s.stages + (f e).stage := by
  have h1 := stages_set s c (mapFirst HostEntry.isOpen f s.hostTable[c])
  have h2 := mapFirst_sum (f := f) (show s.hostTable[c].find? HostEntry.isOpen = some e from h)
  unfold State.updateHead
  omega

theorem stages_updateHead_none {c : ChanId} (h : s.head? c = none) (f : HostEntry → HostEntry) :
    (s.updateHead c f).stages = s.stages := by
  have h1 := stages_set s c (mapFirst HostEntry.isOpen f s.hostTable[c])
  rw [mapFirst_none (show s.hostTable[c].find? HostEntry.isOpen = none from h)] at h1
  unfold State.updateHead
  rw [mapFirst_none (show s.hostTable[c].find? HostEntry.isOpen = none from h)]
  omega

/-- An open entry has at least four steps before it. -/
theorem stage_open {e : HostEntry} (h : e.isOpen = true) : 4 ≤ e.stage := by
  unfold HostEntry.isOpen at h
  unfold HostEntry.stage
  split at h
  · rename_i ph hp; rw [hp]; cases ph <;> simp
  · cases h

theorem head_open {c : ChanId} {e : HostEntry} (h : s.head? c = some e) : e.isOpen = true := List.find?_some h

/-! ### What an operation can do to the work -/

/-- `t` comes from `s` without more work, with at most `k` more waiting operations, owes the posted write queue's head what
it owed, and a channel loses its head only with the work of that head. -/
structure Less (s t : State) (k : Nat) : Prop where
  load : t.load ≤ s.load
  waiting : t.waiting.length ≤ s.waiting.length + k
  posted : t.owesPosted = s.owesPosted
  heads : ∀ c, (s.head? c).isSome → (t.head? c).isSome ∨ t.load + 4 ≤ s.load

theorem Less.refl (s : State) : Less s s 0 := ⟨le_refl _, le_refl _, rfl, fun _ h => .inl h⟩

theorem Less.trans {a b c : State} {j k : Nat} (h : Less a b j) (g : Less b c k) : Less a c (j + k) :=
  ⟨le_trans g.load h.load, by have := h.waiting; have := g.waiting; omega, g.posted.trans h.posted, fun x hx => by
    have hl := h.load
    have gl := g.load
    rcases h.heads x hx with h1 | h1
    · rcases g.heads x h1 with h2 | h2
      · exact .inl h2
      · right; omega
    · right; omega⟩

theorem Less.mono {a b : State} {j k : Nat} (h : Less a b j) (hk : j ≤ k) : Less a b k :=
  ⟨h.load, by have := h.waiting; omega, h.posted, h.heads⟩

/-- Nothing that the work counts is written. -/
theorem Less.same (h1 : t.hostTable = s.hostTable) (h2 : t.posted = s.posted) (h3 : t.table = s.table)
    (h4 : t.writebacks = s.writebacks) (h5 : t.waiting = s.waiting) : Less s t 0 :=
  ⟨by unfold State.load State.stages; rw [h1, h2, h3, h4], by rw [h5]; exact le_refl _,
    by unfold State.owesPosted State.isWaiting State.isWaiter; rw [h2, h3, h5],
    fun c h => .inl (by unfold State.head? at h ⊢; rwa [h1])⟩

/-- The same, after an operation. -/
theorem Less.step {u : State} {k : Nat} (h : Less s u k) (h1 : t.hostTable = u.hostTable) (h2 : t.posted = u.posted)
    (h3 : t.table = u.table) (h4 : t.writebacks = u.writebacks) (h5 : t.waiting = u.waiting) : Less s t k :=
  h.trans (Less.same h1 h2 h3 h4 h5)

/-- A fold of such operations. -/
theorem Less.fold {β : Type} {f : State → β → State} {k : Nat} (h : ∀ s x, Less s (f s x) k) (xs : List β) (s : State) :
    Less s (xs.foldl f s) (k * xs.length) := by
  induction xs generalizing s with
  | nil => exact Less.refl s
  | cons x xs ih => exact ((h s x).trans (ih (f s x))).mono (by simp [Nat.mul_succ]; omega)

theorem isWaiting_unwait (c : ChanId) : (s.unwait (.chan c)).isWaiting .posted = s.isWaiting .posted := by
  unfold State.isWaiting State.unwait
  simp only [List.any_filter]
  congr 1
  funext x
  by_cases h : x.who = .posted <;> simp [h]

theorem unwait_less (c : ChanId) : Less s (s.unwait (.chan c)) 0 :=
  ⟨le_refl _, by unfold State.unwait; simpa using List.length_filter_le _ _,
    by unfold State.owesPosted; rw [isWaiting_unwait]; rfl, fun _ h => .inl h⟩

theorem insertBy_perm {α : Type} (key : α → Nat) (x : α) (xs : List α) : (insertBy key x xs).Perm (x :: xs) := by
  induction xs with
  | nil => exact List.Perm.refl _
  | cons y ys ih =>
    unfold insertBy; split
    · exact List.Perm.refl _
    · exact (ih.cons y).trans (List.Perm.swap x y ys)

theorem isWaiting_enter (x : Waiting) (w : Who) :
    (s.enterWaiting x).isWaiting w = (decide (x.who = w) || s.isWaiting w) := by
  unfold State.isWaiting State.enterWaiting
  rw [(insertBy_perm _ x s.waiting).any_eq]
  rfl

theorem enter_less {x : Waiting} (h : x.who ≠ .posted) : Less s (s.enterWaiting x) 1 :=
  ⟨le_refl _, by unfold State.enterWaiting; simp [(insertBy_perm _ x s.waiting).length_eq],
    by unfold State.owesPosted; rw [isWaiting_enter]; simp [h]; rfl, fun _ h => .inl h⟩

theorem owePass_less : Less s s.owePass 0 :=
  ⟨le_refl _, by unfold State.owePass; simp,
    by unfold State.owesPosted State.isWaiting State.owePass; simp [List.any_map, Function.comp_def]; rfl,
    fun _ h => .inl h⟩

theorem head_updateHead_ne {c c' : ChanId} (h : c' ≠ c) (f : HostEntry → HostEntry) :
    (s.updateHead c f).head? c' = s.head? c' := by
  have : (c : Nat) ≠ c' := fun hc => h (Fin.ext hc.symm)
  unfold State.head? State.updateHead
  simp only [Fin.getElem_fin, Vector.getElem_set_ne _ _ this]

theorem find_mapFirst {p : HostEntry → Bool} {f : HostEntry → HostEntry} (hf : ∀ e, p e = true → p (f e) = true)
    (xs : List HostEntry) (h : (xs.find? p).isSome) : ((mapFirst p f xs).find? p).isSome := by
  induction xs with
  | nil => cases h
  | cons y ys ih =>
    rw [List.find?_cons] at h
    cases hy : p y with
    | true => simp [mapFirst, hy, hf y hy]
    | false => simp only [hy] at h; simpa [mapFirst, hy, List.find?_cons] using ih h

theorem load_updateHead_some {c : ChanId} {e : HostEntry} (h : s.head? c = some e) (f : HostEntry → HostEntry) :
    (s.updateHead c f).load + e.stage = s.load + (f e).stage := by
  have h1 := stages_updateHead_some h f
  have e1 : (s.updateHead c f).posted = s.posted := rfl
  have e2 : (s.updateHead c f).table = s.table := rfl
  have e3 : (s.updateHead c f).writebacks = s.writebacks := rfl
  unfold State.load
  rw [e1, e2, e3]; omega

theorem load_updateHead_none {c : ChanId} (h : s.head? c = none) (f : HostEntry → HostEntry) :
    (s.updateHead c f).load = s.load := by
  unfold State.load; rw [stages_updateHead_none h]; rfl

/-- A head put into another phase is still a head. -/
theorem setPhase_head (c : ChanId) (ph : HostPhase) {c' : ChanId} (hc' : (s.head? c').isSome) :
    ((s.setPhase c ph).head? c').isSome := by
  by_cases hn : c' = c
  · subst hn
    unfold State.setPhase State.updateHead State.head?
    unfold State.head? at hc'
    simp only [Fin.getElem_fin, Vector.getElem_set_self] at hc' ⊢
    exact find_mapFirst (fun _ _ => rfl) _ hc'
  · unfold State.setPhase; rwa [head_updateHead_ne hn]

theorem setPhase_less (c : ChanId) {ph : HostPhase} (h : ph = .active ∨ ph = .joined) :
    Less s (s.setPhase c ph) 0 := by
  refine ⟨?_, le_refl _, rfl, fun c' hc' => .inl ?_⟩
  · cases hc : s.head? c with
    | none => exact le_of_eq (load_updateHead_none hc _)
    | some e =>
      have h1 := load_updateHead_some hc (fun e => { e with progress := .opened ph })
      have h2 := stage_open (head_open hc)
      have h3 : HostEntry.stage { e with progress := .opened ph } = 4 := by rcases h with rfl | rfl <;> rfl
      unfold State.setPhase; omega
  · exact setPhase_head c ph hc'

/-- A head that completes takes its steps with it. -/
theorem complete_load {c : ChanId} {e : HostEntry} (h : s.head? c = some e) (st : Status) (d : List Word) :
    (s.complete c st d).load + e.stage = s.load := load_updateHead_some h _

theorem complete_less (c : ChanId) (st : Status) (d : List Word) : Less s (s.complete c st d) 0 := by
  refine Less.trans (j := 0) (k := 0) (b := s.updateHead c (fun e => { e with progress := .ready st (s.latchSet c) d }))
    ⟨?_, le_refl _, rfl, fun c' hc' => ?_⟩ (unwait_less c)
  · cases hc : s.head? c with
    | none => exact le_of_eq (load_updateHead_none hc _)
    | some e => have := load_updateHead_some hc (fun e => { e with progress := .ready st (s.latchSet c) d }); simp [HostEntry.stage] at this; omega
  · by_cases hn : c' = c
    · subst hn
      obtain ⟨e, he⟩ := Option.isSome_iff_exists.1 hc'
      right
      have h1 := load_updateHead_some he (fun e => { e with progress := .ready st (s.latchSet c') d })
      have h2 := stage_open (head_open he)
      have h3 : HostEntry.stage { e with progress := .ready st (s.latchSet c') d } = 0 := rfl
      omega
    · left; rwa [head_updateHead_ne hn]

/-! ### Stores, departures -/

theorem breakReservation_less (c : ChanId) : Less s (s.breakReservation c) 0 := by
  unfold State.breakReservation; simp only
  have h0 : Less s (s.clearReservation c) 0 := Less.same rfl rfl rfl rfl rfl
  split
  · exact h0.trans (complete_less c _ _)
  · exact h0

theorem breakReservations_less (p : Addr → Bool) : Less s (s.breakReservations p) 0 :=
  (Less.fold (k := 0) (fun s c => by split; exacts [breakReservation_less c, Less.refl s]) channels s).mono (by simp)

theorem watchStore_less (c : ChanId) (a : Addr) (v : Word) : Less s (s.watchStore c a v) 0 := by
  unfold State.watchStore; split
  · split
    · exact (show Less s (s.freeWatch c) 0 from Less.same rfl rfl rfl rfl rfl).trans (complete_less c _ _)
    · exact Less.refl s
  · exact Less.refl s

theorem reportStore_less (a : Addr) (v : Word) : Less s (s.reportStore a v) 0 :=
  ((breakReservations_less _).trans (Less.fold (fun s c => watchStore_less c a v) channels _)).mono (by simp)

theorem watchDepart_less (c : ChanId) (l : LineAddr) : Less s (s.watchDepart c l) 1 := by
  unfold State.watchDepart; split
  · rename_i w hw
    split
    · have h0 : Less s { s with watches := s.watches.set c (some { w with phase := .refetch }) } 0 :=
        Less.same rfl rfl rfl rfl rfl
      exact ((h0.trans (enter_less (x := _) (by simp))).trans owePass_less).mono (by omega)
    · exact (Less.refl s).mono (by omega)
  · exact (Less.refl s).mono (by omega)

/-- A departure adds at most the refetches of the four channels to the waiting list. -/
theorem depart_less (l : LineAddr) : Less s (s.depart l) 4 :=
  ((breakReservations_less _).trans (Less.fold (fun s c => watchDepart_less c l) channels _)).mono (by simp [channels])

theorem setWay_less (l : LineAddr) (w : WayId) (x : Way) : Less s (s.setWay l w x) 0 := Less.same rfl rfl rfl rfl rfl

theorem touch_less (l : LineAddr) : Less s (s.touch l) 0 := by
  unfold State.touch; split
  · exact Less.same rfl rfl rfl rfl rfl
  · exact Less.refl s

theorem dropTag_less (l : LineAddr) : Less s (s.dropTag l) 0 := by
  unfold State.dropTag; split
  · exact setWay_less _ _ _
  · exact Less.refl s

theorem writeWay_less (a : Addr) (v : Word) : Less s (s.writeWay a v) 0 := by
  unfold State.writeWay; split
  · exact setWay_less _ _ _
  · exact Less.refl s

theorem storeWord_less (a : Addr) (v : Word) : Less s (s.storeWord a v) 0 :=
  ((writeWay_less a v).trans (touch_less _)).trans (reportStore_less a v)

theorem storeMasked_less {a : Addr} {m : BitVec 8} {v : Word} (h : s.storeMasked a m v = some t) : Less s t 0 := by
  unfold State.storeMasked at h; split at h
  · cases h
  · rw [← Option.some.inj h]; exact storeWord_less _ _

/-- A channel that had a head completes: its work goes, there or before. -/
theorem Less.complete {k : Nat} {u : State} (h : Less s u k) {c : ChanId} (hc : (s.head? c).isSome) (st : Status)
    (d : List Word) : Less s (u.complete c st d) k ∧ (u.complete c st d).load + 4 ≤ s.load := by
  have h1 := complete_less (s := u) c st d
  refine ⟨h.trans h1, ?_⟩
  have h2 := h.load
  have h3 := h1.load
  rcases h.heads c hc with hu | hu
  · obtain ⟨e, he⟩ := Option.isSome_iff_exists.1 hu
    have h4 := complete_load he st d
    have h5 := stage_open (head_open he)
    omega
  · omega

/-! ### What a store leaves of the posted write queue -/

theorem breakReservations_posted (s : State) (p : Addr → Bool) : (s.breakReservations p).posted = s.posted :=
  foldl_keeps State.posted _ (fun s c => by
    split
    · unfold State.breakReservation; simp only; split <;> rfl
    · rfl) _ s

theorem storeWord_posted (s : State) (a : Addr) (v : Word) : (s.storeWord a v).posted = s.posted := by
  unfold State.storeWord State.reportStore
  rw [foldl_keeps State.posted _ (fun s c => by
    unfold State.watchStore; split
    · split <;> rfl
    · rfl), breakReservations_posted]
  unfold State.touch; split
  · unfold State.writeWay; split <;> rfl
  · unfold State.writeWay; split <;> rfl

/-! ### Performing -/

theorem arm_less (c : ChanId) (l : LineAddr) (ws : Vector (Option Watch) 4) :
    Less s (State.setPhase { s.touch l with watches := ws } c .active) 0 ∧
      (State.setPhase { s.touch l with watches := ws } c .active).waiting = s.waiting := by
  have hu : Less s { s.touch l with watches := ws } 0 := (touch_less l).step rfl rfl rfl rfl rfl
  exact ⟨hu.trans (setPhase_less c (.inl rfl)), by
    show (s.touch l).waiting = s.waiting
    unfold State.touch; split <;> rfl⟩

/-- A channel's head performed: it completes and its work goes, or the waiting list stands. -/
theorem perform_chan {c : ChanId} {e : HostEntry} (h : s.head? c = some e) :
    Less s (s.perform (.chan c)) 0 ∧
      ((s.perform (.chan c)).load + 4 ≤ s.load ∨ (s.perform (.chan c)).waiting = s.waiting) := by
  have hc : (s.head? c).isSome := by rw [h]; rfl
  have fin : ∀ {u : State} (st : Status) (d : List Word), Less s u 0 →
      Less s (u.complete c st d) 0 ∧ ((u.complete c st d).load + 4 ≤ s.load ∨ (u.complete c st d).waiting = s.waiting) :=
    fun st d hu => let r := hu.complete hc st d; ⟨r.1, .inl r.2⟩
  have self : Less s s 0 ∧ (s.load + 4 ≤ s.load ∨ s.waiting = s.waiting) := ⟨Less.refl s, .inr rfl⟩
  have hp : s.perform (.chan c) = s.performRequest c e.req := by simp only [State.perform, h]
  rw [hp]
  cases e.req with
  | read a =>
    simp only [State.performRequest, State.performRead]; split
    · exact fin _ _ (Less.refl s)
    · exact fin _ _ (touch_less _)
  | write a m v =>
    simp only [State.performRequest, State.performWrite]; split
    · rename_i u hu; exact fin _ _ (storeMasked_less hu)
    · exact fin _ _ (Less.refl s)
  | posted a m v => exact self
  | atomic op a x y =>
    simp only [State.performRequest, State.performAtomic]; split
    · exact fin _ _ (Less.refl s)
    · split
      · exact fin _ _ (storeWord_less _ _)
      · exact fin _ _ (touch_less _)
  | reserve a =>
    simp only [State.performRequest, State.performReserve]; split
    · exact self
    · split
      · exact fin _ _ (Less.refl s)
      · exact fin _ _ ((touch_less (lineOf a)).step rfl rfl rfl rfl rfl)
  | conditional a v =>
    simp only [State.performRequest, State.performConditional]; split
    · exact fin _ _ ((show Less s (s.clearReservation c) 0 from Less.same rfl rfl rfl rfl rfl).trans (storeWord_less _ _))
    · exact fin _ _ (Less.same rfl rfl rfl rfl rfl)
  | watch a v n =>
    simp only [State.performRequest, State.performWatch]; split
    · exact self
    · split
      · exact fin _ _ (Less.same rfl rfl rfl rfl rfl)
      · split
        · exact fin _ _ ((touch_less (lineOf a)).step rfl rfl rfl rfl rfl)
        · exact ⟨(arm_less c _ _).1, .inr (arm_less c _ _).2⟩
  | flush a => exact self
  | fence =>
    have r := fin .ok [latchWord s.latches[c]] (Less.refl s)
    exact ⟨r.1.step rfl rfl rfl rfl rfl, r.2⟩
  | probe a => exact fin _ _ (Less.refl s)
  | status b =>
    have r := fin .ok s.statusWords (Less.refl s)
    simp only [State.performRequest, State.performStatus]; split
    · exact ⟨r.1.step rfl rfl rfl rfl rfl, r.2⟩
    · exact r
  | undecodable w => exact self

theorem popPosted_load {p : PostedWrite} {ps : List PostedWrite} (h : s.posted = p :: ps) :
    s.popPosted.load + 2 = s.load := by
  unfold State.load
  have e0 : s.popPosted.posted = s.posted.tail := rfl
  have e1 : s.popPosted.stages = s.stages := rfl
  have e2 : s.popPosted.table = s.table := rfl
  have e3 : s.popPosted.writebacks = s.writebacks := rfl
  rw [e0, e1, e2, e3, h]
  simp only [List.tail_cons, List.length_cons]
  omega

theorem perform_posted {p : PostedWrite} {ps : List PostedWrite} (h : s.posted = p :: ps) :
    (s.perform .posted).load + 2 ≤ s.load ∧ (s.perform .posted).waiting.length ≤ s.waiting.length := by
  have hp : s.perform .posted = match s.storeMasked p.addr p.mask p.value with
      | some u => u.popPosted
      | none => s.failPosted .dataError := by
    simp only [State.perform, State.performPosted, h]
    try rfl
  rw [hp]
  split
  · rename_i u hu
    have h1 := storeMasked_less hu
    have h2 : u.posted = p :: ps := by
      have : u.posted = s.posted := by
        unfold State.storeMasked at hu; split at hu
        · cases hu
        · rw [← Option.some.inj hu]; exact storeWord_posted _ _ _
      rw [this, h]
    have h3 := popPosted_load h2
    have h4 := h1.load
    exact ⟨by omega, h1.waiting⟩
  · have h3 := popPosted_load h
    unfold State.failPosted; split
    · rename_i hn; rw [h] at hn; cases hn
    · exact ⟨by rw [← h3]; exact le_refl _, le_refl _⟩

/-! ### Opening an entry, joining one, waiting -/

/-- The waiting operations that are owed a lookup. -/
def State.dueCount (s : State) : Nat := (s.waiting.filter (fun x => x.due)).length

theorem load_of {u : State} (h1 : u.hostTable = s.hostTable) (h2 : u.posted = s.posted) :
    u.load + (Config.tableEntries - s.table.length) + (Config.writebackEntries - s.writebacks.length)
      = s.load + (Config.tableEntries - u.table.length) + (Config.writebackEntries - u.writebacks.length) := by
  unfold State.load State.stages; rw [h1, h2]; omega

theorem addWriteback_less (l : LineAddr) (d : LineData) (o : Option ChanId) : Less s (s.addWriteback l d o) 0 := by
  refine ⟨?_, le_refl _, rfl, fun _ h => .inl h⟩
  have h1 := load_of (s := s) (u := s.addWriteback l d o) rfl rfl
  have h2 : (s.addWriteback l d o).writebacks.length = s.writebacks.length + 1 := by simp [State.addWriteback]
  have h3 : (s.addWriteback l d o).table = s.table := rfl
  rw [h2, h3] at h1; omega

theorem emptyVictim_less {l : LineAddr} {w : WayId} (h : s.emptyVictim l w = some t) :
    Less s t 4 ∧ t.table = s.table ∧ t.posted = s.posted := by
  have dep : ∀ (u : State) (x : LineAddr), (u.depart x).table = u.table ∧ (u.depart x).posted = u.posted := by
    intro u x
    unfold State.depart
    refine ⟨?_, ?_⟩
    · rw [foldl_keeps State.table _ (fun s c => by unfold State.watchDepart; split; (split <;> rfl); rfl)]
      exact foldl_keeps State.table _ (fun s c => by
        split
        · unfold State.breakReservation; simp only; split <;> rfl
        · rfl) _ u
    · rw [foldl_keeps State.posted _ (fun s c => by unfold State.watchDepart; split; (split <;> rfl); rfl)]
      exact breakReservations_posted u _
  rcases State.emptyVictim_cases h with h | ⟨x, -, -, h | h⟩
  · rw [h.2]; exact ⟨(setWay_less _ _ _).mono (by omega), rfl, rfl⟩
  · rw [h.2.2]
    exact ⟨(((addWriteback_less _ _ _).trans (setWay_less _ _ _)).trans (depart_less _)).mono (by omega),
      (dep _ _).1, (dep _ _).2⟩
  · rw [h.2]; exact ⟨((setWay_less _ _ _).trans (depart_less _)).mono (by omega), (dep _ _).1, (dep _ _).2⟩

theorem markJoined_less (w : Who) : Less s (s.markJoined w) 0 := by
  unfold State.markJoined; split
  · exact setPhase_less _ (.inr rfl)
  · exact Less.refl s

/-- An operation of a channel is no operation of the posted write queue's head. -/
def Who.isPosted : Who → Bool
  | .posted => true
  | .chan _ => false

theorem addEntry_spec (w : Who) (k : TableKind) (o : Option WayId) (l : LineAddr) (h : s.table.length < 4) :
    (s.addEntry w k o l).load < s.load ∧ (s.addEntry w k o l).waiting = s.waiting ∧
      (w.isPosted = false → (s.addEntry w k o l).owesPosted = s.owesPosted) ∧
      (w.isPosted = true → (s.addEntry w k o l).owesPosted = false) := by
  let e : TableEntry :=
    { line := l, kind := k, phase := .queued s.now, way := o, retry := 0, waiters := [w], orphan := false }
  have hm := markJoined_less (s := { s with table := s.table ++ [e] }) w
  have hl := load_of (s := s) (u := { s with table := s.table ++ [e] }) rfl rfl
  have hlen : (s.table ++ [e]).length = s.table.length + 1 := by simp
  have h1 := hm.load
  refine ⟨?_, ?_, fun hw => ?_, fun hw => ?_⟩
  · simp only [hlen, Config.tableEntries] at hl
    show (State.markJoined { s with table := s.table ++ [e] } w).load < s.load
    omega
  · unfold State.addEntry State.markJoined; cases w <;> rfl
  · refine hm.posted.trans ?_
    cases w with
    | posted => cases hw
    | chan c =>
      unfold State.owesPosted State.isWaiter
      simp [e]; rfl
  · refine hm.posted.trans ?_
    cases w with
    | posted => unfold State.owesPosted State.isWaiter; simp [e]
    | chan c => cases hw

theorem grant_spec {w : Who} {k : TableKind} {l : LineAddr} (h : s.grant w k l = some t) :
    t.load < s.load ∧ t.waiting.length ≤ s.waiting.length + 4 ∧ (w.isPosted = true → t.owesPosted = false) ∧
      (w.isPosted = false → t.owesPosted = s.owesPosted) := by
  obtain ⟨hlt, -, -, h⟩ := State.grant_cases h
  have go : ∀ (u : State) (o : Option WayId), Less s u 4 → u.table = s.table →
      (u.addEntry w k o l).load < s.load ∧ (u.addEntry w k o l).waiting.length ≤ s.waiting.length + 4 ∧
        (w.isPosted = true → (u.addEntry w k o l).owesPosted = false) ∧
        (w.isPosted = false → (u.addEntry w k o l).owesPosted = s.owesPosted) := by
    intro u o hu ht
    have hs := addEntry_spec (s := u) w k o l (by rw [ht]; exact hlt)
    have h1 := hu.load
    exact ⟨by omega, by rw [hs.2.1]; exact hu.waiting, hs.2.2.2, fun hw => (hs.2.2.1 hw).trans hu.posted⟩
  obtain ⟨-, rfl⟩ | ⟨w', u, -, -, hu, rfl⟩ := h
  · exact go s none ((Less.refl s).mono (by omega)) rfl
  · exact go u _ (emptyVictim_less hu).1 (emptyVictim_less hu).2.1

theorem waitAt_spec (w : Who) (n : Nat) (b d : Bool) :
    (s.waitAt w n b d).load = s.load ∧ (s.waitAt w n b d).waiting.length = s.waiting.length + 1 ∧
      (s.waitAt w n b d).dueCount = s.dueCount + (if d then 1 else 0) ∧
      (w.isPosted = true → (s.waitAt w n b d).owesPosted = false) ∧
      (w.isPosted = false → (s.waitAt w n b d).owesPosted = s.owesPosted) := by
  refine ⟨rfl, ?_, ?_, fun hw => ?_, fun hw => ?_⟩
  · unfold State.waitAt State.enterWaiting; simp [(insertBy_perm _ _ s.waiting).length_eq]
  · unfold State.waitAt State.enterWaiting State.dueCount
    rw [((insertBy_perm _ _ s.waiting).filter _).length_eq, List.filter_cons]
    cases d <;> simp
  · unfold State.owesPosted State.waitAt
    rw [isWaiting_enter]
    cases w with
    | posted => simp
    | chan c => cases hw
  · cases w with
    | posted => cases hw
    | chan c => exact (enter_less (by simp)).posted

theorem joinEntry_spec (w : Who) (l : LineAddr) (h : (s.entryFor l).isSome) :
    (s.joinEntry w l).load ≤ s.load ∧ (s.joinEntry w l).waiting = s.waiting ∧
      (w.isPosted = true → (s.joinEntry w l).owesPosted = false) ∧
      (w.isPosted = false → (s.joinEntry w l).owesPosted = s.owesPosted) := by
  have hm := markJoined_less
    (s := s.updateEntry l (fun e => { e with waiters := e.waiters ++ [w], orphan := false })) w
  have hl := load_of (s := s)
    (u := s.updateEntry l (fun e => { e with waiters := e.waiters ++ [w], orphan := false })) rfl rfl
  have hlen : (s.updateEntry l (fun e => { e with waiters := e.waiters ++ [w], orphan := false })).table.length
      = s.table.length := by simp [State.updateEntry]
  have hwb : (s.updateEntry l (fun e => { e with waiters := e.waiters ++ [w], orphan := false })).writebacks
      = s.writebacks := rfl
  have h1 := hm.load
  rw [hlen, hwb] at hl
  refine ⟨?_, ?_, fun hw => ?_, fun hw => ?_⟩
  · show (State.markJoined _ w).load ≤ s.load; omega
  · unfold State.joinEntry State.markJoined; cases w <;> rfl
  · refine hm.posted.trans ?_
    cases w with
    | chan c => cases hw
    | posted =>
      obtain ⟨e, he⟩ := Option.isSome_iff_exists.1 h
      have h2 := List.find?_some he
      have h3 := List.mem_of_find?_eq_some he
      have : (s.updateEntry l (fun e => { e with waiters := e.waiters ++ [.posted], orphan := false })).isWaiter .posted
          = true := by
        unfold State.isWaiter State.updateEntry
        rw [List.any_map, List.any_eq_true]
        exact ⟨e, h3, by simp only [Function.comp, if_pos (of_decide_eq_true h2)]; simp⟩
      unfold State.owesPosted; rw [this]; simp
  · refine hm.posted.trans ?_
    cases w with
    | posted => cases hw
    | chan c =>
      have : (s.updateEntry l (fun e => { e with waiters := e.waiters ++ [.chan c], orphan := false })).isWaiter .posted
          = s.isWaiter .posted := by
        unfold State.isWaiter State.updateEntry
        rw [List.any_map]
        congr 1
        funext e
        simp only [Function.comp]
        split <;> simp
      unfold State.owesPosted; rw [this]; rfl

/-! ### One lookup of a channel's head -/

/-- What a lookup can do: at most five more waiting operations, no more work, and, in its turn, less work or one waiting
operation at most, which is owed nothing. -/
structure Look (s u : State) (turn : Bool) : Prop where
  load : u.load ≤ s.load
  waiting : u.waiting.length ≤ s.waiting.length + 5
  turn : turn = true → u.load < s.load ∧ u.work < s.work ∨
    (u.work ≤ s.work ∧ u.waiting.length ≤ s.waiting.length + 1 ∧ u.dueCount ≤ s.dueCount)

variable {c : ChanId} {m : Bool} {u : State} {k : Nat}

/-- Less work, and the posted write queue's head owed what it was owed. -/
theorem Look.low (h : Less s u k) (hk : k ≤ 5) (hl : u.load < s.load) : Look s u m :=
  ⟨h.load, by have := h.waiting; omega, fun _ => .inl ⟨hl, by rw [State.work_eq, State.work_eq, h.posted]; omega⟩⟩

/-- No more work, and the waiting list stands. -/
theorem Look.keep (h1 : u.load ≤ s.load) (h2 : u.owesPosted = s.owesPosted) (h3 : u.waiting = s.waiting) : Look s u m :=
  ⟨h1, by rw [h3]; omega, fun _ => .inr ⟨by rw [State.work_eq, State.work_eq, h2]; omega, by rw [h3]; omega,
    by unfold State.dueCount; rw [h3]⟩⟩

/-- A head that completes. -/
theorem Look.done (h : Less s u k) (hk : k ≤ 5) (hc : (s.head? c).isSome) (st : Status) (d : List Word) :
    Look s (u.complete c st d) m := by
  have hr := h.complete hc st d
  exact Look.low hr.1 hk (by omega)

/-- A head that waits; owed nothing where it is its turn. -/
theorem Look.wait (n : Nat) (b d : Bool) (hd : m = true → d = false) : Look s (s.waitAt (.chan c) n b d) m := by
  have hw := waitAt_spec (s := s) (.chan c) n b d
  refine ⟨le_of_eq hw.1, by rw [hw.2.1]; omega, fun hm => .inr ⟨?_, le_of_eq hw.2.1, ?_⟩⟩
  · rw [State.work_eq, State.work_eq, hw.1, hw.2.2.2.2 rfl]
  · rw [hw.2.2.1, hd hm]; simp

theorem owe_less (b : Bool) (h : Less s u k) : Less s (if b then u.owePass else u) k := by
  split
  · exact h.trans owePass_less
  · exact h

/-- A writeback buffer entry taken where there is room. -/
theorem addWriteback_load (l : LineAddr) (d : LineData) (o : Option ChanId) (h : s.writebackRoom = true) :
    (s.addWriteback l d o).load < s.load := by
  have h1 := load_of (s := s) (u := s.addWriteback l d o) rfl rfl
  have h2 : (s.addWriteback l d o).writebacks.length = s.writebacks.length + 1 := by simp [State.addWriteback]
  have h3 : (s.addWriteback l d o).table = s.table := rfl
  have h4 : s.writebacks.length < 2 := by simpa [State.writebackRoom, Config.writebackEntries] using h
  rw [h2, h3] at h1
  simp only [Config.writebackEntries] at h1
  omega

theorem flushHeld_look (n : Nat) (b : Bool) (l : LineAddr) (h : (s.head? c).isSome) :
    Look s (s.flushHeld c n b m l) m := by
  unfold State.flushHeld
  simp only
  split
  · split
    · exact Look.wait _ _ _ (fun _ => rfl)
    · rename_i hroom
      split
      · have h0 := addWriteback_load (s := s) l (s.lineData l) (some c) (by simpa using hroom)
        generalize hv : s.addWriteback l (s.lineData l) (some c) = v at h0 ⊢
        have hl : Less s v 0 := by rw [← hv]; exact addWriteback_less _ _ _
        have h1 := (dropTag_less (s := v) l).trans (depart_less l)
        have h2 := owe_less b h1
        have h3 := h2.load
        exact Look.low (hl.trans h2) (by omega) (by omega)
      · rename_i hm; exact Look.wait _ _ _ (fun hm' => absurd hm' hm)
  · have hv := ((dropTag_less (s := s) l).trans (depart_less l)).complete h .ok []
    generalize ((s.dropTag l).depart l).complete c .ok [] = v at hv ⊢
    have h1 := hv.2
    have h2 := owe_less b hv.1
    have h3 : (if b then v.owePass else v).load = v.load := by split <;> rfl
    exact Look.low h2 (by omega) (by omega)

theorem applyDecision_chan (n : Nat) (b : Bool) (l : LineAddr) (d : Decision) (h : (s.head? c).isSome)
    (hj : d = .join → (s.entryFor l).isSome) : Look s (s.applyDecision (.chan c) n b m l d) m := by
  obtain ⟨e, he⟩ := Option.isSome_iff_exists.1 h
  cases d with
  | perform =>
    have hp := perform_chan he
    show Look s (s.perform (.chan c)) m
    rcases hp.2 with h2 | h2
    · exact Look.low hp.1 (by omega) (by omega)
    · exact Look.keep hp.1.load hp.1.posted h2
  | finish st =>
    have hu : Less s (if s.conditionalHead c then s.clearReservation c else s) 0 := by
      split
      · exact Less.same rfl rfl rfl rfl rfl
      · exact Less.refl s
    exact Look.done hu (by omega) h st []
  | join =>
    have hp := joinEntry_spec (s := s) (.chan c) l (hj rfl)
    exact Look.keep hp.1 (hp.2.2.2 rfl) hp.2.1
  | allocate kind =>
    simp only [State.applyDecision]
    split
    · split
      · rename_i t hg
        have hp := grant_spec hg
        exact ⟨le_of_lt hp.1, by omega, fun _ => .inl ⟨hp.1, by
          rw [State.work_eq, State.work_eq, hp.2.2.2 rfl]; omega⟩⟩
      · exact Look.wait _ _ _ (fun _ => rfl)
    · rename_i hm; exact Look.wait _ _ _ (fun hm' => absurd hm' hm)
  | flushLine => exact flushHeld_look n b l h
  | flushWaiter =>
    have h1 := load_of (s := s) (u := s.updateWriteback l (fun e => { e with flush := some c })) rfl rfl
    have h2 : (s.updateWriteback l (fun e => { e with flush := some c })).writebacks.length = s.writebacks.length := by
      simp [State.updateWriteback]
    have h3 : (s.updateWriteback l (fun e => { e with flush := some c })).table = s.table := rfl
    rw [h2, h3] at h1
    exact Look.keep (u := s.updateWriteback l (fun e => { e with flush := some c })) (by omega) rfl rfl
  | wait => exact Look.wait _ _ _ (fun _ => rfl)

/-- A lookup joins only an entry that stands. -/
theorem decideWrite_join {l : LineAddr} {b : Bool} (h : s.decideWrite l b = .join) : (s.entryFor l).isSome := by
  cases he : s.entryFor l with
  | some e => rfl
  | none =>
    unfold State.decideWrite at h
    rw [he] at h
    repeat' split at h
    all_goals contradiction

theorem decideRequest_join {r : Request} (h : s.decideRequest c r = .join) :
    (s.entryFor (lineOf (r.addr?.getD 0))).isSome := by
  have rd : ∀ l b, s.decideRead l b = .join → (s.entryFor l).isSome := by
    intro l b h
    cases he : s.entryFor l with
    | some e => rfl
    | none =>
      unfold State.decideRead at h
      rw [he] at h
      repeat' split at h
      all_goals contradiction
  have di : ∀ l d, s.decideDirect l d ≠ .join := by
    intro l d h; unfold State.decideDirect at h; split at h <;> cases h
  cases r with
  | read a => simp only [State.decideRequest] at h; split at h; exacts [absurd h (di _ _), rd _ _ h]
  | write a x y => simp only [State.decideRequest] at h; split at h; exacts [absurd h (di _ _), decideWrite_join h]
  | posted a x y => cases h
  | atomic o a x y => simp only [State.decideRequest] at h; split at h; exacts [absurd h (di _ _), decideWrite_join h]
  | reserve a => exact rd _ _ h
  | conditional a v => simp only [State.decideRequest] at h; split at h; exacts [decideWrite_join h, by cases h]
  | watch a v n => exact rd _ _ h
  | flush a =>
    simp only [State.decideRequest, State.decideFlush] at h
    repeat' split at h
    all_goals contradiction
  | fence => cases h
  | probe a => cases h
  | status b => cases h
  | undecodable w => cases h

/-- The lookup of a channel's head, once it stands in the waiting list no longer. -/
theorem lookupOp_chan (turn : Bool) (h : (s.head? c).isSome) :
    ∃ m, (turn = true → m = true) ∧ Look (s.unwait (.chan c)) (s.lookupOp (.chan c) turn) m := by
  obtain ⟨e, he⟩ := Option.isSome_iff_exists.1 h
  have he' : (s.unwait (.chan c)).head? c = some e := he
  refine ⟨turn || (s.unwait (.chan c)).mayTake e.place, fun ht => by rw [ht]; rfl, ?_⟩
  unfold State.lookupOp
  simp only [he']
  exact applyDecision_chan _ _ _ _ (by rw [he']; rfl) decideRequest_join

/-! ### One lookup of the posted write queue's head -/

theorem decideWrite_cases (l : LineAddr) (b : Bool) : s.decideWrite l b = .perform ∨ s.decideWrite l b = .join ∨
    (∃ k, s.decideWrite l b = .allocate k) ∨ s.decideWrite l b = .wait := by
  unfold State.decideWrite
  repeat' split
  all_goals simp

theorem decidePosted_cases (p : PostedWrite) : s.decidePosted p = .perform ∨
    (s.decidePosted p = .join ∧ (s.entryFor (lineOf p.addr)).isSome) ∨ (∃ k, s.decidePosted p = .allocate k) ∨
    s.decidePosted p = .wait := by
  unfold State.decidePosted
  split
  · unfold State.decideDirect; split <;> simp
  · rcases decideWrite_cases (s := s) (lineOf p.addr) true with h | h | h | h
    · exact .inl h
    · exact .inr (.inl ⟨h, decideWrite_join h⟩)
    · exact .inr (.inr (.inl h))
    · exact .inr (.inr (.inr h))

/-- The posted write queue's head is looked up: it is stored or fails and leaves, or it stands in the waiting list or on
an entry and is owed nothing. -/
theorem lookupOp_posted {p : PostedWrite} {ps : List PostedWrite} (turn : Bool) (h : s.posted = p :: ps) :
    let v := s.unwait .posted
    let u := s.lookupOp .posted turn
    u.waiting.length ≤ v.waiting.length + 5 ∧
      (u.load + 2 ≤ s.load ∨ u.load ≤ s.load ∧ u.owesPosted = false ∧
        (turn = true → u.load < s.load ∨
          u.waiting.length ≤ v.waiting.length + 1 ∧ u.dueCount ≤ v.dueCount)) := by
  intro v u
  have hv : v.posted = p :: ps := h
  have hu : u = v.applyDecision .posted p.place false (turn || v.mayTake p.place) (lineOf p.addr) (v.decidePosted p) := by
    show s.lookupOp .posted turn = _
    unfold State.lookupOp
    simp only [v] at hv ⊢
    rw [hv]
  have hl : v.load = s.load := rfl
  have wait : ∀ d, (turn = true → d = false) → u = v.waitAt .posted p.place false d →
      u.waiting.length ≤ v.waiting.length + 5 ∧
      (u.load + 2 ≤ s.load ∨ u.load ≤ s.load ∧ u.owesPosted = false ∧
        (turn = true → u.load < s.load ∨ u.waiting.length ≤ v.waiting.length + 1 ∧ u.dueCount ≤ v.dueCount)) := by
    intro d hd he
    have hw := waitAt_spec (s := v) .posted p.place false d
    rw [he]
    exact ⟨by rw [hw.2.1]; omega, .inr ⟨by rw [hw.1, hl], hw.2.2.2.1 rfl, fun ht => .inr ⟨le_of_eq hw.2.1, by
      rw [hw.2.2.1, hd ht]; simp⟩⟩⟩
  rcases decidePosted_cases (s := v) p with hd | ⟨hd, he⟩ | ⟨k, hd⟩ | hd
  · have hp := perform_posted hv
    rw [hd] at hu
    have hu' : u = v.perform .posted := hu
    rw [hu']
    exact ⟨by omega, .inl (by rw [← hl]; exact hp.1)⟩
  · have hp := joinEntry_spec (s := v) .posted (lineOf p.addr) he
    rw [hd] at hu
    have hu' : u = v.joinEntry .posted (lineOf p.addr) := hu
    rw [hu']
    exact ⟨by rw [hp.2.1]; omega, .inr ⟨by rw [← hl]; exact hp.1, hp.2.2.1 rfl, fun _ => .inr
      ⟨by rw [hp.2.1]; omega, by unfold State.dueCount; rw [hp.2.1]⟩⟩⟩
  · rw [hd] at hu
    simp only [State.applyDecision] at hu
    split at hu
    · split at hu
      · rename_i t hg
        have hp := grant_spec hg
        rw [hu]
        exact ⟨by omega, .inr ⟨by omega, hp.2.2.1 rfl, fun _ => .inl (by omega)⟩⟩
      · exact wait _ (fun _ => rfl) hu
    · rename_i hm
      exact wait _ (fun ht => absurd (by rw [ht]; rfl) hm) hu
  · rw [hd] at hu
    exact wait _ (fun _ => by simp) hu

/-! ### The rules -/

/-- What one rule does: less work and at most five more waiting operations, or one less that is owed a lookup. -/
def State.Nearer (s t : State) : Prop :=
  (t.work < s.work ∧ t.waiting.length ≤ s.waiting.length + 5) ∨
    (t.work ≤ s.work ∧ t.waiting.length ≤ s.waiting.length ∧ t.dueCount < s.dueCount)

theorem dueCount_le (s : State) : s.dueCount ≤ s.waiting.length := List.length_filter_le _ _

theorem unwait_counts {x : Waiting} (hx : x ∈ s.waiting) (hd : x.due = true) :
    (s.unwait x.who).waiting.length + 1 ≤ s.waiting.length ∧ (s.unwait x.who).dueCount + 1 ≤ s.dueCount := by
  have h1 : (s.waiting.filter (fun y => y.who ≠ x.who)).length < s.waiting.length :=
    List.length_filter_lt_length_iff_exists.2 ⟨x, hx, by simp⟩
  have h2 : ((s.waiting.filter (fun y => y.due)).filter (fun y => y.who ≠ x.who)).length
      < (s.waiting.filter (fun y => y.due)).length :=
    List.length_filter_lt_length_iff_exists.2 ⟨x, List.mem_filter.2 ⟨hx, hd⟩, by simp⟩
  refine ⟨h1, ?_⟩
  unfold State.dueCount State.unwait
  rw [List.filter_filter] at h2 ⊢
  simp only [Bool.and_comm] at h2 ⊢
  exact h2

theorem unwait_le (w : Who) : (s.unwait w).waiting.length ≤ s.waiting.length := List.length_filter_le _ _

theorem oldestHead_head {p : ChanId → HostEntry → Bool} {c : ChanId} (h : s.oldestHead p = some c) :
    ∃ e, s.head? c = some e ∧ p c e = true := by
  unfold State.oldestHead at h
  rw [Option.map_eq_some_iff] at h
  obtain ⟨⟨c', n⟩, h1, rfl⟩ := h
  have h2 := List.mem_of_head? h1
  unfold leastBy at h2
  have h3 := (List.mem_filter.1 h2).1
  rw [List.mem_filterMap] at h3
  obtain ⟨a, -, h4⟩ := h3
  rw [Option.bind_eq_some_iff] at h4
  obtain ⟨e, he, h5⟩ := h4
  split at h5
  · rename_i hp
    have h6 := Option.some.inj h5
    have : a = c' := congrArg Prod.fst h6
    subst this
    exact ⟨e, he, hp⟩
  · cases h5

/-- A head in a host phase before ACTIVE that is presented lowers the work. -/
theorem activate_nearer {e : HostEntry} (h : s.head? c = some e) (he : 6 ≤ e.stage) : s.Nearer (s.activate c) := by
  have hh := load_updateHead_some h (fun e => { e with progress := .opened .active })
  have h4 : HostEntry.stage { e with progress := .opened .active } = 4 := rfl
  rw [h4] at hh
  have hp := setPhase_less (s := s) c (ph := .active) (.inl rfl)
  have hload : (s.setPhase c .active).load + 2 ≤ s.load := by unfold State.setPhase; omega
  have hsome : ((s.setPhase c .active).head? c).isSome := setPhase_head c _ (by rw [h]; rfl)
  have go : ∀ v : State, Less (s.setPhase c .active) v 0 → (v.head? c).isSome →
      s.Nearer (v.lookupOp (.chan c) false) := by
    intro v hv hc
    obtain ⟨m, -, hl⟩ := lookupOp_chan false hc
    have h1 := hl.load
    have h2 := hl.waiting
    have h3 := hv.load
    have h5 := hv.waiting
    have h6 := unwait_le (s := v) (.chan c)
    have h7 : (v.unwait (.chan c)).load = v.load := rfl
    have h8 := (v.lookupOp (.chan c) false).work_le
    have h9 := s.load_le
    have h10 : (s.setPhase c .active).waiting = s.waiting := rfl
    rw [h10] at h5
    exact .inl ⟨by omega, by omega⟩
  obtain ⟨e', he'⟩ := Option.isSome_iff_exists.1 hsome
  unfold State.activate
  simp only [he']
  split
  · exact go _ (Less.same rfl rfl rfl rfl rfl) hsome
  · exact go _ (Less.refl _) hsome

/-- Every rule brings rest nearer. -/
theorem State.nextRule_nearer (h : s.nextRule = some t) : s.Nearer t := by
  unfold State.nextRule at h
  simp only [Option.or_eq_some_iff] at h
  rcases h with h | ⟨-, h | ⟨-, h | ⟨-, h | ⟨-, h⟩⟩⟩⟩
  · -- the posted write queue's head
    unfold State.rulePosted at h
    split at h
    · rename_i ho
      have hw : s.work = s.load + 1 := by rw [State.work_eq, if_pos ho]
      rw [← Option.some.inj h]
      cases hp : s.posted with
      | nil => unfold State.owesPosted at ho; simp [hp] at ho
      | cons p ps =>
        have hl := lookupOp_posted false hp
        have h1 := unwait_le (s := s) .posted
        have h2 := (s.lookupOp .posted false).work_le
        simp only at hl
        refine .inl ⟨?_, by omega⟩
        rcases hl.2 with h3 | ⟨h3, h4, -⟩
        · omega
        · rw [State.work_eq, if_neg (by rw [h4]; simp)]; omega
    · cases h
  · -- a draining head
    unfold State.ruleDrain at h
    rw [Option.map_eq_some_iff] at h
    obtain ⟨c, hc, rfl⟩ := h
    obtain ⟨e, he, hp⟩ := oldestHead_head hc
    have hph : e.progress = .opened .draining := by
      simp only [Bool.and_eq_true] at hp
      exact of_decide_eq_true hp.1
    exact activate_nearer he (by unfold HostEntry.stage; rw [hph])
  · -- a new head
    unfold State.ruleHead at h
    rw [Option.map_eq_some_iff] at h
    obtain ⟨c, hc, rfl⟩ := h
    obtain ⟨e, he, hp⟩ := oldestHead_head hc
    have hph : e.progress = .opened .waiting := of_decide_eq_true hp
    have hst : e.stage = 8 := by unfold HostEntry.stage; rw [hph]
    have phase : ∀ ph, ph = .active ∨ ph = .draining → s.Nearer (s.setPhase c ph) := by
      intro ph hph'
      have h1 := load_updateHead_some he (fun e => { e with progress := .opened ph })
      have h2 : HostEntry.stage { e with progress := .opened ph } ≤ 6 := by
        rcases hph' with rfl | rfl <;> simp [HostEntry.stage]
      have h3 := (s.setPhase c ph).work_le
      have h4 := s.load_le
      refine .inl ⟨?_, by show s.waiting.length ≤ _; omega⟩
      unfold State.setPhase at h3 ⊢
      omega
    unfold State.promote
    rw [he]
    simp only
    split
    · rename_i st _
      have h1 := (Less.refl s).complete (c := c) (by rw [he]; rfl) st []
      have h2 := (s.complete c st []).work_le
      have h3 := s.load_le
      have h4 := h1.1.waiting
      have h5 := h1.2
      exact .inl ⟨by omega, by omega⟩
    · split
      · exact phase _ (.inl rfl)
      · split
        · exact phase _ (.inr rfl)
        · exact activate_nearer he (by omega)
  · -- room in the posted write queue
    unfold State.ruleRoom at h
    split at h
    · rw [Option.map_eq_some_iff] at h
      obtain ⟨c, hc, rfl⟩ := h
      obtain ⟨e, he, hp⟩ := oldestHead_head hc
      simp only [Bool.and_eq_true] at hp
      have hr : ∃ a mask v, e.req = .posted a mask v := by
        cases hq : e.req with
        | posted a mask v => exact ⟨a, mask, v, rfl⟩
        | _ => rw [hq] at hp; exact absurd hp.2 (by simp [Request.isPosted])
      obtain ⟨a, mask, v, hr⟩ := hr
      have hen : s.enterPosted c = State.complete
          { s with posted := s.posted ++ [{ ch := c, addr := a, mask := mask, value := v, place := e.place }] } c .ok [] := by
        unfold State.enterPosted; rw [he]; simp only [hr]
      rw [hen]
      generalize hx : ({ s with posted := s.posted ++
        [{ ch := c, addr := a, mask := mask, value := v, place := e.place }] } : State) = x
      have hxl : x.load = s.load + 2 := by
        rw [← hx]; unfold State.load State.stages; simp; omega
      have hxw : x.waiting = s.waiting := by rw [← hx]
      have hxh : (x.head? c).isSome := by
        have : x.head? c = s.head? c := by rw [← hx]; rfl
        rw [this, he]; rfl
      have h1 := (Less.refl x).complete hxh .ok []
      have h2 := (x.complete c .ok []).work_le
      have h3 := s.load_le
      have h4 := h1.1.waiting
      have h5 := h1.2
      rw [hxw] at h4
      exact .inl ⟨by omega, by omega⟩
    · cases h
  · -- the pass
    unfold State.rulePass at h
    rw [Option.map_eq_some_iff] at h
    obtain ⟨x, hx, rfl⟩ := h
    have hmem := List.mem_of_head? hx
    unfold leastBy at hmem
    have hmem2 := List.mem_filter.1 (List.mem_filter.1 hmem).1
    have hcnt := unwait_counts hmem2.1 hmem2.2
    have fin : ∀ u : State, u.work ≤ s.work → u.waiting.length ≤ (s.unwait x.who).waiting.length + 1 →
        u.dueCount ≤ (s.unwait x.who).dueCount → s.Nearer u := fun u h1 h2 h3 =>
      .inr ⟨h1, by omega, by omega⟩
    cases hwho : x.who with
    | posted =>
      rw [hwho] at hcnt fin
      have hisw : s.isWaiting .posted = true := by
        unfold State.isWaiting; rw [List.any_eq_true]; exact ⟨x, hmem2.1, by simp [hwho]⟩
      have ho : s.owesPosted = false := by unfold State.owesPosted; rw [hisw]; simp
      have hw : s.work = s.load := by rw [State.work_eq, if_neg (by rw [ho]; simp)]; omega
      cases hp : s.posted with
      | nil =>
        have hl : s.lookupOp .posted true = s.unwait .posted := by
          unfold State.lookupOp
          have : (s.unwait .posted).posted = [] := hp
          simp only [this]
        rw [hl]
        have ho' : (s.unwait .posted).owesPosted = false := by
          unfold State.owesPosted
          have : (s.unwait .posted).posted = [] := hp
          rw [this]; simp
        refine fin _ ?_ (by omega) (le_refl _)
        rw [State.work_eq, if_neg (by rw [ho']; simp), hw]; exact le_refl _
      | cons p ps =>
        have hl := lookupOp_posted true hp
        simp only at hl
        have h2 := (s.lookupOp .posted true).work_le
        rcases hl.2 with h3 | ⟨h3, h4, h5⟩
        · exact .inl ⟨by omega, by omega⟩
        · have h6 : (s.lookupOp .posted true).work = (s.lookupOp .posted true).load := by
            rw [State.work_eq, if_neg (by rw [h4]; simp)]; omega
          rcases h5 trivial with h7 | h7
          · exact .inl ⟨by omega, by omega⟩
          · exact fin _ (by omega) h7.1 h7.2
    | chan c =>
      rw [hwho] at hcnt fin
      cases hh : s.head? c with
      | none =>
        have hl : s.lookupOp (.chan c) true = s.unwait (.chan c) := by
          unfold State.lookupOp
          have : (s.unwait (.chan c)).head? c = none := hh
          simp only [this]
        rw [hl]
        refine fin _ ?_ (by omega) (le_refl _)
        rw [State.work_eq, State.work_eq, (unwait_less (s := s) c).posted]; exact le_refl _
      | some e =>
        obtain ⟨m, hm, hl⟩ := lookupOp_chan (s := s) (c := c) true (by rw [hh]; rfl)
        have hw : (s.unwait (.chan c)).work = s.work := by
          rw [State.work_eq, State.work_eq, (unwait_less (s := s) c).posted]; rfl
        have h1 := hl.waiting
        rcases hl.turn (hm rfl) with h2 | h2
        · exact .inl ⟨by omega, by omega⟩
        · exact fin _ (by omega) h2.2.1 h2.2.2

/-! ### The fuel lasts -/

/-- The work left and the waiting operations, as one number. -/
def State.measure (s : State) : Nat := s.dueCount + s.work * (s.waiting.length + 5 * s.work + 1)

theorem nearer_measure (h : s.Nearer t) : t.measure < s.measure := by
  unfold State.measure
  have hd := dueCount_le t
  rcases h with ⟨h1, h2⟩ | ⟨h1, h2, h3⟩
  · obtain ⟨n, hn⟩ : ∃ n, s.work = n + 1 := ⟨s.work - 1, by omega⟩
    have h4 : t.work ≤ n := by omega
    have h5 : t.waiting.length + 5 * t.work + 1 ≤ s.waiting.length + 5 * s.work + 1 := by omega
    have h6 := Nat.mul_le_mul h4 h5
    have h7 : s.work * (s.waiting.length + 5 * s.work + 1)
        = n * (s.waiting.length + 5 * s.work + 1) + (s.waiting.length + 5 * s.work + 1) := by
      conv => lhs; rw [hn]
      rw [Nat.succ_mul, hn]
    omega
  · have h6 := Nat.mul_le_mul h1 (show t.waiting.length + 5 * t.work + 1 ≤ s.waiting.length + 5 * s.work + 1 by omega)
    omega

theorem settleLoop_atRest (n : Nat) (s : State) (h : s.measure < n) : (settleLoop n s).nextRule = none := by
  induction n generalizing s with
  | zero => omega
  | succ n ih =>
    unfold settleLoop
    split
    · assumption
    · rename_i t ht
      have := nearer_measure (State.nextRule_nearer ht)
      exact ih t (by omega)

/-- A happening runs to rest: no rule is left when its fuel is counted out. -/
theorem State.settle_atRest (s : State) : s.settle.AtRest := by
  have h := settleLoop_atRest s.fuel s (by unfold State.fuel State.measure State.dueCount; omega)
  have := State.atRest_iff.2 h
  exact ⟨this.posted, this.heads, this.drains, this.room, this.pass⟩

end Sys2Proof.Machine
end

