-- ==== Sys2Proof/Tests/Slice0.lean ====
section
/-! SUPPORT. Tests: ill-formed commands, records and frames written out from chapter 12, the spec's worked examples, and for
every statement with hypotheses a state that meets them. -/

namespace Sys2Proof.Tests

set_option Elab.async false

open Sys2Proof.Machine

/-- The ignored fields of a record at zero. -/
def quiet : IgnoredFields := { posted := 0, clear := 0, mask := 0, timeout := 0 }

/-! ### Well-formed commands (chapter 12: codes that do not decode) -/

theorem test_wf_refuses_a_kind_that_decodes : Instr.wf (.undecodableRequestKind 0 ⟨0, .kind 1⟩ quiet 0) = false := by decide
theorem test_wf_refuses_an_op_that_decodes : Instr.wf (.undecodableRequestKind 0 ⟨0, .op 5 0 0⟩ quiet 0) = false := by decide
theorem test_wf_refuses_a_frame_that_decodes : Instr.wf (.undecodableFrameKind 2 10 true) = false := by decide
theorem test_wf_takes_the_others : Instr.wf (.undecodableRequestKind 0 ⟨0, .kind 11⟩ quiet 0) = true ∧
    Instr.wf (.undecodableRequestKind 0 ⟨0, .op 6 0 0⟩ quiet 0) = true ∧ Instr.wf (.undecodableFrameKind 2 8 true) = true := by decide

/-! ### Host request records (chapter 12), the words packed by hand from the record's table -/

theorem test_record_read : readRecord [0x96840000001A3048, 0, 0] = some (.read 2 0x5A 0x1A3048) := by decide
theorem test_record_posted : readRecord [0x004841E00005C010, 7, 0] = some (.postedWrite 0 1 0x5C010 0x0F 7) := by decide
theorem test_record_cas : readRecord [0xFFCE8000000200C8, 5, 9] = some (.atomicCas 3 0xFF 0x200C8 5 9) := by decide
theorem test_record_watch : readRecord [0x41D80000032200C8, 3, 0] = some (.watch 1 7 0x200C8 3 25) := by decide
theorem test_record_clear : readRecord [0x41E8200000000000, 0, 0] = some (.statusClear 1 7) := by decide
theorem test_record_kind_11 : readRecord [0x00EC600000200000, 0, 9]
    = some (.undecodableRequestKind 0 ⟨3, .kind 11⟩ ⟨1, 1, 0, 1⟩ 9) := by decide
theorem test_record_op_6 : readRecord [0x00CF0000000200C8, 7, 0]
    = some (.undecodableRequestKind 0 ⟨3, .op 6 0x200C8 7⟩ quiet 0) := by decide
theorem test_record_short : readRecord [0x96840000001A3048, 0] = none := by decide

/-! ### Frames (R27; chapter 12), their check codes worked out by hand -/

/-- The published check of the same generator, register start and bit order over the ASCII digits 1 to 9 is 0xAEE7; its
first eight bytes make four beats. -/
theorem test_check_code_digits : ((List.range 8).map (fun n => (0x39#8).getLsbD (7 - n))).foldl checkBit
    (checkCode [0x3132, 0x3334, 0x3536, 0x3738]) = 0xAEE7 := by decide +kernel

theorem test_frame_share : readFrame [0x1200, 0x2A45, 0x15BF] false
    = some (.share { sender := 2, line := 0x2A45, good := true }) := by decide +kernel
theorem test_frame_bad_check : readFrame [0x1200, 0x2A45, 0x15BE] false
    = some (.share { sender := 2, line := 0x2A45, good := false }) := by decide +kernel
theorem test_frame_broken : readFrame [0x1200, 0x2A45, 0x15BF] true
    = some (.share { sender := 2, line := 0x2A45, good := false }) := by decide +kernel
theorem test_frame_d_read : readFrame [0x5200, 0x1F7F, 0x0007, 0xFA96] false
    = some (.dRead { sender := 2, line := 0x1F7F, good := true } 7) := by decide +kernel
theorem test_frame_d_write : readFrame [0x6300, 0x0F00, 0xF005, 0x1122, 0x3344, 0x5566, 0x7788, 0x72C9] false
    = some (.dWrite { sender := 3, line := 0x0F00, good := true } 5 0xF0 0x1122334455667788) := by decide +kernel
theorem test_frame_d_atomic : readFrame [0x7300, 0x0F00, 0x0052, 0, 0, 0, 7, 0, 0, 0, 9, 0x4E07] false
    = some (.dAtomic { sender := 3, line := 0x0F00, good := true } 2 5 7 9) := by decide +kernel
theorem test_frame_result : readFrame [0xA010, 0x0F00, 0x0016, 0xAAAA, 0, 0, 1, 0x3F94] false
    = some (.result { sender := 0, line := 0x0F00, good := true } 1 6 1 0xAAAA000000000001) := by decide +kernel
theorem test_frame_fill : frameCommand 9 { sender := 4, line := 3, good := true }
      [0x9410, 0x0003, 0, 0, 0, 1, 0, 0, 0, 2, 0, 0, 0, 3, 0, 0, 0, 4, 0, 0, 0, 5, 0, 0, 0, 6, 0, 0, 0, 7, 0, 0, 0, 8, 0x0081,
        0x6E14]
    = .fill { sender := 4, line := 3, good := true } 1
        { words := #v[1, 2, 3, 4, 5, 6, 7, 8], poison := 0x81 } := by decide +kernel
theorem test_frame_kind_8 : readFrame [0x8200, 0x0003, 0x2812] false = some (.undecodableFrameKind 2 8 true) := by decide +kernel

/-- The FENCE word of chapter 12: latch set, status 4, MORE, address 0x100480. -/
theorem test_fence_word :
    latchWord (some { status := .lostReply, addr := 0x100480, more := true }) = 0xA400000000100480 := by decide +kernel

/-! ### The worked examples of the spec -/

/-- Chapter 07, the six ops on one word. -/
theorem test_atomic_add : atomicNew .add 0xF0 0xFFFFFFFFFFFFFF20 0 = some 0x10 := by decide
theorem test_atomic_and : atomicNew .and 0xF0 0x0F 0 = some 0 := by decide
theorem test_atomic_or : atomicNew .or 0xF0 0x0F 0 = some 0xFF := by decide
theorem test_atomic_maxu : atomicNew .maxu 0xF0 0x80 0 = some 0xF0 ∧
    atomicNew .maxu 0xF0 0xFFFFFFFFFFFFFFFF 0 = some 0xFFFFFFFFFFFFFFFF := by decide
theorem test_atomic_cas : atomicNew .cas 0xF0 1 0xF0 = some 1 ∧ atomicNew .cas 0xF0 1 0xF1 = none := by decide

/-- A READY station, joined, with nothing in its tables. -/
def ready (n : StationNo) (k : BitVec 5) : State :=
  { State.reset with
    porst := false
    station := { number := n, count := k, mode := .ready, sweep := 2048 }
    span := { Span.reset with rotation := k.toNat - 1, joined := true } }

/-- Chapter 06, acceptance outcomes: station 2 of six. -/
theorem test_acceptance : (ready 2 6).acceptanceCheck (.read 0x1A3048) = some .noHome ∧
    (ready 2 6).acceptanceCheck (.reserve 0x05C010) = some .region ∧
    (ready 2 6).acceptanceCheck (.watch 0x05C011 0 0) = some .badRequest ∧
    (ready 2 6).acceptanceCheck (.undecodable (.kind 11)) = some .badRequest ∧
    (ready 2 6).acceptanceCheck (.flush 0x05C010) = none ∧ (ready 2 6).acceptanceCheck (.status false) = none := by
  decide +kernel

/-- Chapter 02, the second and the fourth of the four arbitrations: stations 1 and 4 of five contend. -/
theorem test_arbitrations : holderNumber 0 5 0b10010 = some 1 ∧ holderNumber 2 5 0b10010 = some 4 := by decide

/-- Chapter 01, victim choice in set 9. -/
def setNine : State :=
  { ready 0 16 with
    lines := (Vector.replicate 32 CacheSet.reset).set 9 {
      ways := #v[
        { tag := some 0x1229, state := .shared, data := zeroLine },
        { tag := some 0x5A09, state := .shared, data := zeroLine },
        { tag := some 0x03E9, state := .dirtySole, data := zeroLine },
        { tag := some 0x7769, state := .cleanSole, data := zeroLine }]
      order := [1, 0, 2, 3] }
    table := [{
      line := 0x5A09
      kind := .upgrade
      phase := .queued 0
      way := none
      retry := 0
      waiters := []
      orphan := false }]
    watches := Vector.set (Vector.replicate 4 none) 2
      (some { phase := .armed, addr := 0x048A40, compare := 0, remaining := 9 }) }

theorem test_victim : setNine.victim 0x2F49 = some 3 := by decide +kernel

/-- After way 3 is FILL-PENDING for 0x2F49 the next victim is way 2. -/
theorem test_victim_next : (setNine.fillPend 0x2F49 3).victim 0x6DC9 = some 2 := by decide +kernel

/-- Chapter 05, a parity failure: word 6 of line 0x18A2 holds 0x77 with its check lost. -/
def lostCheck : HomeMemory :=
  memWrite [] (storeKey (indexOf 0x18A2) 6) { value := 0x77, parity := !parityOf 0x77, poison := false }

theorem test_parity_failure : (readLineTested lostCheck (indexOf 0x18A2)).2.poison = 0x40 ∧
    memRead (readLineTested lostCheck (indexOf 0x18A2)).1 (storeKey (indexOf 0x18A2) 6)
      = { value := 0x77, parity := !parityOf 0x77, poison := true } := by decide +kernel

/-- Chapter 05, the D-ATOMIC ADD 1 on word 4 of line 0x1F08, which holds 0x29. -/
theorem test_home_atomic :
    let m := memWrite [] (storeKey (indexOf 0x1F08) 4) (storeFresh 0x29 false)
    (homeDirectAtomic m 0x1F08 4 .add 1 0).2 = .result 4 false 0x29 ∧
      (memRead (homeDirectAtomic m 0x1F08 4 .add 1 0).1 (storeKey (indexOf 0x1F08) 4)).value = 0x2A := by decide +kernel

/-! ### States that meet the hypotheses of the statements -/

/-- Rest, by the rules. -/
theorem rest_of {s : State} (h : s.nextRule = none) : s.AtRest := State.atRest_iff.2 h

theorem free_of {s : State} {c : ChanId} (h : s.porst = false ∧ s.hrst = false ∧ s.hostTable[c].length < 4 ∧
    s.head? c = none ∧ s.isWaiting (.chan c) = false) : s.ChannelFree c := ⟨h.1, h.2.1, h.2.2.1, h.2.2.2.1, h.2.2.2.2⟩

theorem presents_of {s : State} {c : ChanId} (h : s.porst = false ∧ s.hrst = false ∧ s.hostTable[c].length < 4 ∧
    s.head? c = none ∧ s.isWaiting (.chan c) = false) (hr : s.nextRule = none ∧ s.postedOf c = false) : s.Presents c :=
  ⟨free_of h, rest_of hr.1, hr.2⟩

theorem none_at {α : Type} {v : Vector (Option α) 4} (h : v = Vector.replicate 4 none) (c : ChanId) (x : α) :
    v[c] ≠ some x := by
  subst h; simp

theorem unwatched_of {s : State} (hw : s.watches = Vector.replicate 4 none) (l : LineAddr) : s.Unwatched l :=
  fun c w h => absurd h (none_at hw c w)

theorem loneWatches_none {s : State} (hw : s.watches = Vector.replicate 4 none) : s.LoneWatches :=
  fun c w h => absurd h (none_at hw c w)

/-- With nothing in the waiting list and no watch, every word takes a store. -/
theorem storable_none {s : State} (h : s.waiting = []) (hw : s.watches = Vector.replicate 4 none) (a : Addr) :
    s.Storable a := ⟨fun c _ => by simp [State.isWaiting, h], loneWatches_none hw⟩

/-- Channel 3's WATCH is its one request, and no other channel has a watch. -/
theorem loneWatches_of {s : State} (h : ∀ c : ChanId, c ≠ 3 → s.watches[c] = none)
    (h3 : s.isWaiting (.chan 3) = false ∧ s.hostTable[(3 : ChanId)].map (fun e => e.isOpen) = [true]) :
    s.LoneWatches := by
  intro c w hw _
  by_cases hc : c = 3
  · subst hc
    obtain ⟨e, he, ho⟩ := List.map_eq_singleton_iff.1 h3.2
    exact ⟨h3.1, e, he, ho⟩
  · rw [h c hc] at hw; cases hw

/-- An operation alone on a line's entry, by its channel or the posted write queue. -/
def loneB (s : State) (l : LineAddr) : Who → Bool
  | .chan c => (match s.hostTable[c] with
    | [h] => h.isOpen && h.req.word?.any (fun a => lineOf a = l)
    | _ => false)
  | .posted => (match s.posted with
    | [p] => lineOf p.addr = l && channels.all (fun c => (s.head? c).all (fun e => !e.inPhase .draining))
    | _ => false)

theorem lone_of {s : State} {l : LineAddr} {ws : List Who} (h : ws.Nodup ∧ ∀ w ∈ ws, loneB s l w = true) :
    s.Lone l ws := by
  refine ⟨h.1, fun c hc => ?_, fun hp => ?_⟩
  · have := h.2 _ hc
    simp only [loneB] at this
    split at this
    · rename_i e he
      obtain ⟨ho, ha⟩ := Bool.and_eq_true_iff.1 this
      cases hw : e.req.word? with
      | none => rw [hw] at ha; cases ha
      | some a => exact ⟨e, a, he, ho, hw, by simpa [hw] using ha⟩
    · cases this
  · have := h.2 _ hp
    simp only [loneB] at this
    split at this
    · rename_i p hq
      obtain ⟨ha, hd⟩ := Bool.and_eq_true_iff.1 this
      refine ⟨p, hq, by simpa using ha, fun c e he => ?_⟩
      have := List.all_eq_true.1 hd c (mem_channels c)
      simpa [he] using this
    · cases this

/-- Station 1 of three. -/
def st : State := ready 1 3
/-- A cached line of its own slice, word 1 of it, and a line of the next slice that shares its set. -/
def line0 : LineAddr := 0x0803
def word0 : Addr := 0x0200C8
def line2 : LineAddr := 0x1003
/-- The first direct line of its slice, and word 1 of it. -/
def direct0 : LineAddr := 0x0F00
def dword0 : Addr := 0x03C008
/-- A line whose word 1 is poisoned. -/
def badLine : LineData := { words := Vector.replicate 8 0, poison := 2 }
/-- The line held. -/
def held (x : LineState) (d : LineData) : State := st.setWay line0 0 { tag := some line0, state := x, data := d }
/-- The one tag of a station that holds the line alone. -/
theorem held_tag {s : State} {x : LineState} {d : LineData} (h : s.lines = (held x d).lines) {i : Fin 32} {w : WayId}
    {l : LineAddr} (ht : s.tagAt i w = some l) : i = 3 ∧ w = 0 ∧ l = line0 := by
  have hi : i = 3 := by
    by_contra hne
    have hv : (3 : Nat) ≠ i := fun hc => hne (Fin.ext hc.symm)
    have : s.lines[i] = CacheSet.reset := by
      rw [h]
      exact (Vector.getElem_set_ne (by decide) i.isLt hv).trans (Vector.getElem_replicate _)
    rw [State.tagAt, this] at ht
    fin_cases w <;> cases ht
  subst hi
  rw [State.tagAt, h] at ht
  fin_cases w
  · exact ⟨rfl, rfl, (Option.some.inj ht).symm⟩
  all_goals cases ht

/-- Such a station with at most one entry and no writeback and no reply has each line in one place. -/
theorem held_onePlace {s : State} {x : LineState} {d : LineData} (h : s.lines = (held x d).lines)
    (h1 : s.table.length ≤ 1) (h2 : s.writebacks = []) (h3 : s.replies = []) (h4 : s.span.setAside = none) :
    s.OnePlace := by
  have hn : (s.table.map (fun e => e.line)).Nodup := by
    generalize s.table = t at h1 ⊢
    rcases t with _ | ⟨e, _ | ⟨f, t⟩⟩
    · simp
    · simp
    · simp at h1
  exact ⟨hn, by simp [h2], by simp [h3, h4],
    fun i w l ht => by obtain ⟨rfl, rfl, rfl⟩ := held_tag h ht; decide,
    fun i w l ht => by obtain ⟨rfl, rfl, rfl⟩ := held_tag h ht; decide,
    fun i w w' l ht ht' => by rw [(held_tag h ht).2.1, (held_tag h ht').2.1],
    fun i w l _ e he => by simp [h2] at he⟩

/-- Each line in one place, way by way. -/
theorem onePlace_of {s : State} (h : (s.table.map (fun e => e.line)).Nodup ∧ (s.writebacks.map (fun e => e.line)).Nodup ∧
      (s.replies.map (fun r => r.line) ++ s.span.setAside.toList).Nodup)
    (hw : ∀ (i : Fin 32) (w : WayId), (s.tagAt i w).all (fun l => Machine.setOf l = i && !isDirect l &&
      s.writebacks.all (fun e => e.line ≠ l) && wayIds.all (fun x => x = w || s.tagAt i x ≠ some l)) = true) :
    s.OnePlace := by
  have key : ∀ i w l, s.tagAt i w = some l → Machine.setOf l = i ∧ isDirect l = false ∧ (∀ e ∈ s.writebacks, e.line ≠ l) ∧
      ∀ x ∈ wayIds, x = w ∨ s.tagAt i x ≠ some l := fun i w l ht => by simpa [ht, and_assoc] using hw i w
  exact ⟨h.1, h.2.1, h.2.2, fun i w l ht => (key i w l ht).1, fun i w l ht => (key i w l ht).2.1,
    fun i w x l ht hx => ((key i w l ht).2.2.2 x (by fin_cases x <;> decide)).elim Eq.symm (absurd hx),
    fun i w l ht => (key i w l ht).2.2.1⟩

/-- A waiter, a waiting operation, a watch and a flush waiter, each by the head that it stands for. -/
def waiterB (s : State) (e : TableEntry) : Who → Bool
  | .chan c => (s.head? c).any (fun h => h.inPhase .joined && h.req.addr?.any (fun a => lineOf a = e.line) &&
      (match e.kind with
        | .direct _ => (directOf h.req).isSome
        | _ => true))
  | .posted => s.posted.head?.any (fun p => lineOf p.addr = e.line)
def waitsB (s : State) (x : Waiting) : Bool :=
  match x.who with
  | .chan c => (s.head? c).any (fun h => h.inPhase .active)
  | .posted => true
def watchB (s : State) (c : ChanId) (w : Watch) : Bool :=
  (s.head? c).any (fun h => (match h.req with
    | .watch a _ _ => a = w.addr
    | _ => false) && (w.phase ≠ .armed || (h.inPhase .active && !s.isWaiting (.chan c))))
def flushB (s : State) (c : ChanId) : Bool :=
  (s.head? c).any (fun h => (match h.req with
    | .flush _ => true
    | _ => false) && h.inPhase .active && !s.isWaiting (.chan c))

theorem headLaw_of {s : State} (h : (s.table.flatMap (fun e => e.waiters)).Nodup ∧ (s.waiting.map (fun x => x.who)).Nodup ∧
      (s.writebacks.filterMap (fun e => e.flush)).Nodup ∧ (∀ e ∈ s.table, e.waiters.length ≤ 5) ∧
      (s.isWaiting .posted = true → s.isWaiter .posted = false))
    (hw : (∀ e ∈ s.table, ∀ w ∈ e.waiters, waiterB s e w = true) ∧ (∀ x ∈ s.waiting, waitsB s x = true) ∧
      (∀ c : ChanId, s.watches[c].all (watchB s c) = true) ∧ ∀ e ∈ s.writebacks, e.flush.all (flushB s) = true) :
    s.HeadLaw where
  once := h.1
  five := h.2.2.2.1
  waiter e he c hc := by
    obtain ⟨x, hx, hp⟩ := (Option.any_eq_true _ _).1 (hw.1 e he _ hc)
    simp only [Bool.and_eq_true, Option.any_eq_true, decide_eq_true_eq] at hp
    obtain ⟨⟨hj, a, ha, hl⟩, hd⟩ := hp
    exact ⟨x, a, hx, hj, ha, hl, fun d hk => by simpa [hk] using hd⟩
  postedWaiter e he hp := by
    have := hw.1 e he _ hp
    cases hq : s.posted with
    | nil => simp [waiterB, hq] at this
    | cons p ps => exact ⟨p, ps, rfl, by simpa [waiterB, hq] using this⟩
  waitsOnce := h.2.1
  waits x hx c hc := by
    have := hw.2.1 x hx
    simp only [waitsB, hc] at this
    exact (Option.any_eq_true _ _).1 this
  postedOnce := h.2.2.2.2
  watch c w hc := by
    have := hw.2.2.1 c
    rw [hc] at this
    obtain ⟨x, hx, hp⟩ := (Option.any_eq_true _ _).1 this
    obtain ⟨hr, ha⟩ := Bool.and_eq_true_iff.1 hp
    split at hr
    · rename_i a v n hq
      obtain rfl : a = w.addr := by simpa using hr
      exact ⟨x, v, n, hx, hq, fun hw => by simpa [hw] using ha⟩
    · cases hr
  flush e he c hc := by
    have := hw.2.2.2 e he
    rw [hc] at this
    obtain ⟨x, hx, hp⟩ := (Option.any_eq_true _ _).1 this
    simp only [Bool.and_eq_true, Bool.not_eq_true'] at hp
    obtain ⟨⟨hr, ha⟩, hi⟩ := hp
    split at hr
    · rename_i a hq
      exact ⟨x, a, hx, hq, ha, hi⟩
    · cases hr
  flushOnce := h.2.2.1

/-- One set changed after reset, its order still a permutation. -/
theorem recency_of {s : State} {k : Fin 32} {c : CacheSet} (h : s.lines = (Vector.replicate 32 CacheSet.reset).set k c)
    (hc : c.order.Perm wayIds) : s.Recency := by
  intro i
  by_cases hi : i = k
  · subst hi
    have : s.lines[i] = c := by rw [h]; exact Vector.getElem_set_self i.isLt
    rw [this]; exact hc
  · have hv : (k : Nat) ≠ i := fun hc => hi (Fin.ext hc.symm)
    have : s.lines[i] = CacheSet.reset := by
      rw [h]
      exact (Vector.getElem_set_ne k.isLt i.isLt hv).trans (Vector.getElem_replicate _)
    rw [this]; exact List.Perm.refl _

/-- An entry of the line. -/
def entry (k : TableKind) (p : Phase) (ws : List Who) : TableEntry :=
  { line := line0, kind := k, phase := p, way := none, retry := 0, waiters := ws, orphan := false }
def tabled (s : State) (k : TableKind) (p : Phase) (ws : List Who) : State := { s with table := [entry k p ws] }
/-- The one request of a channel, at an acceptance place. -/
def request (r : Request) (p : HostPhase) (n : Nat) : HostEntry :=
  { tag := 0, req := r, place := n, check := none, progress := .opened p }
def asks (s : State) (c : ChanId) (r : Request) (p : HostPhase) (n : Nat) : State :=
  { s with hostTable := s.hostTable.set c [request r p n] }
/-- The FLUSH of a channel, pending in the waiting list. -/
def flushing (s : State) (c : ChanId) (a : Addr) (n : Nat) : State :=
  { asks s c (.flush a) .active n with
    waiting := s.waiting ++ [{ who := .chan c, place := n, pendingFlush := true, due := false }] }
/-- The same in channel 0. -/
def asked (s : State) (r : Request) (p : HostPhase) : State := asks s 0 r p 0
def item (who : Who) (n : Nat) : Waiting := { who := who, place := n, pendingFlush := false, due := false }
/-- The one request of a channel, in the waiting list. -/
def queued (s : State) (c : ChanId) (r : Request) (n : Nat) : State :=
  { asks s c r .active n with waiting := s.waiting ++ [item (.chan c) n] }
def inTenure (s : State) (t : Tenure) : State := { s with span := { s.span with tenure := t } }
def votes (retry home supply : Bool) : Votes := { copy := false, supply := supply, home := home, retry := retry }
def pw : PostedWrite := { ch := 0, addr := word0, mask := fullMask, value := 1, place := 4 }
def fullTable : State := { st with table := [1, 2, 4, 5].map (fun n => { entry .share (.awaitResult 1) [] with line := n }) }
/-- The posted write queue's head waits. -/
def posting (s : State) (n : Nat) : State :=
  { s with posted := List.replicate n pw, waiting := [item .posted 4] }
def header (l : LineAddr) : Header := { sender := 2, line := l, good := true }
/-- The holder's number was read at the grant. -/
def granted (s : State) (n : StationNo) : State := { s with span := { s.span with granted := some n } }
/-- A peer's tenure for the line, with a home reservation. -/
def peerTenure (s : State) (body : RequestBody) : State :=
  { s with span := { s.span with tenure := .peer 2 line0 body (votes false true false), homeReserved := true } }
/-- Channel 3's WATCH of the word is ARMED, with a time left. -/
def watching (s : State) (n : Nat) : State :=
  { asks s 3 (.watch word0 0 9) .active 0 with
    watches := Vector.set (Vector.replicate 4 none) 3
      (some { phase := .armed, addr := word0, compare := 0, remaining := n }) }
/-- Every one of them reads a field of the next state. -/
def next {α : Type} (r : Result) (f : State → α) : Option α :=
  match r with
  | .next t => some (f t)
  | _ => none

/-! Points of the rules where this model was once wrong -/

/-- R17, R133: a FLUSH that has writeback room but must let an older operation go first is not pending. -/
theorem test_flush_with_room_is_not_pending : ((held .dirtySole zeroLine).flushHeld 0 9 false false line0).waiting
    = [{ who := .chan 0, place := 9, pendingFlush := false, due := true }] := by decide +kernel

/-- R32, R47, R72: a host reset that withdraws the entry put forward leaves its class and no candidate, and the grant then
sends no frame. -/
def putQueued : State :=
  { tabled st .share (.queued 1) [] with
    span := { st.span with putForward := some { candidate := some (.entry line0), cls := .normal } } }
theorem test_host_reset_lapses_the_claim : next (exec .hostReset putQueued) (fun t => t.span.putForward)
      = some (some { candidate := none, cls := .normal }) ∧
    (next (exec .hostReset putQueued) (fun t => next (exec (.grant .verdict 0 0 0) t) (fun u => u.span.tenure)))
      = some (some .idle) := by decide +kernel

/-- R178: the number that the search finds is the holder's, whoever wins. -/
theorem test_grant_reads_the_holder : next (exec (.grant .verdict 0 0b100 0b1) st) (fun t => t.span.granted)
    = some (some 2) := by decide +kernel

/-- R86: a good reply whose addressee is the holder reaches no table. -/
theorem test_reply_to_its_holder_goes_nowhere :
    next (exec (.replyTenureVerdict false) (granted (inTenure st (.peerReply 1 line0 (.fill badLine) true false)) 1))
      (fun t => t.counters) = some Counters.zero := by decide +kernel

/-- R113: an ATOMIC of op 6 keeps its op code, address and operand A. -/
theorem test_undecodable_op_is_kept :
    next (exec (.undecodableRequestKind 0 ⟨3, .op 6 word0 7⟩ quiet 0) (asked (tabled st .share (.queued 0) [.chan 0])
      (.read word0) .joined)) (fun t => t.hostTable[(0 : ChanId)].map (fun e => e.req))
      = some [.read word0, .undecodable (.op 6 word0 7)] := by decide +kernel

/-! The witnesses, in the order of the statements -/

theorem witness_StepTakesTheFrontCommand : State.pending { st with pending := [.hostReset] } = .hostReset :: [] := rfl

/-- A tick with nothing to run out, at idle count 3 and the last line of the sweep. -/
def ticking : State :=
  { watching (tabled st .share (.awaitFill .shared 2) []) 2 with
    station := { number := 1, count := 3, mode := .clearing, sweep := 2047 }
    span := { st.span with idleCount := 3 } }

theorem witness_EmptyQueueTicks : (State.reset.pending = [] ∧ State.reset.porst = true) ∧
    ticking.pending = [] ∧ ticking.porst = false ∧ (∀ e ∈ ticking.table, e.phase.lowered.runOut = false) ∧
    (∀ (c : ChanId) w, ticking.watches[c] = some w → w.remaining - 1 ≠ 0) := by
  refine ⟨by decide, by decide, by decide, by decide, fun c w h => ?_⟩
  fin_cases c <;> revert h
  · exact fun h => by cases h
  · exact fun h => by cases h
  · exact fun h => by cases h
  · intro h; rw [← Option.some.inj h]; decide

/-- A tick that ends one reply timer, and a tick that ends one watch. -/
def dueReply : State := watching (tabled (held .invalid zeroLine) .share (.awaitFill .shared 1) []) 2
def dueWatch : State := watching (tabled (held .invalid zeroLine) .share (.awaitFill .shared 2) []) 1

theorem witness_EmptyQueueTicks_due : dueReply.OnePlace ∧ dueReply.pending = [] ∧ dueReply.porst = false ∧
    dueReply.table.map (fun e => e.phase.lowered.runOut) = [true] ∧
    (∀ c : ChanId, (dueReply.watches[c]).all (fun w => w.remaining - 1 ≠ 0) = true) ∧ dueWatch.pending = [] ∧
    dueWatch.porst = false ∧ dueWatch.table.map (fun e => e.phase.lowered.runOut) = [false] ∧
    dueWatch.watches[(3 : ChanId)] = some { phase := .armed, addr := word0, compare := 0, remaining := 1 } ∧
    (∀ d : ChanId, d ≠ 3 → dueWatch.watches[d] = none) :=
  ⟨held_onePlace rfl (Nat.le_refl 1) rfl rfl rfl, by decide +kernel⟩

theorem test_tick_expires : next (step dueReply) (fun t => (t.table.length, t.counters.lostReplies)) = some (0, 1) ∧
    next (step dueWatch) (fun t => (t.hostTable[(3 : ChanId)]).map (fun h => h.progress)) = some [.ready .timeout false [0]] := by
  decide +kernel

theorem witness_PowerOnResetReadsTheStraps : State.reset.porst = true := rfl

theorem witness_HostReset_release : State.porst { posting st 8 with hrst := true } = false ∧
    State.hrst { posting st 8 with hrst := true } = true ∧ State.posted { posting st 8 with hrst := true } ≠ [] := by decide

/-- A QUEUED SHARE on its FILL-PENDING way. -/
def filling : State := tabled (held .invalid zeroLine) .share (.queued 0) [.posted]

theorem witness_HostReset_empties : filling.OnePlace ∧ filling.porst = false ∧ filling.posted = [] ∧
    (∃ e ∈ filling.table, e.phase.awaiting = false ∧ filling.inTenure e.line = false ∧
      filling.lookup e.line = some .invalid) ∧ (held .shared zeroLine).heldValid line0 = true :=
  ⟨held_onePlace rfl (Nat.le_refl 1) rfl rfl rfl, by decide +kernel⟩

/-- The posted write queue's one entry, whatever it waited for, and the state that the reset leaves for an empty queue. -/
def resetWith (s : State) : State := { s with posted := [pw] }
def resetEmpty (s : State) : State := { s with posted := [] }

theorem witness_HostReset_posted : ∀ s : State, s.porst = false → (resetWith s).porst = false ∧
    (resetWith s).posted = [pw] ∧ ∃ u, exec .hostReset (resetEmpty s) = .next u := by
  intro s h
  exact ⟨h, rfl, _, by rw [exec, execHostReset]; rw [if_neg (by simp [resetEmpty, h])]⟩

/-- Held sole; a QUEUED OWN that is withdrawn; an OWN kept in AWAIT-FILL; an UPGRADE's shared line; a line under a hold. -/
def resetCases : List State :=
  [held .cleanSole zeroLine, tabled (held .invalid zeroLine) .own (.queued 0) [.posted],
    tabled (held .invalid zeroLine) .own (.awaitFill .cleanSole 9) [.posted],
    tabled (held .shared zeroLine) .upgrade (.queued 0) [.posted], peerTenure (held .dirtySole zeroLine) (.table .own)]

theorem witness_HostReset_lookups : resetCases.map (fun s => next (exec .hostReset (resetEmpty s)) (fun u =>
      (u.lookup line0, u.held line0, (u.entryFor line0).isSome)))
    = [some (some .cleanSole, false, false), some (none, false, false), some (some .invalid, false, true),
      some (some .shared, false, false), some (some .dirtySole, true, false)] ∧
    next (exec .hostReset (resetEmpty (tabled (held .invalid zeroLine) .own (.queued 0) [.posted])))
      (fun u => u.victim line0) = some (some 3) := by decide +kernel

/-- R140: stored, granted again, rejoined, granted an UPGRADE again, waiting. -/
theorem test_host_reset_looks_the_head_up : resetCases.map (fun s => next (exec .hostReset (resetWith s)) (fun t =>
      (t.posted.length, t.table.map (fun e => e.kind), t.isWaiter .posted, t.isWaiting .posted)))
    = [some (0, [], false, false), some (1, [.own], true, false), some (1, [.own], true, false),
      some (1, [.upgrade], true, false), some (1, [], false, true)] := by decide +kernel

theorem witness_HostReset_claim : putQueued.span.putForward = some { candidate := some (.entry line0), cls := .normal } ∧
    ∃ e ∈ putQueued.table, e.phase.awaiting = false ∧ putQueued.inTenure e.line = false ∧ e.line = line0 := by
  decide +kernel

def fullChannel : State := { st with hostTable := st.hostTable.set 3 (List.replicate 4
  { tag := 0, req := .fence, place := 0, check := none, progress := .ready .ok false [0] }) }

theorem witness_RecordsAreDiscardedRefusedOrChecked : requestOf (.fence 3 7) = some (3, 7, .fence) ∧
    State.reset.porst = true ∧ State.hrst { st with hrst := true } = true ∧ fullChannel.porst = false ∧
    fullChannel.hrst = false ∧ 4 ≤ fullChannel.hostTable[(3 : ChanId)].length := by decide +kernel

/-- The edges of the checks: the first home not on the span and the last on it, the first direct index and the last cached
one, one byte of misalignment, the mask and the timeout of zero, an INERT station. -/
theorem witness_AcceptanceChecksInOrder : st.acceptanceCheck (.read 0x60000) = some .noHome ∧
    st.acceptanceCheck (.read 0x5FFF8) = none ∧ st.acceptanceCheck (.reserve 0x03C000) = some .region ∧
    st.acceptanceCheck (.reserve 0x03BFF8) = none ∧ st.acceptanceCheck (.read 0x0200C9) = some .badRequest ∧
    st.acceptanceCheck (.write word0 0 1) = some .badRequest ∧ st.acceptanceCheck (.watch word0 0 0) = some .badRequest ∧
    State.reset.acceptanceCheck (.undecodable (.kind 0)) = some .badConfig ∧
    State.reset.acceptanceCheck (.status true) = none := by decide +kernel

theorem witness_RecordsFail : st.ChannelFree 3 ∧ st.AtRest ∧ st.acceptanceCheck (.undecodable (.op 6 0 0)) = some .badRequest ∧
    st.acceptanceCheck (.posted 0x60000 1 1) = some .noHome := ⟨free_of (by decide +kernel), rest_of rfl, by decide +kernel⟩

theorem witness_RecordsWait_behind : (asked filling (.read word0) .joined).AtRest ∧
    (asked filling (.read word0) .joined).porst = false ∧ (asked filling (.read word0) .joined).hrst = false ∧
    (asked filling (.read word0) .joined).hostTable[(0 : ChanId)].length < 4 ∧
    ((asked filling (.read word0) .joined).head? 0).isSome = true := ⟨rest_of rfl, by decide +kernel⟩

theorem witness_RecordsWait_draining : (posting st 1).AtRest ∧ (posting st 1).ChannelFree 0 ∧
    (posting st 1).acceptanceCheck .fence = none ∧ Request.fence.isPosted = false ∧ (posting st 1).postedOf 0 = true :=
  ⟨rest_of rfl, free_of (by decide +kernel), by decide +kernel⟩

theorem witness_CompletionsAreOrderedAndEmitted :
    (State.porst { fullChannel with readyOrder := [.accepted 3 0] } = false ∧
      (fullChannel.hostTable[(3 : ChanId)]).head?.map (fun e => e.progress) = some (.ready .ok false [0])) ∧
    State.refused { st with refused := st.refused.set 1 (some (9, true)), readyOrder := [.refused 1] }
      = st.refused.set 1 (some (9, true)) := ⟨by decide +kernel, rfl⟩

theorem witness_Completions_ofOneCommand : ∃ t, exec (.postedWrite 0 0 word0 1 1) (held .cleanSole zeroLine) = .next t ∧
    ∀ c : ChanId, ∀ e ∈ (held .cleanSole zeroLine).hostTable[c], e.isOpen = false →
      .accepted c e.place ∈ (held .cleanSole zeroLine).readyOrder := ⟨_, rfl, by decide +kernel⟩

theorem witness_ValuesAndTheOneWordStored : ((held .cleanSole badLine).findWay (lineOf word0)).isSome = true ∧
    wordOf 0x0200C0 ≠ wordOf word0 ∧ lineOf 0x0400C8 ≠ lineOf word0 := by decide +kernel

/-- Channel 3's watch and reservation of the word, and channel 1's CONDITIONAL of it in the waiting list. -/
def claimedLine : State :=
  { queued (watching (held .shared zeroLine) 1) 1 (.conditional word0 5) 2 with
    reservations := ((Vector.replicate 4 none).set 3 (some word0)).set 1 (some word0) }

theorem witness_ReportsReachEveryChannel : claimedLine.reservations[(3 : ChanId)] = some word0 ∧
    claimedLine.reservations[(0 : ChanId)] = none ∧ claimedLine.watches[(0 : ChanId)] = none ∧
    claimedLine.watches[(3 : ChanId)] = some { phase := .armed, addr := word0, compare := 0, remaining := 1 } ∧
    claimedLine.hostTable[(3 : ChanId)] = [request (.watch word0 0 9) .active 0] ∧
    claimedLine.hostTable[(1 : ChanId)] = [request (.conditional word0 5) .active 2] ∧
    claimedLine.reservations[(1 : ChanId)] = some word0 ∧ claimedLine.isWaiting (.chan 1) = true ∧
    claimedLine.watches[(1 : ChanId)] = none := by decide +kernel

/-! Requests performed at once -/

/-- The line held presents every channel's request. -/
theorem held_presents (x : LineState) (d : LineData) (c : ChanId) : (held x d).Presents c :=
  presents_of (by fin_cases c <;> exact ⟨rfl, rfl, Nat.succ_pos 3, rfl, rfl⟩) (by fin_cases c <;> exact ⟨rfl, rfl⟩)

/-- It takes a store of any word. -/
theorem held_storable (x : LineState) (d : LineData) (a : Addr) : (held x d).Storable a := storable_none rfl rfl a

/-- With channel 3's watch on the word it takes a store that answers the WATCH. -/
theorem watching_storable (x : LineState) (n : Nat) (a : Addr) : (watching (held x zeroLine) n).Storable a :=
  ⟨fun c h => absurd h (none_at rfl c a),
    loneWatches_of (by intro c hc; fin_cases c <;> first | rfl | exact absurd rfl hc) ⟨rfl, rfl⟩⟩

theorem watching_presents (x : LineState) (n : Nat) : (watching (held x zeroLine) n).Presents 0 :=
  presents_of ⟨rfl, rfl, Nat.succ_pos 3, rfl, rfl⟩ ⟨rfl, rfl⟩

theorem witness_ReadHitAnswersTheWord : (held .shared badLine).Presents 0 ∧
    (held .shared badLine).acceptanceCheck (.read word0) = none ∧ (held .shared badLine).heldValid (lineOf word0) = true ∧
    (held .shared badLine).loadPoison word0 = true ∧ (held .shared zeroLine).loadPoison word0 = false :=
  ⟨held_presents _ _ _, by decide +kernel⟩

theorem witness_WriteHitStores : (held .cleanSole badLine).Presents 3 ∧ (held .cleanSole badLine).Storable word0 ∧
    (held .cleanSole badLine).acceptanceCheck (.write word0 1 9) = none ∧
    (held .cleanSole badLine).lookup (lineOf word0) = some .cleanSole ∧
    (held .cleanSole badLine).held (lineOf word0) = false ∧ (held .cleanSole badLine).loadPoison word0 = true :=
  ⟨held_presents _ _ _, held_storable _ _ _, by decide +kernel⟩

/-- The same with a watch that the store answers. -/
theorem witness_WriteHitStores_watched : (watching (held .dirtySole zeroLine) 1).Presents 0 ∧
    (watching (held .dirtySole zeroLine) 1).Storable word0 ∧
    (watching (held .dirtySole zeroLine) 1).acceptanceCheck (.write word0 fullMask 9) = none ∧
    (watching (held .dirtySole zeroLine) 1).lookup (lineOf word0) = some .dirtySole ∧
    (((watching (held .dirtySole zeroLine) 1).stored word0 9).hostTable[(3 : ChanId)]).map (fun h => h.progress)
      = [.ready .ok false [9]] :=
  ⟨watching_presents _ _, watching_storable _ _ _, by decide +kernel⟩

theorem witness_AtomicHitReturnsTheOldWord : requestOf (.atomicMaxu 2 5 word0 7) = some (2, 5, .atomic .maxu word0 7 0) ∧
    (held .dirtySole zeroLine).Presents 2 ∧ (held .dirtySole zeroLine).Storable word0 ∧
    (held .dirtySole zeroLine).acceptanceCheck (.atomic .maxu word0 7 0) = none ∧
    (held .dirtySole zeroLine).lookup (lineOf word0) = some .dirtySole ∧ LineState.dirtySole.sole = true ∧
    (held .dirtySole zeroLine).held (lineOf word0) = false :=
  ⟨rfl, held_presents _ _ _, held_storable _ _ _, by decide +kernel⟩

theorem witness_ReserveHitReserves : (held .shared zeroLine).Presents 1 ∧
    (held .shared zeroLine).acceptanceCheck (.reserve word0) = none ∧
    (held .shared zeroLine).heldValid (lineOf word0) = true := ⟨held_presents _ _ _, by decide +kernel⟩

/-- The line with channel 0's reservation on the word. -/
def reserved (x : LineState) : State :=
  { held x zeroLine with reservations := Vector.set (Vector.replicate 4 none) 0 (some word0) }

theorem reserved_presents (x : LineState) (c : ChanId) : (reserved x).Presents c :=
  presents_of (by fin_cases c <;> exact ⟨rfl, rfl, Nat.succ_pos 3, rfl, rfl⟩) (by fin_cases c <;> exact ⟨rfl, rfl⟩)

theorem witness_ConditionalStoresOrFails : (reserved .cleanSole).Presents 0 ∧ (reserved .cleanSole).Storable word0 ∧
    (reserved .cleanSole).acceptanceCheck (.conditional word0 1) = none ∧
    (reserved .cleanSole).reservations[(1 : ChanId)] ≠ some word0 ∧
    (reserved .cleanSole).reservations[(0 : ChanId)] = some word0 ∧
    (reserved .cleanSole).lookup (lineOf word0) = some .cleanSole ∧ (reserved .cleanSole).held (lineOf word0) = false :=
  ⟨reserved_presents _ _, storable_none rfl rfl _, by decide +kernel⟩

theorem witness_WatchComparesOrArms : (held .shared zeroLine).Presents 1 ∧
    (held .shared zeroLine).acceptanceCheck (.watch word0 0 1) = none ∧
    (held .shared zeroLine).watches[(1 : ChanId)] = none ∧ (held .shared zeroLine).heldValid (lineOf word0) = true ∧
    (held .shared zeroLine).loadPoison word0 = false ∧ (held .shared zeroLine).loadWord word0 = 0 :=
  ⟨held_presents _ _ _, by decide +kernel⟩

/-- A dirty line and a full writeback buffer, and a line in the writeback buffer with its flush waiter or without. -/
def fullBuffer : State :=
  { held .dirtyShared zeroLine with
    writebacks := [1, 2].map (fun n => { line := n, data := zeroLine, retry := 31, flush := none, age := 0 }) }
def leaving (f : Option ChanId) : State :=
  { st with writebacks := [{ line := line0, data := badLine, retry := 0, flush := f, age := 0 }] }

theorem witness_Flush_nothing : (held .dirtySole zeroLine).Presents 0 ∧
    (held .dirtySole zeroLine).acceptanceCheck (.flush 0x03C000) = none ∧ isDirect (lineOf 0x03C000) = true ∧
    st.held line0 = false ∧ st.entryFor line0 = none ∧ st.lookup line0 = none ∧ st.writebackFor line0 = none :=
  ⟨held_presents _ _ _, by decide +kernel⟩

theorem witness_Flush_waits : (peerTenure (held .dirtySole zeroLine) (.table .share)).Presents 0 ∧ filling.Presents 3 ∧
    (peerTenure (held .dirtySole zeroLine) (.table .share)).held line0 = true ∧ (filling.entryFor line0).isSome = true ∧
    filling.lookup line0 = some .invalid ∧ isDirect line0 = false ∧ lineOf word0 = line0 ∧
    filling.acceptanceCheck (.flush word0) = none :=
  ⟨presents_of (by decide +kernel) (by decide +kernel), presents_of (by decide +kernel) (by decide +kernel),
    by decide +kernel⟩

theorem witness_Flush_buffered : (leaving none).Presents 0 ∧ (leaving (some 2)).Presents 0 ∧ (leaving none).held line0 = false ∧
    (leaving none).entryFor line0 = none ∧ (leaving none).lookup line0 = none ∧
    ((leaving none).writebackFor line0).map (fun e => e.flush) = some none ∧
    ((leaving (some 2)).writebackFor line0).map (fun e => e.flush) = some (some 2) :=
  ⟨presents_of (by decide +kernel) (by decide +kernel), presents_of (by decide +kernel) (by decide +kernel),
    by decide +kernel⟩

theorem witness_Flush_held : (reserved .cleanSole).Presents 0 ∧ (reserved .cleanSole).Unwatched line0 ∧
    (∀ d : ChanId, (reserved .cleanSole).isWaiting (.chan d) = false) ∧ fullBuffer.Presents 0 ∧
    (reserved .cleanSole).heldDirty line0 = false ∧ (reserved .dirtyShared).heldDirty line0 = true ∧
    (reserved .dirtyShared).writebacks.length < 2 ∧ 2 ≤ fullBuffer.writebacks.length ∧
    fullBuffer.heldDirty line0 = true ∧ fullBuffer.heldValid line0 = true ∧ fullBuffer.entryFor line0 = none ∧
    fullBuffer.held line0 = false :=
  ⟨reserved_presents _ _, unwatched_of rfl _, fun _ => rfl, presents_of (by decide +kernel) (by decide +kernel),
    by decide +kernel⟩

/-- A set latch. -/
def latched : State := { st with latches := st.latches.set 2 (some { status := .stalled, addr := word0, more := true }) }

theorem witness_FenceReportsTheLatch : latched.Presents 2 ∧ st.Presents 0 ∧ st.acceptanceCheck .fence = none :=
  ⟨presents_of (by decide +kernel) (by decide +kernel), presents_of (by decide +kernel) (by decide +kernel), rfl⟩

theorem witness_ProbeAndStatusReport : (held .shared zeroLine).Presents 3 ∧
    (held .shared zeroLine).acceptanceCheck (.probe word0) = none := ⟨held_presents _ _ _, by decide +kernel⟩

/-- Chapter 10 and 12: what a PROBE of the word reports of a line held DIRTY-SOLE, poisoned, in way 0, with a reservation;
bit 62 its home here, state 4, way present, position 1, poison flag 1, one reservation. -/
theorem test_line_report : (State.lineReport { held .dirtySole badLine with
    reservations := Vector.set (Vector.replicate 4 none) 0 (some word0) } word0).word = 0x6210210000000000 := by
  decide +kernel

theorem witness_ReportsFollowTheirLayouts : (held .shared badLine).Recency ∧ ((leaving none).writebackFor line0).isSome = true ∧
    (filling.entryFor line0).map (fun e => (e.retry, e.waiters.length)) = some (0, 1) ∧
    ((held .shared badLine).findWay line0) = some 0 ∧ st.station.sweep ≤ 2048 :=
  ⟨recency_of (k := 3) rfl (List.Perm.refl _), by decide +kernel⟩

/-- An INERT station out of reset. -/
def inert : State := { State.reset with porst := false }

theorem witness_StatusIdentifiesTheStation : inert.Presents 0 ∧ st.Presents 0 :=
  ⟨presents_of (by decide +kernel) (by decide +kernel), presents_of (by decide +kernel) (by decide +kernel)⟩

theorem witness_PostedWrite_behind : (posting st 7).ChannelFree 0 ∧ (posting st 7).AtRest ∧ (posting st 7).posted ≠ [] ∧
    (posting st 7).posted.length < 8 ∧ (posting st 7).acceptanceCheck (.posted word0 1 1) = none :=
  ⟨free_of (by decide +kernel), rest_of rfl, by decide +kernel⟩

theorem witness_PostedWrite_full : (posting st 8).ChannelFree 0 ∧ (posting st 8).AtRest ∧
    8 ≤ (posting st 8).posted.length := ⟨free_of (by decide +kernel), rest_of rfl, by decide +kernel⟩

theorem witness_PostedWrite_stores : (held .cleanSole zeroLine).ChannelFree 0 ∧ (held .cleanSole zeroLine).AtRest ∧
    (held .cleanSole zeroLine).Storable word0 ∧
    (held .cleanSole zeroLine).acceptanceCheck (.posted word0 1 1) = none ∧ (held .cleanSole zeroLine).posted = [] ∧
    (held .cleanSole zeroLine).isWaiting .posted = false ∧ (held .cleanSole zeroLine).isWaiter .posted = false ∧
    (held .cleanSole zeroLine).lookup (lineOf word0) = some .cleanSole ∧
    (held .cleanSole zeroLine).held (lineOf word0) = false ∧ (held .cleanSole zeroLine).loadPoison word0 = false :=
  ⟨(held_presents _ _ 0).free, (held_presents _ _ 0).rest, held_storable _ _ _, by decide +kernel⟩

/-- The set of the next slice's line is full: way 3 has a dirty line, the least recent, and nothing is pinned. -/
def fullSet : State :=
  { (((held .dirtySole zeroLine).setWay line0 1 { tag := some 0x0003, state := .shared, data := zeroLine }).setWay
      line0 2 { tag := some 0x0023, state := .shared, data := zeroLine }).setWay
      line0 3 { tag := some 0x0043, state := .dirtyShared, data := zeroLine } with
    writebacks := [{ line := 1, data := zeroLine, retry := 0, flush := none, age := 0 }] }

theorem leaves_free {s : State} {l : LineAddr} {w : WayId} (h : (s.wayAt l w).tag = none) : s.Leaves l w :=
  fun t ht => by rw [h] at ht; cases ht

theorem fullSet_leaves : fullSet.Leaves line2 3 := fun t ht => by
  obtain rfl : (0x0043 : LineAddr) = t := Option.some.inj ht
  exact ⟨by decide +kernel, unwatched_of rfl _, by decide +kernel⟩

theorem witness_PostedHead_opens : fullSet.ChannelFree 0 ∧ fullSet.AtRest ∧ fullSet.Leaves line2 3 ∧
    fullSet.victim line2 = some 3 ∧ fullSet.acceptanceCheck (.posted 0x0400C8 1 1) = none ∧ fullSet.posted = [] ∧
    fullSet.lookup line2 = none ∧ fullSet.writebackFor line2 = none ∧ lineOf 0x0400C8 = line2 ∧
    (held .shared zeroLine).lookup line0 = some .shared ∧ isDirect (lineOf dword0) = true ∧
    (held .cleanSole badLine).loadPoison word0 = true :=
  ⟨free_of (by decide +kernel), rest_of rfl, fullSet_leaves, by decide +kernel⟩

/-- An OWN of the line with another channel's operation. -/
def owning : State := tabled (held .invalid zeroLine) .own (.queued 0) [.chan 2]

theorem witness_PostedHead_joinsOrWaits : owning.ChannelFree 0 ∧ owning.AtRest ∧ owning.posted = [] ∧
    owning.isWaiting .posted = false ∧ owning.isWaiter .posted = false ∧ owning.held line0 = false ∧
    owning.lookup line0 = some .invalid ∧ (owning.entryFor line0).map (fun e => e.kind) = some .own ∧
    (peerTenure (held .shared zeroLine) (.table .own)).held line0 = true ∧
    ((leaving none).writebackFor line0).isSome = true ∧ 4 ≤ fullTable.table.length ∧ fullTable.entryFor line0 = none ∧
    fullTable.lookup line0 = none :=
  ⟨free_of (by decide +kernel), rest_of rfl, by decide +kernel⟩

/-- The set of the next slice's line is full: three ways FILL-PENDING, and the fourth with a line in a state. -/
def crammed (x : LineState) : State :=
  (((held .invalid zeroLine).setWay line0 1 { tag := some 0x0003, state := .invalid, data := zeroLine }).setWay
    line0 2 { tag := some 0x0023, state := .invalid, data := zeroLine }).setWay
    line0 3 { tag := some 0x0043, state := x, data := zeroLine }
/-- The fourth line under a hold; a full writeback buffer. -/
def crammedHeld : State := inTenure (crammed .shared) (.peer 2 0x0043 (.table .share) (votes false true false))
def crammedDirty : State := { crammed .dirtySole with writebacks := fullBuffer.writebacks }

/-- All four ways pinned; the victim under a hold; the victim dirty and no room for it. -/
theorem crammed_cramped : (crammed .invalid).Cramped line2 ∧ crammedHeld.Cramped line2 ∧ crammedDirty.Cramped line2 :=
  ⟨.inl (by decide +kernel), .inr ⟨3, 0x0043, by decide +kernel⟩, .inr ⟨3, 0x0043, by decide +kernel⟩⟩

theorem crammed_presents : (crammed .invalid).Presents 0 ∧ crammedHeld.Presents 0 ∧ crammedDirty.Presents 0 :=
  ⟨presents_of (by decide +kernel) (by decide +kernel), presents_of (by decide +kernel) (by decide +kernel),
    presents_of (by decide +kernel) (by decide +kernel)⟩

theorem witness_PostedHead_cramped : (crammed .invalid).ChannelFree 0 ∧ crammedHeld.AtRest ∧ crammedDirty.ChannelFree 0 ∧
    crammedDirty.Cramped line2 ∧ crammedDirty.lookup line2 = none ∧ isDirect line2 = false ∧ crammedDirty.posted = [] ∧
    crammedHeld.lookup line2 = none ∧ (crammed .invalid).lookup line2 = none :=
  ⟨crammed_presents.1.free, crammed_presents.2.1.rest, crammed_presents.2.2.free, crammed_cramped.2.2, by decide +kernel⟩

/-- The posted write queue's head is the one waiter of an entry that awaits its reply, with more behind it. -/
def movingOn (s : State) (rest : List PostedWrite) : State :=
  { tabled s (.direct (.write 1 1 1)) (.awaitResult 1) [.posted] with posted := pw :: rest }

theorem witness_PostedQueue_stores : (movingOn (held .cleanSole zeroLine) [pw]).AtRest ∧
    (movingOn (held .cleanSole zeroLine) [pw]).OnePlace ∧ (movingOn (held .cleanSole zeroLine) [pw]).HeadLaw ∧
    (∀ c : ChanId, (movingOn (held .cleanSole zeroLine) [pw]).head? c = none) ∧
    (held .cleanSole zeroLine).Storable word0 ∧
    ((movingOn (held .cleanSole zeroLine) [pw]).entryFor line0).map (fun e => (e.phase.awaiting, e.waiters))
      = some (true, [.posted]) ∧ (held .cleanSole zeroLine).lookup (lineOf pw.addr) = some .cleanSole :=
  ⟨rest_of rfl, held_onePlace rfl (Nat.le_refl 1) rfl rfl rfl, headLaw_of (by decide +kernel) (by decide +kernel),
    by decide +kernel, held_storable _ _ _, by decide +kernel⟩

theorem witness_PostedQueue_drains : (asked (movingOn (held .shared zeroLine) []) .fence .draining).AtRest ∧
    (asked (movingOn (held .shared zeroLine) []) .fence .draining).OnePlace ∧
    (asked (movingOn (held .shared zeroLine) []) .fence .draining).HeadLaw ∧
    (∀ d : ChanId, d ≠ pw.ch → (asked (movingOn (held .shared zeroLine) []) .fence .draining).head? d = none) ∧
    (request .fence .draining 0).inPhase .draining = true :=
  ⟨rest_of rfl, held_onePlace rfl (Nat.le_refl 1) rfl rfl rfl, headLaw_of (by decide +kernel) (by decide +kernel),
    by decide +kernel⟩

/-- R116: a full queue whose next entry waits under a hold, and two heads that wait for room; the older is channel 2's. -/
def crowded : State :=
  asks (asks (peerTenure (movingOn (held .shared zeroLine) (List.replicate 7 pw)) (.table .share))
    1 (.posted word0 fullMask 6) .active 9) 2 (.posted word0 fullMask 5) .active 8

theorem witness_PostedQueue_room : crowded.AtRest ∧ crowded.OnePlace ∧ crowded.HeadLaw ∧ (List.replicate 7 pw).length = 7 ∧
    crowded.held (lineOf pw.addr) = true ∧ crowded.hostTable[(2 : ChanId)] = [request (.posted word0 fullMask 5) .active 8] ∧
    (∀ d : ChanId, d ≠ 2 → (crowded.head? d).all (fun h => 8 < h.place) = true) ∧
    (∀ d : ChanId, (crowded.head? d).all (fun h => !h.inPhase .draining) = true) :=
  ⟨rest_of rfl, held_onePlace rfl (Nat.le_refl 1) rfl rfl rfl, headLaw_of (by decide +kernel) (by decide +kernel),
    by decide +kernel⟩

theorem test_room_goes_to_the_oldest : next (exec (.replyTimerExpiry line0) crowded)
    (fun t => (t.posted.map (fun p => p.ch), (t.head? 1).isSome)) = some ([0, 0, 0, 0, 0, 0, 0, 2], true) := by
  decide +kernel

/-- R137's order: four entries, the next head a D-WRITE, and a READ of the removed head's channel that drains. -/
def freesOne : State :=
  asked { movingOn (held .shared zeroLine) [{ pw with ch := 1, addr := dword0 }] with
    table := entry (.direct (.write 1 1 1)) (.awaitResult 1) [.posted] :: fullTable.table.take 3 } (.read 0x03C040) .draining

theorem witness_PostedQueue_entry : freesOne.AtRest ∧ freesOne.OnePlace ∧ freesOne.HeadLaw ∧ freesOne.waiting = [] ∧
    freesOne.table.length = 4 ∧ (freesOne.entryFor line0).map (fun e => (e.phase.awaiting, e.waiters)) = some (true, [.posted]) ∧
    freesOne.entryFor (lineOf dword0) = none ∧ freesOne.held (lineOf dword0) = false ∧ isDirect (lineOf 0x03C040) = true ∧
    freesOne.hostTable[(0 : ChanId)] = [request (.read 0x03C040) .draining 0] ∧
    (∀ d : ChanId, d ≠ 0 → freesOne.head? d = none) :=
  ⟨rest_of rfl, onePlace_of (by decide +kernel) (by decide +kernel), headLaw_of (by decide +kernel) (by decide +kernel),
    by decide +kernel⟩

/-- A full queue, a FENCE that drains with a posted WRITE behind it, and a younger posted WRITE head that waits for room. -/
def overtakes : State :=
  let s := peerTenure (movingOn (held .shared zeroLine) (List.replicate 7 { pw with ch := 1 })) (.table .share)
  let port := s.hostTable.set 0 [request .fence .draining 0, request (.posted word0 fullMask 6) .waiting 5]
  asks { s with hostTable := port } 2 (.posted word0 fullMask 7) .active 8

theorem witness_PostedQueue_order : overtakes.AtRest ∧ overtakes.OnePlace ∧ overtakes.HeadLaw ∧ overtakes.waiting = [] ∧
    (∀ x ∈ overtakes.posted.tail, x.ch ≠ pw.ch) ∧ overtakes.posted.tail.length = 7 ∧ overtakes.held line0 = true ∧
    overtakes.hostTable[(0 : ChanId)] = [request .fence .draining 0, request (.posted word0 fullMask 6) .waiting 5] ∧
    (∀ d : ChanId, d ≠ 0 → (overtakes.head? d).all (fun h => !h.inPhase .draining && 5 < h.place) = true) :=
  ⟨rest_of rfl, held_onePlace rfl (Nat.le_refl 1) rfl rfl rfl, headLaw_of (by decide +kernel) (by decide +kernel),
    by decide +kernel⟩

/-! Requests that need the span -/

theorem witness_VictimIsTheLeastRecentOfItsRank : setNine.Recency :=
  recency_of (k := 9) rfl (by decide)

theorem witness_Miss_freeWay : requestOf (.reserve 0 0 0x0400C8) = some (0, 0, .reserve 0x0400C8) ∧
    missKind (.reserve 0x0400C8) = some .share ∧ (reserved .shared).Presents 0 ∧
    State.Leaves { reserved .shared with reservations := (reserved .shared).reservations.set 0 none } line2 3 ∧
    (reserved .shared).acceptanceCheck (.reserve 0x0400C8) = none ∧ isDirect line2 = false ∧
    (reserved .shared).lookup line2 = none ∧ (reserved .shared).writebackFor line2 = none ∧
    (reserved .shared).held line2 = false ∧ (reserved .shared).entryFor line2 = none ∧
    (reserved .shared).table.length < 4 ∧
    State.victim { reserved .shared with reservations := (reserved .shared).reservations.set 0 none } line2 = some 3 :=
  ⟨rfl, rfl, reserved_presents _ _, leaves_free rfl, by decide +kernel⟩

theorem witness_Miss_dirtyVictim : missKind (.write 0x0400C8 1 1) = some .own ∧ fullSet.Presents 1 ∧ fullSet.Leaves line2 3 ∧
    fullSet.acceptanceCheck (.write 0x0400C8 1 1) = none ∧ fullSet.lookup line2 = none ∧
    fullSet.writebackFor line2 = none ∧ fullSet.held line2 = false ∧ fullSet.entryFor line2 = none ∧
    fullSet.victim line2 = some 3 ∧ (fullSet.wayAt line2 3).state.dirty = true ∧ fullSet.writebacks.length < 2 :=
  ⟨rfl, presents_of (by decide +kernel) (by decide +kernel), fullSet_leaves, by decide +kernel⟩

theorem witness_Opens_upgrade : (reserved .dirtyShared).Presents 0 ∧
    (reserved .dirtyShared).acceptanceCheck (.conditional word0 1) = none ∧ (reserved .dirtyShared).held line0 = false ∧
    (reserved .dirtyShared).entryFor line0 = none ∧ (reserved .dirtyShared).table.length < 4 ∧
    (reserved .dirtyShared).lookup line0 = some .dirtyShared ∧
    (reserved .dirtyShared).reservations[(0 : ChanId)] = some word0 ∧ missKind (.write word0 1 1) = some .own ∧
    (reserved .dirtyShared).acceptanceCheck (.write word0 1 1) = none := ⟨reserved_presents _ _, by decide +kernel⟩

theorem witness_Opens_direct : st.Presents 0 ∧ st.acceptanceCheck (.atomic .add dword0 1 0) = none ∧
    st.held direct0 = false ∧ st.entryFor direct0 = none ∧ st.table.length < 4 ∧ isDirect (lineOf dword0) = true ∧
    directOf (.atomic .add dword0 1 0) = some (.atomic 1 .add 1 0) :=
  ⟨presents_of (by decide +kernel) (by decide +kernel), by decide +kernel⟩

/-- An UPGRADE of the line, with channel 0's reservation. -/
def sharing : State := tabled (reserved .shared) .upgrade (.queued 0) [.posted]

theorem witness_Joins : filling.Presents 0 ∧ owning.Presents 0 ∧ sharing.Presents 0 ∧
    filling.acceptanceCheck (.watch word0 0 1) = none ∧ missKind (.watch word0 0 1) = some .share ∧
    filling.lookup line0 = some .invalid ∧ (filling.entryFor line0).map (fun e => e.kind) = some .share ∧
    owning.lookup line0 = some .invalid ∧ (owning.entryFor line0).map (fun e => e.kind) = some .own ∧
    sharing.lookup line0 = some .shared ∧ (sharing.entryFor line0).map (fun e => e.kind) = some .upgrade ∧
    sharing.reservations[(0 : ChanId)] = some word0 ∧ sharing.held line0 = false ∧
    sharing.acceptanceCheck (.conditional word0 1) = none ∧ sharing.watches[(0 : ChanId)] = none :=
  ⟨presents_of (by decide +kernel) (by decide +kernel), presents_of (by decide +kernel) (by decide +kernel),
    presents_of (by decide +kernel) (by decide +kernel), by decide +kernel⟩

theorem witness_Waits : fullTable.Presents 0 ∧ (peerTenure sharing (.table .own)).Presents 0 ∧ (leaving none).Presents 0 ∧
    4 ≤ fullTable.table.length ∧ fullTable.entryFor line0 = none ∧ fullTable.lookup line0 = none ∧
    fullTable.entryFor direct0 = none ∧ (directOf (.read dword0)).isSome = true ∧ isDirect (lineOf dword0) = true ∧
    (peerTenure sharing (.table .own)).held line0 = true ∧ (peerTenure sharing (.table .own)).lookup line0 = some .shared ∧
    ((leaving none).writebackFor line0).isSome = true ∧ (leaving none).lookup line0 = none ∧
    filling.lookup line0 = some .invalid ∧ missKind (.write word0 1 1) = some .own ∧ TableKind.share ≠ .own ∧
    (peerTenure (held .dirtySole zeroLine) (.table .own)).held line0 = true :=
  ⟨presents_of (by decide +kernel) (by decide +kernel), presents_of (by decide +kernel) (by decide +kernel),
    presents_of (by decide +kernel) (by decide +kernel), by decide +kernel⟩

theorem witness_Waits_cramped : (crammed .invalid).Presents 0 ∧ (crammed .invalid).Cramped line2 ∧ crammedHeld.Presents 0 ∧
    crammedHeld.Cramped line2 ∧ crammedDirty.Presents 0 ∧ crammedDirty.Cramped line2 ∧
    crammedHeld.acceptanceCheck (.read 0x0400C8) = none ∧ crammedDirty.acceptanceCheck (.write 0x0400C8 1 1) = none ∧
    (crammed .invalid).lookup line2 = none ∧ crammedHeld.lookup line2 = none ∧ crammedDirty.lookup line2 = none :=
  ⟨crammed_presents.1, crammed_cramped.1, crammed_presents.2.1, crammed_cramped.2.1, crammed_presents.2.2,
    crammed_cramped.2.2, by decide +kernel⟩

theorem witness_WaitingList_performs :
    let s := queued (peerTenure (held .dirtySole zeroLine) (.table .share)) 2 (.write word0 fullMask 9) 7
    s.AtRest ∧ (∀ c : ChanId, s.watches[c] = none) ∧ s.waiting = [item (.chan 2) 7] ∧
      s.hostTable[(2 : ChanId)] = [request (.write word0 fullMask 9) .active 7] ∧ s.lookup line0 = some .dirtySole ∧
      s.homeDone = none ∧ (Request.write word0 fullMask 9).word? = some word0 ∧
      classify (.table .share) (orVotes (votes false true false) (votes true false false)) = .void :=
  ⟨rest_of rfl, by decide +kernel⟩

/-- R161, R162: a refetch that waited under the hold compares again, and the watch is ARMED with the time it had left. -/
theorem test_refetch_compares_again :
    let w : Watch := { phase := .refetch, addr := word0, compare := 0, remaining := 2 }
    next (exec (.requestTenureVerdict (votes true false false))
      { queued (peerTenure (held .dirtySole zeroLine) (.table .share)) 3 (.watch word0 0 9) 7 with
        watches := Vector.set (Vector.replicate 4 none) 3 (some w) })
      (fun t => (t.watches[(3 : ChanId)], t.waiting)) = some (some { w with phase := .armed }, []) := by decide +kernel

theorem witness_WaitingList_posted :
    let s := posting (peerTenure (held .dirtySole zeroLine) (.table .share)) 1
    s.AtRest ∧ s.LoneWatches ∧ (∀ c : ChanId, s.head? c = none) ∧ s.waiting = [item .posted pw.place] ∧ s.posted = [pw] ∧
      lineOf pw.addr = line0 ∧ s.lookup line0 = some .dirtySole := ⟨rest_of rfl, loneWatches_none rfl, by decide +kernel⟩

theorem witness_WaitingList_joinsOrOpens :
    let s := fun (x : State) => queued (peerTenure x (.table .share)) 0 (.conditional word0 9) 7
    (s sharing).AtRest ∧ (s (reserved .shared)).AtRest ∧ (s sharing).waiting = [item (.chan 0) 7] ∧
      (s sharing).lookup line0 = some .shared ∧ ((s sharing).entryFor line0).map (fun e => e.kind) = some .upgrade ∧
      (s sharing).reservations[(0 : ChanId)] = some word0 ∧ (s (reserved .shared)).entryFor line0 = none ∧
      (s (reserved .shared)).table.length < 4 := ⟨rest_of rfl, rest_of rfl, by decide +kernel⟩

/-- Three entries, the direct word's line among them or not, and two direct operations in the waiting list. -/
def twoWait (l : LineAddr) : State :=
  queued (queued (peerTenure { st with table := [l, 2, 4].map (fun n => { entry .share (.awaitResult 1) [] with line := n }) }
    (.table .share)) 2 (.read dword0) 5) 1 (.read 0x03C040) 6

theorem witness_WaitingList_oldestFirst : (twoWait 1).AtRest ∧ (twoWait direct0).AtRest ∧
    (twoWait 1).waiting = [item (.chan 2) 5, item (.chan 1) 6] ∧ (twoWait 1).table.length = 3 ∧
    (twoWait 1).hostTable[(2 : ChanId)] = [request (.read dword0) .active 5] ∧
    (twoWait 1).hostTable[(1 : ChanId)] = [request (.read 0x03C040) .active 6] ∧
    isDirect (lineOf dword0) = true ∧ isDirect (lineOf 0x03C040) = true ∧ (twoWait 1).entryFor (lineOf dword0) = none ∧
    ((twoWait direct0).entryFor (lineOf dword0)).isSome = true ∧ (twoWait direct0).entryFor (lineOf 0x03C040) = none :=
  ⟨rest_of rfl, rest_of rfl, by decide +kernel⟩

/-- Channel 3's watch with a time left, and its WATCH. -/
def watchOf (n : Nat) : Watch := { phase := .armed, addr := word0, compare := 0, remaining := n }
def watchHead : HostEntry := request (.watch word0 0 9) .active 0

theorem watching_by {s : State} {n : Nat} (hw : s.watches = Vector.set (Vector.replicate 4 none) 3 (some (watchOf n)))
    (hh : s.hostTable[(3 : ChanId)] = [watchHead]) : s.WatchedBy line0 3 (watchOf n) watchHead where
  watch := by rw [hw]; rfl
  armed := rfl
  line := show lineOf word0 = line0 by decide
  head := hh
  active := rfl
  request := ⟨9, rfl⟩
  alone x y hx h := by
    rw [hw] at h
    fin_cases x
    · cases h
    · cases h
    · cases h
    · exact absurd rfl hx

theorem witness_Departed_taken :
    let s := inTenure (watching (held .shared zeroLine) 1) (.peer 2 line0 (.table .own) (votes false true false))
    let full := { s with table := fullTable.table }
    s.AtRest ∧ full.AtRest ∧ s.OnePlace ∧ full.OnePlace ∧ s.WatchedBy line0 3 (watchOf 1) watchHead ∧
      full.WatchedBy line0 3 (watchOf 1) watchHead ∧ s.waiting = [] ∧ s.heldValid line0 = true ∧ s.entryFor line0 = none ∧ s.writebackFor line0 = none ∧ (s.dropTag line0).victim line0 = some 3 ∧
      (full.dropTag line0).victim line0 = some 3 ∧ full.entryFor line0 = none ∧ ¬full.table.length < 4 ∧
      classify (.table .own) (orVotes (votes false true false) (votes false false false)) = .homeFill :=
  ⟨rest_of rfl, rest_of rfl, held_onePlace rfl (Nat.zero_le 1) rfl rfl rfl,
    onePlace_of (by decide +kernel) (by decide +kernel), watching_by rfl rfl, watching_by rfl rfl, by decide +kernel⟩

theorem witness_Departed_flushed : (watching (held .cleanSole zeroLine) 1).Presents 0 ∧
    (watching (held .cleanSole zeroLine) 1).WatchedBy line0 3 (watchOf 1) watchHead ∧
    (watching (held .dirtySole zeroLine) 1).WatchedBy line0 3 (watchOf 1) watchHead ∧
    (watching (held .cleanSole zeroLine) 1).OnePlace ∧ (watching (held .dirtySole zeroLine) 1).OnePlace ∧
    (watching (held .dirtySole zeroLine) 1).Presents 0 ∧
    (watching (held .cleanSole zeroLine) 1).acceptanceCheck (.flush word0) = none ∧
    (watching (held .cleanSole zeroLine) 1).heldDirty line0 = false ∧
    (watching (held .dirtySole zeroLine) 1).heldDirty line0 = true ∧
    ((watching (held .cleanSole zeroLine) 1).dropTag line0).victim line0 = some 3 :=
  ⟨watching_presents _ _, watching_by rfl rfl, watching_by rfl rfl, held_onePlace rfl (Nat.zero_le 1) rfl rfl rfl, held_onePlace rfl (Nat.zero_le 1) rfl rfl rfl,
    watching_presents _ _, by decide +kernel⟩

/-- The watched line is the one victim left in its set, and three entries are taken. -/
def cornered : State :=
  watching { ((held .dirtySole zeroLine).setWay line0 1 { tag := some 0x0003, state := .invalid, data := zeroLine }).setWay
      line0 2 { tag := some 0x0023, state := .invalid, data := zeroLine } |>.setWay
      line0 3 { tag := some 0x0043, state := .invalid, data := zeroLine } with
    table := [0x0003, 0x0023, 0x0043].map (fun n => { entry .share (.awaitFill .shared 9) [] with line := n }) } 1

theorem witness_Departed_victim : cornered.Presents 0 ∧ cornered.OnePlace ∧ cornered.WatchedBy line0 3 (watchOf 1) watchHead ∧ cornered.acceptanceCheck (.read 0x0400C8) = none ∧
    cornered.waiting = [] ∧ cornered.heldValid line0 = true ∧ cornered.entryFor line0 = none ∧
    cornered.writebackFor line0 = none ∧ cornered.lookup line2 = none ∧ cornered.table.length = 3 ∧
    cornered.victim line2 = some 0 ∧ (cornered.wayAt line2 0).tag = some line0 ∧ cornered.held line0 = false ∧
    (cornered.wayAt line2 0).state.dirty = true ∧ cornered.writebacks.length < 2 ∧ missKind (.read 0x0400C8) = some .share :=
  ⟨presents_of (by decide +kernel) (by decide +kernel), onePlace_of (by decide +kernel) (by decide +kernel),
    watching_by rfl rfl, by decide +kernel⟩

/-! Contending, the grant and peers' frames -/

/-- Two QUEUED entries, one urgent, and no reply. -/
def contending : State :=
  { held .shared zeroLine with
    table := [{ entry .upgrade (.queued 5) [] with retry := 32 }, { entry .share (.queued 3) [] with line := line2 }] }

theorem witness_CandidateIsTheOldestOfItsKind : inert.span.tenure = .idle ∧ inert.station.mode = .inert ∧
    contending.span.tenure = .idle ∧ contending.station.mode ≠ .inert ∧
    contending.span.joined = true ∧ contending.replies = [] ∧ contending.requestCandidates ≠ [] ∧
    st.requestCandidates = [] ∧
    State.replies { st with replies := [{ addressee := 0, line := line0, body := .fill zeroLine, voids := 0 }] }
      = [{ addressee := 0, line := line0, body := .fill zeroLine, voids := 0 }] := by decide +kernel

theorem witness_HolderIsTheFirstAfterTheRotationPoint : (16 ≤ 16 ∧ 15 < 16 ∧ 1 ≤ 16 ∧ 0 < 1) ∧
    (∀ n < 3, (0b1001000#16).getLsbD n = false) := by decide

/-- Each kind of entry put forward. -/
def putForward (c : Option Candidate) : State :=
  { contending with
    writebacks := [{ line := 0x1083, data := zeroLine, retry := 0, flush := none, age := 0 }]
    replies := [{ addressee := 0, line := 0x0883, body := .fill zeroLine, voids := 254 }]
    span := { contending.span with putForward := some { candidate := c, cls := .normal } } }

theorem witness_Grant_sends : (putForward (some (.entry line0))).span.tenure = .idle ∧
    (putForward (some (.entry line0))).count1.claim .verdict
      = some { candidate := some (.entry line0), cls := .normal } ∧
    holderNumber (putForward (some (.entry line0))).span.rotation 3 (classLines .normal 0 0 0b100 ||| 1#16 <<< 1) = some 1 ∧
    (putForward (some (.entry line0))).stillCandidate (.entry line0) = true ∧
    ((putForward (some (.entry line0))).entryFor line0).isSome = true ∧
    (putForward (some (.writeback 0x1083))).stillCandidate (.writeback 0x1083) = true ∧
    ((putForward (some (.writeback 0x1083))).writebackFor 0x1083).isSome = true ∧
    (putForward (some (.reply 0x0883))).stillCandidate (.reply 0x0883) = true ∧
    ((putForward (some (.reply 0x0883))).replyFor 0x0883).isSome = true := by decide +kernel

/-- No claim of this station; a claim whose entry has left; a claim that the host reset emptied. -/
theorem witness_Grant_passesBy : (∀ c k, st.count1.claim .verdict ≠ some { candidate := some c, cls := k }) ∧
    (∀ c k, (putForward none).count1.claim .verdict ≠ some { candidate := some c, cls := k }) ∧ st.span.tenure = .idle ∧
    (putForward (some (.entry 0x0883))).count1.claim .verdict
      = some { candidate := some (.entry 0x0883), cls := .normal } ∧
    (putForward (some (.entry 0x0883))).stillCandidate (.entry 0x0883) = false :=
  ⟨fun _ _ => (by decide +kernel : st.count1.claim .verdict = none) ▸ nofun,
    fun _ _ => (by decide +kernel : (putForward none).count1.claim .verdict
      = some { candidate := none, cls := .normal }) ▸ nofun, by decide +kernel⟩

theorem witness_PeerRequestIsVotedOn : frameOf (.own (header line0)) = some (header line0, .table .own, true) ∧
    (granted (held .dirtySole zeroLine) 2).count1.Readable (header line0) (.table .own) true ∧
    frameOf (.dWrite (header direct0) 1 1 9) = some (header direct0, .table (.direct (.write 1 1 9)), true) ∧
    (granted (held .dirtySole zeroLine) 2).count1.Readable (header direct0) (.table (.direct (.write 1 1 9))) true ∧
    (granted (held .dirtySole zeroLine) 2).porst = false ∧ (granted (held .dirtySole zeroLine) 2).span.tenure = .idle ∧
    (granted (held .dirtySole zeroLine) 2).station.mode ≠ .inert :=
  ⟨rfl, ⟨rfl, rfl, by decide +kernel, rfl, by decide +kernel, by decide +kernel⟩, rfl,
    ⟨rfl, rfl, by decide +kernel, rfl, by decide +kernel, by decide +kernel⟩, by decide +kernel⟩

theorem witness_FramesNotVotedOn : ¬(granted st 3).count1.Readable { header line0 with sender := 3 } (.table .share) true ∧
    ¬(granted st 0).count1.Readable (header line0) (.table .share) true ∧
    ¬st.count1.Readable (header line0) (.table (.direct (.write 0 0 0))) false ∧
    replyOf (.fill (header line0) 1 zeroLine) = some (header line0, 1, .fill zeroLine) ∧
    (inert.porst = false ∧ inert.span.tenure = .idle ∧ inert.station.mode = .inert) ∧ st.station.mode ≠ .inert :=
  ⟨fun h => absurd h.sender (by decide +kernel), fun h => absurd h.holder (by decide +kernel),
    fun h => absurd h.decodes (by decide), rfl, by decide +kernel⟩

/-! Verdicts -/

theorem witness_VerdictFollowsTheVoteLines : (inTenure st (.peerUnreadable true)).AtRest ∧
    State.porst (inTenure st (.peerUnreadable true)) = false ∧
    (inTenure st (.peerUnreadable true)).span.tenure = .peerUnreadable true := ⟨rest_of rfl, rfl, rfl⟩

theorem witness_VerdictsDecideTheNextClaim : ∃ t, (inTenure st (.peerUnreadable true)).porst = false ∧
    exec (.requestTenureVerdict (votes true true true)) (inTenure st (.peerUnreadable true)) = .next t := ⟨_, rfl, rfl⟩

theorem witness_PeerVerdict_queues : (peerTenure st (.ret badLine)).AtRest ∧
    (peerTenure st (.ret badLine)).porst = false ∧ (peerTenure st (.ret badLine)).waiting = [] ∧
    (peerTenure st (.ret badLine)).homeDone = none ∧
    (peerTenure st (.ret badLine)).span.tenure = .peer 2 line0 (.ret badLine) (votes false true false) ∧
    classify (.ret badLine) (orVotes (votes false true false) (votes true false false)) = .void ∧
    classify (.ret badLine) (orVotes (votes false true false) (votes false false true)) = .taken ∧
    classify (.table (.direct (.read 1))) (orVotes (votes false true false) (votes false false false)) = .taken :=
  ⟨rest_of rfl, by decide +kernel⟩

/-- An owner that answers: an entry of the reply queue is set aside. -/
def answering : State :=
  { held .dirtySole badLine with
    span := { st.span with
      tenure := .peer 2 line0 (.table .share) (votes false true true), setAside := some line0, homeReserved := true } }

theorem witness_PeerVerdict_shares : answering.AtRest ∧ (peerTenure (held .cleanSole zeroLine) (.table .share)).AtRest ∧
    answering.porst = false ∧ answering.waiting = [] ∧ answering.homeDone = none ∧
    answering.span.tenure = .peer 2 line0 (.table .share) (votes false true true) ∧
    classify (.table .share) (orVotes (votes false true true) (votes false false false)) = .ownerFill ∧
    answering.span.setAside = some line0 ∧ answering.heldDirty line0 = true ∧
    classify (.table .share) (orVotes (votes false true false) (votes false false false)) = .homeFill :=
  ⟨rest_of rfl, rest_of rfl, by decide +kernel⟩

/-- A head done at the home, an entry set aside, and held replies. -/
def offering (rs : List LineAddr) : State :=
  { answering with
    replies := rs.map (fun l => { addressee := 0, line := l, body := .fill zeroLine, voids := 0 })
    homeQueue := [{ requester := 2, line := 0x0883, body := .read }]
    homeDone := some (.fill badLine) }

/-- The last free entry, a reply of the head's own line, and no set-aside entry to release. -/
theorem witness_PeerVerdict_offers : (offering [1, 2, 4]).AtRest ∧ (offering [0x0883]).AtRest ∧
    (offering [1, 2, 4]).NoOffer line0 .ownerFill ∧
    (offering [1, 2, 4]).span.setAside = some line0 ∧ (offering [1, 2, 4]).homeDone = some (.fill badLine) ∧
    (offering [1, 2, 4]).replies.length < 4 ∧ (∀ r ∈ (offering [1, 2, 4]).replies, r.line ≠ 0x0883) ∧
    ¬(∀ r ∈ (offering [0x0883]).replies, r.line ≠ 0x0883) ∧
    classify (.table .share) (orVotes (votes false true true) (votes true false false)) = .void :=
  ⟨rest_of rfl, rest_of rfl, .inr (.inr (by decide +kernel)), by decide +kernel⟩

theorem test_released_entry_goes_to_the_done_head : [[1, 2, 4], [0x0883]].map (fun rs =>
      next (exec (.requestTenureVerdict (votes true false false)) (offering rs))
        (fun t => (t.replies.map (fun r => r.line), t.homeQueue.length, t.homeDone.isSome)))
    = [some ([1, 2, 4, 0x0883], 0, false), some ([0x0883], 1, true)] := by decide +kernel

/-- The line held with a reservation, and not held at all; with a CONDITIONAL that waits. -/
theorem witness_PeerTakesTheLine :
    let s := peerTenure (reserved .shared) (.table .upgrade)
    let w := queued (peerTenure (reserved .dirtySole) (.table .own)) 0 (.conditional word0 1) 3
    s.AtRest ∧ s.Unwatched line0 ∧ w.AtRest ∧ w.Unwatched line0 ∧ (peerTenure st (.table .own)).AtRest ∧
      s.porst = false ∧ s.waiting = [] ∧ s.homeDone = none ∧ s.heldValid line0 = true ∧ s.entryFor line0 = none ∧
      (peerTenure st (.table .own)).heldValid line0 = false ∧ w.waiting = [item (.chan 0) 3] ∧
      w.hostTable[(0 : ChanId)] = [request (.conditional word0 1) .active 3] ∧
      w.reservations[(0 : ChanId)] = some word0 ∧ w.heldValid line0 = true ∧ w.entryFor line0 = none ∧
      classify (.table .upgrade) (orVotes (votes false true false) (votes false false false)) = .taken ∧
      classify (.table .own) (orVotes (votes false true false) (votes false false false)) = .homeFill :=
  ⟨rest_of rfl, unwatched_of rfl _, rest_of rfl, unwatched_of rfl _, rest_of rfl, by decide +kernel⟩

/-- Channel 0's CONDITIONAL and channel 2's pending FLUSH of the line both wait. -/
def bothWait (s : State) : State := flushing (queued s 0 (.conditional word0 1) 3) 2 word0 4

theorem witness_PeerTakesTheLine_waiting :
    let w := bothWait (peerTenure (reserved .dirtyShared) (.table .upgrade))
    w.AtRest ∧ w.Unwatched line0 ∧ (∀ x ∈ w.waiting, w.EndsWith line0 x) ∧ w.waiting.length = 2 ∧ w.porst = false ∧
      w.homeDone = none ∧ w.heldValid line0 = true ∧ w.entryFor line0 = none := by
  refine ⟨rest_of rfl, unwatched_of rfl _, fun x hx => ?_, by decide +kernel⟩
  rcases List.mem_cons.1 hx with rfl | hx
  · exact ⟨0, request (.conditional word0 1) .active 3, word0, rfl, rfl, rfl, rfl, .inr ⟨⟨1, rfl⟩, rfl⟩⟩
  · rcases List.mem_singleton.1 hx with rfl
    exact ⟨2, request (.flush word0) .active 4, word0, rfl, rfl, rfl, rfl, .inl ⟨rfl, rfl⟩⟩

/-- A QUEUED UPGRADE with its waiter, channel 0's request. -/
def upgrading (r : Request) (s : State) : State := asked (tabled s .upgrade (.queued 0) [.chan 0]) r .joined

theorem witness_Overtaken :
    let s := fun r => inTenure (upgrading r (held .shared zeroLine)) (.peer 2 line0 (.table .upgrade) (votes false true false))
    ∀ r, (s r).AtRest ∧ (s r).OnePlace ∧ (s r).Unwatched line0 ∧ (s r).waiting = [] ∧ (s r).porst = false ∧
      (s r).homeDone = none ∧ (s r).heldValid line0 = true ∧
      (s r).entryFor line0 = some (entry .upgrade (.queued 0) [.chan 0]) ∧
      (s r).hostTable[(0 : ChanId)] = [request r .joined 0] ∧
      (s r).conditionalWaiter (.chan 0) = r.isConditional :=
  fun _ => ⟨rest_of rfl, held_onePlace rfl (Nat.le_refl 1) rfl rfl rfl, unwatched_of rfl _, rfl, rfl, rfl, rfl, rfl, rfl, rfl⟩

/-- This station's SHARE, OWN or D-kind in tenure with its waiters, at a retry count. -/
def asking (k : TableKind) (retry : Nat) (orphan : Bool) (ws : List Who) : State :=
  inTenure (asked { held .invalid zeroLine with
      table := [{ entry k (.queued 0) ws with way := some 0, retry := retry, orphan := orphan }] } (.read word0) .joined)
    (.ownEntry line0 (.request 1 line0 (.table k)) true)

theorem asking_onePlace (k : TableKind) (n : Nat) (o : Bool) (ws : List Who) : (asking k n o ws).OnePlace :=
  held_onePlace rfl (Nat.le_refl 1) rfl rfl rfl

theorem asking_rest (k : TableKind) (n : Nat) (o : Bool) (ws : List Who) : (asking k n o ws).AtRest := rest_of rfl

theorem asking_entry (k : TableKind) (n : Nat) (o : Bool) (ws : List Who) : (asking k n o ws).entryFor line0
    = some { entry k (.queued 0) ws with way := some 0, retry := n, orphan := o } := rfl

/-- Two waiters, channel 0's READ and channel 1's WRITE. -/
def askingTwo : State := asks (asking .own 254 false [.chan 0, .chan 1]) 1 (.write word0 1 9) .joined 3

/-- Retry 30 and 31, about the count from which the entry yields; 253 and 254, about the count at which it is abandoned. -/
theorem witness_OwnVoidRequeuesOrAbandons : (∀ n, (asking .share n false [.chan 0]).AtRest ∧
      (asking .share n false [.chan 0]).OnePlace) ∧ askingTwo.AtRest ∧ askingTwo.OnePlace ∧
    askingTwo.Lone line0 [.chan 0, .chan 1] ∧ (asking .share 0 true []).AtRest ∧ (asking .share 0 true []).OnePlace ∧
    askingTwo.waiting = [] ∧ (askingTwo.entryFor line0).map (fun e => (e.retry, e.orphan)) = some (254, false) ∧
    classify (.table .share) (orVotes (ownVotes true) (votes true false false)) = .void :=
  ⟨fun _ => ⟨asking_rest _ _ _ _, asking_onePlace _ _ _ _⟩, rest_of rfl,
    held_onePlace rfl (Nat.le_refl 1) rfl rfl rfl, lone_of (by decide +kernel), asking_rest _ _ _ _,
    asking_onePlace _ _ _ _, by decide +kernel⟩

theorem test_yields_from_the_32nd_void : [30, 31, 253].map (fun n =>
      next (exec (.ownTenureVerdict (votes true false false)) (asking .share n false [.chan 0]))
        (fun t => (t.span.yields, t.table.map (fun e => e.retry))))
    = [some (none, [31]), some (some line0, [32]), some (some line0, [254])] := by decide +kernel

/-- R118: the two complete in one happening, in join order, and leave by acceptance place. -/
theorem test_completions_by_acceptance_place : next (exec (.ownTenureVerdict (votes true false false))
      (asks (asking .own 254 false [.chan 1, .chan 0]) 1 (.write word0 1 9) .joined 3)) (fun t => t.readyOrder)
    = some [.accepted 0 0, .accepted 1 3] := by decide +kernel

/-- An entry whose one waiter is the posted write queue's one entry. -/
def postedWaits : State := { asking .own 254 false [.posted] with posted := [pw], hostTable := Vector.replicate 4 [] }

theorem witness_OwnVoid_posted : postedWaits.AtRest ∧ postedWaits.OnePlace ∧ postedWaits.Lone line0 [.posted] ∧
    postedWaits.Lone line0 [] :=
  ⟨rest_of rfl, held_onePlace rfl (Nat.le_refl 1) rfl rfl rfl, lone_of (by decide +kernel), lone_of (by decide +kernel)⟩

theorem witness_OwnRequestAwaitsItsReply : (asking .own 0 false [.chan 0]).AtRest ∧
    (asking (.direct (.read 1)) 0 false [.chan 0]).AtRest ∧ (asking .own 0 false [.chan 0]).porst = false ∧
    (votes false false true).retry = false := ⟨asking_rest _ _ _ _, asking_rest _ _ _ _, rfl, rfl⟩

/-- Channel 1's CONDITIONAL of the word with its reservation, and channel 0's WRITE of it, on an UPGRADE in either order. -/
def upgradingTwo (ws : List Who) : State :=
  inTenure (asks { asked (tabled (held .dirtyShared badLine) .upgrade (.queued 0) ws) (.write word0 fullMask 7) .joined with
      reservations := (Vector.replicate 4 none).set 1 (some word0) } 1 (.conditional word0 8) .joined 3)
    (.ownEntry line0 (.request 1 line0 (.table .upgrade)) true)

theorem witness_OwnUpgradeMakesTheLineSole :
    (upgradingTwo [.chan 0, .chan 1]).AtRest ∧ (upgradingTwo [.chan 0, .chan 1]).OnePlace ∧
    (upgradingTwo [.chan 0, .chan 1]).Lone line0 [.chan 0, .chan 1] ∧ (upgradingTwo [.chan 0, .chan 1]).LoneWatches ∧
    (upgradingTwo [.chan 0, .chan 1]).HeadLaw ∧ (upgradingTwo [.chan 1, .chan 0]).HeadLaw ∧
    (upgradingTwo [.chan 1, .chan 0]).AtRest ∧ (upgradingTwo [.chan 1, .chan 0]).Lone line0 [.chan 1, .chan 0] ∧
    (upgradingTwo [.chan 0, .chan 1]).waiting = [] ∧ ((upgradingTwo [.chan 0, .chan 1]).lookup line0).isSome = true ∧
    (upgradingTwo [.chan 0, .chan 1]).reservations[(1 : ChanId)] = some word0 ∧
    (upgradingTwo [.chan 0, .chan 1]).hostTable[(1 : ChanId)] = [request (.conditional word0 8) .joined 3] ∧
    (upgradingTwo [.chan 0, .chan 1]).hostTable[(0 : ChanId)] = [request (.write word0 fullMask 7) .joined 0] :=
  ⟨rest_of rfl, held_onePlace rfl (Nat.le_refl 1) rfl rfl rfl, lone_of (by decide +kernel), loneWatches_none rfl,
    headLaw_of (by decide +kernel) (by decide +kernel), headLaw_of (by decide +kernel) (by decide +kernel),
    rest_of rfl, lone_of (by decide +kernel), by decide +kernel⟩

/-- The same UPGRADE overtaken by a peer's OWN, the dirty owner's snapshot set aside, with channel 2's pending FLUSH waiting:
the WRITE is left and the CONDITIONAL is not. -/
def overtaken (ws : List Who) : State :=
  let s := inTenure (flushing (upgradingTwo ws) 2 word0 4) (.peer 2 line0 (.table .own) (votes false true true))
  { s with span := { s.span with setAside := some line0 } }

theorem witness_Overtaken_mixed :
    let s := overtaken [.chan 1, .chan 0]
    s.AtRest ∧ s.OnePlace ∧ s.Unwatched line0 ∧ (∀ x ∈ s.waiting, s.EndsWith line0 x) ∧ s.porst = false ∧
      s.homeDone = none ∧ s.heldValid line0 = true ∧ s.heldDirty line0 = true ∧
      s.entryFor line0 = some (entry .upgrade (.queued 0) [.chan 1, .chan 0]) ∧
      s.hostTable[(1 : ChanId)] = [request (.conditional word0 8) .joined 3] ∧
      [Who.chan 1, .chan 0].filter (fun w => !s.conditionalWaiter w) = [.chan 0] ∧
      classify (.table .own) (orVotes (votes false true true) (votes false false false)) = .ownerFill := by
  refine ⟨rest_of rfl, onePlace_of (by decide +kernel) (by decide +kernel), unwatched_of rfl _, fun x hx => ?_,
    by decide +kernel⟩
  rcases List.mem_singleton.1 hx with rfl
  exact ⟨2, request (.flush word0) .active 4, word0, rfl, rfl, rfl, rfl, .inl ⟨rfl, rfl⟩⟩

/-- The same with channel 3's ARMED watch of the line. -/
theorem witness_Overtaken_watched :
    let s := fun ws => watching (overtaken ws) 1
    (s [.chan 1, .chan 0]).AtRest ∧ (s [.chan 1]).AtRest ∧ (s [.chan 1]).OnePlace ∧
      (s [.chan 1]).WatchedBy line0 3 (watchOf 1) watchHead ∧
      (s [.chan 1, .chan 0]).WatchedBy line0 3 (watchOf 1) watchHead ∧
      (s [.chan 1]).NoOffer line0 .ownerFill ∧
      [Who.chan 1].filter (fun w => !(s [.chan 1]).conditionalWaiter w) = [] ∧ (s [.chan 1]).table.length ≤ 4 ∧
      ((s [.chan 1]).dropTag line0).victim line0 = some 3 :=
  ⟨rest_of rfl, rest_of rfl, onePlace_of (by decide +kernel) (by decide +kernel), watching_by rfl rfl, watching_by rfl rfl,
    .inl rfl, by decide +kernel⟩

/-- R160, R161: the refetch joins the rewritten OWN, or opens a SHARE after the withdrawal. -/
theorem test_overtaken_watched : [[Who.chan 1, .chan 0], [.chan 1]].map (fun ws =>
      next (exec (.requestTenureVerdict (votes false false false)) (watching (overtaken ws) 1))
        (fun t => t.table.map (fun e => (e.kind, e.way, e.waiters))))
    = [some [(.own, some 0, [.chan 0, .chan 3])], some [(.share, some 3, [.chan 3])]] := by decide +kernel

/-- R58, R21: rewritten to OWN with the WRITE, the CONDITIONAL and the FLUSH over; withdrawn with the CONDITIONAL alone. -/
theorem test_overtaken : [[Who.chan 1, .chan 0], [.chan 1]].map (fun ws =>
      next (exec (.requestTenureVerdict (votes false false false)) (overtaken ws))
        (fun t => (t.table.map (fun e => e.waiters), [(1 : ChanId), 2].map (fun c => (t.head? c).isSome), t.replies.length)))
    = [some ([[.chan 0]], [false, false], 1), some ([], [false, false], 1)] := by decide +kernel

/-- This station's RETURN in tenure at a retry count, with a FLUSH of channel 0 for its flush waiter, or none. -/
def returning (f : Option ChanId) (n : Nat) : State :=
  inTenure (asked { st with writebacks := [{ line := line0, data := badLine, retry := n, flush := f, age := 0 }] }
      (.flush word0) .active) (.ownWriteback line0 (.request 1 line0 (.ret badLine)) true)

theorem witness_OwnReturnIsRetriedOrWritten : (∀ n, (returning (some 0) n).AtRest ∧
      ((returning (some 0) n).writebackFor line0).map (fun e => e.retry) = some n) ∧ (returning none 0).AtRest ∧
    (returning (some 0) 0).porst = false ∧ (returning (some 0) 0).waiting = [] ∧
    ((returning (some 0) 0).hostTable[(0 : ChanId)]).map (fun h => h.isOpen) = [true] :=
  ⟨fun _ => ⟨rest_of rfl, rfl⟩, rest_of rfl, by decide +kernel⟩

/-- The writeback buffer is full, and one or two FLUSHes of dirty lines are pending; the older is channel 1's. -/
def pendingOne (f : Option ChanId) : State :=
  let s := returning f 0
  flushing { (s.setWay line2 1 { tag := some line2, state := .dirtySole, data := badLine }).setWay
      line2 2 { tag := some 0x0043, state := .dirtyShared, data := zeroLine } with
    writebacks := s.writebacks ++ [{ line := 0x0883, data := zeroLine, retry := 3, flush := none, age := 0 }] } 1 0x0400C8 5
def pendingTwo (f : Option ChanId) : State := flushing (pendingOne f) 2 0x0010C8 6

theorem witness_OwnReturn_pending :
    let pend := fun (c : ChanId) (n : Nat) => ({ who := .chan c, place := n, pendingFlush := true, due := false } : Waiting)
    ∀ f ∈ [none, some 0], (pendingOne f).AtRest ∧ (pendingTwo f).AtRest ∧ (pendingOne f).waiting = [pend 1 5] ∧
      (pendingTwo f).waiting = [pend 1 5, pend 2 6] ∧ (pendingTwo f).Unwatched line2 ∧
      ((pendingTwo f).writebackFor line0).map (fun e => e.flush) = some f ∧
      (pendingTwo f).hostTable[(1 : ChanId)] = [request (.flush 0x0400C8) .active 5] ∧
      (pendingTwo f).hostTable[(2 : ChanId)] = [request (.flush 0x0010C8) .active 6] ∧ lineOf 0x0400C8 = line2 ∧
      lineOf 0x0010C8 = 0x0043 ∧ (pendingTwo f).heldDirty line2 = true ∧ (pendingTwo f).heldDirty 0x0043 = true ∧
      (pendingTwo f).entryFor line2 = none ∧ (pendingTwo f).entryFor 0x0043 = none ∧
      ((pendingTwo f).writebacks.filter (fun x => x.line ≠ line0)).length = 1 ∧
      (pendingTwo f).isWaiting (.chan 0) = false ∧
      (pendingTwo f).hostTable[(0 : ChanId)] = [request (.flush word0) .active 0] := by
  intro pend f hf
  rcases List.mem_cons.1 hf with rfl | hf
  · exact ⟨rest_of rfl, rest_of rfl, rfl, rfl, unwatched_of rfl _, by decide +kernel⟩
  · rcases List.mem_singleton.1 hf with rfl
    exact ⟨rest_of rfl, rest_of rfl, rfl, rfl, unwatched_of rfl _, by decide +kernel⟩

theorem test_return_yields_from_the_32nd_void : [30, 31, 254, 255].map (fun n =>
      next (exec (.ownTenureVerdict (votes true false false)) (returning none n))
        (fun t => (t.span.yields, t.writebacks.map (fun e => e.retry))))
    = [some (none, [31]), some (some line0, [32]), some (some line0, [255]), some (some line0, [255])] := by decide +kernel

/-- This station's FILL in tenure at a VOID count, and perhaps a done head at its home. -/
def replying (n : Nat) (done : Option ReplyBody) : State :=
  inTenure { st with
    replies := [{ addressee := 2, line := line0, body := .fill zeroLine, voids := n }]
    homeQueue := [{ requester := 0, line := 0x0883, body := .read }]
    homeDone := done } (.ownReply line0 (.reply 1 2 line0 (.fill zeroLine)))

theorem witness_OwnReplyLeavesOrIsCounted : (replying 253 none).AtRest ∧ (replying 254 (some (.fill zeroLine))).AtRest ∧
    (replying 253 none).porst = false ∧ ((replying 254 none).replyFor line0).map (fun r => r.voids) = some 254 ∧
    (∀ x ∈ (replying 254 (some (.fill zeroLine))).replies.filter (fun x => x.line ≠ line0), x.line ≠ 0x0883) ∧
    (replying 254 (some (.fill zeroLine))).span.setAside ≠ some 0x0883 := ⟨rest_of rfl, rest_of rfl, by decide +kernel⟩

/-- A reply for this station's entry, with two waiters on it. -/
def hearing (k : TableKind) (p : Phase) (body : ReplyBody) : State :=
  granted (inTenure (asks (asked { held .invalid zeroLine with
      table := [{ entry k p [.chan 0, .chan 1] with way := some 0 }] } (.read word0) .joined) 1 (.watch word0 0 9) .joined 3)
    (.peerReply 1 line0 body true false)) 2

theorem hearing_onePlace (k : TableKind) (p : Phase) (b : ReplyBody) : (hearing k p b).OnePlace :=
  held_onePlace rfl (Nat.le_refl 1) rfl rfl rfl

theorem hearing_rest (k : TableKind) (p : Phase) (b : ReplyBody) : (hearing k p b).AtRest := rest_of rfl

theorem hearing_lone (k : TableKind) (p : Phase) (b : ReplyBody) : (hearing k p b).Lone line0 [.chan 0, .chan 1] :=
  lone_of ⟨by decide, fun w h => by rcases List.mem_cons.1 h with rfl | h <;> [rfl; (rcases List.mem_singleton.1 h with rfl; rfl)]⟩

/-- A RESULT of another word is not the one awaited. -/
theorem hearing_other (e : TableEntry) (h : (hearing (.direct (.read 1)) (.awaitResult 1) (.result 2 false 9)).entryFor line0
    = some e) : ¬e.awaits (.result 2 false 9) := by
  rw [← Option.some.inj h]
  rintro (⟨_, _, _, h, _⟩ | ⟨_, _, _, _, _, hd, hb⟩)
  · cases h
  · cases hd; cases hb

/-- Installed, completed and late. -/
theorem witness_PeerReplyIsTaken : (∃ t, (hearing .share (.awaitFill .cleanSole 250) (.fill badLine)).ReplyTaken line0
      (.fill badLine) t) ∧
    (∃ t, (hearing (.direct (.read 1)) (.awaitResult 1) (.result 1 true 9)).ReplyTaken line0 (.result 1 true 9) t) ∧
    (∃ t, (hearing (.direct (.read 1)) (.awaitResult 1) (.result 2 false 9)).ReplyTaken line0 (.result 2 false 9) t) :=
  ⟨⟨_, _, fun _ => rfl, fun h => absurd (show badLine.poison ≠ 0 by decide) h, .inr (.inl ⟨_, .cleanSole, 250, badLine,
      hearing_onePlace _ _ _, headLaw_of (by decide +kernel) (by decide +kernel), rfl, rfl, rfl, rfl, rfl, rfl,
      hearing_lone _ _ _, loneWatches_none rfl, rfl⟩)⟩,
    ⟨_, _, fun _ => rfl, fun h => absurd rfl h, .inr (.inr ⟨_, 1, .read 1, true, 9, hearing_onePlace _ _ _, rfl,
      rfl, rfl, rfl, rfl, hearing_lone _ _ _, rfl⟩)⟩,
    ⟨_, _, fun h => absurd h Bool.false_ne_true, fun _ => rfl, .inl ⟨hearing_other, rfl⟩⟩⟩

theorem witness_PeerReply_passes : (hearing .share (.awaitFill .cleanSole 250) (.fill badLine)).AtRest ∧
    (granted (inTenure st (.peerReply 1 line0 (.fill badLine) true false)) 1).AtRest ∧
    (inTenure st (.peerReply 2 line0 (.fill badLine) true false)).AtRest ∧
    (hearing .share (.awaitFill .cleanSole 250) (.fill badLine)).span.granted = some 2 ∧ st.station.number = 1 ∧
    st.station.mode ≠ .inert ∧ (2 : StationNo) ≠ st.station.number :=
  ⟨hearing_rest _ _ _, rest_of rfl, rest_of rfl, by decide +kernel⟩

/-! The home slice, timers, the sweep -/

theorem witness_HomeMemory : memWf lostCheck = true ∧
    (memRead lostCheck (storeKey (indexOf 0x18A2) 6)).parity ≠ parityOf 0x77 ∧ memWf [] = true ∧
    (memRead [] 7).parity = parityOf (memRead [] 7).value ∧ (memRead [] 7).poison = false := by decide +kernel

/-- The home's head, with its requester. -/
def homing (s : State) (n : StationNo) (b : HomeBody) : State :=
  { s with homeQueue := [{ requester := n, line := line0, body := b }] }

/-- A reply queue that is full. -/
def homingFull : State :=
  { homing st 2 .read with
    replies := [1, 2, 4, 5].map (fun n => { addressee := 0, line := n, body := .fill zeroLine, voids := 0 }) }

theorem witness_HomeOperation_replies : (homing st 0 (.write badLine)).AtRest ∧ homingFull.AtRest ∧
    (homing st 0 (.write badLine)).porst = false ∧ (homing st 0 (.write badLine)).homeDone = none ∧
    (homing st 0 (.direct (.read 1))).replies.length < 4 ∧ ¬homingFull.replies.length < 4 ∧
    (2 : StationNo) ≠ st.station.number := ⟨rest_of rfl, rest_of rfl, by decide +kernel⟩

/-- The five commands and an operation of each one's kind, for a peer: with room for the reply, and with none. -/
def homeOperations : List (Instr × HomeBody) :=
  [(.homeWrite, .write badLine), (.homeRead, .read), (.homeDRead, .direct (.read 1)), (.homeDWrite, .direct (.write 1 15 9)),
    (.homeDAtomic, .direct (.atomic 1 .add 5 0))]

theorem witness_HomeOperation_kinds : ∀ x ∈ homeOperations, (homing st 2 x.2).AtRest ∧ (homing st 2 x.2).porst = false ∧
    (homing st 2 x.2).homeDone = none ∧
    (homing st 2 x.2).homeQueue = [{ requester := 2, line := line0, body := x.2 }] ∧
    (homing st 2 x.2).replies.length + (if (homing st 2 x.2).span.setAside.isSome then 1 else 0) < 4 :=
  fun _ _ => ⟨rest_of rfl, rfl, rfl, rfl, Nat.succ_pos 3⟩

/-- Each answers a next state; a write leaves no reply. -/
theorem test_home_commands_answer : homeOperations.map (fun x => next (exec x.1 (homing st 2 x.2))
      (fun t => (t.homeQueue.length, t.replies.length)))
    = [some (0, 0), some (0, 1), some (0, 1), some (0, 1), some (0, 1)] := by decide +kernel

/-- The station's own FILL with two waiters, its own RESULT with one, and a FILL that nothing awaits. -/
theorem witness_HomeOperation_own :
    let s := homing (inTenure (hearing .share (.awaitFill .cleanSole 250) (.fill badLine)) .idle) 1 .read
    let r := homing (asked (tabled (held .shared zeroLine) (.direct (.read 1)) (.awaitResult 1) [.chan 0]) (.read word0)
      .joined) 1 (.direct (.read 1))
    s.AtRest ∧ r.AtRest ∧ (∃ t, s.ReplyTaken line0 (.fill zeroLine) t) ∧
      (∃ t, r.ReplyTaken line0 (.result 1 false 5) t) ∧ (∃ t, (homing st 1 .read).ReplyTaken line0 (.fill zeroLine) t) ∧
      (readLineTested s.homeStore (indexOf line0)).2 = zeroLine :=
  ⟨rest_of rfl, rest_of rfl,
    ⟨_, _, fun h => absurd rfl h, fun _ => rfl, .inr (.inl ⟨_, .cleanSole, 250, zeroLine,
      held_onePlace rfl (Nat.le_refl 1) rfl rfl rfl, headLaw_of (by decide +kernel) (by decide +kernel), rfl, rfl, rfl, rfl,
      rfl, rfl, lone_of (by decide +kernel), loneWatches_none rfl, rfl⟩)⟩,
    ⟨_, _, fun h => absurd h Bool.false_ne_true, fun _ => rfl, .inr (.inr ⟨_, 1, .read 1, false, 5,
      held_onePlace rfl (Nat.le_refl 1) rfl rfl rfl, rfl, rfl, rfl, rfl, rfl, lone_of (by decide +kernel), rfl⟩)⟩,
    ⟨_, _, fun h => absurd rfl h, fun _ => rfl, .inl ⟨fun e he => (by cases he), rfl⟩⟩, by decide +kernel⟩

theorem witness_TimersAndTheSweepRunOut_reply :
    let s := hearing (.direct (.read 1)) (.awaitResult 1) (.fill zeroLine)
    s.AtRest ∧ s.OnePlace ∧ s.Lone line0 [.chan 0, .chan 1] ∧ s.porst = false ∧ s.waiting = [] ∧
      ((s.entryFor line0).map (fun e => (e.phase.awaiting, e.waiters))) = some (true, [.chan 0, .chan 1]) :=
  ⟨hearing_rest _ _ _, hearing_onePlace _ _ _, hearing_lone _ _ _, by decide +kernel⟩

theorem witness_TimersAndTheSweepRunOut_watch : (watching (held .shared zeroLine) 1).AtRest ∧
    (watching (held .shared zeroLine) 1).porst = false ∧
    ((watching (held .shared zeroLine) 1).watches[(3 : ChanId)]).isSome = true ∧
    ((watching (held .shared zeroLine) 1).hostTable[(3 : ChanId)]).map (fun h => h.isOpen) = [true] ∧
    ticking.porst = false ∧ ticking.span.tenure = .idle ∧
    ticking.station.mode = .clearing ∧ ticking.station.sweep < 2048 ∧ ticking.station.sweep = 2047 :=
  ⟨rest_of rfl, by decide +kernel⟩

/-! The whole machine -/

theorem witness_OnlyTheirCommandsReachStationAndHomeStore : ∃ t, exec .hostReset st = .next t ∧
    Instr.hostReset ≠ .porstAsserted ∧ Instr.hostReset ≠ .clearSweepTick := ⟨_, rfl, by decide, by decide⟩

/-- A state that meets every law, and the step from it: the home ends the station's own line read, whose FILL has a READ
waiting. -/
def lawful : State :=
  { asked (homing { held .invalid zeroLine with
      table := [{ entry .share (.awaitFill .shared 9) [.chan 0] with way := some 0 }] } 1 .read) (.read word0) .joined with
    nextPlace := 1
    pending := [.homeRead] }

theorem witness_lawful_step : ∃ t, step lawful = .next t := ⟨_, rfl⟩

/-- The entry of its table, and the head of a channel. -/
theorem lawful_entry {e : TableEntry} (h : e ∈ lawful.table) :
    e = { entry .share (.awaitFill .shared 9) [.chan 0] with way := some 0 } := List.mem_singleton.1 h

theorem witness_lawful_bounds : lawful.AtRest ∧ lawful.Recency ∧ lawful.OnePlace ∧ lawful.Capacity ∧ lawful.Counts ∧
    lawful.StationLaw ∧ memWf lawful.homeStore = true := by
  refine ⟨rest_of rfl, recency_of (k := 3) rfl (List.Perm.refl _), held_onePlace rfl (Nat.le_refl 1) rfl rfl rfl, ⟨?_, ?_, ?_, ?_,
    ?_, fun c => by fin_cases c <;> decide +kernel⟩, ⟨?_, ?_, ?_, fun e he st n hp => ?_, fun e he n hp => ?_⟩, ⟨?_, ?_, ?_, ?_,
    ?_⟩, rfl⟩
  case refine_9 => rw [lawful_entry he] at hp; cases hp; decide
  case refine_10 => rw [lawful_entry he] at hp; cases hp
  all_goals decide +kernel

theorem witness_lawful_claims : lawful.ClaimLaw := by
  refine ⟨fun c a h => absurd h (none_at rfl c a), fun c w h => absurd h (none_at rfl c w), fun e he _ => ?_,
    fun e he st n hp => ?_⟩
  · rw [lawful_entry he]; decide +kernel
  · rw [lawful_entry he] at hp ⊢; cases hp; exact ⟨rfl, .inl rfl⟩

theorem witness_lawful_heads : lawful.HeadLaw := headLaw_of (by decide +kernel) (by decide +kernel)

theorem witness_lawful_port : lawful.PortLaw where
  behind c := ⟨[], lawful.hostTable[c], (List.nil_append _).symm, fun _ h => absurd h List.not_mem_nil, by revert c; decide +kernel, by revert c; decide +kernel,
    by revert c; decide +kernel⟩
  refusals := by decide +kernel
  places := by decide +kernel
  reset := by decide +kernel

theorem witness_RecordsRoundTrip : Instr.wf (.undecodableRequestKind 3 ⟨255, .op 7 0x1FFFFF 9⟩ quiet 0) = true ∧
    (encodeRecord (.undecodableRequestKind 3 ⟨255, .op 7 0x1FFFFF 9⟩ quiet 0)).isSome = true ∧
    (encodeRecord (.watch 3 255 0x1FFFFF 0 0xFFFF)).isSome = true := by decide

end Sys2Proof.Tests
end

