-- ==== Sys2Proof/Proofs/Verdict.lean ====
section
/-! PROOFS. The classification of a request tenure's verdict from the vote lines and the kind, and the close of a tenure
whose frame the station could not read (R42). -/

namespace Sys2Proof.Proofs.Verdict

open Sys2Proof Sys2Proof.Machine

/-! ### The classification (R42) -/

variable {body : RequestBody} {v : Votes}

theorem wantsLine_iff : wantsLine body = true ↔ body = .table .share ∨ body = .table .own := by
  cases body with
  | table k => cases k <;> simp [wantsLine]
  | ret d => simp [wantsLine]

theorem classify_void_of_retry (hr : v.retry = true) : classify body v = .void := by
  simp [classify, hr]

theorem classify_void_of_no_home (hh : v.home = false) : classify body v = .void := by
  simp [classify, hh]

/-- Past RETRY and HOME the kind decides, and SUPPLY tells the owner's fill from the home's. -/
theorem classify_homed (hr : v.retry = false) (hh : v.home = true) :
    classify body v = if wantsLine body then (if v.supply then .ownerFill else .homeFill) else .taken := by
  simp [classify, hr, hh]

theorem classify_fill (hr : v.retry = false) (hh : v.home = true) (hb : body = .table .share ∨ body = .table .own) :
    classify body v = if v.supply then .ownerFill else .homeFill := by
  rw [classify_homed hr hh, if_pos (wantsLine_iff.2 hb)]

theorem classify_taken (hr : v.retry = false) (hh : v.home = true) (hs : body ≠ .table .share)
    (ho : body ≠ .table .own) : classify body v = .taken := by
  rw [classify_homed hr hh, if_neg fun hw => (wantsLine_iff.1 hw).elim hs ho]

/-! ### The close of an unreadable tenure -/

variable {s : State}

theorem exec_requestTenureVerdict_unreadable {b : Bool} (others : Votes) (hp : s.porst = false)
    (ht : s.span.tenure = .peerUnreadable b) :
    exec (.requestTenureVerdict others) s = .next s.count1.closeTenure.settle.arbitrate := by
  show execRequestTenureVerdict others s = _
  simp [execRequestTenureVerdict, hp, ht]

/-- Rest is a matter of the station's own blocks, and the close of a tenure writes the span interface alone. -/
theorem atRest_closeTenure (h : s.AtRest) : s.count1.closeTenure.AtRest :=
  ⟨h.posted, h.heads, h.drains, h.room, h.pass⟩

/-- Ordering the completions and putting the claim forward after the close is what `State.closed` says. -/
theorem arbitrate_orderReady_closeTenure : s.count1.closeTenure.orderReady.arbitrate
    = s.closed (s.readyOrder ++ s.count1.closeTenure.freshReady) s.count1.closeTenure.orderReady.claimNow := rfl

/-- A tenure taken as unreadable closes at its verdict, whatever the vote lines read. -/
theorem exec_unreadable_closed {b : Bool} (others : Votes) (hp : s.porst = false) (hr : s.AtRest)
    (ht : s.span.tenure = .peerUnreadable b) : ∃ order next, s.readyOrder <+: order ∧
      exec (.requestTenureVerdict others) s = .next (s.closed order next) := by
  refine ⟨_, s.count1.closeTenure.orderReady.claimNow, List.prefix_append _ s.count1.closeTenure.freshReady, ?_⟩
  rw [exec_requestTenureVerdict_unreadable others hp ht, State.settle_rest (atRest_closeTenure hr),
    arbitrate_orderReady_closeTenure]

/-- Settles O37: the branches of the classification, the install state of a SHARE filled by the home, and the close of
an unreadable tenure. -/
theorem verdictFollowsTheVoteLines : Obligations.VerdictFollowsTheVoteLines :=
  ⟨fun _ _ => ⟨classify_void_of_retry, fun _ => classify_void_of_no_home, classify_fill, classify_taken⟩,
    fun _ => rfl, fun _ others _ hp hr ht => exec_unreadable_closed others hp hr ht⟩

end Sys2Proof.Proofs.Verdict
end

