-- ==== Sys2Proof/Proofs/Status.lean ====
section
/-! PROOFS. A request that asks nothing of the cache is performed as it arrives; a STATUS completes so, and its first word
carries the identification value (R172, R173). -/

namespace Sys2Proof.Proofs.Status

open Sys2Proof Sys2Proof.Machine

variable {s : State} {c : ChanId}

/-! ### A request performed as it arrives -/

theorem perform_head {e : HostEntry} (h : s.head? c = some e) : s.perform (.chan c) = s.performRequest c e.req := by
  simp [State.perform, h]

/-- On a station that presents, a non-posted request that passes the checks and whose lookup decides to perform it is
performed in the happening of its arrival. -/
theorem promote_performRequest (h : s.Presents c) {tag : BitVec 8} {r : Request} {o : List ReadyToken}
    (hk : s.acceptanceCheck r = none) (hp : r.isPosted = false) (hr : ∀ a, r ≠ .reserve a)
    (hd : (s.withEntry c (s.entryOf tag r (.opened .active)) o).decideRequest c r = .perform) :
    (s.withEntry c (s.entryOf tag r (.opened .waiting)) o).promote c
      = (s.withEntry c (s.entryOf tag r (.opened .active)) o).performRequest c r := by
  rw [promote_activate h.free.head hk hp h.drained, activate_lookup h.free.head h.free.notWaiting hr, hd]
  exact perform_head (head_withEntry h.free.head rfl)

/-! ### STATUS (R172) -/

/-- A STATUS passes every acceptance check, on an INERT station too (R112). -/
theorem acceptanceCheck_status (b : Bool) : s.acceptanceCheck (.status b) = none := by
  simp [State.acceptanceCheck, Request.isStatus, Request.malformed, Request.addr?]

/-- A STATUS without CLEAR completes OK with the status words of the station it arrived at. -/
theorem promote_status (h : s.Presents c) (tag : BitVec 8) (o : List ReadyToken) :
    (s.withEntry c (s.entryOf tag (.status false) (.opened .waiting)) o).promote c
      = s.withEntry c (s.entryOf tag (.status false) (.ready .ok (s.latchSet c) s.statusWords)) o := by
  rw [promote_performRequest h (acceptanceCheck_status false) rfl (fun _ => nofun) rfl]
  exact complete_withEntry h.free.head h.free.notWaiting

/-- The command STATUS adds its completed entry, gives it its place in the completion order and writes nothing else. -/
theorem exec_status (h : s.Presents c) (tag : BitVec 8) :
    exec (.status c tag) s = .next (s.withEntry c
      (s.entryOf tag (.status false) (.ready .ok (s.latchSet c) s.statusWords)) s.readyOrder).orderReady :=
  arrive_once h.free h.rest tag (.status false) (promote_status h tag s.readyOrder)
    (atRest_withEntry_ready h.rest h.free.head rfl)

theorem mem_hostTable_withEntry (e : HostEntry) (o : List ReadyToken) : e ∈ (s.withEntry c e o).hostTable[c] := by
  simp [State.withEntry]

/-! ### The first status word (R173, chapter 12) -/

/-- What tells the station: the identification value and the straps' number and count. -/
def identity (s : State) : BitVec (8 + 4 + 5) := Config.identification ++ s.station.number ++ s.station.count

/-- The first status word: the identity above the station state, the sweep and the VOIDED count. -/
def statusHeader (s : State) : Word :=
  (identity s ++ modeCode s.station.mode ++ BitVec.ofNat 12 s.station.sweep ++ 0#1 ++ s.counters.voided :
    BitVec (8 + 4 + 5 + 2 + 12 + 1 + 32))

theorem statusWords_eq_header_cons : ∃ ws, s.statusWords = statusHeader s :: ws ∧ ws.length = 3 := ⟨_, rfl, rfl⟩

/-- From bit 47 up the word is the identity: the four fields below it take no part. -/
theorem extractLsb'_statusHeader (k n : Nat) :
    (statusHeader s).extractLsb' (47 + k) n = (identity s).extractLsb' k n := by
  unfold statusHeader
  iterate 4 rw [BitVec.extractLsb'_append_eq_of_le (by omega)]
  congr 1
  omega

theorem statusHeader_identification : (statusHeader s).extractLsb' 56 8 = 0x6B#8 :=
  calc (statusHeader s).extractLsb' 56 8
    _ = (identity s).extractLsb' 9 8 := extractLsb'_statusHeader 9 8
    _ = (Config.identification ++ s.station.number).extractLsb' 4 8 :=
        BitVec.extractLsb'_append_eq_of_le (by decide)
    _ = Config.identification := BitVec.extractLsb'_append_eq_left

theorem statusHeader_number : (statusHeader s).extractLsb' 52 4 = s.station.number :=
  calc (statusHeader s).extractLsb' 52 4
    _ = (identity s).extractLsb' 5 4 := extractLsb'_statusHeader 5 4
    _ = (Config.identification ++ s.station.number).extractLsb' 0 4 :=
        BitVec.extractLsb'_append_eq_of_le (by decide)
    _ = s.station.number := BitVec.extractLsb'_append_eq_right

theorem statusHeader_count : (statusHeader s).extractLsb' 47 5 = s.station.count :=
  (extractLsb'_statusHeader 0 5).trans BitVec.extractLsb'_append_eq_right

theorem statusHeader_voided : (statusHeader s).extractLsb' 0 32 = s.counters.voided :=
  BitVec.extractLsb'_append_eq_right

/-- Settles O22: a STATUS on a station that presents completes with its status words, whose first begins with the
identification value. -/
theorem statusIdentifiesTheStation : Obligations.StatusIdentifiesTheStation := by
  intro s c tag h
  obtain ⟨ws, hws, hlen⟩ := statusWords_eq_header_cons (s := s)
  have hexec := exec_status h tag
  rw [hws] at hexec
  exact ⟨_, _, _, ws, _, hexec, mem_hostTable_withEntry _ _, rfl, hlen,
    statusHeader_identification, statusHeader_number, statusHeader_count, statusHeader_voided⟩

end Sys2Proof.Proofs.Status
end

