-- ==== Sys2Proof/Proofs/Steps.lean ====
section
/-! PROOFS. What each command brings about, said once: the state a command answers, by the happening that it names, and
what a law has to be kept by for every step to keep it. -/

namespace Sys2Proof.Proofs.Steps

open Sys2Proof Sys2Proof.Machine

/-- Command `i` takes `s` to `t`: one constructor for each way in which a command answers a next state. -/
inductive Brings : Instr → State → State → Prop
  /-- A station held in PORST takes no happening. -/
  | held {i s} (hp : s.porst = true) : Brings i s s
  /-- The HRST pin while PORST is asserted. -/
  | pin {i s} (b : Bool) (hi : i = .hostReset ∧ b = true ∨ i = .hrstReleased ∧ b = false) (hp : s.porst = true) :
      Brings i s { s with hrst := b }
  | emptied {s} : Brings .porstAsserted s s.emptied
  | released {s} (n : StationNo) (k : BitVec 5) (hp : s.porst = true) : Brings (.porstReleased n k) s { s.emptied with
      porst := false
      station := { number := n, count := k, mode := modeOfStraps n k, sweep := 0 }
      span := { Span.reset with rotation := k.toNat - 1 } }
  | hostReset {s} (hp : s.porst = false) : Brings .hostReset s s.count1.resetTable.resetPort.settle
  | hrstReleased {s} (hp : s.porst = false) (hh : s.hrst = true) :
      Brings .hrstReleased s { s.count1 with hrst := false, nextPlace := s.placeAfterPosted }
  /-- A record that meets HRST. -/
  | discarded {i s c tag r} (hi : requestOf i = some (c, tag, r)) (hh : s.hrst = true) : Brings i s s
  /-- A record over credit. -/
  | refused {i s c tag r} (hi : requestOf i = some (c, tag, r)) (hp : s.porst = false) (hh : s.hrst = false)
      (full : 4 ≤ s.hostTable[c].length) : Brings i s (s.count1.refuse c tag)
  | accepted {i s c tag r} (hi : requestOf i = some (c, tag, r)) (hp : s.porst = false) (hh : s.hrst = false)
      (credit : s.hostTable[c].length < 4) : Brings i s (s.count1.accept c tag r).settle
  | emitted {s t} (hp : s.porst = false) (h : s.count1.emission = some t) : Brings .completionEmitted s t
  | granted {s} (d : ArbitrationAt) (r u n : BitVec 16) (hp : s.porst = false) (ht : s.span.tenure = .idle) :
      Brings (.grant d r u n) s (s.count1.grantTo (s.count1.claim d) r u n)
  | idleExpired {s} (hp : s.porst = false) (ht : s.span.tenure = .idle) : Brings .idleCountExpiry s s.count1.idleExpires
  | requestFrame {i s h body decodes} (hi : frameOf i = some (h, body, decodes)) (hp : s.porst = false)
      (ht : s.span.tenure = .idle) : Brings i s (s.count1.readRequest h body decodes)
  | replyFrame {i s h a body} (hi : replyOf i = some (h, a, body)) (hp : s.porst = false)
      (ht : s.span.tenure = .idle) : Brings i s (s.count1.readReply h a body)
  | strangeFrame {s} (sender : StationNo) (kind : BitVec 4) (good : Bool) (hp : s.porst = false)
      (ht : s.span.tenure = .idle) : Brings (.undecodableFrameKind sender kind good) s (s.count1.readUndecodable good)
  | peerVerdict {s sender l body mine} (others : Votes) (hp : s.porst = false)
      (ht : s.span.tenure = .peer sender l body mine) :
      Brings (.requestTenureVerdict others) s (s.count1.peerVerdict sender l body mine others).settle.arbitrate
  | unreadVerdict {s b} (others : Votes) (hp : s.porst = false) (ht : s.span.tenure = .peerUnreadable b) :
      Brings (.requestTenureVerdict others) s s.count1.closeTenure.settle.arbitrate
  | entryVerdict {s l frame home v} (others : Votes) (hp : s.porst = false) (ht : s.span.tenure = .ownEntry l frame home)
      (hv : v = classify (Machine.frameBody frame) (orVotes (ownVotes home) others)) :
      Brings (.ownTenureVerdict others) s
        ((s.count1.ownEnds l (Machine.frameBody frame) v).entryVerdict l v others.copy).settle.arbitrate
  | returnVerdict {s l frame home v} (others : Votes) (hp : s.porst = false)
      (ht : s.span.tenure = .ownWriteback l frame home)
      (hv : v = classify (Machine.frameBody frame) (orVotes (ownVotes home) others)) :
      Brings (.ownTenureVerdict others) s ((s.count1.ownEnds l (Machine.frameBody frame) v).writebackVerdict l v).settle.arbitrate
  | replyVerdict {s l frame} (retry : Bool) (hp : s.porst = false) (ht : s.span.tenure = .ownReply l frame) :
      Brings (.replyTenureVerdict retry) s (s.count1.ownReplyVerdict l retry).settle.arbitrate
  | peerReplyVerdict {s a l body good mine} (retry : Bool) (hp : s.porst = false)
      (ht : s.span.tenure = .peerReply a l body good mine) :
      Brings (.replyTenureVerdict retry) s (s.count1.peerReplyVerdict a l body good (mine || retry)).settle.arbitrate
  | replyExpired {s l e} (hp : s.porst = false) (he : s.entryFor l = some e) (ha : e.phase.awaiting = true) :
      Brings (.replyTimerExpiry l) s (s.count1.expireEntry e).settle
  | watchExpired {s c w} (hp : s.porst = false) (hw : s.watches[c] = some w) :
      Brings (.watchTimeout c) s (s.count1.timeOutWatch c w).settle
  | swept {i s} (hi : i = .clearSweepTick ∨ i = .clearSweepEnd) (hp : s.porst = false) (hs : s.sweeping = true) :
      Brings i s s.count1.sweepLine
  | homeEnded {s op} (k : HomeKind) (hp : s.porst = false) (ho : s.performing = some op) (hk : homeKind op = k) :
      Brings (homeCommand k) s (s.count1.finishHome op).settle

/-! ### Every command brings one of these -/

variable {i : Instr} {s t : State}

theorem arrive_brings {c : ChanId} {tag : BitVec 8} {r : Request} (hi : requestOf i = some (c, tag, r))
    (h : s.arrive c tag r = .next t) : Brings i s t := by
  unfold State.arrive at h
  cases hp : s.porst with
  | true => rw [hp] at h; obtain rfl := Host.Outcome.next.inj h; exact .held hp
  | false =>
    cases hh : s.hrst with
    | true => simp only [hp, hh, Bool.or_true, if_true] at h; obtain rfl := Host.Outcome.next.inj h; exact .discarded hi hh
    | false =>
      simp only [hp, hh, Bool.or_self, Bool.false_eq_true, if_false] at h
      split at h
      · rename_i hc; obtain rfl := Host.Outcome.next.inj h; exact .refused hi hp hh hc
      · rename_i hc; obtain rfl := Host.Outcome.next.inj h; exact .accepted hi hp hh (Nat.lt_of_not_le hc)

/-- A command that names a happening answers the state as it stands, or what the happening brings. -/
theorem guarded_next {can : Bool} {why : Refusal} {u : State} (h : s.guarded can why (.next u) = .next t) :
    (s.porst = true ∧ t = s) ∨ (s.porst = false ∧ can = true ∧ t = u) := by
  unfold State.guarded at h
  split at h
  · rename_i hp; obtain rfl := Host.Outcome.next.inj h; exact .inl ⟨hp, rfl⟩
  · rename_i hp
    split at h
    · rename_i hc; obtain rfl := Host.Outcome.next.inj h; exact .inr ⟨by simpa using hp, hc, rfl⟩
    · cases h

theorem spanIdle_iff : s.spanIdle = true ↔ s.span.tenure = .idle := decide_eq_true_iff

/-- A happening of an idle span. -/
theorem idle_brings {u : State} (h : s.guarded s.spanIdle .tenureOpen (.next u) = .next t)
    (hb : s.porst = false → s.span.tenure = .idle → Brings i s u) : Brings i s t := by
  rcases guarded_next h with ⟨hp, rfl⟩ | ⟨hp, hc, rfl⟩
  · exact .held hp
  · exact hb hp (spanIdle_iff.1 hc)

theorem request_brings {h : Header} {body : RequestBody} {decodes : Bool} (hi : frameOf i = some (h, body, decodes))
    (hx : s.peerRequest h body decodes = .next t) : Brings i s t :=
  idle_brings hx (Brings.requestFrame hi)

theorem reply_brings {h : Header} {a : StationNo} {body : ReplyBody} (hi : replyOf i = some (h, a, body))
    (hx : s.peerReply h a body = .next t) : Brings i s t :=
  idle_brings hx (Brings.replyFrame hi)

theorem endHome_brings {k : HomeKind} (h : s.endHome k = .next t) : Brings (homeCommand k) s t := by
  unfold State.endHome at h
  split at h
  · rename_i hp; obtain rfl := Host.Outcome.next.inj h; exact .held hp
  · rename_i hp
    split at h
    · rename_i op ho
      split at h
      · rename_i hk; obtain rfl := Host.Outcome.next.inj h; exact .homeEnded k (by simpa using hp) ho hk
      · cases h
    · cases h

theorem requestVerdict_brings {others : Votes} (h : execRequestTenureVerdict others s = .next t) :
    Brings (.requestTenureVerdict others) s t := by
  unfold execRequestTenureVerdict at h
  split at h
  · rename_i hp; obtain rfl := Host.Outcome.next.inj h; exact .held hp
  · rename_i hp
    have hp : s.porst = false := by simpa using hp
    split at h
    · rename_i ht; obtain rfl := Host.Outcome.next.inj h; exact .peerVerdict others hp ht
    · rename_i ht; obtain rfl := Host.Outcome.next.inj h; exact .unreadVerdict others hp ht
    · cases h

theorem ownVerdict_brings {others : Votes} (h : execOwnTenureVerdict others s = .next t) :
    Brings (.ownTenureVerdict others) s t := by
  unfold execOwnTenureVerdict at h
  split at h
  · rename_i hp; obtain rfl := Host.Outcome.next.inj h; exact .held hp
  · rename_i hp
    have hp : s.porst = false := by simpa using hp
    split at h
    · rename_i ht; obtain rfl := Host.Outcome.next.inj h; exact .entryVerdict others hp ht rfl
    · rename_i ht; obtain rfl := Host.Outcome.next.inj h; exact .returnVerdict others hp ht rfl
    · cases h

theorem replyVerdict_brings {retry : Bool} (h : execReplyTenureVerdict retry s = .next t) :
    Brings (.replyTenureVerdict retry) s t := by
  unfold execReplyTenureVerdict at h
  split at h
  · rename_i hp; obtain rfl := Host.Outcome.next.inj h; exact .held hp
  · rename_i hp
    have hp : s.porst = false := by simpa using hp
    split at h
    · rename_i ht; obtain rfl := Host.Outcome.next.inj h; exact .replyVerdict retry hp ht
    · rename_i ht; obtain rfl := Host.Outcome.next.inj h; exact .peerReplyVerdict retry hp ht
    · cases h

theorem replyExpiry_brings {l : LineAddr} (h : execReplyTimerExpiry l s = .next t) : Brings (.replyTimerExpiry l) s t := by
  unfold execReplyTimerExpiry at h
  split at h
  · rename_i hp; obtain rfl := Host.Outcome.next.inj h; exact .held hp
  · rename_i hp
    split at h
    · rename_i e he
      split at h
      · rename_i ha; obtain rfl := Host.Outcome.next.inj h; exact .replyExpired (by simpa using hp) he ha
      · cases h
    · cases h

theorem watchTimeout_brings {c : ChanId} (h : execWatchTimeout c s = .next t) : Brings (.watchTimeout c) s t := by
  unfold execWatchTimeout at h
  split at h
  · rename_i hp; obtain rfl := Host.Outcome.next.inj h; exact .held hp
  · rename_i hp
    split at h
    · rename_i w hw; obtain rfl := Host.Outcome.next.inj h; exact .watchExpired (by simpa using hp) hw
    · cases h

theorem hostReset_brings (h : execHostReset s = .next t) : Brings .hostReset s t := by
  unfold execHostReset at h
  split at h
  · rename_i hp; obtain rfl := Host.Outcome.next.inj h; exact .pin true (.inl ⟨rfl, rfl⟩) hp
  · rename_i hp; obtain rfl := Host.Outcome.next.inj h; exact .hostReset (by simpa using hp)

theorem hrstReleased_brings (h : execHrstReleased s = .next t) : Brings .hrstReleased s t := by
  unfold execHrstReleased at h
  split at h
  · cases h
  · rename_i hh
    split at h
    · rename_i hp; obtain rfl := Host.Outcome.next.inj h; exact .pin false (.inr ⟨rfl, rfl⟩) hp
    · rename_i hp; obtain rfl := Host.Outcome.next.inj h; exact .hrstReleased (by simpa using hp) (by simpa using hh)

theorem porstReleased_brings {n : StationNo} {k : BitVec 5} (h : execPorstReleased n k s = .next t) :
    Brings (.porstReleased n k) s t := by
  unfold execPorstReleased at h
  split at h
  · rename_i hp; obtain rfl := Host.Outcome.next.inj h; exact .released n k hp
  · cases h

theorem emission_brings (h : execCompletionEmitted s = .next t) : Brings .completionEmitted s t := by
  rcases guarded_next h with ⟨hp, rfl⟩ | ⟨hp, hc, rfl⟩
  · exact .held hp
  · obtain ⟨u, hu⟩ := Option.isSome_iff_exists.1 hc
    rw [hu]
    exact .emitted hp hu

theorem sweepTick_brings (h : execClearSweepTick s = .next t) : Brings .clearSweepTick s t := by
  rcases guarded_next h with ⟨hp, rfl⟩ | ⟨hp, hc, rfl⟩
  · exact .held hp
  · exact .swept (.inl rfl) hp hc

theorem sweepEnd_brings (h : execClearSweepEnd s = .next t) : Brings .clearSweepEnd s t := by
  rcases guarded_next h with ⟨hp, rfl⟩ | ⟨hp, hc, rfl⟩
  · exact .held hp
  · exact .swept (.inr rfl) hp (by simp only [Bool.and_eq_true] at hc; exact hc.1)

/-- What a command answers is what its happening brings. -/
theorem brings_of_exec (h : exec i s = .next t) : Brings i s t := by
  cases i with
  | porstAsserted => obtain rfl := Host.Outcome.next.inj h; exact .emptied
  | porstReleased n k => exact porstReleased_brings h
  | hostReset => exact hostReset_brings h
  | hrstReleased => exact hrstReleased_brings h
  | completionEmitted => exact emission_brings h
  | grant d r u n => exact idle_brings h (.granted d r u n)
  | idleCountExpiry => exact idle_brings h .idleExpired
  | share | own | upgrade | returnLine | dRead | dWrite | dAtomic => exact request_brings rfl h
  | fill | result => exact reply_brings rfl h
  | undecodableFrameKind sender kind good => exact idle_brings h (.strangeFrame sender kind good)
  | requestTenureVerdict others => exact requestVerdict_brings h
  | ownTenureVerdict others => exact ownVerdict_brings h
  | replyTenureVerdict retry => exact replyVerdict_brings h
  | replyTimerExpiry l => exact replyExpiry_brings h
  | watchTimeout c => exact watchTimeout_brings h
  | clearSweepTick => exact sweepTick_brings h
  | clearSweepEnd => exact sweepEnd_brings h
  | homeRead => exact endHome_brings (k := .read) h
  | homeWrite => exact endHome_brings (k := .write) h
  | homeDRead => exact endHome_brings (k := .dRead) h
  | homeDWrite => exact endHome_brings (k := .dWrite) h
  | homeDAtomic => exact endHome_brings (k := .dAtomic) h
  | _ => exact arrive_brings rfl h

/-! ### A law that every step keeps -/

/-- What a law has to be kept by: every happening, and what a tick does besides the sweep and the expiries. -/
structure Kept (P : State → Prop) : Prop where
  brings : ∀ {i s t}, P s → Brings i s t → P t
  queue : ∀ {s} (rest : List Instr), P s → P { s with pending := rest }
  count : ∀ {s}, P s → P s.count1
  lower : ∀ {s}, P s → P s.lowerTimers
  idle : ∀ {s}, P s → P s.idleExpires

variable {P : State → Prop}

theorem awaiting_of_runOut {p : Phase} (h : p.runOut = true) : p.awaiting = true := by
  cases p with
  | queued age => cases h
  | _ => rfl

/-- A due expiry is taken as its command is, and PORST stands. -/
theorem takeDue_keeps (k : Kept P) (hp : s.porst = false) (h : P s) (d : Due) :
    (s.takeDue d).porst = false ∧ P (s.takeDue d) := by
  cases d with
  | reply l =>
    simp only [State.takeDue]
    split
    · rename_i e he
      split
      · rename_i hr
        exact ⟨(base_porst (State.settle_base _)).trans ((base_porst (State.expireEntry_base _ e)).trans hp),
          k.brings h (.replyExpired hp he (awaiting_of_runOut hr))⟩
      · exact ⟨hp, h⟩
    · exact ⟨hp, h⟩
  | watch c =>
    simp only [State.takeDue]
    split
    · rename_i w hw
      split
      · exact ⟨(base_porst (State.settle_base _)).trans ((base_porst (State.timeOutWatch_base _ c w)).trans hp),
          k.brings h (.watchExpired hp hw)⟩
      · exact ⟨hp, h⟩
    · exact ⟨hp, h⟩

theorem takeDues_keeps (k : Kept P) (n : Nat) (ds : List Due) (hp : s.porst = false) (h : P s) : P (takeDues n ds s) := by
  induction n generalizing ds s with
  | zero => exact h
  | succ n ih =>
    unfold takeDues
    split
    · exact h
    · rename_i d _
      obtain ⟨hp', h'⟩ := takeDue_keeps k hp h d
      exact ih _ hp' h'

theorem tick_keeps (k : Kept P) (h : P s) : P s.tick := by
  unfold State.tick
  split
  · exact h
  · rename_i hp
    have hp : s.porst = false := by simpa using hp
    have swept : ∃ u : State, u.porst = false ∧ P u ∧ (if s.sweeping then s.count1.sweepLine else s.count1) = u := by
      refine ⟨_, ?_, ?_, rfl⟩
      · split <;> exact hp
      · split
        · rename_i hs; exact k.brings h (.swept (.inl rfl) hp hs)
        · exact k.count h
    obtain ⟨u, hu, hPu, he⟩ := swept
    simp only [he]
    refine takeDues_keeps k _ _ ?_ ?_
    · unfold State.tickIdle; split <;> exact hu
    · unfold State.tickIdle
      split
      · exact k.idle (k.lower hPu)
      · exact k.lower hPu

/-- A law kept by every happening and by the timers is kept by every step. -/
theorem step_keeps (k : Kept P) (h : P s) (hs : step s = .next t) : P t := by
  unfold step at hs
  split at hs
  · obtain rfl := Host.Outcome.next.inj hs; exact tick_keeps k h
  · rename_i rest _
    exact k.brings (k.queue rest h) (brings_of_exec hs)

end Sys2Proof.Proofs.Steps
end

