-- ==== Sys2Proof/Proofs/AtRest.lean ====
section
/-! PROOFS. Every step ends at rest: most happenings are run to rest, and the others write nothing that a rule reads. -/

namespace Sys2Proof.Proofs.AtRest

open Sys2Proof Sys2Proof.Machine Sys2Proof.Proofs.Steps

variable {i : Instr} {s t : State}

/-- Rest reads the posted write queue, the waiting list, the channels' heads and who is a waiter. -/
theorem atRest_congr (h : s.AtRest) (hp : t.posted = s.posted) (hw : t.waiting = s.waiting)
    (hh : ∀ c, t.head? c = s.head? c) (hj : t.isWaiter .posted = s.isWaiter .posted) : t.AtRest where
  posted := by rw [hp, hj, isWaiting_congr hw]; exact h.posted
  heads c e he := h.heads c e (hh c ▸ he)
  drains c e he hd := by
    have := h.drains c e (hh c ▸ he) hd
    unfold State.postedOf at this ⊢
    rwa [hp]
  room c e he := by rw [hp]; exact h.room c e (hh c ▸ he)
  pass := by rw [hw]; exact h.pass

/-- Rest is a matter of four tables. -/
theorem atRest_same (h : s.AtRest) (hp : t.posted = s.posted) (hw : t.waiting = s.waiting)
    (hh : t.hostTable = s.hostTable) (ht : t.table = s.table) : t.AtRest :=
  atRest_congr h hp hw (fun c => by unfold State.head?; rw [hh]) (by unfold State.isWaiter; rw [ht])

theorem head_none_of_empty {c : ChanId} (h : s.hostTable[c] = []) : s.head? c = none := by
  unfold State.head?; rw [h]; rfl

/-- A station with empty tables is at rest. -/
theorem atRest_empty (hp : s.posted = []) (hw : s.waiting = []) (hh : ∀ c : ChanId, s.hostTable[c] = []) : s.AtRest where
  posted := .inl hp
  heads c e he := by rw [head_none_of_empty (hh c)] at he; cases he
  drains c e he := by rw [head_none_of_empty (hh c)] at he; cases he
  room c e he := by rw [head_none_of_empty (hh c)] at he; cases he
  pass := by rw [hw]; exact fun _ => nofun

theorem emptied_hostTable (c : ChanId) : s.emptied.hostTable[c] = [] := by
  simp [State.emptied, State.reset]

theorem atRest_settle_arbitrate (s : State) : s.settle.arbitrate.AtRest :=
  atRest_same s.settle_atRest rfl rfl rfl rfl

/-- A ready completion at the front of a channel is no head, so its emission leaves every head. -/
theorem head_emitAccepted {c : ChanId} {e : HostEntry} {r : Completion} (he : s.hostTable[c].head? = some e)
    (ho : e.isOpen = false) (d : ChanId) : (s.emitAccepted c r).head? d = s.head? d := by
  unfold State.head? State.emitAccepted
  by_cases hd : c = d
  · subst hd
    cases hl : s.hostTable[c] with
    | nil => simp
    | cons x xs => rw [hl] at he; cases he; simp [ho]
  · have : (c : Nat) ≠ d := fun h => hd (Fin.ext h)
    simp [this]

theorem isOpen_of_completionOf {c : ChanId} {e : HostEntry} {r : Completion} (h : completionOf c e = some r) :
    e.isOpen = false := by
  unfold completionOf at h
  unfold HostEntry.isOpen
  split at h
  · rename_i hp; rw [hp]
  · cases h

/-- What an emission can be (R118). -/
theorem emission_cases (h : s.emission = some t) :
    (∃ c e r, s.hostTable[c].head? = some e ∧ completionOf c e = some r ∧ t = s.emitAccepted c r ∧
      ∃ n, s.readyOrder.head? = some (.accepted c n)) ∨
    ∃ c r, s.refused[c] = some r ∧ t = s.emitRefused c r.1 r.2 ∧ s.readyOrder.head? = some (.refused c) := by
  unfold State.emission at h
  split at h
  · cases h
  · rename_i c n rest ho
    rw [Option.bind_eq_some_iff] at h
    obtain ⟨e, he, h⟩ := h
    rw [Option.map_eq_some_iff] at h
    obtain ⟨r, hr, rfl⟩ := h
    exact .inl ⟨c, e, r, he, hr, rfl, n, by rw [ho]; rfl⟩
  · rename_i c rest ho
    rw [Option.map_eq_some_iff] at h
    obtain ⟨r, hr, rfl⟩ := h
    exact .inr ⟨c, r, hr, rfl, by rw [ho]; rfl⟩

theorem atRest_emission (h : s.AtRest) (he : s.emission = some t) : t.AtRest := by
  rcases emission_cases he with ⟨c, e, r, hc, hr, rfl, -⟩ | ⟨c, r, -, rfl, -⟩
  · exact atRest_congr h rfl rfl (head_emitAccepted hc (isOpen_of_completionOf hr)) rfl
  · exact atRest_same h rfl rfl rfl rfl

theorem atRest_refuse {c : ChanId} {tag : BitVec 8} (h : s.AtRest) : (s.refuse c tag).AtRest := by
  unfold State.refuse
  split <;> exact atRest_same h rfl rfl rfl rfl

/-- A grant writes the span interface alone. -/
theorem grantTo_span (claim : Option Claim) (r u n : BitVec 16) :
    ∃ span, s.grantTo claim r u n = { s with span := span } := by
  unfold State.grantTo
  cases claim with
  | none => exact ⟨_, rfl⟩
  | some c =>
    simp only
    split
    · unfold State.takeGrant
      split <;> exact ⟨_, rfl⟩
    · exact ⟨_, rfl⟩

theorem countCheck_same (good : Bool) :
    (s.countCheck good) = { s with counters := (s.countCheck good).counters } := by
  unfold State.countCheck; split <;> rfl

/-- A peer's request frame writes the span interface and a counter. -/
theorem readRequest_span (h : Header) (body : RequestBody) (decodes : Bool) :
    ∃ span counters, s.readRequest h body decodes = { s with span := span, counters := counters } := by
  unfold State.readRequest
  rw [countCheck_same]
  simp only
  split
  · exact ⟨_, _, rfl⟩
  · split <;> exact ⟨_, _, rfl⟩

theorem readReply_span (h : Header) (a : StationNo) (body : ReplyBody) :
    ∃ span counters, s.readReply h a body = { s with span := span, counters := counters } := by
  unfold State.readReply
  rw [countCheck_same]
  exact ⟨_, _, rfl⟩

theorem readUndecodable_span (good : Bool) :
    ∃ span counters, s.readUndecodable good = { s with span := span, counters := counters } := by
  unfold State.readUndecodable
  rw [countCheck_same]
  exact ⟨_, _, rfl⟩

theorem atRest_brings (h : s.AtRest) (hb : Brings i s t) : t.AtRest := by
  cases hb with
  | held | discarded => exact h
  | pin | hrstReleased | idleExpired | swept => exact atRest_same h rfl rfl rfl rfl
  | emptied => exact atRest_empty rfl rfl emptied_hostTable
  | released => exact atRest_empty rfl rfl (emptied_hostTable (s := s))
  | refused => exact atRest_refuse (atRest_same h rfl rfl rfl rfl)
  | emitted _ he => exact atRest_emission (s := s.count1) (atRest_same h rfl rfl rfl rfl) he
  | granted d r u n =>
    obtain ⟨span, e⟩ := grantTo_span (s := s.count1) (s.count1.claim d) r u n
    rw [e]; exact atRest_same h rfl rfl rfl rfl
  | @requestFrame _ _ hd body decodes =>
    obtain ⟨span, counters, e⟩ := readRequest_span (s := s.count1) hd body decodes
    rw [e]; exact atRest_same h rfl rfl rfl rfl
  | @replyFrame _ _ hd a body =>
    obtain ⟨span, counters, e⟩ := readReply_span (s := s.count1) hd a body
    rw [e]; exact atRest_same h rfl rfl rfl rfl
  | strangeFrame _ _ good =>
    obtain ⟨span, counters, e⟩ := readUndecodable_span (s := s.count1) good
    rw [e]; exact atRest_same h rfl rfl rfl rfl
  | hostReset | accepted | replyExpired | watchExpired | homeEnded => exact State.settle_atRest _
  | _ => exact atRest_settle_arbitrate _

/-- The timers run on the phases of the entries and leave their waiters. -/
theorem isWaiter_lowerTimers (who : Who) : s.lowerTimers.isWaiter who = s.isWaiter who := by
  unfold State.isWaiter State.lowerTimers
  rw [List.any_map]
  rfl

/-- Settles O52: a happening that changes what a rule reads is run to rest. -/
theorem stepsEndAtRest : Obligations.StepsEndAtRest := fun _ _ h hs =>
  step_keeps (P := State.AtRest)
    { brings := atRest_brings
      queue := fun _ h => atRest_same h rfl rfl rfl rfl
      count := fun h => atRest_same h rfl rfl rfl rfl
      lower := fun h => atRest_congr h rfl rfl (fun _ => rfl) (isWaiter_lowerTimers _)
      idle := fun h => atRest_same h rfl rfl rfl rfl } h hs

end Sys2Proof.Proofs.AtRest
end

