-- ==== Sys2Proof/Proofs/HomeSlice.lean ====
section
/-! PROOFS. Every step keeps the sweep position, the home operation queue and the home store lawful (R92 to R94, R97,
R172). The law reads five fields, and running a happening to rest writes none of them. -/

namespace Sys2Proof.Proofs.HomeSlice

open Sys2Proof Sys2Proof.Machine Sys2Proof.Proofs.Steps Sys2Proof.Proofs.AtRest

variable {i : Instr} {s t : State}

/-- The fields that the law of the home slice reads. -/
structure Slice where
  station : Station
  queue : List HomeOp
  done : Option ReplyBody
  reserved : Bool
  store : HomeMemory

/-- The home slice of a state. -/
def slice (s : State) : Slice :=
  { station := s.station, queue := s.homeQueue, done := s.homeDone, reserved := s.span.homeReserved, store := s.homeStore }

/-- The law of the home slice: the station's law and the canonical form of its store. -/
structure SliceLaw (s : State) : Prop where
  law : s.StationLaw
  store : memWf s.homeStore = true

theorem slice_of_base (h : t.base = s.base) : slice t = slice s := by
  simp only [slice, base_station h, base_homeQueue h, base_homeDone h, base_span h, base_homeStore h]

/-- The law reads the slice alone. -/
theorem SliceLaw.congr (h : SliceLaw s) (e : slice t = slice s) : SliceLaw t := by
  simp only [slice, Slice.mk.injEq] at e
  obtain ⟨hs, hq, hd, hr, hm⟩ := e
  obtain ⟨⟨inert, clearing, ready, idle, done⟩, store⟩ := h
  exact ⟨⟨by rwa [hs], by rwa [hs], by rwa [hs], by rwa [hs, hq, hr], by rwa [hd, hq]⟩, by rwa [hm]⟩

theorem SliceLaw.of_base (h : SliceLaw s) (e : t.base = s.base) : SliceLaw t := h.congr (slice_of_base e)

theorem SliceLaw.settle (h : SliceLaw s) : SliceLaw s.settle := h.of_base (State.settle_base s)

theorem SliceLaw.settle_arbitrate (h : SliceLaw s) : SliceLaw s.settle.arbitrate := h.settle.congr rfl

/-- The law of an unswept or dead station with nothing in its home slice. -/
theorem sliceLaw_empty (hm : s.station.mode = .inert ∨ s.station.mode = .clearing) (hs : s.station.sweep = 0)
    (hq : s.homeQueue = []) (hd : s.homeDone = none) (hr : s.span.homeReserved = false) (hst : s.homeStore = []) :
    SliceLaw s where
  law :=
    { inert := fun _ => hs
      clearing := fun _ => by rw [hs]; decide
      ready := fun h => by rw [h] at hm; simp at hm
      idle := fun _ => ⟨hq, hr⟩
      done := fun h => by rw [hd] at h; cases h }
  store := by rw [hst]; rfl

theorem modeOfStraps_cases (n : StationNo) (k : BitVec 5) : modeOfStraps n k = .inert ∨ modeOfStraps n k = .clearing := by
  unfold modeOfStraps; split <;> simp

/-! ### Reservations of home operation queue entries -/

/-- Only a READY station reserves. -/
theorem SliceLaw.reserve (h : SliceLaw s) {b : Bool} (hb : b = true → s.station.mode = .ready)
    (e : slice t = { slice s with reserved := s.span.homeReserved || b }) : SliceLaw t := by
  simp only [slice, Slice.mk.injEq] at e
  obtain ⟨hs, hq, hd, hr, hm⟩ := e
  obtain ⟨⟨inert, clearing, ready, idle, done⟩, store⟩ := h
  refine ⟨⟨by rwa [hs], by rwa [hs], by rwa [hs], fun hn => ?_, by rwa [hd, hq]⟩, by rwa [hm]⟩
  rw [hs] at hn
  rw [hq, hr, (idle hn).2]
  have : b = false := by
    cases b
    · rfl
    · exact absurd (hb rfl) hn
  exact ⟨(idle hn).1, by rw [this]; rfl⟩

theorem ready_of_homeVote {l : LineAddr} {body : RequestBody} (h : s.homeVote l body = true) : s.station.mode = .ready := by
  simp only [State.homeVote, Bool.and_eq_true, decide_eq_true_eq] at h
  exact h.1.2

theorem ready_of_tenureReserves {c : Candidate} {x : Tenure} (h : s.ownTenure c = some x)
    (hx : tenureReserves x = true) : s.station.mode = .ready := by
  unfold State.ownTenure at h
  cases c with
  | reply l =>
    obtain ⟨r, -, rfl⟩ := Option.map_eq_some_iff.1 h
    cases hx
  | entry l =>
    obtain ⟨e, -, rfl⟩ := Option.map_eq_some_iff.1 h
    simp only [tenureReserves, Bool.and_eq_true] at hx
    exact ready_of_homeVote hx.1
  | writeback l =>
    obtain ⟨e, -, rfl⟩ := Option.map_eq_some_iff.1 h
    exact ready_of_homeVote hx

theorem sliceLaw_takeGrant (h : SliceLaw s) (c : Claim) : SliceLaw (s.takeGrant c) := by
  unfold State.takeGrant
  split
  · rename_i x hx
    obtain ⟨d, -, hd⟩ := Option.bind_eq_some_iff.1 hx
    exact h.reserve (ready_of_tenureReserves hd) rfl
  · exact h

theorem sliceLaw_grantTo (h : SliceLaw s) (claim : Option Claim) (r u n : BitVec 16) :
    SliceLaw (s.grantTo claim r u n) := by
  unfold State.grantTo
  cases claim with
  | none => exact h.congr rfl
  | some c =>
    simp only
    split
    · refine sliceLaw_takeGrant ?_ c
      exact h.congr rfl
    · exact h.congr rfl

theorem slice_countCheck (good : Bool) : slice (s.countCheck good) = slice s := by
  rw [countCheck_same]; rfl

theorem sliceLaw_readRequest (h : SliceLaw s) (hd : Header) (body : RequestBody) (decodes : Bool) :
    SliceLaw (s.readRequest hd body decodes) := by
  have heard : SliceLaw ((s.seeFrame s.holder).countCheck hd.good) := h.congr (slice_countCheck _)
  unfold State.readRequest
  simp only
  split
  · exact heard.congr rfl
  · split
    · exact heard.congr rfl
    · refine heard.reserve (b := State.homeVote _ hd.line body && !isUpgradeFrame body) (fun hb => ?_) rfl
      simp only [Bool.and_eq_true] at hb
      exact ready_of_homeVote hb.1

/-! ### The home operation queue at a verdict -/

/-- A reservation becomes the operation at the tail, or is released: both only where there was one. -/
theorem sliceLaw_convertHome (h : SliceLaw s) (n : StationNo) (l : LineAddr) (body : RequestBody) (v : Verdict) :
    SliceLaw (s.convertHome n l body v) := by
  obtain ⟨⟨inert, clearing, ready, idle, done⟩, store⟩ := h
  have released : SliceLaw { s with span := { s.span with homeReserved := false } } :=
    ⟨⟨inert, clearing, ready, fun hn => ⟨(idle hn).1, rfl⟩, done⟩, store⟩
  unfold State.convertHome
  simp only
  split
  · rename_i hr
    split
    · refine ⟨⟨inert, clearing, ready, fun hn => ?_, fun _ => by simp⟩, store⟩
      simp only [Bool.and_eq_true] at hr
      rw [(idle hn).2] at hr
      cases hr.1
    · exact released
  · exact released

theorem sliceLaw_popHome (h : SliceLaw s) : SliceLaw s.popHome := by
  obtain ⟨⟨inert, clearing, ready, idle, done⟩, store⟩ := h
  exact ⟨⟨inert, clearing, ready, fun hn => ⟨by simp [State.popHome, (idle hn).1], (idle hn).2⟩, nofun⟩, store⟩

theorem sliceLaw_offerDone (h : SliceLaw s) : SliceLaw s.offerDone := by
  unfold State.offerDone
  split
  · split
    · exact sliceLaw_popHome (h.congr rfl)
    · exact h
  · exact h

theorem sliceLaw_releaseAside (h : SliceLaw s) : SliceLaw s.releaseAside := by
  unfold State.releaseAside
  split
  · exact sliceLaw_offerDone (h.congr rfl)
  · exact h

theorem slice_queueSnapshot (n : StationNo) (l : LineAddr) : slice (s.queueSnapshot n l) = slice s := by
  unfold State.queueSnapshot; split <;> rfl

theorem sliceLaw_snoopVerdict (h : SliceLaw s) (n : StationNo) (l : LineAddr) (body : RequestBody) (v : Verdict) :
    SliceLaw (s.snoopVerdict n l body v) := by
  have conv := sliceLaw_convertHome h n l body v
  have taken : ∀ {u : State}, SliceLaw u → SliceLaw (if u.heldValid l then u.snoopLine l body else u).releaseAside := by
    intro u hu
    refine sliceLaw_releaseAside ?_
    split
    · exact hu.of_base (State.snoopLine_base u l body)
    · exact hu
  unfold State.snoopVerdict
  cases v with
  | void => exact sliceLaw_releaseAside conv
  | ownerFill => exact taken (conv.congr (slice_queueSnapshot n l))
  | homeFill => exact taken conv
  | taken => exact taken conv

theorem sliceLaw_ownEnds (h : SliceLaw s) (l : LineAddr) (body : RequestBody) (v : Verdict) :
    SliceLaw (s.ownEnds l body v) := by
  have closed : SliceLaw s.closeTenure := h.congr rfl
  have conv := sliceLaw_convertHome closed s.station.number l body v
  unfold State.ownEnds State.countVoid
  split
  · exact conv.congr rfl
  · exact conv

/-! ### The holder's verdicts -/

theorem slice_voidEntry (e : TableEntry) : slice (s.voidEntry e) = slice s := by
  unfold State.voidEntry
  split
  · exact slice_of_base (by simp)
  · split
    · exact slice_of_base (by simp)
    · simp only; split <;> rfl

theorem slice_entryVerdict (l : LineAddr) (v : Verdict) (copy : Bool) : slice (s.entryVerdict l v copy) = slice s := by
  unfold State.entryVerdict
  split
  · rfl
  · split
    · exact slice_voidEntry _
    · exact slice_of_base (by simp)

theorem slice_writebackVerdict (l : LineAddr) (v : Verdict) : slice (s.writebackVerdict l v) = slice s := by
  unfold State.writebackVerdict
  split
  · rfl
  · unfold State.returnVerdict
    split
    · simp only; split <;> rfl
    · simp only; split <;> rfl

theorem sliceLaw_removeReply (h : SliceLaw s) (l : LineAddr) : SliceLaw (s.removeReply l) :=
  sliceLaw_offerDone (h.congr rfl)

theorem sliceLaw_ownReplyVerdict (h : SliceLaw s) (l : LineAddr) (retry : Bool) : SliceLaw (s.ownReplyVerdict l retry) := by
  have closed : SliceLaw s.closeTenure := h.congr rfl
  unfold State.ownReplyVerdict State.voidReply
  split
  · split
    · exact closed
    · split
      · exact (sliceLaw_removeReply closed l).congr rfl
      · exact closed.congr rfl
  · exact sliceLaw_removeReply closed l

theorem sliceLaw_peerReplyVerdict (h : SliceLaw s) (a : StationNo) (l : LineAddr) (body : ReplyBody) (g r : Bool) :
    SliceLaw (s.peerReplyVerdict a l body g r) := by
  have closed : SliceLaw s.closeTenure := h.congr rfl
  unfold State.peerReplyVerdict
  split
  · exact closed.of_base (State.takeReply_base _ l body)
  · exact closed

/-! ### The home store -/

theorem queue_of_performing {op : HomeOp} (h : s.performing = some op) : s.homeQueue ≠ [] := by
  unfold State.performing at h
  split at h
  · cases h
  · intro hq; rw [hq] at h; cases h

theorem sliceLaw_finishHome (h : SliceLaw s) {op : HomeOp} (ho : s.performing = some op) : SliceLaw (s.finishHome op) := by
  obtain ⟨law, store⟩ := h
  have performed : SliceLaw { s with homeStore := (homePerform s.homeStore op).1 } :=
    ⟨⟨law.inert, law.clearing, law.ready, law.idle, law.done⟩, memWf_homePerform store op⟩
  unfold State.finishHome State.deliverHome
  simp only
  split
  · exact sliceLaw_popHome performed
  · split
    · exact (sliceLaw_popHome performed).of_base (State.takeReply_base _ _ _)
    · split
      · exact sliceLaw_popHome (performed.congr rfl)
      · exact ⟨⟨law.inert, law.clearing, law.ready, law.idle, fun _ => queue_of_performing (s := s) ho⟩, performed.store⟩

/-- A swept line moves the sweep position on, and the last one makes the station READY (R92). -/
theorem sliceLaw_sweepLine (h : SliceLaw s) (hs : s.sweeping = true) : SliceLaw s.sweepLine := by
  obtain ⟨law, store⟩ := h
  simp only [State.sweeping, Bool.and_eq_true, decide_eq_true_eq] at hs
  obtain ⟨mode, lt⟩ := hs
  have lt : s.station.sweep < 2048 := lt
  have idle := law.idle (by rw [mode]; decide)
  have swept : s.sweepLine.station.sweep = s.station.sweep + 1 := rfl
  have modes : s.sweepLine.station.mode = if s.station.sweep + 1 = 2048 then .ready else .clearing := by
    rw [← mode]; rfl
  refine ⟨⟨fun hm => ?_, fun hm => ?_, fun hm => ?_, fun _ => idle, law.done⟩, memWf_sweepLine store⟩
  · rw [modes] at hm
    split at hm <;> cases hm
  · rw [modes] at hm
    rw [swept]
    split at hm
    · cases hm
    · omega
  · rw [modes] at hm
    rw [swept]
    split at hm
    · assumption
    · cases hm

theorem slice_resetTable (s : State) : slice s.resetTable = slice s := by
  have fold : ((s.table.filter s.withdrawn).foldl (fun s e => s.freeFillPending e.line) s).base = s.base :=
    foldl_keeps State.base (fun (s : State) (e : TableEntry) => s.freeFillPending e.line)
      (fun s e => State.freeFillPending_base s e.line) _ s
  rw [← slice_of_base fold]
  unfold State.resetTable
  simp only [slice]

theorem sliceLaw_brings (h : SliceLaw s) (hb : Brings i s t) : SliceLaw t := by
  have counted : SliceLaw s.count1 := h.congr rfl
  cases hb with
  | held | discarded => exact h
  | pin | hrstReleased | idleExpired => exact h.congr rfl
  | replyFrame | strangeFrame => exact counted.congr (slice_countCheck _)
  | emptied => exact sliceLaw_empty (.inl rfl) rfl rfl rfl rfl rfl
  | released n k => exact sliceLaw_empty (modeOfStraps_cases n k) rfl rfl rfl rfl rfl
  | hostReset =>
    refine SliceLaw.settle ?_
    have table : SliceLaw s.count1.resetTable := counted.congr (slice_resetTable s.count1)
    exact table.congr rfl
  | refused => exact counted.congr (by unfold State.refuse; split <;> rfl)
  | accepted =>
    refine SliceLaw.settle ?_
    exact counted.congr rfl
  | emitted _ he =>
    rcases emission_cases he with ⟨c, e, r, -, -, rfl, -⟩ | ⟨c, r, -, rfl, -⟩ <;> exact counted.congr rfl
  | granted => exact sliceLaw_grantTo counted _ _ _ _
  | requestFrame => exact sliceLaw_readRequest counted _ _ _
  | peerVerdict =>
    have closed : SliceLaw s.count1.closeTenure := counted.congr rfl
    refine SliceLaw.settle_arbitrate ?_
    exact (sliceLaw_snoopVerdict closed _ _ _ _).congr rfl
  | unreadVerdict =>
    refine SliceLaw.settle_arbitrate ?_
    exact counted.congr rfl
  | entryVerdict =>
    exact ((sliceLaw_ownEnds counted _ _ _).congr (slice_entryVerdict _ _ _)).settle_arbitrate
  | returnVerdict =>
    exact ((sliceLaw_ownEnds counted _ _ _).congr (slice_writebackVerdict _ _)).settle_arbitrate
  | replyVerdict => exact (sliceLaw_ownReplyVerdict counted _ _).settle_arbitrate
  | peerReplyVerdict => exact (sliceLaw_peerReplyVerdict counted _ _ _ _ _).settle_arbitrate
  | replyExpired => exact (counted.of_base (State.expireEntry_base _ _)).settle
  | watchExpired => exact (counted.of_base (State.timeOutWatch_base _ _ _)).settle
  | swept _ _ hs => exact sliceLaw_sweepLine counted hs
  | homeEnded _ _ ho => exact (sliceLaw_finishHome counted ho).settle

/-- Settles O55: the happenings that write the home slice are a reservation, its conversion, the offers of a done head,
the ends of home operations and the sweep. -/
theorem stepsKeepTheHomeSlice : Obligations.StepsKeepTheHomeSlice := fun _ t h hs =>
  have kept : SliceLaw t := step_keeps (P := SliceLaw)
    { brings := sliceLaw_brings
      queue := fun _ h => h.congr rfl
      count := fun h => h.congr rfl
      lower := fun h => h.congr rfl
      idle := fun h => h.congr rfl } ⟨h.1, h.2⟩ hs
  ⟨kept.law, kept.store⟩

end Sys2Proof.Proofs.HomeSlice
end

