-- ==== Sys2Proof/Proofs/EachOperation.lean ====
section
/-! PROOFS. The law of the operations' places is not kept by every step. A watch in REFETCH may belong, as the law has it, to
a head that is still WAITING and failed an acceptance check; the happening that makes it ACTIVE completes it with the check's
status and leaves the watch table entry in use, with no WATCH of its channel in progress. No run reaches such a state, but
the law does not exclude it. -/

namespace Sys2Proof.Proofs.EachOperation

open Sys2Proof Sys2Proof.Machine

/-- A WATCH that failed a check and has not become ACTIVE yet. -/
def failedWatch : HostEntry :=
  { tag := 0, req := .watch 0 0 1, place := 0, check := some .badRequest, progress := .opened .waiting }

/-- A watch in REFETCH. -/
def refetch : Watch := { phase := .refetch, addr := 0, compare := 0, remaining := 1 }

/-- A station whose one request is that WATCH, its watch table entry in REFETCH, and a verdict to come that changes nothing
in the station's own blocks. -/
def orphaned : State := { State.reset with
  porst := false
  span := { Span.reset with tenure := .peerUnreadable true }
  hostTable := #v[[failedWatch], [], [], []]
  watches := #v[some refetch, none, none, none]
  pending := [.requestTenureVerdict { copy := false, supply := false, home := false, retry := true }] }

theorem tagAt_orphaned (i : Fin 32) (w : WayId) : orphaned.tagAt i w = none := by
  simp [State.tagAt, orphaned, State.reset, CacheSet.reset, Way.free]

theorem onePlace_orphaned : orphaned.OnePlace where
  table := by decide
  writebacks := by decide
  replies := by decide
  set i w l h := by rw [tagAt_orphaned] at h; cases h
  region i w l h := by rw [tagAt_orphaned] at h; cases h
  way i w w' l h := by rw [tagAt_orphaned] at h; cases h
  apart i w l h := by rw [tagAt_orphaned] at h; cases h

theorem watches_orphaned {c : ChanId} {w : Watch} (h : orphaned.watches[c] = some w) : c = 0 ∧ w = refetch := by
  fin_cases c
  · exact ⟨rfl, (Option.some.inj h).symm⟩
  all_goals cases h

theorem headLaw_orphaned : orphaned.HeadLaw where
  once := by decide
  five := List.forall_mem_nil _
  waiter := List.forall_mem_nil _
  postedWaiter := List.forall_mem_nil _
  waitsOnce := by decide
  waits := List.forall_mem_nil _
  postedOnce := nofun
  watch c w h := by
    obtain ⟨rfl, rfl⟩ := watches_orphaned h
    exact ⟨failedWatch, 0, 1, rfl, rfl, nofun⟩
  flush := List.forall_mem_nil _
  flushOnce := by decide

/-- Whether the watch of channel 0 is in use although the channel has no head. -/
def strayWatch : Host.Outcome State Fault Refusal → Bool
  | .next t => (t.watches[(0 : ChanId)]).isSome && (t.head? 0).isNone
  | _ => false

theorem step_orphaned : strayWatch (step orphaned) = true := by decide

theorem exists_step_orphaned : ∃ t, step orphaned = .next t ∧ ¬t.HeadLaw := by
  have h := step_orphaned
  revert h
  cases step orphaned with
  | next t =>
    intro h
    simp only [strayWatch, Bool.and_eq_true, Option.isNone_iff_eq_none, Option.isSome_iff_exists] at h
    obtain ⟨⟨w, hw⟩, hn⟩ := h
    refine ⟨t, rfl, fun law => ?_⟩
    obtain ⟨e, -, -, he, -⟩ := law.watch 0 w hw
    rw [hn] at he
    cases he
  | fault r => nofun
  | refused r => nofun

/-- Refutes O56: the failed WATCH completes as it becomes its channel's head, and its watch stays in use. -/
theorem not_stepsKeepEachOperationInItsPlace : ¬ Obligations.StepsKeepEachOperationInItsPlace := by
  intro h
  obtain ⟨t, ht, hn⟩ := exists_step_orphaned
  exact hn (h orphaned t ⟨onePlace_orphaned, headLaw_orphaned⟩ ht).2

end Sys2Proof.Proofs.EachOperation
end

