-- ==== Sys2Proof/Proofs/HeldClaims.lean ====
section
/-! PROOFS. The law of the claims is not kept by every step. It lets an ARMED watch name an address that is no multiple of 8;
the report of a store compares whole addresses (R159), so a store to the same word at its aligned address passes the watch
by, and the watch stays ARMED on a word that differs from its compare value. No run reaches such a watch, for check 3 keeps
unaligned requests out, but the law does not exclude it. -/

namespace Sys2Proof.Proofs.HeldClaims

open Sys2Proof Sys2Proof.Machine

/-- A WATCH of the unaligned address 1, in progress. -/
def unalignedWatch : HostEntry :=
  { tag := 0, req := .watch 1 0 1, place := 0, check := none, progress := .opened .active }

/-- Its watch table entry, ARMED on the compare value 0. -/
def armed : Watch := { phase := .armed, addr := 1, compare := 0, remaining := 1 }

/-- Line 0 held DIRTY-SOLE in way 0 of set 0, its words zero. -/
def lineZero : CacheSet :=
  { ways := #v[{ tag := some 0, state := .dirtySole, data := zeroLine }, Way.free, Way.free, Way.free]
    order := [0, 1, 2, 3] }

/-- A READY station that holds line 0 alone and watches its word 0 by the address 1; a WRITE of that word is to come. -/
def watching : State := { State.reset with
  porst := false
  station := { number := 0, count := 1, mode := .ready, sweep := 2048 }
  lines := (Vector.replicate 32 CacheSet.reset).set 0 lineZero
  hostTable := #v[[unalignedWatch], [], [], []]
  watches := #v[some armed, none, none, none]
  nextPlace := 1
  pending := [.write 1 0 0 0xFF 1] }

/-- Only way 0 of set 0 has a tag. -/
theorem tagAt_watching : ∀ (i : Fin 32) (w : WayId), watching.tagAt i w = if i = 0 ∧ w = 0 then some 0 else none := by
  decide

theorem tag_cases {i : Fin 32} {w : WayId} {l : LineAddr} (h : watching.tagAt i w = some l) : i = 0 ∧ w = 0 ∧ l = 0 := by
  rw [tagAt_watching] at h
  split at h
  · rename_i hi
    exact ⟨hi.1, hi.2, (Option.some.inj h).symm⟩
  · cases h

theorem onePlace_watching : watching.OnePlace where
  table := by decide
  writebacks := by decide
  replies := by decide
  set i w l h := by obtain ⟨rfl, -, rfl⟩ := tag_cases h; decide
  region i w l h := by obtain ⟨-, -, rfl⟩ := tag_cases h; decide
  way i w w' l h h' := (tag_cases h).2.1.trans (tag_cases h').2.1.symm
  apart _ _ _ _ := nofun

theorem watches_watching {c : ChanId} {w : Watch} (h : watching.watches[c] = some w) : c = 0 ∧ w = armed := by
  fin_cases c
  · exact ⟨rfl, (Option.some.inj h).symm⟩
  all_goals cases h

theorem headLaw_watching : watching.HeadLaw where
  once := by decide
  five := List.forall_mem_nil _
  waiter := List.forall_mem_nil _
  postedWaiter := List.forall_mem_nil _
  waitsOnce := by decide
  waits := List.forall_mem_nil _
  postedOnce := nofun
  watch c w h := by
    obtain ⟨rfl, rfl⟩ := watches_watching h
    exact ⟨unalignedWatch, 0, 1, rfl, rfl, fun _ => ⟨rfl, rfl⟩⟩
  flush := List.forall_mem_nil _
  flushOnce := by decide

theorem claimLaw_watching : watching.ClaimLaw where
  reservations c a h := by fin_cases c <;> cases h
  watches c w h _ := by
    obtain ⟨rfl, rfl⟩ := watches_watching h
    decide
  pending := List.forall_mem_nil _
  installs := List.forall_mem_nil _

/-- Whether an ARMED watch of channel 0 names a word that differs from its compare value. -/
def missedStore : Host.Outcome State Fault Refusal → Bool
  | .next t => t.watches[(0 : ChanId)].any (fun w => w.phase = .armed && t.loadWord w.addr ≠ w.compare)
  | _ => false

theorem step_watching : missedStore (step watching) = true := by decide

theorem exists_step_watching : ∃ t, step watching = .next t ∧ ¬t.ClaimLaw := by
  have h := step_watching
  revert h
  cases step watching with
  | next t =>
    intro h
    simp only [missedStore, Option.any_eq_true, Bool.and_eq_true, decide_eq_true_eq] at h
    obtain ⟨w, hw, ha, hd⟩ := h
    exact ⟨t, rfl, fun law => hd (law.watches 0 w hw ha).2.1⟩
  | fault r => nofun
  | refused r => nofun

/-- Refutes O58: a WRITE of the watched word at its aligned address stores 1 and leaves the watch ARMED on 0. -/
theorem not_stepsKeepClaimsOnHeldLines : ¬ Obligations.StepsKeepClaimsOnHeldLines := by
  intro h
  obtain ⟨t, ht, hn⟩ := exists_step_watching
  exact hn (h watching t ⟨onePlace_watching, headLaw_watching, claimLaw_watching⟩ ht).2.2

end Sys2Proof.Proofs.HeldClaims
end

