-- ==== Sys2Proof/Proofs/Updates.lean ====
section
/-! PROOFS. What the station's own blocks can do, as a chain of small updates: every operation on the host port, the line
array, the tables and the reports is one of a dozen updates after another, each with the condition it is made under. A law
that each small update keeps is kept by all of them, and by running a happening to rest. -/

namespace Sys2Proof.Proofs.Updates

open Sys2Proof Sys2Proof.Machine

/-- The line is in no way, of the cached region, and not in the writeback buffer: a way may be made FILL-PENDING for it. -/
structure Fresh (s : State) (l : LineAddr) : Prop where
  way : s.findWay l = none
  region : isDirect l = false
  writeback : s.writebackFor l = none

/-- The retry count and the reply timer of an entry lie within their ranges (R48). -/
structure EntryBound (e : TableEntry) : Prop where
  retry : e.retry ≤ 255
  fill : ∀ st n, e.phase = .awaitFill st n → n ≤ 250
  result : ∀ n, e.phase = .awaitResult n → n ≤ 250

/-- One small update. -/
inductive Touch (s : State) : State → Prop
  /-- The head of a channel goes on. -/
  | head (c : ChanId) (f : HostEntry → HostEntry) (hf : ∀ e, ∃ p, f e = { e with progress := p }) :
      Touch s (s.updateHead c f)
  /-- The waiting list, the latches, the claims and the counters. -/
  | aside (w : List Waiting) (la : Vector (Option Latch) 4) (re : Vector (Option Addr) 4) (wa : Vector (Option Watch) 4)
      (co : Counters) :
      Touch s { s with waiting := w, latches := la, reservations := re, watches := wa, counters := co }
  /-- A way moves to the front of its set. -/
  | front (l : LineAddr) (w : WayId) : Touch s (s.touchWay l w)
  /-- A way keeps its tag. -/
  | keep (l : LineAddr) (w : WayId) (x : Way) (hx : x.tag = (s.wayAt l w).tag) : Touch s (s.setWay l w x)
  /-- A way loses its tag. -/
  | untag (l : LineAddr) (w : WayId) (x : Way) (hx : x.tag = none) : Touch s (s.setWay l w x)
  /-- A way takes a line that has no place. -/
  | fill (l : LineAddr) (w : WayId) (x : Way) (hx : x.tag = some l) (hl : Fresh s l) : Touch s (s.setWay l w x)
  /-- A line moves from its way to the writeback buffer. -/
  | moveOut (l k : LineAddr) (w : WayId) (x : Way) (d : LineData) (o : Option ChanId) (hk : (s.wayAt l w).tag = some k)
      (room : s.writebacks.length < 2) (hx : x.tag = none ∨ x.tag = some l ∧ Fresh s l) :
      Touch s ((s.addWriteback k d o).setWay l w x)
  /-- An entry is opened for a line that has none. -/
  | opened (e : TableEntry) (room : s.table.length < 4) (hl : s.entryFor e.line = none) (hb : EntryBound e) :
      Touch s { s with table := s.table ++ [e] }
  /-- Entries change within their bounds. -/
  | entries (f : TableEntry → TableEntry) (hl : ∀ e, (f e).line = e.line) (hb : ∀ e, EntryBound e → EntryBound (f e)) :
      Touch s { s with table := s.table.map f }
  /-- Entries end. -/
  | ended (p : TableEntry → Bool) : Touch s { s with table := s.table.filter p }
  /-- Writeback buffer entries change within their bounds. -/
  | writebacks (f : WritebackEntry → WritebackEntry) (hl : ∀ e, (f e).line = e.line)
      (hb : ∀ e, e.retry ≤ 255 → (f e).retry ≤ 255) : Touch s { s with writebacks := s.writebacks.map f }
  /-- Writeback buffer entries leave. -/
  | written (p : WritebackEntry → Bool) : Touch s { s with writebacks := s.writebacks.filter p }
  /-- The posted write queue moves on, or takes an entry where it has room. -/
  | posted (ps : List PostedWrite) (room : ps.length ≤ 8 ∨ ps.length ≤ s.posted.length) : Touch s { s with posted := ps }

/-- A chain of small updates. -/
def Runs (s t : State) : Prop := Relation.ReflTransGen Touch s t

variable {s t u : State}

theorem Runs.refl : Runs s s := Relation.ReflTransGen.refl

theorem Runs.trans (h : Runs s t) (g : Runs t u) : Runs s u := Relation.ReflTransGen.trans h g

/-- A law that each small update keeps is kept by a chain of them. -/
theorem Runs.keeps {P : State → Prop} (step : ∀ {s t}, Touch s t → P s → P t) (h : Runs s t) (hs : P s) : P t := by
  induction h with
  | refl => exact hs
  | tail _ ht ih => exact step ht ih

theorem Runs.fold {β : Type} {f : State → β → State} (h : ∀ s x, Runs s (f s x)) (xs : List β) (s : State) :
    Runs s (xs.foldl f s) := by
  induction xs generalizing s with
  | nil => exact Runs.refl
  | cons x xs ih => exact (h s x).trans (ih _)

theorem Runs.one (h : Touch s t) : Runs s t := Relation.ReflTransGen.single h

/-- An update of the waiting list, the latches, the claims and the counters alone. -/
theorem Runs.aside (h : t = { s with
    waiting := t.waiting, latches := t.latches, reservations := t.reservations, watches := t.watches
    counters := t.counters }) : Runs s t := by
  rw [h]; exact .one (.aside _ _ _ _ _)

/-! ### Heads -/

theorem setPhase_runs (c : ChanId) (ph : HostPhase) : Runs s (s.setPhase c ph) := .one (.head c _ fun _ => ⟨_, rfl⟩)

theorem unwait_runs (who : Who) : Runs s (s.unwait who) := .aside rfl

theorem owePass_runs : Runs s s.owePass := .aside rfl

theorem complete_runs (c : ChanId) (st : Status) (d : List Word) : Runs s (s.complete c st d) :=
  (Runs.one (.head c _ fun _ => ⟨_, rfl⟩)).trans (unwait_runs _)

theorem waitAt_runs (who : Who) (n : Nat) (b d : Bool) : Runs s (s.waitAt who n b d) := .aside rfl

theorem markJoined_runs (who : Who) : Runs s (s.markJoined who) := by
  cases who with
  | chan c => exact setPhase_runs c .joined
  | posted => exact .refl

theorem clearReservation_runs (c : ChanId) : Runs s (s.clearReservation c) := .aside rfl

theorem freeWatch_runs (c : ChanId) : Runs s (s.freeWatch c) := .aside rfl

/-! ### Reports -/

theorem breakReservation_runs (c : ChanId) : Runs s (s.breakReservation c) := by
  unfold State.breakReservation
  simp only
  split
  · exact (clearReservation_runs c).trans (complete_runs c _ _)
  · exact clearReservation_runs c

theorem breakReservations_runs (p : Addr → Bool) : Runs s (s.breakReservations p) :=
  Runs.fold (fun s c => by split; exacts [breakReservation_runs c, .refl]) channels s

theorem watchStore_runs (c : ChanId) (a : Addr) (v : Word) : Runs s (s.watchStore c a v) := by
  unfold State.watchStore
  split
  · split
    · exact (freeWatch_runs c).trans (complete_runs c _ _)
    · exact .refl
  · exact .refl

theorem reportStore_runs (a : Addr) (v : Word) : Runs s (s.reportStore a v) :=
  (breakReservations_runs _).trans (Runs.fold (fun _ c => watchStore_runs c a v) channels _)

theorem watchDepart_runs (c : ChanId) (l : LineAddr) : Runs s (s.watchDepart c l) := by
  unfold State.watchDepart
  split
  · split
    · exact .aside rfl
    · exact .refl
  · exact .refl

theorem depart_runs (l : LineAddr) : Runs s (s.depart l) :=
  (breakReservations_runs _).trans (Runs.fold (fun _ c => watchDepart_runs c l) channels _)

/-! ### The line array -/

theorem touch_runs (l : LineAddr) : Runs s (s.touch l) := by
  unfold State.touch
  split
  · exact .one (.front l _)
  · exact .refl

theorem setLineState_runs (l : LineAddr) (st : LineState) : Runs s (s.setLineState l st) := by
  unfold State.setLineState
  split
  · exact .one (.keep l _ _ rfl)
  · exact .refl

theorem dropTag_runs (l : LineAddr) : Runs s (s.dropTag l) := by
  unfold State.dropTag
  split
  · exact .one (.untag l _ _ rfl)
  · exact .refl

theorem install_runs (l : LineAddr) (st : LineState) (d : LineData) : Runs s (s.install l st d) := by
  unfold State.install
  split
  · rename_i w hw
    exact (Runs.one (.keep l w { tag := some l, state := st, data := d } (findWay_some hw).2.symm)).trans (.one (.front l w))
  · exact .refl

theorem freeFillPending_runs (l : LineAddr) : Runs s (s.freeFillPending l) := by
  unfold State.freeFillPending
  split
  · exact dropTag_runs l
  · exact .refl

theorem writeWay_runs (a : Addr) (v : Word) : Runs s (s.writeWay a v) := by
  unfold State.writeWay
  split
  · exact .one (.keep _ _ _ rfl)
  · exact .refl

theorem storeWord_runs (a : Addr) (v : Word) : Runs s (s.storeWord a v) :=
  ((writeWay_runs a v).trans (touch_runs _)).trans (reportStore_runs a v)

theorem storeMasked_runs {a : Addr} {m : BitVec 8} {v : Word} (h : s.storeMasked a m v = some t) : Runs s t := by
  unfold State.storeMasked at h
  split at h
  · cases h
  · rw [← Option.some.inj h]; exact storeWord_runs _ _

/-! ### Performing -/

theorem popPosted_runs : Runs s s.popPosted := .one (.posted _ (.inr (by simp)))

theorem failPosted_runs (st : Status) : Runs s (s.failPosted st) := by
  unfold State.failPosted
  split
  · exact .refl
  · rename_i p ps hp
    have latched : Runs s { s with latches := s.latches.set p.ch (some (takeFailure s.latches[p.ch] st p.addr)) } :=
      .aside rfl
    exact latched.trans popPosted_runs

theorem performRequest_runs (c : ChanId) (r : Request) : Runs s (s.performRequest c r) := by
  cases r with
  | read a =>
    simp only [State.performRequest, State.performRead]; split
    · exact complete_runs c _ _
    · exact (touch_runs _).trans (complete_runs c _ _)
  | write a m v =>
    simp only [State.performRequest, State.performWrite]; split
    · rename_i h; exact (storeMasked_runs h).trans (complete_runs c _ _)
    · exact complete_runs c _ _
  | posted a m v => exact .refl
  | atomic op a x y =>
    simp only [State.performRequest, State.performAtomic]; split
    · exact complete_runs c _ _
    · split
      · exact (storeWord_runs _ _).trans (complete_runs c _ _)
      · exact (touch_runs _).trans (complete_runs c _ _)
  | reserve a =>
    simp only [State.performRequest, State.performReserve]; split
    · exact .refl
    · split
      · exact complete_runs c _ _
      · have reserved : Runs (s.touch (lineOf a))
            { s.touch (lineOf a) with reservations := s.reservations.set c (some a) } := .aside rfl
        exact ((touch_runs _).trans reserved).trans (complete_runs c _ _)
  | conditional a v =>
    simp only [State.performRequest, State.performConditional]; split
    · exact ((clearReservation_runs c).trans (storeWord_runs _ _)).trans (complete_runs c _ _)
    · exact (clearReservation_runs c).trans (complete_runs c _ _)
  | watch a v n =>
    simp only [State.performRequest, State.performWatch]; split
    · exact .refl
    · split
      · exact (freeWatch_runs c).trans (complete_runs c _ _)
      · split
        · exact ((touch_runs _).trans (freeWatch_runs c)).trans (complete_runs c _ _)
        · refine Runs.trans ?_ (setPhase_runs c .active)
          exact (touch_runs (lineOf a)).trans (.aside rfl)
  | flush a => exact .refl
  | fence => exact (complete_runs c _ _).trans (.aside rfl)
  | probe a => exact complete_runs c _ _
  | status b =>
    simp only [State.performRequest, State.performStatus]; split
    · exact (complete_runs c _ _).trans (.aside rfl)
    · exact complete_runs c _ _
  | undecodable w => exact .refl

theorem performPosted_runs : Runs s s.performPosted := by
  unfold State.performPosted
  split
  · exact .refl
  · split
    · rename_i h; exact (storeMasked_runs h).trans popPosted_runs
    · exact failPosted_runs _

theorem perform_runs (who : Who) : Runs s (s.perform who) := by
  unfold State.perform
  split
  · exact performPosted_runs
  · split
    · exact performRequest_runs _ _
    · exact .refl

theorem failWaiter_runs (st : Status) (who : Who) : Runs s (State.failWaiter st s who) := by
  unfold State.failWaiter
  split
  · exact failPosted_runs st
  · split
    · split
      · exact (clearReservation_runs _).trans (complete_runs _ _ _)
      · exact (freeWatch_runs _).trans (complete_runs _ _ _)
      · exact complete_runs _ _ _
    · exact .refl

theorem resultWaiter_runs (d : DirectOp) (err : Bool) (v : Word) (who : Who) : Runs s (State.resultWaiter d err v s who) := by
  unfold State.resultWaiter
  split
  · split
    · exact failPosted_runs _
    · exact popPosted_runs
  · split
    · exact complete_runs _ _ _
    · split <;> exact complete_runs _ _ _

/-! ### Lookups -/

theorem updateEntry_runs (l : LineAddr) (f : TableEntry → TableEntry) (hl : ∀ e, (f e).line = e.line)
    (hb : ∀ e, EntryBound e → EntryBound (f e)) : Runs s (s.updateEntry l f) :=
  .one (.entries _ (fun e => by split; exacts [hl e, rfl]) (fun e he => by split; exacts [hb e he, he]))

theorem updateWriteback_runs (l : LineAddr) (f : WritebackEntry → WritebackEntry) (hl : ∀ e, (f e).line = e.line)
    (hb : ∀ e, e.retry ≤ 255 → (f e).retry ≤ 255) : Runs s (s.updateWriteback l f) :=
  .one (.writebacks _ (fun e => by split; exacts [hl e, rfl]) (fun e he => by split; exacts [hb e he, he]))

theorem endEntry_runs (l : LineAddr) : Runs s (s.endEntry l) := (Runs.one (.ended _)).trans owePass_runs

theorem entryBound_queued {e : TableEntry} {n : Nat} (hp : e.phase = .queued n) (hr : e.retry ≤ 255) : EntryBound e :=
  { retry := hr
    fill := fun st n h => by rw [hp] at h; cases h
    result := fun n h => by rw [hp] at h; cases h }

theorem addEntry_runs (who : Who) (k : TableKind) (o : Option WayId) {l : LineAddr} (room : s.table.length < 4)
    (hl : s.entryFor l = none) : Runs s (s.addEntry who k o l) :=
  (Runs.one (.opened _ room hl (entryBound_queued rfl (Nat.zero_le _)))).trans (markJoined_runs who)

/-- The reports leave the tables and the lines. -/
theorem depart_table (l : LineAddr) : (s.depart l).table = s.table := by
  unfold State.depart State.breakReservations
  rw [foldl_keeps State.table _ fun s c => ?_, foldl_keeps State.table _ fun s c => ?_]
  · split
    · unfold State.breakReservation; simp only; split <;> rfl
    · rfl
  · unfold State.watchDepart; split
    · split <;> rfl
    · rfl

theorem emptyVictim_table {l : LineAddr} {w : WayId} (h : s.emptyVictim l w = some t) : t.table = s.table := by
  rcases State.emptyVictim_cases h with h | ⟨x, -, -, h | h⟩
  · rw [h.2]; rfl
  · rw [h.2.2]; exact depart_table x
  · rw [h.2]; exact depart_table x

theorem emptyVictim_runs {l : LineAddr} {w : WayId} (hl : Fresh s l) (h : s.emptyVictim l w = some t) : Runs s t := by
  rcases State.emptyVictim_cases h with h | ⟨x, hx, -, h | h⟩
  · rw [h.2]; exact .one (.fill l w _ rfl hl)
  · rw [h.2.2]
    exact (Runs.one (.moveOut l x w _ _ none hx (of_decide_eq_true h.2.1) (.inr ⟨rfl, hl⟩))).trans (depart_runs x)
  · rw [h.2]; exact (Runs.one (.fill l w _ rfl hl)).trans (depart_runs x)

theorem grant_runs {who : Who} {k : TableKind} {l : LineAddr} (h : s.grant who k l = some t) : Runs s t := by
  obtain ⟨room, free, -, ⟨-, rfl⟩ | ⟨w, u, loose, -, hu, rfl⟩⟩ := State.grant_cases h
  · exact addEntry_runs who k none room (by simpa using free)
  · simp only [Bool.or_eq_false_iff] at loose
    obtain ⟨⟨way, writeback⟩, region⟩ := loose
    have fresh : Fresh s l := ⟨by simpa using way, region, by simpa using writeback⟩
    have table := emptyVictim_table hu
    refine (emptyVictim_runs fresh hu).trans (addEntry_runs who k _ (by rw [table]; exact room) ?_)
    unfold State.entryFor
    rw [table]
    simpa [State.entryFor] using free

theorem joinEntry_runs (who : Who) (l : LineAddr) : Runs s (s.joinEntry who l) :=
  (updateEntry_runs l (fun e => { e with waiters := e.waiters ++ [who], orphan := false }) (fun _ => rfl)
    (fun _ h => ⟨h.retry, h.fill, h.result⟩)).trans (markJoined_runs who)

theorem findWay_of_heldDirty {l : LineAddr} (h : s.heldDirty l = true) : ∃ w, s.findWay l = some w := by
  unfold State.heldDirty State.lookup at h
  cases hw : s.findWay l with
  | none => rw [hw] at h; cases h
  | some w => exact ⟨w, rfl⟩

/-- A dirty line moves from its way to the writeback buffer (R17). -/
theorem writeOut_runs {l : LineAddr} (d : LineData) (o : Option ChanId) (h : s.heldDirty l = true)
    (room : s.writebackRoom = true) : Runs s ((s.addWriteback l d o).dropTag l) := by
  obtain ⟨w, hw⟩ := findWay_of_heldDirty h
  have e : (s.addWriteback l d o).dropTag l
      = (s.addWriteback l d o).setWay l w { s.wayAt l w with tag := none, state := .invalid } := by
    have hw' : (s.addWriteback l d o).findWay l = some w := hw
    unfold State.dropTag
    rw [hw']
    rfl
  rw [e]
  exact .one (.moveOut l l w _ d o (findWay_some hw).2 (of_decide_eq_true room) (.inl rfl))

theorem flushHeld_runs (c : ChanId) (n : Nat) (b m : Bool) (l : LineAddr) : Runs s (s.flushHeld c n b m l) := by
  have owed : ∀ {u : State}, Runs s u → Runs s (if b then u.owePass else u) := by
    intro u hu
    split
    · exact hu.trans owePass_runs
    · exact hu
  unfold State.flushHeld
  simp only
  split
  · rename_i hd
    split
    · exact waitAt_runs _ _ _ _
    · rename_i room
      split
      · exact owed ((writeOut_runs _ _ hd (by simpa using room)).trans (depart_runs l))
      · exact waitAt_runs _ _ _ _
  · exact owed (((dropTag_runs l).trans (depart_runs l)).trans (complete_runs c _ _))

theorem finishHead_runs (c : ChanId) (st : Status) : Runs s (s.finishHead c st) := by
  unfold State.finishHead
  split
  · exact (clearReservation_runs c).trans (complete_runs c _ _)
  · exact complete_runs c _ _

theorem applyDecision_runs (who : Who) (n : Nat) (b m : Bool) (l : LineAddr) (d : Decision) :
    Runs s (s.applyDecision who n b m l d) := by
  cases d with
  | perform => exact perform_runs who
  | finish st =>
    cases who with
    | chan c => exact finishHead_runs c st
    | posted => exact .refl
  | join => exact joinEntry_runs who l
  | allocate k =>
    simp only [State.applyDecision]
    split
    · split
      · rename_i h; exact grant_runs h
      · exact waitAt_runs _ _ _ _
    · exact waitAt_runs _ _ _ _
  | flushLine =>
    cases who with
    | chan c => exact flushHeld_runs c n b m l
    | posted => exact .refl
  | flushWaiter =>
    cases who with
    | chan c => exact updateWriteback_runs l _ (fun _ => rfl) (fun _ h => h)
    | posted => exact .refl
  | wait => exact waitAt_runs _ _ _ _

theorem lookupOp_runs (who : Who) (turn : Bool) : Runs s (s.lookupOp who turn) := by
  unfold State.lookupOp
  simp only
  split
  · split
    · exact unwait_runs _
    · exact (unwait_runs _).trans (applyDecision_runs _ _ _ _ _ _)
  · split
    · exact (unwait_runs _).trans (applyDecision_runs _ _ _ _ _ _)
    · exact unwait_runs _

/-! ### Running to rest -/

theorem activate_runs (c : ChanId) : Runs s (s.activate c) := by
  unfold State.activate
  simp only
  split
  · split
    · exact ((setPhase_runs c _).trans (clearReservation_runs c)).trans (lookupOp_runs _ _)
    · exact (setPhase_runs c _).trans (lookupOp_runs _ _)
  · exact setPhase_runs c _

theorem promote_runs (c : ChanId) : Runs s (s.promote c) := by
  unfold State.promote
  split
  · exact .refl
  · split
    · exact complete_runs c _ _
    · split
      · exact setPhase_runs c _
      · split
        · exact setPhase_runs c _
        · exact activate_runs c

theorem enterPosted_runs (c : ChanId) (room : s.posted.length < 8) : Runs s (s.enterPosted c) := by
  unfold State.enterPosted
  split
  · split
    · exact (Runs.one (.posted _ (.inl (by simpa using room)))).trans (complete_runs c _ _)
    · exact .refl
  · exact .refl

theorem nextRule_runs (h : s.nextRule = some t) : Runs s t := by
  unfold State.nextRule State.rulePosted State.ruleDrain State.ruleRoom State.ruleHead State.rulePass at h
  simp only [Option.or_eq_some_iff] at h
  rcases h with h | ⟨-, h | ⟨-, h | ⟨-, h | ⟨-, h⟩⟩⟩⟩
  · split at h
    · rw [← Option.some.inj h]; exact lookupOp_runs _ _
    · cases h
  · obtain ⟨c, -, rfl⟩ := Option.map_eq_some_iff.1 h; exact activate_runs c
  · obtain ⟨c, -, rfl⟩ := Option.map_eq_some_iff.1 h; exact promote_runs c
  · split at h
    · rename_i room
      obtain ⟨c, -, rfl⟩ := Option.map_eq_some_iff.1 h
      exact enterPosted_runs c room
    · cases h
  · obtain ⟨x, -, rfl⟩ := Option.map_eq_some_iff.1 h; exact lookupOp_runs _ _

/-- A happening runs to rest by small updates; what is left is the order of its completions. -/
theorem settleLoop_runs (n : Nat) (s : State) : Runs s (settleLoop n s) := by
  induction n generalizing s with
  | zero => exact .refl
  | succ n ih =>
    unfold settleLoop
    split
    · exact .refl
    · rename_i t ht
      exact (nextRule_runs ht).trans (ih t)

/-! ### Entries that end, and what is snooped -/

theorem giveUpEntry_runs (e : TableEntry) (st : Status) : Runs s (s.giveUpEntry e st) :=
  ((freeFillPending_runs _).trans (Runs.fold (fun _ w => failWaiter_runs st w) _ _)).trans (endEntry_runs _)

theorem installFill_runs (e : TableEntry) (st : LineState) (d : LineData) : Runs s (s.installFill e st d) :=
  ((install_runs _ st d).trans (Runs.fold (fun _ w => perform_runs w) _ _)).trans (endEntry_runs _)

theorem takeResult_runs (e : TableEntry) (d : DirectOp) (err : Bool) (v : Word) : Runs s (s.takeResult e d err v) :=
  (Runs.fold (fun _ w => resultWaiter_runs d err v w) _ _).trans (endEntry_runs _)

theorem matchReply_runs (l : LineAddr) (body : ReplyBody) : Runs s (s.matchReply l body) := by
  have late : Runs s s.raiseLateReplies := .aside rfl
  unfold State.matchReply
  split
  · exact late
  · split
    · split
      · exact installFill_runs _ _ _
      · exact late
    · split
      · split
        · exact takeResult_runs _ _ _ _
        · exact late
      · exact late

theorem takeReply_runs (l : LineAddr) (body : ReplyBody) : Runs s (s.takeReply l body) := by
  unfold State.takeReply
  refine Runs.trans ?_ (matchReply_runs l body)
  split
  · exact .aside rfl
  · exact .refl

theorem expireEntry_runs (e : TableEntry) : Runs s (s.expireEntry e) := (giveUpEntry_runs e _).trans (.aside rfl)

theorem dropWaiter_runs (who : Who) : Runs s (s.dropWaiter who) :=
  .one (.entries _ (fun _ => rfl) (fun _ h => ⟨h.retry, h.fill, h.result⟩))

theorem timeOutWatch_runs (c : ChanId) (w : Watch) : Runs s (s.timeOutWatch c w) :=
  ((freeWatch_runs c).trans (dropWaiter_runs _)).trans (complete_runs c _ _)

theorem failConditionals_runs (ws : List Who) : Runs s (s.failConditionals ws) :=
  Runs.fold (fun s who => by
    cases who with
    | chan c => exact (clearReservation_runs c).trans (complete_runs c _ _)
    | posted => exact .refl) _ s

theorem overtake_runs (e : TableEntry) (way : Option WayId) (rest : List Who) : Runs s (s.overtake e way rest) := by
  unfold State.overtake
  simp only
  split
  · exact (failConditionals_runs _).trans (endEntry_runs _)
  · exact (failConditionals_runs _).trans
      (updateEntry_runs _ _ (fun _ => rfl) (fun _ h => entryBound_queued rfl h.retry))

theorem endPendingFlushes_runs (l : LineAddr) : Runs s (s.endPendingFlushes l) :=
  Runs.fold (fun s c => by
    split
    · split
      · split
        · exact (complete_runs c _ _).trans owePass_runs
        · exact .refl
      · exact .refl
    · exact .refl) channels s

theorem snoopInvalidate_runs (l : LineAddr) : Runs s (s.snoopInvalidate l) := by
  have gone : ∀ {u : State}, Runs s u → Runs s ((u.endPendingFlushes l).depart l) := fun hu =>
    (hu.trans (endPendingFlushes_runs l)).trans (depart_runs l)
  unfold State.snoopInvalidate
  simp only
  split
  · split
    · refine Relation.ReflTransGen.trans (gone ?_) (overtake_runs _ _ _)
      split
      · exact dropTag_runs l
      · exact setLineState_runs l _
    · exact gone (dropTag_runs l)
  · exact gone (dropTag_runs l)

theorem snoopLine_runs (l : LineAddr) (body : RequestBody) : Runs s (s.snoopLine l body) := by
  unfold State.snoopLine
  split
  · split
    · exact setLineState_runs l _
    · exact setLineState_runs l _
    · exact .refl
  · exact snoopInvalidate_runs l
  · exact snoopInvalidate_runs l
  · exact .refl

/-! ### The holder's own verdicts -/

theorem passEntry_runs (e : TableEntry) (v : Verdict) (copy : Bool) : Runs s (s.passEntry e v copy) := by
  unfold State.passEntry
  split
  · exact (((setLineState_runs _ _).trans (touch_runs _)).trans (Runs.fold (fun _ w => perform_runs w) _ _)).trans
      (endEntry_runs _)
  · exact updateEntry_runs _ _ (fun _ => rfl)
      (fun _ h => ⟨h.retry, nofun, fun n hn => by cases hn; exact Nat.le_refl _⟩)
  · exact updateEntry_runs _ _ (fun _ => rfl)
      (fun _ h => ⟨h.retry, fun st n hn => by cases hn; exact Nat.le_refl _, nofun⟩)

end Sys2Proof.Proofs.Updates
end

