-- ==== Sys2Proof/Proofs/Happenings.lean ====
section
/-! PROOFS. What a happening does outside the station's own blocks: to the span interface, the reply queue and the home slice,
as a chain of small deeds; and what a law has to be kept by for every happening to keep it. -/

namespace Sys2Proof.Proofs.Happenings

open Sys2Proof Sys2Proof.Machine Sys2Proof.Proofs.Steps Sys2Proof.Proofs.AtRest Sys2Proof.Proofs.Updates

/-- One small deed at the span interface, the reply queue or the home slice. -/
inductive Deed (s : State) : State → Prop
  | span (sp : Span) (ha : sp.setAside = s.span.setAside) (hr : sp.homeReserved = s.span.homeReserved) :
      Deed s { s with span := sp }
  | count (n : Nat) : Deed s { s with now := n }
  | counters (co : Counters) : Deed s { s with counters := co }
  /-- A reply queue entry is set aside where one is free. -/
  | setAside (l : LineAddr) (h : s.canSetAside l = true) : Deed s { s with span := { s.span with setAside := some l } }
  | freeAside : Deed s { s with span := { s.span with setAside := none } }
  /-- A home operation queue entry is reserved where one is free. -/
  | reserve (h : s.homeRoom = true) : Deed s { s with span := { s.span with homeReserved := true } }
  | freeHome : Deed s { s with span := { s.span with homeReserved := false } }
  /-- The reserved entry becomes an operation. -/
  | convert (op : HomeOp) (h : s.span.homeReserved = true) :
      Deed s { s with span := { s.span with homeReserved := false }, homeQueue := s.homeQueue ++ [op] }
  | popHome : Deed s s.popHome
  | done (d : Option ReplyBody) : Deed s { s with homeDone := d }
  | store (m : HomeMemory) : Deed s { s with homeStore := m }
  /-- The reply queue takes a completion where it has room and none of the line. -/
  | reply (a : StationNo) (l : LineAddr) (b : ReplyBody) (h : s.takesReply l = true) : Deed s (s.addReply a l b)
  /-- The entry set aside becomes a reply. -/
  | snapshot (a : StationNo) (l : LineAddr) (b : ReplyBody) (h : s.span.setAside = some l) :
      Deed s (State.addReply { s with span := { s.span with setAside := none } } a l b)
  | replies (f : ReplyEntry → ReplyEntry) (hl : ∀ r, (f r).line = r.line)
      (hb : (s.replies.map (fun r => r.line)).Nodup → ∀ r ∈ s.replies, r.voids ≤ 255 → (f r).voids ≤ 255) :
      Deed s { s with replies := s.replies.map f }
  | replied (p : ReplyEntry → Bool) : Deed s { s with replies := s.replies.filter p }
  /-- Entries change within their bounds, where each line has one. -/
  | entries (f : TableEntry → TableEntry) (hl : ∀ e, (f e).line = e.line)
      (hb : (s.table.map (fun e => e.line)).Nodup → ∀ e ∈ s.table, EntryBound e → EntryBound (f e)) :
      Deed s { s with table := s.table.map f }

/-- A chain of small deeds. -/
def Quiet (s t : State) : Prop := Relation.ReflTransGen Deed s t

/-- A chain of small deeds and of small updates of the station's own blocks. -/
def Deeds (s t : State) : Prop := Relation.ReflTransGen (fun s t => Touch s t ∨ Deed s t) s t

variable {s t u : State}

theorem Quiet.refl : Quiet s s := Relation.ReflTransGen.refl
theorem Quiet.trans (h : Quiet s t) (g : Quiet t u) : Quiet s u := Relation.ReflTransGen.trans h g
theorem Quiet.one (h : Deed s t) : Quiet s t := Relation.ReflTransGen.single h

theorem Deeds.refl : Deeds s s := Relation.ReflTransGen.refl
theorem Deeds.trans (h : Deeds s t) (g : Deeds t u) : Deeds s u := Relation.ReflTransGen.trans h g
theorem Deeds.one (h : Deed s t) : Deeds s t := Relation.ReflTransGen.single (.inr h)
theorem Deeds.runs (h : Runs s t) : Deeds s t := Relation.ReflTransGen.mono (fun _ _ => .inl) _ _ h
theorem Deeds.quiet (h : Quiet s t) : Deeds s t := Relation.ReflTransGen.mono (fun _ _ => .inr) _ _ h

theorem Quiet.keeps {P : State → Prop} (deed : ∀ {s t}, Deed s t → P s → P t) (h : Quiet s t) (hs : P s) : P t := by
  induction h with
  | refl => exact hs
  | tail _ ht ih => exact deed ht ih

theorem Deeds.keeps {P : State → Prop} (touch : ∀ {s t}, Touch s t → P s → P t) (deed : ∀ {s t}, Deed s t → P s → P t)
    (h : Deeds s t) (hs : P s) : P t := by
  induction h with
  | refl => exact hs
  | tail _ ht ih =>
    rcases ht with ht | ht
    · exact touch ht ih
    · exact deed ht ih

/-! ### Grants and frames -/

theorem homeRoom_of_homeVote {l : LineAddr} {body : RequestBody} (h : s.homeVote l body = true)
    (hu : isUpgradeFrame body = false) : s.homeRoom = true := by
  simp only [State.homeVote, hu, Bool.false_or, Bool.and_eq_true] at h
  exact h.2

/-- The span interface as given, with a home reservation where there was one or there is room for it. -/
theorem quiet_reserve (sp : Span) (b : Bool) (ha : sp.setAside = s.span.setAside)
    (hr : sp.homeReserved = s.span.homeReserved) (hb : b = true → s.homeRoom = true) :
    Quiet s { s with span := { sp with homeReserved := s.span.homeReserved || b } } := by
  have spanned : Quiet s { s with span := sp } := .one (.span sp ha hr)
  cases b with
  | false =>
    rw [Bool.or_false, ← hr]
    exact spanned
  | true =>
    have room : State.homeRoom { s with span := sp } = true := by
      have := hb rfl
      unfold State.homeRoom at this ⊢
      rwa [← hr] at this
    rw [Bool.or_true]
    exact spanned.trans (.one (.reserve room))

theorem homeRoom_of_tenureReserves {c : Candidate} {x : Tenure} (h : s.ownTenure c = some x)
    (hx : tenureReserves x = true) : s.homeRoom = true := by
  unfold State.ownTenure at h
  cases c with
  | reply l =>
    obtain ⟨r, -, rfl⟩ := Option.map_eq_some_iff.1 h
    cases hx
  | entry l =>
    obtain ⟨e, -, rfl⟩ := Option.map_eq_some_iff.1 h
    simp only [tenureReserves, Bool.and_eq_true, Bool.not_eq_true'] at hx
    exact homeRoom_of_homeVote hx.1 hx.2
  | writeback l =>
    obtain ⟨e, -, rfl⟩ := Option.map_eq_some_iff.1 h
    exact homeRoom_of_homeVote hx rfl

theorem takeGrant_quiet (c : Claim) : Quiet s (s.takeGrant c) := by
  unfold State.takeGrant
  split
  · rename_i x hx
    obtain ⟨d, -, hd⟩ := Option.bind_eq_some_iff.1 hx
    exact quiet_reserve { (s.seeFrame s.station.number).span with
      tenure := x, yields := if ownRequest x then none else s.span.yields } (tenureReserves x) rfl rfl
      (homeRoom_of_tenureReserves hd)
  · exact .refl

theorem grantTo_quiet (claim : Option Claim) (r u n : BitVec 16) : Quiet s (s.grantTo claim r u n) := by
  have spent : Quiet s { s with span := { s.span with putForward := none, granted := s.grantHolder claim r u n } } :=
    .one (.span _ rfl rfl)
  unfold State.grantTo
  cases claim with
  | none => exact spent
  | some c =>
    simp only
    split
    · exact spent.trans (takeGrant_quiet c)
    · exact spent

theorem seeFrame_quiet (n : StationNo) : Quiet s (s.seeFrame n) := .one (.span _ rfl rfl)

theorem countCheck_quiet (good : Bool) : Quiet s (s.countCheck good) := by
  rw [countCheck_same]; exact .one (.counters _)

theorem openTenure_quiet (x : Tenure) : Quiet s (s.openTenure x) := .one (.span _ rfl rfl)

theorem heard_quiet (n : StationNo) (good : Bool) : Quiet s ((s.seeFrame n).countCheck good) :=
  (seeFrame_quiet n).trans (countCheck_quiet good)

/-- The entry set aside after the votes on a frame. -/
def asideAfter (s : State) (l : LineAddr) (body : RequestBody) : Option LineAddr :=
  if (s.votesOn l body).supply && s.canSetAside l then some l else s.span.setAside

theorem driveVotes_quiet (n : StationNo) (l : LineAddr) (body : RequestBody) : Quiet s (s.driveVotes n l body) := by
  have aside : Quiet s { s with span := { s.span with setAside := asideAfter s l body } } := by
    unfold asideAfter
    split
    · rename_i h
      simp only [Bool.and_eq_true] at h
      exact .one (.setAside l h.2)
    · exact .one (.span _ rfl rfl)
  refine aside.trans ?_
  exact quiet_reserve (s := { s with span := { s.span with setAside := asideAfter s l body } })
    { s.span with tenure := .peer n l body (s.votesOn l body), setAside := asideAfter s l body }
    ((s.votesOn l body).home && !isUpgradeFrame body) rfl rfl fun hb => by
      simp only [Bool.and_eq_true, Bool.not_eq_true'] at hb
      exact homeRoom_of_homeVote (s := s) hb.1 hb.2

theorem readRequest_quiet (h : Header) (body : RequestBody) (decodes : Bool) : Quiet s (s.readRequest h body decodes) := by
  unfold State.readRequest
  simp only
  split
  · exact (heard_quiet _ _).trans (openTenure_quiet _)
  · split
    · exact (heard_quiet _ _).trans (openTenure_quiet _)
    · exact (heard_quiet _ _).trans (driveVotes_quiet _ _ _)

theorem readReply_quiet (h : Header) (a : StationNo) (body : ReplyBody) : Quiet s (s.readReply h a body) :=
  (heard_quiet _ _).trans (openTenure_quiet _)

theorem readUndecodable_quiet (good : Bool) : Quiet s (s.readUndecodable good) :=
  (heard_quiet _ _).trans (openTenure_quiet _)

/-! ### Verdicts -/

theorem closeTenure_quiet : Quiet s s.closeTenure := .one (.span _ rfl rfl)

theorem arbitrate_quiet : Quiet s s.arbitrate := .one (.span _ rfl rfl)

theorem convertHome_quiet (n : StationNo) (l : LineAddr) (body : RequestBody) (v : Verdict) :
    Quiet s (s.convertHome n l body v) := by
  unfold State.convertHome
  simp only
  split
  · rename_i h
    simp only [Bool.and_eq_true] at h
    split
    · exact .one (.convert _ h.1)
    · exact .one .freeHome
  · exact .one .freeHome

theorem offerDone_quiet : Quiet s s.offerDone := by
  unfold State.offerDone
  split
  · split
    · rename_i h
      exact (Quiet.one (.reply _ _ _ h)).trans (.one .popHome)
    · exact .refl
  · exact .refl

theorem releaseAside_quiet : Quiet s s.releaseAside := by
  unfold State.releaseAside
  split
  · exact (Quiet.one .freeAside).trans offerDone_quiet
  · exact .refl

theorem queueSnapshot_quiet (n : StationNo) (l : LineAddr) : Quiet s (s.queueSnapshot n l) := by
  unfold State.queueSnapshot
  split
  · rename_i h
    simp only [Bool.and_eq_true, decide_eq_true_eq] at h
    exact .one (.snapshot n l _ h.1)
  · exact .refl

theorem snoopVerdict_deeds (n : StationNo) (l : LineAddr) (body : RequestBody) (v : Verdict) :
    Deeds s (s.snoopVerdict n l body v) := by
  have conv : Deeds s (s.convertHome n l body v) := .quiet (convertHome_quiet n l body v)
  have taken : ∀ {u : State}, Deeds s u → Deeds s (if u.heldValid l then u.snoopLine l body else u).releaseAside := by
    intro u hu
    refine Deeds.trans ?_ (.quiet releaseAside_quiet)
    split
    · exact hu.trans (.runs (snoopLine_runs l body))
    · exact hu
  unfold State.snoopVerdict
  cases v with
  | void => exact conv.trans (.quiet releaseAside_quiet)
  | ownerFill => exact taken (conv.trans (.quiet (queueSnapshot_quiet n l)))
  | homeFill => exact taken conv
  | taken => exact taken conv

theorem peerVerdict_deeds (n : StationNo) (l : LineAddr) (body : RequestBody) (mine others : Votes) :
    Deeds s (s.peerVerdict n l body mine others) :=
  ((Deeds.quiet closeTenure_quiet).trans (snoopVerdict_deeds _ _ _ _)).trans (.runs owePass_runs)

theorem ownEnds_deeds (l : LineAddr) (body : RequestBody) (v : Verdict) : Deeds s (s.ownEnds l body v) := by
  refine (Deeds.quiet (closeTenure_quiet.trans (convertHome_quiet s.station.number l body v))).trans ?_
  unfold State.ownEnds State.countVoid
  split
  · exact .one (.counters _)
  · exact .refl

/-- The one entry of a line that an entry's update reaches. -/
theorem eq_of_line_eq {α : Type} {line : α → LineAddr} {xs : List α} (h : (xs.map line).Nodup) {x y : α} (hx : x ∈ xs)
    (hy : y ∈ xs) (e : line x = line y) : x = y :=
  List.inj_on_of_nodup_map h hx hy e

theorem voidEntry_deeds {e : TableEntry} (he : s.entryFor e.line = some e) : Deeds s (s.voidEntry e) := by
  unfold State.voidEntry
  split
  · exact .runs ((freeFillPending_runs _).trans (endEntry_runs _))
  · split
    · exact (Deeds.runs (giveUpEntry_runs e _)).trans (.one (.counters _))
    · rename_i hr
      have hr : e.retry + 1 < 255 := Nat.lt_of_not_le hr
      have queued : Deeds s (s.updateEntry e.line fun e => { e with retry := e.retry + 1, phase := .queued s.now }) := by
        refine .one (.entries _ (fun x => by split <;> rfl) fun hn x hx hb => ?_)
        split
        · rename_i hl
          have : x = e := eq_of_line_eq hn hx (List.mem_of_find?_eq_some he) hl
          subst this
          exact entryBound_queued rfl (by simp only; omega)
        · exact hb
      simp only
      split
      · exact queued.trans (.one (.span _ rfl rfl))
      · exact queued

theorem line_of_entryFor {l : LineAddr} {e : TableEntry} (h : s.entryFor l = some e) : e.line = l := by
  simpa using List.find?_some h

theorem entryVerdict_deeds (l : LineAddr) (v : Verdict) (copy : Bool) : Deeds s (s.entryVerdict l v copy) := by
  unfold State.entryVerdict
  split
  · exact .refl
  · rename_i e he
    split
    · exact voidEntry_deeds (by rw [line_of_entryFor he]; exact he)
    · exact .runs (passEntry_runs e v copy)

theorem writebackVerdict_deeds (l : LineAddr) (v : Verdict) : Deeds s (s.writebackVerdict l v) := by
  unfold State.writebackVerdict
  split
  · exact .refl
  · rename_i e he
    unfold State.returnVerdict
    split
    · have retried : Deeds s (s.updateWriteback e.line
          fun x => { x with retry := min (e.retry + 1) Config.giveUpAt, age := s.now }) :=
        .runs (updateWriteback_runs _ _ (fun _ => rfl) (fun _ _ => Nat.min_le_right _ _))
      simp only
      split
      · exact retried.trans (.one (.span _ rfl rfl))
      · exact retried
    · have written : Runs s (State.owePass { s with writebacks := s.writebacks.filter (fun x => x.line ≠ e.line) }) :=
        (Runs.one (.written _)).trans owePass_runs
      simp only
      split
      · exact .runs (written.trans (complete_runs _ _ _))
      · exact .runs written

theorem removeReply_quiet (l : LineAddr) : Quiet s (s.removeReply l) :=
  (Quiet.one (.replied _)).trans offerDone_quiet

theorem line_of_replyFor {l : LineAddr} {r : ReplyEntry} (h : s.replyFor l = some r) : r.line = l := by
  simpa using List.find?_some h

theorem voidReply_quiet (l : LineAddr) : Quiet s (s.voidReply l) := by
  unfold State.voidReply
  split
  · exact .refl
  · rename_i r hr
    split
    · exact (removeReply_quiet l).trans (.one (.counters _))
    · rename_i hv
      have hv : r.voids + 1 < 255 := Nat.lt_of_not_le hv
      refine .one (.replies _ (fun x => by split <;> rfl) fun hn x hx hb => ?_)
      split
      · rename_i hl
        have : x = r := eq_of_line_eq hn hx (List.mem_of_find?_eq_some hr)
          (hl.trans (line_of_replyFor hr).symm)
        subst this
        simp only; omega
      · exact hb

theorem ownReplyVerdict_quiet (l : LineAddr) (retry : Bool) : Quiet s (s.ownReplyVerdict l retry) := by
  unfold State.ownReplyVerdict
  split
  · exact closeTenure_quiet.trans (voidReply_quiet l)
  · exact closeTenure_quiet.trans (removeReply_quiet l)

theorem peerReplyVerdict_deeds (a : StationNo) (l : LineAddr) (body : ReplyBody) (g r : Bool) :
    Deeds s (s.peerReplyVerdict a l body g r) := by
  unfold State.peerReplyVerdict
  split
  · exact (Deeds.quiet closeTenure_quiet).trans (.runs (takeReply_runs l body))
  · exact .quiet closeTenure_quiet

theorem finishHome_deeds (op : HomeOp) : Deeds s (s.finishHome op) := by
  refine Deeds.trans (.one (.store (homePerform s.homeStore op).1)) ?_
  unfold State.finishHome State.deliverHome
  simp only
  split
  · exact .one .popHome
  · split
    · exact (Deeds.one .popHome).trans (.runs (takeReply_runs _ _))
    · split
      · rename_i h
        exact (Deeds.one (.reply _ _ _ h)).trans (.one .popHome)
      · exact .one (.done _)

/-- The QUEUED entries withdrawn give their ways back, and the others lose their waiters. -/
theorem resetTable_deeds : Deeds s s.resetTable := by
  have freed : Runs s ((s.table.filter s.withdrawn).foldl (fun s e => s.freeFillPending e.line) s) :=
    Runs.fold (fun _ _ => freeFillPending_runs _) _ s
  have table : ((s.table.filter s.withdrawn).foldl (fun s e => s.freeFillPending e.line) s).table = s.table :=
    foldl_keeps State.table (fun (s : State) (e : TableEntry) => s.freeFillPending e.line)
      (fun s e => by
        unfold State.freeFillPending
        split
        · unfold State.dropTag; split <;> rfl
        · rfl) _ s
  unfold State.resetTable
  simp only
  generalize ((s.table.filter s.withdrawn).foldl (fun s e => s.freeFillPending e.line) s) = u at freed table ⊢
  rw [← table]
  have claim : Deeds u { u with span := { u.span with putForward := s.claimLeft } } := .one (.span _ rfl rfl)
  have ended := Touch.ended (s := { u with span := { u.span with putForward := s.claimLeft } }) (fun e => !s.withdrawn e)
  refine (Deeds.runs freed).trans (claim.trans ((Deeds.runs (.one ended)).trans (.runs (.one ?_))))
  exact Touch.entries (fun e => { e with waiters := [], orphan := !e.phase.awaiting }) (fun _ => rfl)
    (fun _ h => ⟨h.retry, h.fill, h.result⟩)

/-! ### A law that every happening keeps -/

/-- What a law `P` has to be kept by for every happening to keep it. While a happening runs, the weaker `Q` stands. -/
structure Law (P Q : State → Prop) : Prop where
  mid : ∀ {s}, P s → Q s
  touch : ∀ {s t}, Touch s t → Q s → Q t
  deed : ∀ {s t}, Deed s t → P s → P t
  deed' : ∀ {s t}, Deed s t → Q s → Q t
  order : ∀ {s}, Q s → P s.orderReady
  queue : ∀ {s} (rest : List Instr), P s → P { s with pending := rest }
  pin : ∀ {s} (b : Bool), s.porst = true → P s → P { s with hrst := b }
  emptied : ∀ {s}, P s → P s.emptied
  released : ∀ {s} (n : StationNo) (k : BitVec 5), P s → P { s.emptied with
    porst := false
    station := { number := n, count := k, mode := modeOfStraps n k, sweep := 0 }
    span := { Span.reset with rotation := k.toNat - 1 } }
  resetPort : ∀ {s}, Q s → Q s.resetPort
  hrstReleased : ∀ {s}, s.hrst = true → P s → P { s with hrst := false, nextPlace := s.placeAfterPosted }
  refuse : ∀ {s} (c : ChanId) (tag : BitVec 8), s.porst = false → s.hrst = false → P s → P (s.refuse c tag)
  accept : ∀ {s} (c : ChanId) (tag : BitVec 8) (r : Request), s.porst = false → s.hrst = false →
    s.hostTable[c].length < 4 → P s → Q (s.accept c tag r)
  emission : ∀ {s t}, s.emission = some t → P s → P t
  sweep : ∀ {s}, P s → P s.sweepLine
  lower : ∀ {s}, P s → P s.lowerTimers

variable {P Q : State → Prop} {i : Instr}

theorem Law.settle (k : Law P Q) (h : Q s) : P s.settle := k.order (Runs.keeps k.touch (settleLoop_runs _ _) h)

theorem Law.deeds (k : Law P Q) (h : Q s) (d : Deeds s t) : Q t := Deeds.keeps k.touch k.deed' d h

theorem Law.quiet (k : Law P Q) (h : P s) (d : Quiet s t) : P t := Quiet.keeps k.deed d h

theorem Law.arbitrate (k : Law P Q) (h : Q s) : P s.settle.arbitrate := k.quiet (k.settle h) arbitrate_quiet

theorem Law.brings (k : Law P Q) (h : P s) (hb : Brings i s t) : P t := by
  have counted : P s.count1 := k.deed (.count _) h
  have mid := k.mid counted
  cases hb with
  | held | discarded => exact h
  | pin b _ hp => exact k.pin b hp h
  | emptied => exact k.emptied h
  | released n c => exact k.released n c h
  | hostReset => exact k.settle (k.resetPort (k.deeds mid resetTable_deeds))
  | hrstReleased _ hh => exact k.hrstReleased (s := s.count1) hh counted
  | refused _ hp hh => exact k.refuse (s := s.count1) _ _ hp hh counted
  | accepted _ hp hh credit => exact k.settle (k.accept (s := s.count1) _ _ _ hp hh credit counted)
  | emitted _ he => exact k.emission he counted
  | granted => exact k.quiet counted (grantTo_quiet _ _ _ _)
  | idleExpired => exact k.deed (.span _ rfl rfl) counted
  | requestFrame => exact k.quiet counted (readRequest_quiet _ _ _)
  | replyFrame => exact k.quiet counted (readReply_quiet _ _ _)
  | strangeFrame => exact k.quiet counted (readUndecodable_quiet _)
  | peerVerdict => exact k.arbitrate (k.deeds mid (peerVerdict_deeds _ _ _ _ _))
  | unreadVerdict => exact k.arbitrate (k.deeds mid (.quiet closeTenure_quiet))
  | entryVerdict => exact k.arbitrate (k.deeds mid ((ownEnds_deeds _ _ _).trans (entryVerdict_deeds _ _ _)))
  | returnVerdict => exact k.arbitrate (k.deeds mid ((ownEnds_deeds _ _ _).trans (writebackVerdict_deeds _ _)))
  | replyVerdict => exact k.arbitrate (k.deeds mid (.quiet (ownReplyVerdict_quiet _ _)))
  | peerReplyVerdict => exact k.arbitrate (k.deeds mid (peerReplyVerdict_deeds _ _ _ _ _))
  | replyExpired => exact k.settle (k.deeds mid (.runs (expireEntry_runs _)))
  | watchExpired => exact k.settle (k.deeds mid (.runs (timeOutWatch_runs _ _)))
  | swept => exact k.sweep counted
  | homeEnded => exact k.settle (k.deeds mid (finishHome_deeds _))

/-- A law that the small updates and deeds keep, and the few happenings that are none, is kept by every step. -/
theorem Law.step (k : Law P Q) (h : P s) (hs : Machine.step s = .next t) : P t :=
  step_keeps
    { brings := k.brings
      queue := k.queue
      count := k.deed (.count _)
      lower := k.lower
      idle := k.deed (.span _ rfl rfl) } h hs

end Sys2Proof.Proofs.Happenings
end

