-- ==== Sys2Proof/Proofs/Places.lean ====
section
/-! PROOFS. Every step keeps each line in one place, and every table, count and recency order within its bounds: each small
update and deed keeps them, under the condition it is made under. -/

namespace Sys2Proof.Proofs.Places

open Sys2Proof Sys2Proof.Machine Sys2Proof.Proofs.AtRest Sys2Proof.Proofs.Updates Sys2Proof.Proofs.Happenings

variable {s t : State}

/-! ### The ways -/

/-- Each line has one way, in its own set, of the cached region, and none while the line is in the writeback buffer. -/
structure Ways (tag : Fin 32 → WayId → Option LineAddr) (out : List WritebackEntry) : Prop where
  set : ∀ i w l, tag i w = some l → setOf l = i
  region : ∀ i w l, tag i w = some l → isDirect l = false
  way : ∀ i w w' l, tag i w = some l → tag i w' = some l → w = w'
  apart : ∀ i w l, tag i w = some l → ∀ e ∈ out, e.line ≠ l

variable {tag tag' : Fin 32 → WayId → Option LineAddr} {out out' : List WritebackEntry}

theorem Ways.sub (h : Ways tag out) (ht : ∀ i w l, tag' i w = some l → tag i w = some l)
    (ho : ∀ e ∈ out', ∃ x ∈ out, x.line = e.line) : Ways tag' out' where
  set i w l hl := h.set i w l (ht i w l hl)
  region i w l hl := h.region i w l (ht i w l hl)
  way i w w' l hl hl' := h.way i w w' l (ht i w l hl) (ht i w' l hl')
  apart i w l hl e he := by
    obtain ⟨x, hx, hxe⟩ := ho e he
    rw [← hxe]
    exact h.apart i w l (ht i w l hl) x hx

/-- A way takes a line that has no place. -/
theorem Ways.fill (h : Ways tag out) {l : LineAddr} {v : WayId} (none : ∀ i w, tag i w ≠ some l)
    (region : isDirect l = false) (apart : ∀ e ∈ out, e.line ≠ l)
    (ht : ∀ i w, tag' i w = if i = setOf l ∧ w = v then some l else tag i w) : Ways tag' out := by
  have cases : ∀ {i w k}, tag' i w = some k → (i = setOf l ∧ w = v ∧ k = l) ∨ (k ≠ l ∧ tag i w = some k) := by
    intro i w k hk
    rw [ht] at hk
    split at hk
    · rename_i hi
      exact .inl ⟨hi.1, hi.2, (Option.some.inj hk).symm⟩
    · exact .inr ⟨fun hkl => none i w (hkl ▸ hk), hk⟩
  refine ⟨fun i w k hk => ?_, fun i w k hk => ?_, fun i w w' k hk hk' => ?_, fun i w k hk => ?_⟩
  · rcases cases hk with ⟨rfl, -, rfl⟩ | ⟨-, hk⟩
    · rfl
    · exact h.set i w k hk
  · rcases cases hk with ⟨-, -, rfl⟩ | ⟨-, hk⟩
    · exact region
    · exact h.region i w k hk
  · rcases cases hk with ⟨-, hw, hl⟩ | ⟨hl, hk⟩ <;> rcases cases hk' with ⟨-, hw', hl'⟩ | ⟨hl', hk'⟩
    · exact hw.trans hw'.symm
    · exact absurd hl hl'
    · exact absurd hl' hl
    · exact h.way i w w' k hk hk'
  · rcases cases hk with ⟨-, -, rfl⟩ | ⟨-, hk⟩
    · exact apart
    · exact h.apart i w k hk

/-- A line that no way carries enters the writeback buffer. -/
theorem Ways.leave (h : Ways tag out) {e : WritebackEntry} (none : ∀ i w, tag i w ≠ some e.line) : Ways tag (out ++ [e]) where
  set := h.set
  region := h.region
  way := h.way
  apart i w l hl x hx := by
    rcases List.mem_append.1 hx with hx | hx
    · exact h.apart i w l hl x hx
    · rw [List.mem_singleton.1 hx]
      exact fun he => none i w (he ▸ hl)

theorem onePlace_iff : s.OnePlace ↔ (s.table.map (fun e => e.line)).Nodup ∧ (s.writebacks.map (fun e => e.line)).Nodup ∧
    (s.replies.map (fun r => r.line) ++ s.span.setAside.toList).Nodup ∧ Ways s.tagAt s.writebacks :=
  ⟨fun h => ⟨h.table, h.writebacks, h.replies, ⟨h.set, h.region, h.way, h.apart⟩⟩,
    fun ⟨ht, hw, hr, h⟩ => ⟨ht, hw, hr, h.set, h.region, h.way, h.apart⟩⟩

theorem tagAt_setWay (l : LineAddr) (w : WayId) (x : Way) (i : Fin 32) (v : WayId) :
    (s.setWay l w x).tagAt i v = if i = setOf l ∧ v = w then x.tag else s.tagAt i v := by
  unfold State.tagAt State.setWay
  by_cases hi : i = setOf l
  · subst hi
    by_cases hv : v = w
    · subst hv; simp
    · have : (w : Nat) ≠ v := fun h => hv (Fin.ext h.symm)
      simp [hv, Vector.getElem_set_ne _ _ this]
  · have : ((setOf l : Fin 32) : Nat) ≠ i := fun h => hi (Fin.ext h.symm)
    simp [hi, Vector.getElem_set_ne _ _ this]

theorem tagAt_touchWay (l : LineAddr) (w : WayId) (i : Fin 32) (v : WayId) :
    (s.touchWay l w).tagAt i v = s.tagAt i v := by
  unfold State.tagAt State.touchWay
  by_cases hi : i = setOf l
  · subst hi; simp
  · have : ((setOf l : Fin 32) : Nat) ≠ i := fun h => hi (Fin.ext h.symm)
    simp [Vector.getElem_set_ne _ _ this]

/-- A line with no place is carried by no way of any set. -/
theorem not_tagged_of_fresh {l : LineAddr} (h : Ways s.tagAt s.writebacks) (hl : Fresh s l) (i : Fin 32) (w : WayId) :
    s.tagAt i w ≠ some l := by
  intro ht
  obtain rfl := h.set i w l ht
  exact findWay_none hl.way hl.region w ht

theorem not_written_of_fresh {l : LineAddr} (hl : Fresh s l) : ∀ e ∈ s.writebacks, e.line ≠ l := by
  have := hl.writeback
  unfold State.writebackFor at this
  rw [List.find?_eq_none] at this
  simpa using this

/-- A line leaves its way for the writeback buffer, and the way is free or takes a line that has no place. -/
theorem ways_moveOut {l k : LineAddr} {w : WayId} {x : Way} {d : LineData} {o : Option ChanId}
    (h : Ways s.tagAt s.writebacks) (hk : (s.wayAt l w).tag = some k) (hx : x.tag = none ∨ x.tag = some l ∧ Fresh s l) :
    Ways ((s.addWriteback k d o).setWay l w x).tagAt (s.addWriteback k d o).writebacks := by
  have hk : s.tagAt (setOf l) w = some k := hk
  have freed : ∃ tag : Fin 32 → WayId → Option LineAddr,
      ∀ i v, tag i v = if i = setOf l ∧ v = w then none else s.tagAt i v := ⟨_, fun _ _ => rfl⟩
  obtain ⟨tag, htag⟩ := freed
  have sub : ∀ i v m, tag i v = some m → s.tagAt i v = some m := by
    intro i v m hm
    rw [htag] at hm
    split at hm
    · cases hm
    · exact hm
  have left : ∀ i v, tag i v ≠ some k := by
    intro i v hv
    obtain rfl := h.set i v k (sub i v k hv)
    have hset := h.set _ _ _ hk
    rw [hset] at hv
    have := h.way _ _ _ _ (sub _ _ _ hv) hk
    rw [htag, if_pos ⟨rfl, this⟩] at hv
    cases hv
  have moved : Ways tag (s.addWriteback k d o).writebacks :=
    (h.sub (out' := s.writebacks) sub fun e he => ⟨e, he, rfl⟩).leave left
  rcases hx with hx | ⟨hx, hl⟩
  · refine moved.sub (fun i v m hm => ?_) fun e he => ⟨e, he, rfl⟩
    rw [tagAt_setWay, hx] at hm
    rw [htag]
    exact hm
  · refine moved.fill (l := l) (v := w) (fun i v hv => not_tagged_of_fresh h hl i v (sub i v l hv)) hl.region ?_ fun i v => ?_
    · intro e he
      rcases List.mem_append.1 he with he | he
      · exact not_written_of_fresh hl e he
      · rw [List.mem_singleton.1 he]
        rintro rfl
        exact not_tagged_of_fresh h hl _ _ hk
    · rw [tagAt_setWay, hx, htag]
      split
      · rfl
      · rfl

theorem nodup_append_of_not_mem {α : Type} {xs : List α} {x : α} (h : xs.Nodup) (hx : x ∉ xs) : (xs ++ [x]).Nodup :=
  List.nodup_append.2 ⟨h, List.nodup_singleton x, fun a ha b hb => by
    rw [List.mem_singleton.1 hb]; rintro rfl; exact hx ha⟩

/-- A line found nowhere in a list of entries. -/
theorem not_mem_lines {α : Type} {line : α → LineAddr} {xs : List α} {l : LineAddr}
    (h : xs.find? (fun x => line x = l) = none) : l ∉ xs.map line := by
  rw [List.find?_eq_none] at h
  simpa using h

/-! ### Each line keeps its one place -/

theorem touch_onePlace (h : Touch s t) (hs : s.OnePlace) : t.OnePlace := by
  obtain ⟨table, out, replies, ways⟩ := onePlace_iff.1 hs
  refine onePlace_iff.2 ?_
  cases h with
  | head | aside | posted => exact ⟨table, out, replies, ways⟩
  | front l w => exact ⟨table, out, replies, ways.sub (fun i v m hm => by rwa [tagAt_touchWay] at hm) fun e he => ⟨e, he, rfl⟩⟩
  | keep l w x hx =>
    refine ⟨table, out, replies, ways.sub (fun i v m hm => ?_) fun e he => ⟨e, he, rfl⟩⟩
    rw [tagAt_setWay, hx] at hm
    split at hm
    · rename_i hi; rw [hi.1, hi.2]; exact hm
    · exact hm
  | untag l w x hx =>
    refine ⟨table, out, replies, ways.sub (fun i v m hm => ?_) fun e he => ⟨e, he, rfl⟩⟩
    rw [tagAt_setWay, hx] at hm
    split at hm
    · cases hm
    · exact hm
  | fill l w x hx hl =>
    exact ⟨table, out, replies, ways.fill (not_tagged_of_fresh ways hl) hl.region (not_written_of_fresh hl)
      fun i v => by rw [tagAt_setWay, hx]⟩
  | moveOut l k w x d o hk room hx =>
    refine ⟨table, ?_, replies, ways_moveOut ways hk hx⟩
    show ((s.writebacks ++ [_]).map (fun e : WritebackEntry => e.line)).Nodup
    rw [List.map_append]
    refine nodup_append_of_not_mem out fun hm => ?_
    obtain ⟨e, he, hek⟩ := List.mem_map.1 hm
    exact ways.apart _ _ _ hk e he hek
  | opened e room hl =>
    refine ⟨?_, out, replies, ways⟩
    rw [List.map_append]
    exact nodup_append_of_not_mem table (not_mem_lines hl)
  | entries f hl => exact ⟨by simpa [Function.comp_def, hl] using table, out, replies, ways⟩
  | ended p => exact ⟨table.sublist (List.filter_sublist.map _), out, replies, ways⟩
  | writebacks f hl =>
    refine ⟨table, by simpa [Function.comp_def, hl] using out, replies, ways.sub (fun _ _ _ h => h) fun e he => ?_⟩
    obtain ⟨x, hx, rfl⟩ := List.mem_map.1 he
    exact ⟨x, hx, (hl x).symm⟩
  | written p =>
    exact ⟨table, out.sublist (List.filter_sublist.map _), replies,
      ways.sub (fun _ _ _ h => h) fun e he => ⟨e, (List.mem_filter.1 he).1, rfl⟩⟩

/-- A line that the reply queue does not hold, held or set aside. -/
theorem not_replying {l : LineAddr} (h : s.replyHolds l = false) :
    l ∉ s.replies.map (fun r => r.line) ∧ s.span.setAside ≠ some l := by
  simp only [State.replyHolds, Bool.or_eq_false_iff, decide_eq_false_iff_not, Option.isSome_eq_false_iff,
    Option.isNone_iff_eq_none] at h
  exact ⟨not_mem_lines h.1, h.2⟩

theorem deed_onePlace (h : Deed s t) (hs : s.OnePlace) : t.OnePlace := by
  obtain ⟨table, out, replies, ways⟩ := onePlace_iff.1 hs
  have held := (List.nodup_append.1 replies).1
  have apart := (List.nodup_append.1 replies).2.2
  refine onePlace_iff.2 ?_
  cases h with
  | span sp ha hr => exact ⟨table, out, by rw [ha]; exact replies, ways⟩
  | count | counters | reserve | freeHome | convert | popHome | done | store => exact ⟨table, out, replies, ways⟩
  | setAside l h =>
    simp only [State.canSetAside, Bool.and_eq_true, Bool.not_eq_true'] at h
    exact ⟨table, out, nodup_append_of_not_mem held (not_replying h.2).1, ways⟩
  | freeAside => exact ⟨table, out, by simpa using held, ways⟩
  | reply a l b h =>
    simp only [State.takesReply, Bool.and_eq_true, Bool.not_eq_true'] at h
    obtain ⟨hl, ha⟩ := not_replying h.2
    refine ⟨table, out, ?_, ways⟩
    show ((s.replies ++ [_]).map (fun r : ReplyEntry => r.line) ++ s.span.setAside.toList).Nodup
    rw [List.map_append, List.append_assoc]
    refine List.nodup_append.2 ⟨held, ?_, ?_⟩
    · cases hsa : s.span.setAside with
      | none => simp
      | some k => simp; rintro rfl; exact ha hsa
    · intro x hx y hy
      rcases List.mem_append.1 hy with hy | hy
      · rw [List.mem_singleton.1 hy]; rintro rfl; exact hl hx
      · exact apart x hx y hy
  | snapshot a l b h =>
    refine ⟨table, out, ?_, ways⟩
    show ((s.replies ++ [_]).map (fun r : ReplyEntry => r.line) ++ [].toArray.toList).Nodup
    rw [h] at replies
    simpa using replies
  | replies f hl => exact ⟨table, out, by simpa [Function.comp_def, hl] using replies, ways⟩
  | replied p =>
    refine ⟨table, out, ?_, ways⟩
    exact replies.sublist ((List.filter_sublist.map _).append (List.Sublist.refl _))
  | entries f hl => exact ⟨by simpa [Function.comp_def, hl] using table, out, replies, ways⟩

/-- A law of the tables and the line array: rest of the state takes no part. -/
theorem onePlace_same (h : s.OnePlace) (hl : t.lines = s.lines) (ht : t.table = s.table)
    (hw : t.writebacks = s.writebacks) (hr : t.replies = s.replies) (ha : t.span.setAside = s.span.setAside) :
    t.OnePlace := by
  have tags : t.tagAt = s.tagAt := by funext i w; unfold State.tagAt; rw [hl]
  obtain ⟨table, out, replies, ways⟩ := onePlace_iff.1 h
  exact onePlace_iff.2 ⟨ht ▸ table, hw ▸ out, by rw [hr, ha]; exact replies, by rw [tags, hw]; exact ways⟩

/-- A station with free ways and empty tables. -/
theorem onePlace_empty (hl : ∀ i w, s.tagAt i w = none) (ht : s.table = []) (hw : s.writebacks = [])
    (hr : s.replies = []) (ha : s.span.setAside = none) : s.OnePlace := by
  have none : ∀ {i w l}, s.tagAt i w ≠ some l := fun {i w l} h => by rw [hl] at h; cases h
  exact onePlace_iff.2 ⟨by rw [ht]; simp, by rw [hw]; simp, by rw [hr, ha]; simp,
    ⟨fun _ _ _ h => absurd h none, fun _ _ _ h => absurd h none, fun _ _ _ _ h => absurd h none,
      fun _ _ _ h => absurd h none⟩⟩

theorem tagAt_reset (i : Fin 32) (w : WayId) : State.reset.tagAt i w = none := by
  simp [State.tagAt, State.reset, CacheSet.reset, Way.free]

/-- The host port's tables take no part, but for the flush waiters of the writeback buffer. -/
theorem onePlace_resetPort (h : s.OnePlace) : s.resetPort.OnePlace := by
  have cleared := touch_onePlace (.writebacks (fun e => { e with flush := none }) (fun _ => rfl) (fun _ h => h)) h
  exact onePlace_same cleared rfl rfl rfl rfl rfl

theorem onePlace_emission (he : s.emission = some t) (h : s.OnePlace) : t.OnePlace := by
  rcases emission_cases he with ⟨c, e, r, -, -, rfl, -⟩ | ⟨c, r, -, rfl, -⟩ <;> exact onePlace_same h rfl rfl rfl rfl rfl

/-- The timers run on the phases of the entries. -/
theorem lowerTimers_quiet (s : State) : ∃ u, Quiet s u ∧ s.lowerTimers = { u with watches := s.lowerTimers.watches } := by
  refine ⟨{ s with table := s.lowerTimers.table, span := s.lowerTimers.span }, ?_, rfl⟩
  have entries : Quiet s { s with table := s.lowerTimers.table } := by
    refine .one (.entries _ (fun _ => rfl) fun _ e _ hb => ?_)
    obtain ⟨retry, fill, result⟩ := hb
    refine ⟨retry, fun st n hn => ?_, fun n hn => ?_⟩
    all_goals
      cases hp : e.phase with
      | _ => simp [Phase.lowered, hp] at hn <;> grind
  exact entries.trans (.one (.span _ rfl rfl))

/-- The law of one place, kept by small updates and deeds. -/
theorem onePlace_law : Law State.OnePlace State.OnePlace where
  mid h := h
  touch := touch_onePlace
  deed := deed_onePlace
  deed' := deed_onePlace
  order h := onePlace_same h rfl rfl rfl rfl rfl
  queue _ h := onePlace_same h rfl rfl rfl rfl rfl
  pin _ _ h := onePlace_same h rfl rfl rfl rfl rfl
  emptied _ := onePlace_empty tagAt_reset rfl rfl rfl rfl
  released _ _ _ := onePlace_empty tagAt_reset rfl rfl rfl rfl
  resetPort := onePlace_resetPort
  hrstReleased _ h := onePlace_same h rfl rfl rfl rfl rfl
  refuse c tag _ _ h := by
    unfold State.refuse
    split <;> exact onePlace_same h rfl rfl rfl rfl rfl
  accept _ _ _ _ _ _ h := onePlace_same h rfl rfl rfl rfl rfl
  emission := onePlace_emission
  sweep h := onePlace_same h rfl rfl rfl rfl rfl
  lower {s} h := by
    obtain ⟨u, hu, he⟩ := lowerTimers_quiet s
    rw [he]
    exact onePlace_same (Quiet.keeps deed_onePlace hu h) rfl rfl rfl rfl rfl

/-- Settles O54: each small update and deed keeps each line in one place. -/
theorem stepsKeepOnePlace : Obligations.StepsKeepOnePlace := fun _ _ => onePlace_law.step

/-! ### Bounds -/

/-- Every table, count and recency order within its bounds, and each line in one place. -/
structure Bounds (s : State) : Prop where
  capacity : s.Capacity
  entries : ∀ e ∈ s.table, EntryBound e
  writebacks : ∀ e ∈ s.writebacks, e.retry ≤ 255
  replies : ∀ r ∈ s.replies, r.voids ≤ 255
  recency : s.Recency
  places : s.OnePlace

theorem bounds_iff : Bounds s ↔ s.Capacity ∧ s.Counts ∧ s.Recency ∧ s.OnePlace :=
  ⟨fun h => ⟨h.capacity, ⟨fun e he => (h.entries e he).retry, h.writebacks, h.replies,
      fun e he => (h.entries e he).fill, fun e he => (h.entries e he).result⟩, h.recency, h.places⟩,
    fun ⟨cap, cnt, rec, one⟩ => ⟨cap, fun e he => ⟨cnt.table e he, cnt.fills e he, cnt.results e he⟩, cnt.writebacks,
      cnt.replies, rec, one⟩⟩

theorem order_setWay (l : LineAddr) (w : WayId) (x : Way) (i : Fin 32) :
    (s.setWay l w x).lines[i].order = s.lines[i].order := by
  unfold State.setWay
  by_cases hi : i = setOf l
  · subst hi; simp
  · have : ((setOf l : Fin 32) : Nat) ≠ i := fun h => hi (Fin.ext h.symm)
    simp [Vector.getElem_set_ne _ _ this]

theorem recency_setWay (l : LineAddr) (w : WayId) (x : Way) (h : s.Recency) : (s.setWay l w x).Recency := fun i => by
  rw [order_setWay]; exact h i

/-- A move to the front keeps each way once in the order (R6). -/
theorem recency_touchWay (l : LineAddr) (w : WayId) (h : s.Recency) : (s.touchWay l w).Recency := by
  intro i
  unfold State.touchWay
  by_cases hi : i = setOf l
  · subst hi
    have mem : w ∈ s.lines[setOf l].order := (h (setOf l)).mem_iff.2 (by fin_cases w <;> simp [wayIds])
    simpa using (List.perm_cons_erase mem).symm.trans (h (setOf l))
  · have : ((setOf l : Fin 32) : Nat) ≠ i := fun h => hi (Fin.ext h.symm)
    simpa [Vector.getElem_set_ne _ _ this] using h i

theorem mapFirst_length {α : Type} (p : α → Bool) (f : α → α) (xs : List α) : (mapFirst p f xs).length = xs.length := by
  induction xs with
  | nil => rfl
  | cons x xs ih =>
    unfold mapFirst
    split
    · rfl
    · simp [ih]

theorem touch_capacity (h : Touch s t) (hs : s.Capacity) : t.Capacity := by
  obtain ⟨table, writebacks, replies, homeQueue, posted, channels⟩ := hs
  cases h with
  | head c f =>
    refine ⟨table, writebacks, replies, homeQueue, posted, fun d => ?_⟩
    unfold State.updateHead
    by_cases hd : c = d
    · subst hd; simpa [mapFirst_length] using channels c
    · have : (c : Nat) ≠ d := fun h => hd (Fin.ext h)
      simpa [Vector.getElem_set_ne _ _ this] using channels d
  | aside | front | keep | untag | fill => exact ⟨table, writebacks, replies, homeQueue, posted, channels⟩
  | moveOut l k w x d o hk room =>
    refine ⟨table, ?_, replies, homeQueue, posted, channels⟩
    simp only [State.setWay_writebacks, State.addWriteback, List.length_append, List.length_singleton]
    omega
  | opened e room =>
    refine ⟨?_, writebacks, replies, homeQueue, posted, channels⟩
    simp only [List.length_append, List.length_singleton]
    omega
  | entries f => exact ⟨by simpa using table, writebacks, replies, homeQueue, posted, channels⟩
  | ended p => exact ⟨(List.length_filter_le _ _).trans table, writebacks, replies, homeQueue, posted, channels⟩
  | writebacks f => exact ⟨table, by simpa using writebacks, replies, homeQueue, posted, channels⟩
  | written p => exact ⟨table, (List.length_filter_le _ _).trans writebacks, replies, homeQueue, posted, channels⟩
  | posted ps room => exact ⟨table, writebacks, replies, homeQueue, by show ps.length ≤ 8; omega, channels⟩

theorem touch_bounds (h : Touch s t) (hs : Bounds s) : Bounds t := by
  have capacity := touch_capacity h hs.capacity
  have places := touch_onePlace h hs.places
  obtain ⟨-, entries, writebacks, replies, recency, -⟩ := hs
  cases h with
  | head | aside | posted => exact ⟨capacity, entries, writebacks, replies, recency, places⟩
  | front l w => exact ⟨capacity, entries, writebacks, replies, recency_touchWay l w recency, places⟩
  | keep l w x | untag l w x | fill l w x =>
    exact ⟨capacity, entries, writebacks, replies, recency_setWay l w x recency, places⟩
  | moveOut l k w x =>
    refine ⟨capacity, entries, fun e he => ?_, replies, recency_setWay l w x recency, places⟩
    rcases List.mem_append.1 he with he | he
    · exact writebacks e he
    · rw [List.mem_singleton.1 he]; exact Nat.zero_le _
  | opened e room hl hb =>
    refine ⟨capacity, fun x hx => ?_, writebacks, replies, recency, places⟩
    rcases List.mem_append.1 hx with hx | hx
    · exact entries x hx
    · rw [List.mem_singleton.1 hx]; exact hb
  | entries f hl hb =>
    refine ⟨capacity, fun x hx => ?_, writebacks, replies, recency, places⟩
    obtain ⟨y, hy, rfl⟩ := List.mem_map.1 hx
    exact hb y (entries y hy)
  | ended p =>
    exact ⟨capacity, fun x hx => entries x (List.mem_filter.1 hx).1, writebacks, replies, recency, places⟩
  | writebacks f hl hb =>
    refine ⟨capacity, entries, fun x hx => ?_, replies, recency, places⟩
    obtain ⟨y, hy, rfl⟩ := List.mem_map.1 hx
    exact hb y (writebacks y hy)
  | written p =>
    exact ⟨capacity, entries, fun x hx => writebacks x (List.mem_filter.1 hx).1, replies, recency, places⟩

theorem replies_lt_of_room (h : s.replyRoom = true) :
    s.replies.length + (if s.span.setAside.isSome then 1 else 0) < 4 := of_decide_eq_true h

theorem deed_capacity (h : Deed s t) (hs : s.Capacity) : t.Capacity := by
  obtain ⟨table, writebacks, replies, homeQueue, posted, channels⟩ := hs
  cases h with
  | span sp ha hr => exact ⟨table, writebacks, by rw [ha]; exact replies, by rw [hr]; exact homeQueue, posted, channels⟩
  | count | counters | done | store => exact ⟨table, writebacks, replies, homeQueue, posted, channels⟩
  | setAside l h =>
    simp only [State.canSetAside, Bool.and_eq_true] at h
    have := replies_lt_of_room h.1
    exact ⟨table, writebacks, by show s.replies.length + 1 ≤ 4; omega, homeQueue, posted, channels⟩
  | freeAside => exact ⟨table, writebacks, by show s.replies.length + 0 ≤ 4; omega, homeQueue, posted, channels⟩
  | reserve h =>
    have h : s.homeQueue.length + (if s.span.homeReserved then 1 else 0) < 6 := of_decide_eq_true h
    exact ⟨table, writebacks, replies, by show s.homeQueue.length + 1 ≤ 6; omega, posted, channels⟩
  | freeHome => exact ⟨table, writebacks, replies, by show s.homeQueue.length + 0 ≤ 6; omega, posted, channels⟩
  | convert op h =>
    rw [h] at homeQueue
    exact ⟨table, writebacks, replies, by simpa using homeQueue, posted, channels⟩
  | popHome =>
    refine ⟨table, writebacks, replies, ?_, posted, channels⟩
    have : s.popHome.homeQueue.length ≤ s.homeQueue.length := by simp [State.popHome]
    show s.popHome.homeQueue.length + (if s.span.homeReserved then 1 else 0) ≤ 6
    omega
  | reply a l b h =>
    simp only [State.takesReply, Bool.and_eq_true] at h
    have := replies_lt_of_room h.1
    refine ⟨table, writebacks, ?_, homeQueue, posted, channels⟩
    show (s.replies ++ [_]).length + (if s.span.setAside.isSome then 1 else 0) ≤ 4
    rw [List.length_append, List.length_singleton]
    omega
  | snapshot a l b h =>
    rw [h] at replies
    exact ⟨table, writebacks, by simpa [State.addReply] using replies, homeQueue, posted, channels⟩
  | replies f => exact ⟨table, writebacks, by simpa using replies, homeQueue, posted, channels⟩
  | replied p =>
    have := List.length_filter_le p s.replies
    refine ⟨table, writebacks, ?_, homeQueue, posted, channels⟩
    show (s.replies.filter p).length + (if s.span.setAside.isSome then 1 else 0) ≤ 4
    omega
  | entries f => exact ⟨by simpa using table, writebacks, replies, homeQueue, posted, channels⟩

theorem deed_bounds (h : Deed s t) (hs : Bounds s) : Bounds t := by
  have capacity := deed_capacity h hs.capacity
  have places := deed_onePlace h hs.places
  obtain ⟨-, entries, writebacks, replies, recency, one⟩ := hs
  cases h with
  | reply a l b | snapshot a l b =>
    refine ⟨capacity, entries, writebacks, fun r hr => ?_, recency, places⟩
    rcases List.mem_append.1 hr with hr | hr
    · exact replies r hr
    · rw [List.mem_singleton.1 hr]; exact Nat.zero_le _
  | replies f hl hb =>
    refine ⟨capacity, entries, writebacks, fun r hr => ?_, recency, places⟩
    obtain ⟨x, hx, rfl⟩ := List.mem_map.1 hr
    exact hb (List.nodup_append.1 one.replies).1 x hx (replies x hx)
  | replied p =>
    exact ⟨capacity, entries, writebacks, fun r hr => replies r (List.mem_filter.1 hr).1, recency, places⟩
  | entries f hl hb =>
    refine ⟨capacity, fun x hx => ?_, writebacks, replies, recency, places⟩
    obtain ⟨y, hy, rfl⟩ := List.mem_map.1 hx
    exact hb one.table y hy (entries y hy)
  | _ => exact ⟨capacity, entries, writebacks, replies, recency, places⟩

/-- Beside the tables, only the lengths of the queues and of the channels' lists count. -/
theorem bounds_same (h : Bounds s) (places : t.OnePlace) (hl : t.lines = s.lines) (ht : t.table = s.table)
    (hw : t.writebacks = s.writebacks) (hr : t.replies = s.replies) (hs : t.span = s.span)
    (hq : t.homeQueue = s.homeQueue) (hp : t.posted = s.posted)
    (hc : ∀ c : ChanId, t.hostTable[c].length ≤ 4) : Bounds t := by
  obtain ⟨⟨table, writebacks, replies, homeQueue, posted, -⟩, entries, wb, rp, recency, -⟩ := h
  exact ⟨⟨by rwa [ht], by rwa [hw], by rwa [hr, hs], by rwa [hq, hs], by rwa [hp], hc⟩, by rwa [ht], by rwa [hw], by rwa [hr],
    fun i => by rw [hl]; exact recency i, places⟩

theorem order_reset (i : Fin 32) : State.reset.lines[i].order = [0, 1, 2, 3] := by
  simp [State.reset, CacheSet.reset]

theorem bounds_empty (hl : s.lines = State.reset.lines) (ht : s.table = []) (hw : s.writebacks = []) (hr : s.replies = [])
    (ha : s.span.setAside = none) (hh : s.span.homeReserved = false) (hq : s.homeQueue = []) (hp : s.posted = [])
    (hc : ∀ c : ChanId, s.hostTable[c] = []) : Bounds s where
  capacity := ⟨by simp [ht], by simp [hw], by simp [hr, ha], by simp [hq, hh], by simp [hp], fun c => by simp [hc c]⟩
  entries := by rw [ht]; exact fun _ => nofun
  writebacks := by rw [hw]; exact fun _ => nofun
  replies := by rw [hr]; exact fun _ => nofun
  recency i := by rw [hl, order_reset]; exact List.Perm.refl _
  places := onePlace_empty (fun i w => by unfold State.tagAt; rw [hl]; exact tagAt_reset i w) ht hw hr ha

theorem bounds_resetPort (h : Bounds s) : Bounds s.resetPort := by
  have cleared := touch_bounds (.writebacks (fun e => { e with flush := none }) (fun _ => rfl) (fun _ h => h)) h
  exact bounds_same cleared (onePlace_resetPort h.places) rfl rfl rfl rfl rfl rfl rfl
    (fun c => by simp [State.resetPort])

theorem bounds_emission (he : s.emission = some t) (h : Bounds s) : Bounds t := by
  have places := onePlace_emission he h.places
  rcases emission_cases he with ⟨c, e, r, -, -, rfl, -⟩ | ⟨c, r, -, rfl, -⟩
  · refine bounds_same h places rfl rfl rfl rfl rfl rfl rfl fun d => ?_
    have := h.capacity.channels d
    unfold State.emitAccepted
    by_cases hd : c = d
    · subst hd; simp at this ⊢; omega
    · have hd : (c : Nat) ≠ d := fun h => hd (Fin.ext h)
      simpa [Vector.getElem_set_ne _ _ hd] using this
  · exact bounds_same h places rfl rfl rfl rfl rfl rfl rfl h.capacity.channels

/-- A record takes a credit of its channel. -/
theorem bounds_accept {c : ChanId} {tag : BitVec 8} {r : Request} (credit : s.hostTable[c].length < 4) (h : Bounds s) :
    Bounds (s.accept c tag r) := by
  refine bounds_same h (onePlace_same h.places rfl rfl rfl rfl rfl) rfl rfl rfl rfl rfl rfl rfl fun d => ?_
  have := h.capacity.channels d
  unfold State.accept
  by_cases hd : c = d
  · subst hd; simp at credit ⊢; omega
  · have hd : (c : Nat) ≠ d := fun h => hd (Fin.ext h)
    simpa [Vector.getElem_set_ne _ _ hd] using this

/-- The law of the bounds, kept by small updates and deeds. -/
theorem bounds_law : Law Bounds Bounds where
  mid h := h
  touch := touch_bounds
  deed := deed_bounds
  deed' := deed_bounds
  order h := bounds_same h (onePlace_same h.places rfl rfl rfl rfl rfl) rfl rfl rfl rfl rfl rfl rfl h.capacity.channels
  queue _ h := bounds_same h (onePlace_same h.places rfl rfl rfl rfl rfl) rfl rfl rfl rfl rfl rfl rfl h.capacity.channels
  pin _ _ h := bounds_same h (onePlace_same h.places rfl rfl rfl rfl rfl) rfl rfl rfl rfl rfl rfl rfl h.capacity.channels
  emptied {s} _ := bounds_empty rfl rfl rfl rfl rfl rfl rfl rfl (emptied_hostTable (s := s))
  released {s} _ _ _ := bounds_empty rfl rfl rfl rfl rfl rfl rfl rfl (emptied_hostTable (s := s))
  resetPort := bounds_resetPort
  hrstReleased _ h :=
    bounds_same h (onePlace_same h.places rfl rfl rfl rfl rfl) rfl rfl rfl rfl rfl rfl rfl h.capacity.channels
  refuse c tag _ _ h := by
    unfold State.refuse
    split <;> exact
      bounds_same h (onePlace_same h.places rfl rfl rfl rfl rfl) rfl rfl rfl rfl rfl rfl rfl h.capacity.channels
  accept _ _ _ _ _ credit h := bounds_accept credit h
  emission := bounds_emission
  sweep h := bounds_same h (onePlace_same h.places rfl rfl rfl rfl rfl) rfl rfl rfl rfl rfl rfl rfl h.capacity.channels
  lower {s} h := by
    obtain ⟨u, hu, he⟩ := lowerTimers_quiet s
    have hu := Quiet.keeps deed_bounds hu h
    rw [he]
    exact bounds_same hu (onePlace_same hu.places rfl rfl rfl rfl rfl) rfl rfl rfl rfl rfl rfl rfl hu.capacity.channels

/-- Settles O53: each small update and deed keeps the bounds, for it is made where there is room. -/
theorem stepsKeepTheBounds : Obligations.StepsKeepTheBounds := fun _ _ h hs =>
  bounds_iff.1 (bounds_law.step (bounds_iff.2 h) hs)

end Sys2Proof.Proofs.Places
end

