-- ==== Sys2Proof/Proofs/CompletionOrder.lean ====
section
/-! PROOFS. The completion order and the host request table stay in agreement (R114, R118), and what one command adds to the
order. While a happening runs, the order names the oldest of a channel's ready completions; `orderReady` adds the others. -/

namespace Sys2Proof.Proofs.CompletionOrder

open Sys2Proof Sys2Proof.Machine Sys2Proof.Proofs.Steps Sys2Proof.Proofs.AtRest Sys2Proof.Proofs.Updates
open Sys2Proof.Proofs.Happenings Sys2Proof.Proofs.Places

variable {s t : State}

/-! ### The rising order of a key -/

theorem sortBy_perm {α : Type} (key : α → Nat) (xs : List α) : (sortBy key xs).Perm xs := by
  have folded : ∀ acc, (xs.foldl (fun acc x => insertBy key x acc) acc).Perm (xs ++ acc) := by
    induction xs with
    | nil => exact fun acc => List.Perm.refl acc
    | cons x xs ih => exact fun acc => (ih _).trans (((insertBy_perm key x acc).append_left xs).trans List.perm_middle)
  simpa [sortBy] using folded []

theorem insertBy_sorted {α : Type} (key : α → Nat) (x : α) {xs : List α}
    (h : xs.Pairwise (fun y z => key y ≤ key z)) : (insertBy key x xs).Pairwise (fun y z => key y ≤ key z) := by
  induction xs with
  | nil => simp [insertBy]
  | cons y ys ih =>
    have ⟨hy, hys⟩ := List.pairwise_cons.1 h
    unfold insertBy
    split
    · rename_i hx
      refine List.pairwise_cons.2 ⟨fun z hz => ?_, h⟩
      rcases List.mem_cons.1 hz with rfl | hz
      · exact hx.le
      · exact hx.le.trans (hy z hz)
    · rename_i hx
      refine List.pairwise_cons.2 ⟨fun z hz => ?_, ih hys⟩
      rcases List.mem_cons.1 ((insertBy_perm key x ys).mem_iff.1 hz) with rfl | hz
      · exact Nat.le_of_not_lt hx
      · exact hy z hz

theorem sortBy_sorted {α : Type} (key : α → Nat) (xs : List α) :
    (sortBy key xs).Pairwise (fun y z => key y ≤ key z) := by
  have folded : ∀ acc : List α, acc.Pairwise (fun y z => key y ≤ key z) →
      (xs.foldl (fun acc x => insertBy key x acc) acc).Pairwise (fun y z => key y ≤ key z) := by
    induction xs with
    | nil => exact fun acc h => h
    | cons x xs ih => exact fun acc h => ih _ (insertBy_sorted key x h)
  exact folded [] List.Pairwise.nil

/-! ### What `orderReady` adds -/

/-- The ready completions of all channels, each with its place. -/
def readyPlaces (s : State) : List (ChanId × Nat) :=
  channels.flatMap (fun c => (s.hostTable[c].filter (fun e => !e.isOpen)).map (fun e => (c, e.place)))

/-- Those of them that the completion order does not name. -/
def unordered (s : State) : List (ChanId × Nat) :=
  (readyPlaces s).filter (fun x => !s.readyOrder.contains (.accepted x.1 x.2))

theorem freshReady_eq (s : State) :
    s.freshReady = (sortBy (fun x => x.2) (unordered s)).map (fun x => ReadyToken.accepted x.1 x.2) := rfl

theorem mem_channels (c : ChanId) : c ∈ channels := by
  revert c; decide

theorem mem_readyPlaces {c : ChanId} {n : Nat} :
    (c, n) ∈ readyPlaces s ↔ ∃ e ∈ s.hostTable[c], e.isOpen = false ∧ e.place = n := by
  simp only [readyPlaces, List.mem_flatMap, List.mem_map, List.mem_filter, Prod.mk.injEq, Bool.not_eq_true']
  constructor
  · rintro ⟨d, -, e, ⟨he, ho⟩, rfl, hn⟩
    exact ⟨e, he, ho, hn⟩
  · rintro ⟨e, he, ho, hn⟩
    exact ⟨c, mem_channels c, e, ⟨he, ho⟩, rfl, hn⟩

theorem mem_unordered {c : ChanId} {n : Nat} : (c, n) ∈ sortBy (fun x => x.2) (unordered s) ↔
    (∃ e ∈ s.hostTable[c], e.isOpen = false ∧ e.place = n) ∧ .accepted c n ∉ s.readyOrder := by
  rw [(sortBy_perm _ _).mem_iff, unordered, List.mem_filter, mem_readyPlaces]
  simp

/-! ### One channel's part of the completion order -/

/-- The places of a channel's accepted requests in the completion order. -/
def placesIn (c : ChanId) (o : List ReadyToken) : List Nat :=
  o.filterMap (fun x => match x with
    | .accepted d n => if d = c then some n else none
    | .refused _ => none)

theorem placesIn_append (c : ChanId) (o p : List ReadyToken) : placesIn c (o ++ p) = placesIn c o ++ placesIn c p := by
  unfold placesIn; exact List.filterMap_append

theorem mem_placesIn {c : ChanId} {n : Nat} {o : List ReadyToken} : n ∈ placesIn c o ↔ .accepted c n ∈ o := by
  unfold placesIn
  rw [List.mem_filterMap]
  constructor
  · rintro ⟨x, hx, h⟩
    cases x with
    | accepted d m => simp only [Option.ite_none_right_eq_some, Option.some.injEq] at h; rwa [h.1, h.2] at hx
    | refused d => cases h
  · exact fun h => ⟨_, h, by simp⟩

/-- The places of one channel among places of all channels. -/
def placesOf (c : ChanId) (xs : List (ChanId × Nat)) : List Nat := xs.filterMap (fun x => if x.1 = c then some x.2 else none)

theorem placesIn_accepted (c : ChanId) (xs : List (ChanId × Nat)) :
    placesIn c (xs.map (fun x => ReadyToken.accepted x.1 x.2)) = placesOf c xs := by
  unfold placesIn placesOf; rw [List.filterMap_map]; rfl

theorem placesOf_tagged (c d : ChanId) (ns : List HostEntry) :
    placesOf c (ns.map (fun e => (d, e.place))) = if d = c then ns.map (fun e => e.place) else [] := by
  unfold placesOf
  rw [List.filterMap_map]
  split
  · rename_i h; simp [h]
  · rename_i h; simp [h]

theorem placesOf_readyPlaces (c : ChanId) :
    placesOf c (readyPlaces s) = (s.hostTable[c].filter (fun e => !e.isOpen)).map (fun e => e.place) := by
  have split : placesOf c (readyPlaces s) = channels.flatMap (fun d =>
      if d = c then (s.hostTable[d].filter (fun e => !e.isOpen)).map (fun e => e.place) else []) := by
    unfold readyPlaces placesOf
    rw [List.filterMap_flatMap]
    exact List.flatMap_congr fun d _ => placesOf_tagged c d _
  rw [split]
  fin_cases c <;> simp [channels]

theorem placesOf_unordered (c : ChanId) : placesOf c (unordered s) =
    ((s.hostTable[c].filter (fun e => !e.isOpen)).map (fun e => e.place)).filter (fun n => n ∉ placesIn c s.readyOrder) := by
  rw [← placesOf_readyPlaces]
  unfold unordered placesOf
  rw [List.filterMap_filter, List.filter_filterMap]
  refine List.filterMap_congr fun x _ => ?_
  by_cases hx : x.1 = c
  · subst hx
    by_cases ho : ReadyToken.accepted x.1 x.2 ∈ s.readyOrder <;> simp [mem_placesIn, Option.filter_some, ho]
  · simp [hx]

/-- A channel's fresh completions: its ready places that the order does not name, where they rise. -/
theorem placesIn_freshReady (c : ChanId)
    (h : ((s.hostTable[c].filter (fun e => !e.isOpen)).map (fun e => e.place)).Pairwise (· < ·)) :
    placesIn c s.freshReady =
      ((s.hostTable[c].filter (fun e => !e.isOpen)).map (fun e => e.place)).filter (fun n => n ∉ placesIn c s.readyOrder) := by
  rw [freshReady_eq, placesIn_accepted, ← placesOf_unordered]
  refine List.Perm.eq_of_pairwise (le := (· ≤ ·)) (fun _ _ _ _ => Nat.le_antisymm) ?_ ?_ ((sortBy_perm _ _).filterMap _)
  · refine List.Pairwise.filterMap _ (fun x y hxy n hn m hm => ?_) (sortBy_sorted _ _)
    simp only [Option.ite_none_right_eq_some, Option.some.injEq] at hn hm
    rw [← hn.2, ← hm.2]; exact hxy
  · rw [placesOf_unordered]
    exact (h.imp Nat.le_of_lt).filter _

/-! ### The law while a happening runs -/

/-- One channel's entries: the ready ones first, of which the order names the oldest, then the head and those that wait. -/
def Row (named : List Nat) (xs : List HostEntry) : Prop :=
  ∃ done rest : List HostEntry, xs = done ++ rest ∧ (∀ e ∈ done, e.isOpen = false) ∧ (∀ e ∈ rest, e.isOpen = true) ∧
    (∀ e ∈ rest.tail, e.inPhase .waiting = true) ∧ named <+: done.map (fun e => e.place)

/-- The law of the completion order while a happening runs. -/
structure PortMid (s : State) : Prop where
  rows : ∀ c : ChanId, Row (placesIn c s.readyOrder) s.hostTable[c]
  refusals : ∀ c : ChanId, s.readyOrder.count (.refused c) = if (s.refused[c]).isSome then 1 else 0
  places : ∀ c : ChanId, (s.hostTable[c].map (fun e => e.place)).Pairwise (· < ·) ∧
    ∀ e ∈ s.hostTable[c], e.place < s.nextPlace
  reset : s.porst = true ∨ s.hrst = true → ∀ c : ChanId, s.hostTable[c] = [] ∧ s.refused[c] = none

theorem portMid_of_portLaw (h : s.PortLaw) : PortMid s where
  rows c := by
    obtain ⟨done, rest, hx, hd, hr, hw, ho⟩ := h.behind c
    have named : placesIn c s.readyOrder = done.map (fun e => e.place) := ho
    exact ⟨done, rest, hx, hd, hr, hw, named ▸ List.prefix_refl _⟩
  refusals := h.refusals
  places := h.places
  reset := h.reset

theorem portLaw_of (rows : ∀ c : ChanId, ∃ done rest : List HostEntry, s.hostTable[c] = done ++ rest ∧
      (∀ e ∈ done, e.isOpen = false) ∧ (∀ e ∈ rest, e.isOpen = true) ∧ (∀ e ∈ rest.tail, e.inPhase .waiting = true) ∧
      placesIn c s.readyOrder = done.map (fun e => e.place))
    (refusals : ∀ c : ChanId, s.readyOrder.count (.refused c) = if (s.refused[c]).isSome then 1 else 0)
    (places : ∀ c : ChanId, (s.hostTable[c].map (fun e => e.place)).Pairwise (· < ·) ∧
      ∀ e ∈ s.hostTable[c], e.place < s.nextPlace)
    (reset : s.porst = true ∨ s.hrst = true → ∀ c : ChanId, s.hostTable[c] = [] ∧ s.refused[c] = none) : s.PortLaw :=
  ⟨rows, refusals, places, reset⟩

/-- The head goes on: it stays the head, or it is the last of the ready ones. -/
theorem Row.head {named : List Nat} {xs : List HostEntry} {f : HostEntry → HostEntry} (h : Row named xs) : Row named (mapFirst HostEntry.isOpen f xs) := by
  obtain ⟨done, rest, rfl, hd, hr, hw, hn⟩ := h
  have closed : ∀ (done : List HostEntry), (∀ e ∈ done, e.isOpen = false) →
      mapFirst HostEntry.isOpen f (done ++ rest) = done ++ mapFirst HostEntry.isOpen f rest := by
    intro done hd
    induction done with
    | nil => rfl
    | cons x xs ih =>
      simp only [List.cons_append, mapFirst, hd x List.mem_cons_self, Bool.false_eq_true, if_false]
      rw [ih fun e he => hd e (List.mem_cons_of_mem _ he)]
  rw [closed done hd]
  cases rest with
  | nil => exact ⟨done, [], rfl, hd, hr, hw, hn⟩
  | cons x rest =>
    have next : mapFirst HostEntry.isOpen f (x :: rest) = f x :: rest := by
      simp [mapFirst, hr x List.mem_cons_self]
    rw [next]
    have hr' : ∀ e ∈ rest, e.isOpen = true := fun e he => hr e (List.mem_cons_of_mem _ he)
    cases ho : (f x).isOpen with
    | true =>
      refine ⟨done, f x :: rest, rfl, hd, fun e he => ?_, hw, hn⟩
      rcases List.mem_cons.1 he with rfl | he
      · exact ho
      · exact hr' e he
    | false =>
      refine ⟨done ++ [f x], rest, by simp, fun e he => ?_, hr', fun e he => hw e (List.mem_of_mem_tail he), ?_⟩
      · rcases List.mem_append.1 he with he | he
        · exact hd e he
        · rw [List.mem_singleton.1 he]; exact ho
      · rw [List.map_append]; exact hn.trans (List.prefix_append _ _)

theorem map_place_mapFirst {f : HostEntry → HostEntry} (hf : ∀ e, ∃ p, f e = { e with progress := p })
    (xs : List HostEntry) : (mapFirst HostEntry.isOpen f xs).map (fun e => e.place) = xs.map (fun e => e.place) := by
  induction xs with
  | nil => rfl
  | cons x xs ih =>
    unfold mapFirst
    split
    · obtain ⟨p, hp⟩ := hf x; simp [hp]
    · simp [ih]

theorem hostTable_updateHead (c d : ChanId) (f : HostEntry → HostEntry) :
    (s.updateHead c f).hostTable[d] = if d = c then mapFirst HostEntry.isOpen f s.hostTable[d] else s.hostTable[d] := by
  unfold State.updateHead
  by_cases hd : d = c
  · subst hd; simp
  · have : (c : Nat) ≠ d := fun h => hd (Fin.ext h.symm)
    simp [hd, Vector.getElem_set_ne _ _ this]

/-- The law speaks of the port's own fields alone. -/
theorem PortMid.same (h : PortMid s) (ht : t.hostTable = s.hostTable) (ho : t.readyOrder = s.readyOrder)
    (hr : t.refused = s.refused) (hn : t.nextPlace = s.nextPlace) (hp : t.porst = s.porst) (hh : t.hrst = s.hrst) :
    PortMid t := by
  obtain ⟨rows, refusals, places, reset⟩ := h
  exact ⟨by rwa [ht, ho], by rwa [ho, hr], by rwa [ht, hn], by rwa [hp, hh, ht, hr]⟩

theorem portLaw_same (h : s.PortLaw) (ht : t.hostTable = s.hostTable) (ho : t.readyOrder = s.readyOrder)
    (hr : t.refused = s.refused) (hn : t.nextPlace = s.nextPlace) (hp : t.porst = s.porst) (hh : t.hrst = s.hrst) :
    t.PortLaw := by
  obtain ⟨rows, refusals, places, reset⟩ := h
  exact ⟨by rwa [ht, ho], by rwa [ho, hr], by rwa [ht, hn], by rwa [hp, hh, ht, hr]⟩

theorem portMid_touch (h : Touch s t) (hs : PortMid s) : PortMid t := by
  cases h with
  | head c f hf =>
    obtain ⟨rows, refusals, places, reset⟩ := hs
    have map : ∀ d : ChanId, (s.updateHead c f).hostTable[d].map (fun e => e.place)
        = s.hostTable[d].map (fun e => e.place) := by
      intro d
      rw [hostTable_updateHead]
      split
      · exact map_place_mapFirst hf _
      · rfl
    refine ⟨fun d => ?_, refusals, fun d => ⟨by rw [map]; exact (places d).1, fun e he => ?_⟩, fun hp d => ?_⟩
    · rw [hostTable_updateHead]
      split
      · exact (rows d).head
      · exact rows d
    · have : e.place ∈ s.hostTable[d].map (fun e => e.place) := map d ▸ List.mem_map_of_mem he
      obtain ⟨x, hx, hxe⟩ := List.mem_map.1 this
      exact hxe ▸ (places d).2 x hx
    · have := reset hp d
      refine ⟨?_, this.2⟩
      rw [hostTable_updateHead, this.1]
      split <;> rfl
  | _ => exact hs.same rfl rfl rfl rfl rfl rfl

/-- The port's own fields, which no deed reaches. -/
def portOf (s : State) : Vector (List HostEntry) 4 × List ReadyToken × Vector (Option (BitVec 8 × Bool)) 4 × Nat × Bool × Bool :=
  (s.hostTable, s.readyOrder, s.refused, s.nextPlace, s.porst, s.hrst)

theorem portOf_deed (h : Deed s t) : portOf t = portOf s := by
  cases h <;> rfl

theorem PortMid.ofPort (h : PortMid s) (ht : portOf t = portOf s) : PortMid t := by
  simp only [portOf, Prod.mk.injEq] at ht
  obtain ⟨ht, ho, hr, hn, hp, hh⟩ := ht
  exact h.same ht ho hr hn hp hh

theorem portLaw_ofPort (h : s.PortLaw) (ht : portOf t = portOf s) : t.PortLaw := by
  simp only [portOf, Prod.mk.injEq] at ht
  obtain ⟨ht, ho, hr, hn, hp, hh⟩ := ht
  exact portLaw_same h ht ho hr hn hp hh

theorem count_refused_freshReady (c : ChanId) : s.freshReady.count (.refused c) = 0 := by
  rw [List.count_eq_zero, freshReady_eq]
  simp

theorem filter_not_open {done rest : List HostEntry} (hd : ∀ e ∈ done, e.isOpen = false)
    (hr : ∀ e ∈ rest, e.isOpen = true) : (done ++ rest).filter (fun e => !e.isOpen) = done := by
  have hd : done.filter (fun e => !e.isOpen) = done := List.filter_eq_self.2 fun e he => by simp [hd e he]
  have hr : rest.filter (fun e => !e.isOpen) = [] := List.filter_eq_nil_iff.2 fun e he => by simp [hr e he]
  rw [List.filter_append, hd, hr, List.append_nil]

/-- Of places that rise, those behind an initial part are those not in it. -/
theorem prefix_append_filter {named xs : List Nat} (hp : named <+: xs) (hx : xs.Pairwise (· < ·)) :
    named ++ xs.filter (fun n => n ∉ named) = xs := by
  obtain ⟨more, rfl⟩ := hp
  have apart := (List.pairwise_append.1 hx).2.2
  have hn : named.filter (fun n => n ∉ named) = [] := List.filter_eq_nil_iff.2 fun n hn => by simp [hn]
  have hm : more.filter (fun n => n ∉ named) = more := List.filter_eq_self.2 fun n hn => by
    simp only [decide_eq_true_eq]; exact fun h => Nat.lt_irrefl _ (apart n h n hn)
  rw [List.filter_append, hn, hm, List.nil_append]

theorem portLaw_orderReady (h : PortMid s) : s.orderReady.PortLaw := by
  refine portLaw_of (fun c => ?_) (fun c => ?_) h.places h.reset
  · obtain ⟨done, rest, hx, hd, hr, hw, hn⟩ := h.rows c
    refine ⟨done, rest, hx, hd, hr, hw, ?_⟩
    have ready : s.hostTable[c].filter (fun e => !e.isOpen) = done := by rw [hx]; exact filter_not_open hd hr
    have rising : (done.map (fun e => e.place)).Pairwise (· < ·) := by
      have := (h.places c).1
      rw [hx, List.map_append] at this
      exact (List.pairwise_append.1 this).1
    have fresh := placesIn_freshReady c (by rw [ready]; exact rising)
    rw [ready] at fresh
    show placesIn c (s.readyOrder ++ s.freshReady) = _
    rw [placesIn_append, fresh]
    exact prefix_append_filter hn rising
  · show (s.readyOrder ++ s.freshReady).count _ = _
    rw [List.count_append, count_refused_freshReady]
    exact h.refusals c

/-- A port with nothing accepted and nothing refused. -/
theorem portLaw_empty (ht : ∀ c : ChanId, s.hostTable[c] = []) (hr : ∀ c : ChanId, s.refused[c] = none)
    (ho : s.readyOrder = []) : s.PortLaw := by
  refine portLaw_of (fun c => ⟨[], [], ?_⟩) (fun c => ?_) (fun c => ?_) (fun _ c => ⟨ht c, hr c⟩)
  · simp [ht c, ho, placesIn]
  · simp [ho, hr c]
  · simp [ht c]

theorem placesIn_tail {c : ChanId} {n : Nat} {o : List ReadyToken} (h : o.head? = some (.accepted c n)) (d : ChanId) :
    placesIn d o.tail = if c = d then (placesIn d o).tail else placesIn d o := by
  obtain ⟨rest, rfl⟩ : ∃ rest, o = .accepted c n :: rest := by
    cases o with
    | nil => cases h
    | cons x xs => exact ⟨xs, by rw [Option.some.inj h]⟩
  by_cases hd : c = d <;> simp [placesIn, hd]

theorem portLaw_emission (sent : s.emission = some t) (h : s.PortLaw) : t.PortLaw := by
  obtain ⟨behind, refusals, places, reset⟩ := h
  rcases emission_cases sent with ⟨c, e, r, he, hr, rfl, n, ho⟩ | ⟨c, r, hr, rfl, ho⟩
  · have table : ∀ d : ChanId, (s.emitAccepted c r).hostTable[d] = if c = d then s.hostTable[d].tail else s.hostTable[d] := by
      intro d
      unfold State.emitAccepted
      by_cases hd : c = d
      · subst hd; simp
      · have : (c : Nat) ≠ d := fun h => hd (Fin.ext h)
        simp [hd, Vector.getElem_set_ne _ _ this]
    refine portLaw_of (fun d => ?_) (fun d => ?_) (fun d => ?_) (fun hp d => ⟨?_, (reset hp d).2⟩)
    · obtain ⟨done, rest, hx, hd, hr', hw, hn⟩ := behind d
      have hn : placesIn d s.readyOrder = done.map (fun e => e.place) := hn
      have order : ∀ ys : List HostEntry, (if c = d then (placesIn d s.readyOrder).tail else placesIn d s.readyOrder)
          = ys.map (fun e => e.place) → placesIn d (s.emitAccepted c r).readyOrder = ys.map (fun e => e.place) :=
        fun ys hy => (placesIn_tail ho d).trans hy
      rw [table]
      by_cases hcd : c = d
      · subst hcd
        cases done with
        | nil =>
          rw [hx] at he
          cases rest with
          | nil => cases he
          | cons x rest =>
            have open_ := hr' x List.mem_cons_self
            cases he
            rw [isOpen_of_completionOf hr] at open_
            cases open_
        | cons x done =>
          refine ⟨done, rest, by simp [hx], fun e he => hd e (List.mem_cons_of_mem _ he), hr', hw, order _ ?_⟩
          rw [if_pos rfl, hn]; rfl
      · exact ⟨done, rest, by simp [hcd, hx], hd, hr', hw, order _ (by rw [if_neg hcd]; exact hn)⟩
    · show s.readyOrder.tail.count _ = if (s.refused[d]).isSome then 1 else 0
      rw [← refusals d]
      obtain ⟨rest, hrest⟩ : ∃ rest, s.readyOrder = .accepted c n :: rest := by
        cases hs : s.readyOrder with
        | nil => rw [hs] at ho; cases ho
        | cons x xs => rw [hs] at ho; exact ⟨xs, by rw [Option.some.inj ho]⟩
      rw [hrest, List.count_cons]
      simp
    · rw [table]
      split
      · exact ⟨by rw [List.map_tail]; exact (places d).1.sublist (List.tail_sublist _),
          fun e he => (places d).2 e (List.mem_of_mem_tail he)⟩
      · exact places d
    · rw [table, (reset hp d).1]; simp
  · obtain ⟨rest, hrest⟩ : ∃ rest, s.readyOrder = .refused c :: rest := by
      cases hs : s.readyOrder with
      | nil => rw [hs] at ho; cases ho
      | cons x xs => rw [hs] at ho; exact ⟨xs, by rw [Option.some.inj ho]⟩
    have refused : ∀ d : ChanId, (s.emitRefused c r.1 r.2).refused[d] = if c = d then none else s.refused[d] := by
      intro d
      unfold State.emitRefused
      by_cases hd : c = d
      · subst hd; simp
      · have : (c : Nat) ≠ d := fun h => hd (Fin.ext h)
        simp [hd, Vector.getElem_set_ne _ _ this]
    refine portLaw_of (fun d => ?_) (fun d => ?_) places (fun hp d => ⟨(reset hp d).1, ?_⟩)
    · obtain ⟨done, rest', hx, hd, hr', hw, hn⟩ := behind d
      refine ⟨done, rest', hx, hd, hr', hw, ?_⟩
      have hn : placesIn d s.readyOrder = done.map (fun e => e.place) := hn
      show placesIn d s.readyOrder.tail = _
      rw [← hn, hrest]; simp [placesIn]
    · show s.readyOrder.tail.count _ = _
      have count := refusals d
      rw [refused]
      rw [hrest, List.count_cons] at count
      rw [hrest, List.tail_cons]
      by_cases hcd : c = d
      · subst hcd; rw [hr] at count; simpa using count
      · simp only [hcd, if_false]; simpa [hcd] using count
    · rw [refused]
      split
      · rfl
      · exact (reset hp d).2

/-- A record accepted waits behind its channel's entries, at the next place. -/
theorem portMid_accept {c : ChanId} {tag : BitVec 8} {r : Request} (hp : s.porst = false) (hh : s.hrst = false)
    (h : s.PortLaw) : PortMid (s.accept c tag r) := by
  obtain ⟨rows, refusals, places, reset⟩ := portMid_of_portLaw h
  obtain ⟨e, ho, hw, hpl, ht⟩ : ∃ e : HostEntry, e.isOpen = true ∧ e.inPhase .waiting = true ∧ e.place = s.nextPlace ∧
      ∀ d : ChanId, (s.accept c tag r).hostTable[d] = if c = d then s.hostTable[d] ++ [e] else s.hostTable[d] := by
    refine ⟨s.entryOf tag r (.opened .waiting), rfl, by simp [HostEntry.inPhase, State.entryOf], rfl, fun d => ?_⟩
    unfold State.accept State.entryOf
    by_cases hd : c = d
    · subst hd; simp
    · have : (c : Nat) ≠ d := fun h => hd (Fin.ext h)
      simp [hd, Vector.getElem_set_ne _ _ this]
  have next : (s.accept c tag r).nextPlace = s.nextPlace + 1 := rfl
  refine ⟨fun d => ?_, refusals, fun d => ?_, fun hr => ?_⟩
  · have row : Row (placesIn d s.readyOrder) s.hostTable[d] := rows d
    show Row (placesIn d s.readyOrder) _
    rw [ht]
    split
    · obtain ⟨done, rest, hx, hd, hr, hw', hn⟩ := row
      refine ⟨done, rest ++ [e], by rw [hx, List.append_assoc], hd, fun x hx => ?_, fun x hx => ?_, hn⟩
      · rcases List.mem_append.1 hx with hx | hx
        · exact hr x hx
        · rw [List.mem_singleton.1 hx]; exact ho
      · cases rest with
        | nil => cases hx
        | cons y rest =>
          rcases List.mem_append.1 hx with hx | hx
          · exact hw' x hx
          · rw [List.mem_singleton.1 hx]; exact hw
    · exact row
  · obtain ⟨rising, below⟩ := places d
    rw [ht, next]
    split
    · refine ⟨?_, fun x hx => ?_⟩
      · rw [List.map_append]
        refine List.pairwise_append.2 ⟨rising, by simp, fun a ha b hb => ?_⟩
        obtain ⟨x, hx, rfl⟩ := List.mem_map.1 ha
        obtain rfl : b = e.place := by simpa using hb
        rw [hpl]; exact below x hx
      · rcases List.mem_append.1 hx with hx | hx
        · exact (below x hx).trans (Nat.lt_succ_self _)
        · rw [List.mem_singleton.1 hx, hpl]; exact Nat.lt_succ_self _
    · exact ⟨rising, fun x hx => (below x hx).trans (Nat.lt_succ_self _)⟩
  · have hr : s.porst = true ∨ s.hrst = true := hr
    rw [hp, hh] at hr
    simp at hr

theorem portLaw_refuse {c : ChanId} {tag : BitVec 8} (hp : s.porst = false) (hh : s.hrst = false) (h : s.PortLaw) :
    (s.refuse c tag).PortLaw := by
  unfold State.refuse
  split
  · exact portLaw_same h rfl rfl rfl rfl rfl rfl
  · rename_i hc
    obtain ⟨behind, refusals, places, reset⟩ := h
    refine portLaw_of (fun d => ?_) (fun d => ?_) places (fun hr => ?_)
    · obtain ⟨done, rest, hx, hd, hr, hw, hn⟩ := behind d
      refine ⟨done, rest, hx, hd, hr, hw, ?_⟩
      have hn : placesIn d s.readyOrder = done.map (fun e => e.place) := hn
      show placesIn d (s.readyOrder ++ [.refused c]) = _
      rw [placesIn_append, hn]; simp [placesIn]
    · show (s.readyOrder ++ [ReadyToken.refused c]).count _ = _
      rw [List.count_append, refusals d]
      by_cases hd : c = d
      · subst hd; simpa using hc
      · have : (c : Nat) ≠ d := fun h => hd (Fin.ext h)
        simp [hd, Vector.getElem_set_ne _ _ this]
    · have hr : s.porst = true ∨ s.hrst = true := hr
      rw [hp, hh] at hr
      simp at hr

/-- The law of the completion order, with its form while a happening runs. -/
theorem portLaw_law : Law State.PortLaw PortMid where
  mid := portMid_of_portLaw
  touch := portMid_touch
  deed hd h := portLaw_ofPort h (portOf_deed hd)
  deed' hd h := h.ofPort (portOf_deed hd)
  order := portLaw_orderReady
  queue _ h := portLaw_same h rfl rfl rfl rfl rfl rfl
  pin _ hp h := ⟨h.behind, h.refusals, h.places, fun _ => h.reset (.inl hp)⟩
  emptied {s} _ := portLaw_empty (emptied_hostTable (s := s)) (fun c => by simp [State.emptied, State.reset]) rfl
  released {s} _ _ _ := portLaw_empty (emptied_hostTable (s := s)) (fun c => by simp [State.emptied, State.reset]) rfl
  resetPort _ := portMid_of_portLaw
    (portLaw_empty (fun c => by simp [State.resetPort]) (fun c => by simp [State.resetPort]) rfl)
  hrstReleased hh h := by
    have empty := h.reset (.inr hh)
    refine ⟨h.behind, h.refusals, fun c => ?_, fun _ => empty⟩
    rw [(empty c).1]; exact ⟨List.Pairwise.nil, List.forall_mem_nil _⟩
  refuse _ _ hp hh h := portLaw_refuse hp hh h
  accept _ _ _ hp hh _ h := portMid_accept hp hh h
  emission := portLaw_emission
  sweep h := portLaw_same h rfl rfl rfl rfl rfl rfl
  lower {s} h := by
    obtain ⟨u, hu, he⟩ := lowerTimers_quiet s
    rw [he]
    exact portLaw_same (Quiet.keeps (fun hd h => portLaw_ofPort h (portOf_deed hd)) hu h) rfl rfl rfl rfl rfl rfl

/-- Settles O57: every happening keeps the order a list of the oldest ready completions, and ends by naming the others. -/
theorem stepsKeepTheCompletionOrder : Obligations.StepsKeepTheCompletionOrder := fun _ _ h hs => portLaw_law.step h hs

end Sys2Proof.Proofs.CompletionOrder
end

