-- ==== Sys2Proof/Proofs/Commands.lean ====
section
/-! PROOFS. What every command answers, and what it leaves: the queue, the station fields, the home store. -/

namespace Sys2Proof.Proofs.Commands

open Sys2Proof Sys2Proof.Machine Sys2Proof.Proofs.Steps Sys2Proof.Proofs.AtRest Sys2Proof.Proofs.Updates
open Sys2Proof.Proofs.Happenings Sys2Proof.Proofs.HomeSlice

variable {i : Instr} {s t : State}

/-- Settles O1: `step` is this by its definition. -/
theorem stepTakesTheFrontCommand : Obligations.StepTakesTheFrontCommand := by
  intro s c rest h
  unfold step
  rw [h]

/-! ### The fields that no small update and no deed writes -/

/-- The reset levels, the station and the queue. -/
def pins (s : State) : Bool × Bool × Station × List Instr := (s.porst, s.hrst, s.station, s.pending)

theorem touch_base (h : Touch s t) : t.base = s.base := by
  cases h <;> rfl

theorem pins_of_base (h : t.base = s.base) : pins t = pins s := by
  simp only [pins, base_porst h, base_hrst h, base_station h, base_pending h]

theorem pins_deed (h : Deed s t) : pins t = pins s := by
  cases h <;> rfl

theorem pins_deeds (h : Deeds s t) : pins t = pins s :=
  Deeds.keeps (P := fun u => pins u = pins s) (fun h e => (pins_of_base (touch_base h)).trans e)
    (fun h e => (pins_deed h).trans e) h rfl

theorem pins_quiet (h : Quiet s t) : pins t = pins s := pins_deeds (.quiet h)

theorem pins_settle : pins s.settle = pins s := pins_of_base (State.settle_base s)

theorem pins_arbitrate : pins s.settle.arbitrate = pins s := (pins_of_base (State.settle_base s) : pins s.settle = _)

theorem pins_refuse (c : ChanId) (tag : BitVec 8) : pins (s.refuse c tag) = pins s := by
  unfold State.refuse; split <;> rfl

theorem pins_emission (h : s.emission = some t) : pins t = pins s := by
  rcases emission_cases h with ⟨c, e, r, -, -, rfl, -⟩ | ⟨c, r, -, rfl, -⟩ <;> rfl

/-- What a deed chain from the counted state and a run to rest leave. -/
theorem pins_verdict {u : State} (h : Deeds s.count1 u) : pins u.settle.arbitrate = pins s :=
  pins_arbitrate.trans ((pins_deeds h).trans (rfl : pins s.count1 = pins s))

theorem pins_happening {u : State} (h : Deeds s.count1 u) : pins u.settle = pins s := pins_settle.trans ((pins_deeds h).trans (rfl : pins s.count1 = pins s))

/-- Every command but the resets and the sweep leaves the reset levels, the station and the queue. -/
theorem pins_brings (hb : Brings i s t) (ha : i ≠ .porstAsserted) (hr : ∀ n k, i ≠ .porstReleased n k)
    (hh : i ≠ .hostReset) (hl : i ≠ .hrstReleased) (hs : i ≠ .clearSweepTick) (he : i ≠ .clearSweepEnd) :
    pins t = pins s := by
  cases hb with
  | held | discarded => rfl
  | pin b hi => rcases hi with ⟨rfl, -⟩ | ⟨rfl, -⟩ <;> contradiction
  | emptied => contradiction
  | released n k => exact absurd rfl (hr n k)
  | hostReset => contradiction
  | hrstReleased => contradiction
  | refused => exact pins_refuse (s := s.count1) _ _
  | accepted => exact pins_settle
  | emitted _ h => exact pins_emission (s := s.count1) h
  | granted => exact pins_quiet (s := s.count1) (grantTo_quiet _ _ _ _)
  | idleExpired => rfl
  | requestFrame => exact pins_quiet (s := s.count1) (readRequest_quiet _ _ _)
  | replyFrame => exact pins_quiet (s := s.count1) (readReply_quiet _ _ _)
  | strangeFrame => exact pins_quiet (s := s.count1) (readUndecodable_quiet _)
  | peerVerdict => exact pins_verdict (peerVerdict_deeds _ _ _ _ _)
  | unreadVerdict => exact pins_verdict (.quiet closeTenure_quiet)
  | entryVerdict => exact pins_verdict ((ownEnds_deeds _ _ _).trans (entryVerdict_deeds _ _ _))
  | returnVerdict => exact pins_verdict ((ownEnds_deeds _ _ _).trans (writebackVerdict_deeds _ _))
  | replyVerdict => exact pins_verdict (.quiet (ownReplyVerdict_quiet _ _))
  | peerReplyVerdict => exact pins_verdict (peerReplyVerdict_deeds _ _ _ _ _)
  | replyExpired => exact pins_happening (.runs (expireEntry_runs _))
  | watchExpired => exact pins_happening (.runs (timeOutWatch_runs _ _))
  | swept hi => rcases hi with rfl | rfl <;> contradiction
  | homeEnded => exact pins_happening (finishHome_deeds _)

/-! ### The queue -/

theorem pending_of_pins (h : pins t = pins s) : t.pending = s.pending := by
  simp only [pins, Prod.mk.injEq] at h; exact h.2.2.2

theorem pending_brings (hb : Brings i s t) : t.pending = s.pending := by
  cases hb with
  | held | discarded | pin | emptied | released | hrstReleased | idleExpired | swept => rfl
  | hostReset =>
    exact (pending_of_pins pins_settle).trans
      (pending_of_pins (s := s.count1) (t := s.count1.resetTable) (pins_deeds resetTable_deeds))
  | refused => exact pending_of_pins (pins_refuse (s := s.count1) _ _)
  | accepted => exact pending_of_pins (s := s) pins_settle
  | emitted _ h => exact pending_of_pins (s := s.count1) (pins_emission h)
  | granted => exact pending_of_pins (pins_quiet (s := s.count1) (grantTo_quiet _ _ _ _))
  | requestFrame => exact pending_of_pins (pins_quiet (s := s.count1) (readRequest_quiet _ _ _))
  | replyFrame => exact pending_of_pins (pins_quiet (s := s.count1) (readReply_quiet _ _ _))
  | strangeFrame => exact pending_of_pins (pins_quiet (s := s.count1) (readUndecodable_quiet _))
  | peerVerdict => exact pending_of_pins (pins_verdict (peerVerdict_deeds _ _ _ _ _))
  | unreadVerdict => exact pending_of_pins (pins_verdict (.quiet closeTenure_quiet))
  | entryVerdict => exact pending_of_pins (pins_verdict ((ownEnds_deeds _ _ _).trans (entryVerdict_deeds _ _ _)))
  | returnVerdict => exact pending_of_pins (pins_verdict ((ownEnds_deeds _ _ _).trans (writebackVerdict_deeds _ _)))
  | replyVerdict => exact pending_of_pins (pins_verdict (.quiet (ownReplyVerdict_quiet _ _)))
  | peerReplyVerdict => exact pending_of_pins (pins_verdict (peerReplyVerdict_deeds _ _ _ _ _))
  | replyExpired => exact pending_of_pins (pins_happening (.runs (expireEntry_runs _)))
  | watchExpired => exact pending_of_pins (pins_happening (.runs (timeOutWatch_runs _ _)))
  | homeEnded => exact pending_of_pins (pins_happening (finishHome_deeds _))

/-! ### What a command answers -/

/-- The command answers a next state, or the refusal named. -/
def Answers (x : Result) (why : Option Refusal) : Prop :=
  match why with
  | none => ∃ t, x = .next t
  | some r => x = .refused r

theorem answers_arrive (c : ChanId) (tag : BitVec 8) (r : Request) : Answers (s.arrive c tag r) none := by
  unfold State.arrive
  split
  · exact ⟨_, rfl⟩
  · split <;> exact ⟨_, rfl⟩

theorem answers_guarded (can : Bool) (why : Refusal) (u : State) :
    Answers (s.guarded can why (.next u)) (if s.porst || can then none else some why) := by
  unfold State.guarded
  cases s.porst with
  | true => exact ⟨_, rfl⟩
  | false => cases can with
    | true => exact ⟨_, rfl⟩
    | false => rfl

theorem answers_idle (u : State) :
    Answers (s.guarded s.spanIdle .tenureOpen (.next u)) (if s.porst || s.span.tenure = .idle then none else some .tenureOpen) :=
  answers_guarded s.spanIdle .tenureOpen u

theorem answers_endHome (k : HomeKind) : Answers (s.endHome k)
    (if s.porst || (s.performing.map homeKind) = some k then none else some .notAtHomeHead) := by
  unfold State.endHome
  cases s.porst with
  | true => exact ⟨_, rfl⟩
  | false => cases s.performing with
    | none => rfl
    | some op =>
      by_cases hk : homeKind op = k
      · simp only [hk, Bool.false_eq_true, if_false, if_true, Option.map_some, Bool.false_or, decide_true]
        exact ⟨_, rfl⟩
      · simp [hk, Answers]

theorem isSome_emission_count1 : s.count1.emission.isSome = s.emission.isSome := by
  have order : s.count1.readyOrder = s.readyOrder := rfl
  unfold State.emission
  rw [order]
  split
  · rfl
  · simp only [Option.isSome_bind, Option.isSome_map]; rfl
  · simp only [Option.isSome_map]; rfl

theorem answers_replyTimerExpiry (l : LineAddr) : Answers (execReplyTimerExpiry l s)
    (if s.porst || (s.entryFor l).any (fun e => e.phase.awaiting) then none else some .noTimerRunning) := by
  unfold execReplyTimerExpiry
  cases hp : s.porst with
  | true => exact ⟨_, rfl⟩
  | false => cases he : s.entryFor l with
    | none => rfl
    | some e => cases ha : e.phase.awaiting <;> simp [ha, Answers]

theorem answers_watchTimeout (c : ChanId) : Answers (execWatchTimeout c s)
    (if s.porst || (s.watches[c]).isSome then none else some .noWatchInUse) := by
  unfold execWatchTimeout
  cases hp : s.porst with
  | true => exact ⟨_, rfl⟩
  | false => cases hw : s.watches[c] with
    | none => rfl
    | some w => exact ⟨_, rfl⟩

theorem answers (i : Instr) (s : State) : Answers (exec i s) (s.refusal i) := by
  cases i with
  | porstAsserted => exact ⟨_, rfl⟩
  | porstReleased n k =>
    show Answers (execPorstReleased n k s) (if s.porst then none else some .porstNotAsserted)
    unfold execPorstReleased
    split
    · exact ⟨_, rfl⟩
    · rfl
  | hostReset =>
    show Answers (execHostReset s) none
    unfold execHostReset
    split <;> exact ⟨_, rfl⟩
  | hrstReleased =>
    show Answers (execHrstReleased s) (if s.hrst then none else some .hrstNotAsserted)
    unfold execHrstReleased
    cases s.hrst with
    | false => rfl
    | true => cases s.porst <;> exact ⟨_, rfl⟩
  | read | write | postedWrite | atomicSwap | atomicAdd | atomicAnd | atomicOr | atomicMaxu | atomicCas | reserve
  | conditional | watch | flush | fence | probe | status | statusClear | undecodableRequestKind =>
    exact answers_arrive _ _ _
  | completionEmitted =>
    have same : s.count1.emission.isSome = s.emission.isSome := isSome_emission_count1
    show Answers (s.guarded s.count1.emission.isSome _ _) (if s.porst || s.emission.isSome then none else _)
    rw [same]
    exact answers_guarded _ _ _
  | grant | idleCountExpiry | share | own | upgrade | returnLine | dRead | dWrite | dAtomic | fill | result
  | undecodableFrameKind => exact answers_idle _
  | requestTenureVerdict others =>
    show Answers (execRequestTenureVerdict others s) _
    unfold State.refusal execRequestTenureVerdict
    cases hp : s.porst with
    | true => exact ⟨_, rfl⟩
    | false => cases ht : s.span.tenure <;> simp [Answers]
  | ownTenureVerdict others =>
    show Answers (execOwnTenureVerdict others s) _
    unfold State.refusal execOwnTenureVerdict
    cases hp : s.porst with
    | true => exact ⟨_, rfl⟩
    | false => cases ht : s.span.tenure <;> simp [Answers]
  | replyTenureVerdict retry =>
    show Answers (execReplyTenureVerdict retry s) _
    unfold State.refusal execReplyTenureVerdict
    cases hp : s.porst with
    | true => exact ⟨_, rfl⟩
    | false => cases ht : s.span.tenure <;> simp [Answers]
  | replyTimerExpiry l => exact answers_replyTimerExpiry l
  | watchTimeout c => exact answers_watchTimeout c
  | clearSweepTick => exact answers_guarded _ _ _
  | clearSweepEnd => exact answers_guarded _ _ _
  | homeRead | homeWrite | homeDRead | homeDWrite | homeDAtomic => exact answers_endHome _

/-- Settles O2: the answers command by command, and no happening writes the queue. -/
theorem commandsAnswerOrNameWhy : Obligations.CommandsAnswerOrNameWhy := by
  intro c s
  have h := answers c s
  cases hr : s.refusal c with
  | none =>
    rw [hr] at h
    obtain ⟨t, ht⟩ := h
    exact ⟨t, ht, pending_brings (brings_of_exec ht)⟩
  | some r => rwa [hr] at h

/-! ### The home store -/

theorem homeStore_of_slice (h : slice t = slice s) : t.homeStore = s.homeStore := congrArg Slice.store h

theorem homeStore_of_base (h : t.base = s.base) : t.homeStore = s.homeStore := base_homeStore h

theorem homeStore_refuse (c : ChanId) (tag : BitVec 8) : (s.refuse c tag).homeStore = s.homeStore := by
  unfold State.refuse; split <;> rfl

theorem homeStore_emission (h : s.emission = some t) : t.homeStore = s.homeStore := by
  rcases emission_cases h with ⟨c, e, r, -, -, rfl, -⟩ | ⟨c, r, -, rfl, -⟩ <;> rfl

theorem homeStore_grantTo (claim : Option Claim) (r u n : BitVec 16) :
    (s.grantTo claim r u n).homeStore = s.homeStore := by
  obtain ⟨sp, h⟩ := grantTo_span (s := s) claim r u n
  rw [h]

theorem homeStore_readRequest (h : Header) (body : RequestBody) (decodes : Bool) :
    (s.readRequest h body decodes).homeStore = s.homeStore := by
  obtain ⟨sp, co, h⟩ := readRequest_span (s := s) h body decodes
  rw [h]

theorem homeStore_readReply (h : Header) (a : StationNo) (body : ReplyBody) :
    (s.readReply h a body).homeStore = s.homeStore := by
  obtain ⟨sp, co, h⟩ := readReply_span (s := s) h a body
  rw [h]

theorem homeStore_readUndecodable (good : Bool) : (s.readUndecodable good).homeStore = s.homeStore := by
  obtain ⟨sp, co, h⟩ := readUndecodable_span (s := s) good
  rw [h]

theorem homeStore_offerDone : s.offerDone.homeStore = s.homeStore := by
  unfold State.offerDone
  split
  · split <;> rfl
  · rfl

theorem homeStore_releaseAside : s.releaseAside.homeStore = s.homeStore := by
  unfold State.releaseAside
  split
  · exact homeStore_offerDone
  · rfl

theorem homeStore_convertHome (n : StationNo) (l : LineAddr) (body : RequestBody) (v : Verdict) :
    (s.convertHome n l body v).homeStore = s.homeStore := by
  unfold State.convertHome
  simp only
  split
  · split <;> rfl
  · rfl

theorem homeStore_snoopVerdict (n : StationNo) (l : LineAddr) (body : RequestBody) (v : Verdict) :
    (s.snoopVerdict n l body v).homeStore = s.homeStore := by
  have taken : ∀ {u : State}, (if u.heldValid l then u.snoopLine l body else u).releaseAside.homeStore = u.homeStore := by
    intro u
    rw [homeStore_releaseAside]
    split
    · exact homeStore_of_base (State.snoopLine_base u l body)
    · rfl
  unfold State.snoopVerdict
  cases v with
  | void => exact homeStore_releaseAside.trans (homeStore_convertHome n l body _)
  | ownerFill => exact taken.trans ((homeStore_of_slice (slice_queueSnapshot n l)).trans (homeStore_convertHome n l body _))
  | homeFill => exact taken.trans (homeStore_convertHome n l body _)
  | taken => exact taken.trans (homeStore_convertHome n l body _)

theorem homeStore_ownEnds (l : LineAddr) (body : RequestBody) (v : Verdict) :
    (s.ownEnds l body v).homeStore = s.homeStore := by
  have conv : (s.closeTenure.convertHome s.station.number l body v).homeStore = s.homeStore := homeStore_convertHome _ _ _ _
  unfold State.ownEnds State.countVoid
  split <;> exact conv

theorem homeStore_ownReplyVerdict (l : LineAddr) (retry : Bool) : (s.ownReplyVerdict l retry).homeStore = s.homeStore := by
  have removed : ∀ {u : State}, (u.removeReply l).homeStore = u.homeStore := homeStore_offerDone
  unfold State.ownReplyVerdict State.voidReply
  split
  · split
    · rfl
    · split
      · exact removed (u := s.closeTenure)
      · rfl
  · exact removed (u := s.closeTenure)

theorem homeStore_peerReplyVerdict (a : StationNo) (l : LineAddr) (body : ReplyBody) (g r : Bool) :
    (s.peerReplyVerdict a l body g r).homeStore = s.homeStore := by
  unfold State.peerReplyVerdict
  split
  · exact homeStore_of_base (s := s.closeTenure) (State.takeReply_base s.closeTenure l body)
  · rfl

theorem homeStore_settle : s.settle.homeStore = s.homeStore := homeStore_of_base (State.settle_base s)

theorem homeStore_arbitrate : s.settle.arbitrate.homeStore = s.homeStore := homeStore_settle

/-- Only the resets, the sweep and the ends of home operations reach the home store. -/
theorem homeStore_brings (hb : Brings i s t) (ha : i ≠ .porstAsserted) (hr : ∀ n k, i ≠ .porstReleased n k)
    (hs : i ≠ .clearSweepTick) (he : i ≠ .clearSweepEnd) (hk : ∀ k, i ≠ homeCommand k) : t.homeStore = s.homeStore := by
  cases hb with
  | held | discarded | pin | hrstReleased | idleExpired => rfl
  | emptied => contradiction
  | released n k => exact absurd rfl (hr n k)
  | hostReset => exact homeStore_settle.trans (homeStore_of_slice (s := s) (slice_resetTable s.count1))
  | refused => exact homeStore_refuse (s := s.count1) _ _
  | accepted => exact homeStore_settle (s := s.count1.accept _ _ _)
  | emitted _ h => exact homeStore_emission (s := s.count1) h
  | granted => exact homeStore_grantTo (s := s.count1) _ _ _ _
  | requestFrame => exact homeStore_readRequest (s := s.count1) _ _ _
  | replyFrame => exact homeStore_readReply (s := s.count1) _ _ _
  | strangeFrame => exact homeStore_readUndecodable (s := s.count1) _
  | peerVerdict => exact homeStore_arbitrate.trans (homeStore_snoopVerdict (s := s.count1.closeTenure) _ _ _ _)
  | unreadVerdict => exact homeStore_arbitrate
  | entryVerdict =>
    exact homeStore_arbitrate.trans
      ((homeStore_of_slice (slice_entryVerdict _ _ _)).trans (homeStore_ownEnds (s := s.count1) _ _ _))
  | returnVerdict =>
    exact homeStore_arbitrate.trans
      ((homeStore_of_slice (slice_writebackVerdict _ _)).trans (homeStore_ownEnds (s := s.count1) _ _ _))
  | replyVerdict => exact homeStore_arbitrate.trans (homeStore_ownReplyVerdict (s := s.count1) _ _)
  | peerReplyVerdict => exact homeStore_arbitrate.trans (homeStore_peerReplyVerdict (s := s.count1) _ _ _ _ _)
  | replyExpired => exact homeStore_settle.trans (homeStore_of_base (s := s.count1) (State.expireEntry_base s.count1 _))
  | watchExpired => exact homeStore_settle.trans (homeStore_of_base (s := s.count1) (State.timeOutWatch_base s.count1 _ _))
  | swept hi => rcases hi with rfl | rfl <;> contradiction
  | homeEnded k => exact absurd rfl (hk k)

theorem hostReset_pins (h : exec .hostReset s = .next t) : t.station = s.station ∧ t.hrst = true := by
  have h : execHostReset s = .next t := h
  unfold execHostReset at h
  split at h
  · obtain rfl := Host.Outcome.next.inj h
    exact ⟨rfl, rfl⟩
  · obtain rfl := Host.Outcome.next.inj h
    have reset : pins s.count1.resetTable = pins s := pins_deeds (s := s.count1) resetTable_deeds
    simp only [pins, Prod.mk.injEq] at reset
    exact ⟨(base_station (State.settle_base _)).trans reset.2.2.1, base_hrst (State.settle_base _)⟩

theorem hrstReleased_pins (h : exec .hrstReleased s = .next t) : t.station = s.station ∧ t.hrst = false := by
  have h : execHrstReleased s = .next t := h
  unfold execHrstReleased at h
  split at h
  · cases h
  · split at h <;> obtain rfl := Host.Outcome.next.inj h <;> exact ⟨rfl, rfl⟩

/-- Settles O51: the fields that no small update and no deed writes, and the commands that write them. -/
theorem onlyTheirCommandsReachStationAndHomeStore : Obligations.OnlyTheirCommandsReachStationAndHomeStore := by
  intro i s t h ha hr hs he
  have hb := brings_of_exec h
  refine ⟨?_, ?_, homeStore_brings hb ha hr hs he⟩
  · by_cases hh : i = .hostReset
    · subst hh; exact (hostReset_pins h).1
    · by_cases hl : i = .hrstReleased
      · subst hl; exact (hrstReleased_pins h).1
      · have := pins_brings hb ha hr hh hl hs he
        simp only [pins, Prod.mk.injEq] at this
        exact this.2.2.1
  · split
    · exact (hostReset_pins h).2
    · exact (hrstReleased_pins h).2
    · rename_i hh hl
      have := pins_brings hb ha hr hh hl hs he
      simp only [pins, Prod.mk.injEq] at this
      exact this.2.1

end Sys2Proof.Proofs.Commands
end

