-- ==== Sys2Proof/Proofs/PowerOn.lean ====
section
/-! PROOFS. Power-on reset: what it leaves, that this meets every law, and the straps read at its release (R24, R34, R47,
R166, R167). -/

namespace Sys2Proof.Proofs.PowerOn

open Sys2Proof Sys2Proof.Machine Sys2Proof.Proofs.AtRest Sys2Proof.Proofs.Places Sys2Proof.Proofs.CompletionOrder
open Sys2Proof.Proofs.HomeSlice

/-! ### The state after reset, block by block -/

theorem reset_hostTable (c : ChanId) : State.reset.hostTable[c] = [] := by simp [State.reset]
theorem reset_refused (c : ChanId) : State.reset.refused[c] = none := by simp [State.reset]
theorem reset_latches (c : ChanId) : State.reset.latches[c] = none := by simp [State.reset]
theorem reset_reservations (c : ChanId) : State.reset.reservations[c] = none := by simp [State.reset]
theorem reset_watches (c : ChanId) : State.reset.watches[c] = none := by simp [State.reset]

theorem reset_way (i : Fin 32) (w : WayId) :
    State.reset.lines[i].ways[w] = { tag := none, state := .invalid, data := zeroLine } := by
  simp [State.reset, CacheSet.reset, Way.free]

theorem reset_head (c : ChanId) : State.reset.head? c = none := head_none_of_empty (reset_hostTable c)

theorem reset_bounds : Bounds State.reset :=
  bounds_empty rfl rfl rfl rfl rfl rfl rfl rfl reset_hostTable

theorem reset_claimLaw : State.reset.ClaimLaw where
  reservations c a h := by rw [reset_reservations] at h; cases h
  watches c w h := by rw [reset_watches] at h; cases h
  pending := List.forall_mem_nil _
  installs := List.forall_mem_nil _

theorem reset_headLaw : State.reset.HeadLaw where
  once := List.nodup_nil
  five := List.forall_mem_nil _
  waiter := List.forall_mem_nil _
  postedWaiter := List.forall_mem_nil _
  waitsOnce := List.nodup_nil
  waits := List.forall_mem_nil _
  postedOnce h := by cases h
  watch c w h := by rw [reset_watches] at h; cases h
  flush := List.forall_mem_nil _
  flushOnce := List.nodup_nil

/-- Settles O4: each block of the state after reset is empty, and the laws of empty blocks. -/
theorem resetIsEmptyAndMeetsTheLaws : Obligations.ResetIsEmptyAndMeetsTheLaws := by
  obtain ⟨capacity, counts, recency, places⟩ := bounds_iff.1 reset_bounds
  have slice : SliceLaw State.reset := sliceLaw_empty (.inl rfl) rfl rfl rfl rfl rfl
  exact ⟨reset_way, order_reset, fun w => by simp [zeroLine], rfl, rfl, rfl, rfl, rfl, rfl, rfl, rfl, rfl,
    fun c => ⟨reset_hostTable c, reset_refused c, reset_latches c, reset_reservations c, reset_watches c⟩, rfl, rfl, rfl, rfl,
    capacity, counts, places, recency, slice.law, reset_claimLaw, reset_headLaw,
    portLaw_empty reset_hostTable reset_refused rfl, slice.store, atRest_empty rfl rfl reset_hostTable⟩

/-! ### The straps -/

theorem modeOfStraps_eq (n : StationNo) (k : BitVec 5) :
    modeOfStraps n k = if k.toNat = 0 ∨ 17 ≤ k.toNat ∨ k.toNat ≤ n.toNat then .inert else .clearing := by
  simp [modeOfStraps, or_assoc, Nat.succ_le_iff]
  rfl

/-- Settles O5: both commands write every field, and the table of R166 is the straps' mode. -/
theorem powerOnResetReadsTheStraps : Obligations.PowerOnResetReadsTheStraps := by
  refine ⟨fun s => rfl, fun s n k hp => ?_⟩
  rw [← modeOfStraps_eq]
  show execPorstReleased n k s = _
  unfold execPorstReleased
  rw [if_pos hp]
  rfl

end Sys2Proof.Proofs.PowerOn
end

