-- ==== Sys2Proof/Proofs/Acceptance.lean ====
section
/-! PROOFS. How a record arrives: discarded, refused over credit, or checked in the order of R112. -/

namespace Sys2Proof.Proofs.Acceptance

open Sys2Proof Sys2Proof.Machine

variable {i : Instr} {s t : State} {c : ChanId} {tag : BitVec 8} {r : Request}

/-- Every command of the host port is the arrival of its record. -/
theorem exec_eq_arrive (h : requestOf i = some (c, tag, r)) (s : State) : exec i s = s.arrive c tag r := by
  cases i <;> simp only [requestOf, Option.some.injEq, Prod.mk.injEq, reduceCtorEq] at h <;>
    obtain ⟨rfl, rfl, rfl⟩ := h <;> rfl

theorem arrive_reset (h : s.porst = true ∨ s.hrst = true) : s.arrive c tag r = .next s := by
  unfold State.arrive
  rw [if_pos (by simpa using h)]

theorem arrive_full (hp : s.porst = false) (hh : s.hrst = false) (hc : 4 ≤ s.hostTable[c].length) :
    s.arrive c tag r = .next (s.count1.refuse c tag) := by
  unfold State.arrive
  rw [if_neg (by simp [hp, hh]), if_pos (show Config.credits ≤ _ from hc)]

theorem arrive_credit (hp : s.porst = false) (hh : s.hrst = false) (hc : s.hostTable[c].length < 4) :
    s.arrive c tag r = .next (s.count1.accept c tag r).settle := by
  unfold State.arrive
  rw [if_neg (by simp [hp, hh]), if_neg (show ¬ Config.credits ≤ _ from Nat.not_le_of_lt hc)]

theorem refuse_eq : s.count1.refuse c tag = { s with
    now := s.now + 1
    counters := { s.counters with refused := s.counters.refused + 1 }
    refused := if s.refused[c] = none then s.refused.set c (some (tag, s.latches[c].isSome)) else s.refused
    readyOrder := if s.refused[c] = none then s.readyOrder ++ [.refused c] else s.readyOrder } := by
  have refused : s.count1.refused = s.refused := rfl
  unfold State.refuse
  rw [refused]
  cases hr : s.refused[c] with
  | none => rfl
  | some x => rfl

/-! ### The acceptance checks -/

theorem lineOf_toNat (a : Addr) : (lineOf a).toNat = a.toNat / 64 := by
  have := a.isLt
  simp only [lineOf, BitVec.extractLsb'_toNat, Nat.shiftRight_eq_div_pow]
  omega

theorem homeOf_lineOf_toNat (a : Addr) : (homeOf (lineOf a)).toNat = a.toNat / 131072 := by
  have := a.isLt
  simp only [homeOf, BitVec.extractLsb'_toNat, Nat.shiftRight_eq_div_pow, lineOf_toNat]
  omega

theorem indexOf_lineOf_toNat (a : Addr) : (indexOf (lineOf a)).toNat = a.toNat / 64 % 2048 := by
  simp only [indexOf, BitVec.extractLsb'_toNat, Nat.shiftRight_eq_div_pow, lineOf_toNat]
  omega

theorem isDirect_lineOf (a : Addr) : isDirect (lineOf a) = true ↔ 1792 ≤ a.toNat / 64 % 2048 := by
  rw [← indexOf_lineOf_toNat]
  exact decide_eq_true_iff

theorem aligned_iff (a : Addr) : aligned a = true ↔ a.toNat % 8 = 0 := by
  unfold aligned
  rw [decide_eq_true_iff, ← BitVec.toNat_inj]
  simp [BitVec.extractLsb'_toNat]

/-- The record is well formed: its kind decodes, its address is aligned, its mask and timeout are not 0. -/
def Formed (r : Request) : Prop :=
  (∀ u, r ≠ .undecodable u) ∧ (∀ a, r.addr? = some a → a.toNat % 8 = 0) ∧ (∀ a v, r ≠ .write a 0 v) ∧
    (∀ a v, r ≠ .posted a 0 v) ∧ (∀ a v, r ≠ .watch a v 0)

theorem malformed_iff (r : Request) : r.malformed = true ↔ ¬ Formed r := by
  unfold Formed
  cases r with
  | undecodable u => simp [Request.malformed]
  | write a m v | posted a m v =>
    have ha := aligned_iff a
    simp only [Request.malformed, Request.addr?, Bool.or_eq_true, Bool.not_eq_true', decide_eq_true_eq, ne_eq,
      reduceCtorEq, not_false_eq_true, implies_true, true_and, and_true, Option.some.injEq, forall_eq', Request.write.injEq,
      Request.posted.injEq, not_and, ← ha]
    cases aligned a <;> simp
  | watch a v n =>
    have ha := aligned_iff a
    simp only [Request.malformed, Request.addr?, Bool.or_eq_true, Bool.not_eq_true', decide_eq_true_eq, ne_eq,
      reduceCtorEq, not_false_eq_true, implies_true, true_and, Option.some.injEq, forall_eq', Request.watch.injEq,
      not_and, ← ha]
    cases aligned a <;> simp
  | read a | atomic op a x y | reserve a | conditional a v | flush a | probe a =>
    simp [Request.malformed, Request.addr?, ← aligned_iff]
  | fence | status b => simp [Request.malformed, Request.addr?]

theorem isStatus_iff (r : Request) : r.isStatus = false ↔ ∀ b, r ≠ .status b := by
  cases r <;> simp [Request.isStatus]

theorem cachedOnly_iff (r : Request) (a : Addr) : r.addr? = some a → (r.cachedOnly = true ↔
    r = .reserve a ∨ (∃ v, r = .conditional a v) ∨ (∃ v n, r = .watch a v n)) := by
  intro h
  cases r <;> simp_all [Request.cachedOnly, Request.addr?]

theorem addr_of_cachedOnly {r : Request} {a : Addr}
    (h : r = .reserve a ∨ (∃ v, r = .conditional a v) ∨ (∃ v n, r = .watch a v n)) : r.addr? = some a := by
  rcases h with rfl | ⟨v, rfl⟩ | ⟨v, n, rfl⟩ <;> rfl

/-- Check 2 fails: an INERT station takes a STATUS alone. -/
theorem check_barred (h : s.station.mode = .inert ∧ ∀ b, r ≠ .status b) : s.acceptanceCheck r = some .badConfig := by
  unfold State.acceptanceCheck
  rw [if_pos]
  simp [h.1, (isStatus_iff r).2 h.2]

/-- Behind check 2 stand the others. -/
theorem check_after_barred (h : ¬(s.station.mode = .inert ∧ ∀ b, r ≠ .status b)) : s.acceptanceCheck r =
    if r.malformed then some .badRequest
    else match r.addr? with
      | none => none
      | some a =>
        if s.station.count.toNat ≤ (homeOf (lineOf a)).toNat then some .noHome
        else if r.cachedOnly && isDirect (lineOf a) then some .region
        else none := by
  have passed : ¬ (decide (s.station.mode = .inert) && !r.isStatus) = true := by
    simp only [Bool.and_eq_true, decide_eq_true_eq, Bool.not_eq_true', isStatus_iff]
    exact h
  exact (if_neg passed).trans rfl

/-- Settles O7: the three ways a record arrives, and the checks one behind the other. -/
theorem recordsAreDiscardedRefusedOrChecked : Obligations.RecordsAreDiscardedRefusedOrChecked := by
  refine ⟨fun i c tag r s hi => ⟨fun h => ?_, fun hp hh hc => ?_⟩, fun s r => ?_⟩
  · rw [exec_eq_arrive hi, arrive_reset h]
  · rw [exec_eq_arrive hi, arrive_full hp hh hc, refuse_eq]
  · intro barred formed homeless outside
    refine ⟨check_barred, fun hb hf => ?_, fun hb hf hh => ?_, fun hb hf hh ho => ?_, fun hb hf hh ho => ?_⟩ <;>
      rw [check_after_barred hb]
    · rw [if_pos ((malformed_iff r).2 hf)]
    · obtain ⟨a, ha, hc⟩ := hh
      have sound : ¬ r.malformed = true := fun h => (malformed_iff r).1 h hf
      simp only [if_neg sound, ha, homeOf_lineOf_toNat, if_pos hc]
    · obtain ⟨a, hr, hd⟩ := ho
      have ha := addr_of_cachedOnly hr
      have sound : ¬ r.malformed = true := fun h => (malformed_iff r).1 h hf
      have home : ¬ s.station.count.toNat ≤ a.toNat / 131072 := fun h => hh ⟨a, ha, h⟩
      simp [sound, ha, homeOf_lineOf_toNat, home, (cachedOnly_iff r a ha).2 hr, (isDirect_lineOf a).2 hd]
    · have sound : ¬ r.malformed = true := fun h => (malformed_iff r).1 h hf
      rw [if_neg sound]
      split
      · rfl
      · rename_i a ha
        have home : ¬ s.station.count.toNat ≤ a.toNat / 131072 := fun h => hh ⟨a, ha, h⟩
        have inside : ¬ (r.cachedOnly && isDirect (lineOf a)) = true := fun h => by
          rw [Bool.and_eq_true, isDirect_lineOf, cachedOnly_iff r a ha] at h
          exact ho ⟨a, h⟩
        rw [if_neg (by rw [homeOf_lineOf_toNat]; exact home), if_neg inside]

end Sys2Proof.Proofs.Acceptance
end

