-- ==== Sys2Proof/Proofs/Emissions.lean ====
section
/-! PROOFS. What one command adds to the completion order, and the completion that leaves it (R110, R111, R118, R119). -/

namespace Sys2Proof.Proofs.Emissions

open Sys2Proof Sys2Proof.Machine Sys2Proof.Proofs.Steps Sys2Proof.Proofs.Updates Sys2Proof.Proofs.Happenings
open Sys2Proof.Proofs.CompletionOrder

variable {i : Instr} {s t u : State}

/-- The completions that `t` has in order behind those of `s`. -/
def Adds (s t : State) : Prop :=
  ∃ fresh, t.readyOrder = s.readyOrder ++ fresh ∧
    (fresh.filterMap (fun x => match x with
      | .accepted _ n => some n
      | .refused _ => none)).Pairwise (· ≤ ·) ∧
    (∀ c n, .accepted c n ∈ fresh ↔
      (∃ e ∈ t.hostTable[c], e.isOpen = false ∧ e.place = n) ∧ .accepted c n ∉ s.readyOrder) ∧
    ∀ c, .refused c ∈ fresh ↔ s.refused[c] = none ∧ (t.refused[c]).isSome = true

/-- The ready completions all stand in the completion order. -/
def Ordered (s : State) : Prop := ∀ c : ChanId, ∀ e ∈ s.hostTable[c], e.isOpen = false → .accepted c e.place ∈ s.readyOrder

/-- A happening that leaves the host port adds nothing. -/
theorem adds_none (h : Ordered s) (ht : t.hostTable = s.hostTable) (ho : t.readyOrder = s.readyOrder)
    (hr : t.refused = s.refused) : Adds s t := by
  refine ⟨[], by rw [ho, List.append_nil], by simp, fun c n => ?_, fun c => ?_⟩
  · rw [ht]
    refine ⟨nofun, fun ⟨⟨e, he, hc, hn⟩, hs⟩ => ?_⟩
    exact absurd (hn ▸ h c e he hc) hs
  · rw [hr]
    refine ⟨nofun, fun ⟨hn, hs⟩ => ?_⟩
    rw [hn] at hs; cases hs

theorem places_accepted (xs : List (ChanId × Nat)) :
    (xs.map (fun x => ReadyToken.accepted x.1 x.2)).filterMap (fun x => match x with
      | .accepted _ n => some n
      | .refused _ => none) = xs.map (fun x => x.2) := by
  induction xs with
  | nil => rfl
  | cons x xs ih => simp only [List.map_cons, List.filterMap_cons]; rw [ih]

/-- A happening that runs to rest adds what it made ready. -/
theorem adds_orderReady (ho : u.readyOrder = s.readyOrder) (hr : u.refused = s.refused) : Adds s u.orderReady := by
  refine ⟨u.freshReady, by rw [← ho]; rfl, ?_, fun c n => ?_, fun c => ?_⟩
  · rw [freshReady_eq, places_accepted]
    exact List.pairwise_map.2 (sortBy_sorted _ _)
  · rw [freshReady_eq, ← ho]
    have member : ReadyToken.accepted c n ∈ (sortBy (fun x => x.2) (unordered u)).map (fun x => .accepted x.1 x.2) ↔
        (c, n) ∈ sortBy (fun x => x.2) (unordered u) := by simp
    exact member.trans mem_unordered
  · have none : u.orderReady.refused = s.refused := hr
    rw [freshReady_eq, none]
    refine ⟨fun h => by simp at h, fun ⟨hn, hs⟩ => ?_⟩
    rw [hn] at hs; cases hs

/-- The completion order and the refusals, which no small update and no deed writes. -/
def orderOf (s : State) : List ReadyToken × Vector (Option (BitVec 8 × Bool)) 4 := (s.readyOrder, s.refused)

theorem orderOf_touch (h : Touch s t) : orderOf t = orderOf s := by cases h <;> rfl

theorem orderOf_deed (h : Deed s t) : orderOf t = orderOf s := by cases h <;> rfl

theorem orderOf_deeds (h : Deeds s t) : orderOf t = orderOf s :=
  Deeds.keeps (P := fun u => orderOf u = orderOf s) (fun h e => (orderOf_touch h).trans e)
    (fun h e => (orderOf_deed h).trans e) h rfl

theorem adds_settle (h : orderOf u = orderOf s) : Adds s u.settle := by
  have ran : orderOf (settleLoop u.fuel u) = orderOf s :=
    (orderOf_deeds (.runs (settleLoop_runs _ _))).trans h
  simp only [orderOf, Prod.mk.injEq] at ran
  exact adds_orderReady ran.1 ran.2

theorem adds_happening (h : Deeds s.count1 u) : Adds s u.settle :=
  adds_settle ((orderOf_deeds h).trans (rfl : orderOf s.count1 = orderOf s))

theorem adds_verdict (h : Deeds s.count1 u) : Adds s u.settle.arbitrate := by
  obtain ⟨fresh, h⟩ := adds_happening h
  exact ⟨fresh, h⟩

theorem adds_quiet (h : Ordered s) (hq : Quiet s.count1 t) : Adds s t := by
  have port : portOf t = portOf s :=
    Quiet.keeps (P := fun u => portOf u = portOf s) (fun h e => (portOf_deed h).trans e) hq rfl
  simp only [portOf, Prod.mk.injEq] at port
  exact adds_none h port.1 port.2.1 port.2.2.1

theorem adds_refuse {c : ChanId} {tag : BitVec 8} (h : Ordered s) : Adds s (s.count1.refuse c tag) := by
  unfold State.refuse
  split
  · exact adds_none h rfl rfl rfl
  · rename_i hc
    have hc : s.refused[c] = none := by simpa using (show ¬ (s.refused[c]).isSome = true from hc)
    refine ⟨[.refused c], rfl, by simp, fun d n => ?_, fun d => ?_⟩
    · refine ⟨fun hm => by simp at hm, fun ⟨⟨e, he, ho, hn⟩, hs⟩ => ?_⟩
      exact absurd (hn ▸ h d e he ho) hs
    · show ReadyToken.refused d ∈ [.refused c] ↔
        s.refused[d] = none ∧ ((s.refused.set c (some (tag, s.count1.raiseRefused.latchSet c)))[d]).isSome = true
      by_cases hd : c = d
      · subst hd; simpa using hc
      · have hn : (c : Nat) ≠ d := fun h => hd (Fin.ext h)
        rw [List.mem_singleton]
        simp only [Fin.getElem_fin, Vector.getElem_set_ne _ _ hn, ReadyToken.refused.injEq]
        refine ⟨fun h => absurd h.symm hd, fun ⟨hn, hs⟩ => ?_⟩
        rw [hn] at hs; cases hs

theorem adds_brings (hb : Brings i s t) (h : Ordered s) (ha : i ≠ .porstAsserted) (hr : ∀ n k, i ≠ .porstReleased n k)
    (hh : i ≠ .hostReset) (he : i ≠ .completionEmitted) : Adds s t := by
  cases hb with
  | held | discarded | pin | hrstReleased | idleExpired | swept => exact adds_none h rfl rfl rfl
  | emptied => contradiction
  | released n k => exact absurd rfl (hr n k)
  | hostReset => contradiction
  | emitted => contradiction
  | refused => exact adds_refuse h
  | accepted => exact adds_settle rfl
  | granted => exact adds_quiet h (grantTo_quiet _ _ _ _)
  | requestFrame => exact adds_quiet h (readRequest_quiet _ _ _)
  | replyFrame => exact adds_quiet h (readReply_quiet _ _ _)
  | strangeFrame => exact adds_quiet h (readUndecodable_quiet _)
  | peerVerdict => exact adds_verdict (peerVerdict_deeds _ _ _ _ _)
  | unreadVerdict => exact adds_verdict (.quiet closeTenure_quiet)
  | entryVerdict => exact adds_verdict ((ownEnds_deeds _ _ _).trans (entryVerdict_deeds _ _ _))
  | returnVerdict => exact adds_verdict ((ownEnds_deeds _ _ _).trans (writebackVerdict_deeds _ _))
  | replyVerdict => exact adds_verdict (.quiet (ownReplyVerdict_quiet _ _))
  | peerReplyVerdict => exact adds_verdict (peerReplyVerdict_deeds _ _ _ _ _)
  | replyExpired => exact adds_happening (.runs (expireEntry_runs _))
  | watchExpired => exact adds_happening (.runs (timeOutWatch_runs _ _))
  | homeEnded => exact adds_happening (finishHome_deeds _)

/-! ### The emission -/

theorem exec_emission (hp : s.porst = false) (he : s.count1.emission = some t) :
    exec .completionEmitted s = .next t := by
  show s.guarded s.count1.emission.isSome .noCompletionReady (.next (s.count1.emission.getD s)) = _
  unfold State.guarded
  rw [he, hp]
  rfl

theorem emission_accepted {c : ChanId} {n : Nat} {rest : List ReadyToken} {e : HostEntry} {es : List HostEntry}
    {st : Status} {d : Bool} {data : List Word} (ho : s.readyOrder = .accepted c n :: rest) (ht : s.hostTable[c] = e :: es)
    (he : e.progress = .ready st d data) : s.emission = some { s with
      hostTable := s.hostTable.set c es
      readyOrder := rest
      out := {
        completion := some { ch := c, tag := e.tag, status := st, deferred := d, data := data }
        credit := some c } } := by
  have done : completionOf c e = some { ch := c, tag := e.tag, status := st, deferred := d, data := data } := by
    unfold completionOf; rw [he]
  have first : (s.hostTable[c].head?).bind (fun e => (completionOf c e).map (s.emitAccepted c))
      = some (s.emitAccepted c { ch := c, tag := e.tag, status := st, deferred := d, data := data }) := by
    rw [ht]; simp [done]
  unfold State.emission
  rw [ho]
  refine first.trans ?_
  unfold State.emitAccepted
  rw [ho, ht]
  rfl

theorem emission_refused {c : ChanId} {rest : List ReadyToken} {tag : BitVec 8} {d : Bool}
    (ho : s.readyOrder = .refused c :: rest) (hr : s.refused[c] = some (tag, d)) : s.emission = some { s with
      refused := s.refused.set c none
      readyOrder := rest
      out := {
        completion := some { ch := c, tag := tag, status := .refused, deferred := d, data := [] }
        credit := none } } := by
  have first : (s.refused[c]).map (fun r => s.emitRefused c r.1 r.2) = some (s.emitRefused c tag d) := by
    rw [hr]; rfl
  unfold State.emission
  rw [ho]
  refine first.trans ?_
  unfold State.emitRefused
  rw [ho]
  rfl

/-- Settles O9: what `orderReady` adds, what each happening adds by it, and the two kinds of emission. -/
theorem completionsAreOrderedAndEmitted : Obligations.CompletionsAreOrderedAndEmitted := by
  refine ⟨fun s => ⟨sortBy (fun x => x.2) (unordered s), rfl, sortBy_sorted _ _, fun c n => mem_unordered⟩, ?_, ?_⟩
  · intro i s t h ha hr hh he ho
    exact adds_brings (brings_of_exec h) ho ha hr hh he
  · intro s c rest hp
    refine ⟨fun n e es st d data ho ht he => exec_emission hp ?_, fun tag d ho hr => exec_emission hp ?_⟩
    · exact emission_accepted (s := s.count1) ho ht he
    · exact emission_refused (s := s.count1) ho hr

end Sys2Proof.Proofs.Emissions
end

