-- ==== Sys2Proof/Proofs/Presented.lean ====
section
/-! PROOFS. A record that arrives at a station at rest on a free channel: what its lookup and its performing do to the state
with its entry, said for the state without it. -/

namespace Sys2Proof.Proofs.Presented

open Sys2Proof Sys2Proof.Machine Sys2Proof.Proofs.AtRest Sys2Proof.Proofs.Acceptance Sys2Proof.Proofs.Status

variable {i : Instr} {s t : State} {c : ChanId} {tag : BitVec 8} {r : Request} {o : List ReadyToken} {e : HostEntry}

/-! ### The operations on the line array write the line array alone, and read nothing else -/

theorem touch_eq (h : t.lines = s.lines) (l : LineAddr) : t.touch l = { t with lines := (s.touch l).lines } := by
  have way : t.findWay l = s.findWay l := by unfold State.findWay State.wayAt; rw [h]
  unfold State.touch
  rw [way]
  cases s.findWay l with
  | none => simp only [← h]
  | some w => unfold State.touchWay; rw [h]

theorem writeWay_eq (h : t.lines = s.lines) (a : Addr) (v : Word) :
    t.writeWay a v = { t with lines := (s.writeWay a v).lines } := by
  have way : t.findWay (lineOf a) = s.findWay (lineOf a) := by unfold State.findWay State.wayAt; rw [h]
  unfold State.writeWay
  rw [way]
  cases s.findWay (lineOf a) with
  | none => simp only [← h]
  | some w => unfold State.setWay State.wayAt; rw [h]

theorem dropTag_eq (h : t.lines = s.lines) (l : LineAddr) : t.dropTag l = { t with lines := (s.dropTag l).lines } := by
  have way : t.findWay l = s.findWay l := by unfold State.findWay State.wayAt; rw [h]
  unfold State.dropTag
  rw [way]
  cases s.findWay l with
  | none => simp only [← h]
  | some w => unfold State.setWay State.wayAt; rw [h]

theorem setLineState_eq (h : t.lines = s.lines) (l : LineAddr) (st : LineState) :
    t.setLineState l st = { t with lines := (s.setLineState l st).lines } := by
  have way : t.findWay l = s.findWay l := by unfold State.findWay State.wayAt; rw [h]
  unfold State.setLineState
  rw [way]
  cases s.findWay l with
  | none => simp only [← h]
  | some w => unfold State.setWay State.wayAt; rw [h]

theorem install_eq (h : t.lines = s.lines) (l : LineAddr) (st : LineState) (d : LineData) :
    t.install l st d = { t with lines := (s.install l st d).lines } := by
  have way : t.findWay l = s.findWay l := by unfold State.findWay State.wayAt; rw [h]
  unfold State.install
  rw [way]
  cases s.findWay l with
  | none => simp only [← h]
  | some w => unfold State.setWay State.touchWay; rw [h]

theorem touch_withEntry (l : LineAddr) : (s.withEntry c e o).touch l = (s.touch l).withEntry c e o :=
  (touch_eq (s := s) (t := s.withEntry c e o) rfl l).trans (congrArg (fun u : State => u.withEntry c e o) (touch_eq (s := s) (t := s) rfl l).symm)

theorem writeWay_withEntry (a : Addr) (v : Word) : (s.withEntry c e o).writeWay a v = (s.writeWay a v).withEntry c e o :=
  (writeWay_eq (s := s) (t := s.withEntry c e o) rfl a v).trans (congrArg (fun u : State => u.withEntry c e o) (writeWay_eq (s := s) (t := s) rfl a v).symm)

theorem dropTag_withEntry (l : LineAddr) : (s.withEntry c e o).dropTag l = (s.dropTag l).withEntry c e o :=
  (dropTag_eq (s := s) (t := s.withEntry c e o) rfl l).trans (congrArg (fun u : State => u.withEntry c e o) (dropTag_eq (s := s) (t := s) rfl l).symm)

/-! ### The host table -/

theorem set_set_ne {α : Type} (v : Vector α 4) {c d : ChanId} (x y : α) (h : c ≠ d) :
    (v.set c x).set d y = (v.set d y).set c x :=
  Vector.set_comm _ _ fun hn => h (Fin.ext hn)

/-- The one open entry of a channel completes. -/
theorem complete_entry (h : s.head? c = none) (he : e.isOpen = true) (hw : s.isWaiting (.chan c) = false) (st : Status)
    (d : List Word) : (s.withEntry c e o).complete c st d
      = s.withEntry c { e with progress := .ready st (s.latchSet c) d } o := by
  unfold State.complete
  rw [unwait_self]
  · unfold State.updateHead State.withEntry
    unfold State.head? at h
    simp only [Fin.getElem_fin, Vector.getElem_set_self, Vector.set_set] at h ⊢
    rw [mapFirst_append _ _ _ _ h he]
    rfl
  · exact hw

/-- Fewer heads over the same blocks leave a station at rest. -/
theorem atRest_of_heads (hr : s.AtRest) (hp : t.posted = s.posted) (hw : t.waiting = s.waiting) (ht : t.table = s.table)
    (hh : ∀ c e, t.head? c = some e → s.head? c = some e) : t.AtRest := by
  obtain ⟨posted, heads, drains, room, pass⟩ := hr
  have waits : ∀ w, t.isWaiting w = s.isWaiting w := fun w => isWaiting_congr hw w
  have waiter : ∀ w, t.isWaiter w = s.isWaiter w := fun w => by unfold State.isWaiter; rw [ht]
  refine ⟨by rwa [hp, waits, waiter], fun c e h => heads c e (hh c e h), fun c e h => ?_, fun c e h => ?_, by rwa [hw]⟩
  · unfold State.postedOf; rw [hp]; exact drains c e (hh c e h)
  · rw [hp]; exact room c e (hh c e h)

/-! ### The arrival of a record -/

/-- A record that arrives on a free channel of a station at rest, where the promotion of its entry leaves rest behind. -/
theorem exec_once (hi : requestOf i = some (c, tag, r)) (hf : s.ChannelFree c) (hr : s.AtRest)
    (hx : (s.withEntry c (s.entryOf tag r (.opened .waiting)) s.readyOrder).promote c = t.withEntry c e s.readyOrder)
    (ht : (t.withEntry c e s.readyOrder).AtRest) :
    ∃ order, s.readyOrder <+: order ∧ exec i s = .next (t.withEntry c e order) := by
  rw [exec_eq_arrive hi, arrive_once hf hr tag r hx ht]
  exact ⟨s.readyOrder ++ (t.withEntry c e s.readyOrder).freshReady, List.prefix_append _ _, rfl⟩

/-- The same where the entry completes. -/
theorem exec_ready (hi : requestOf i = some (c, tag, r)) (hf : s.ChannelFree c) (hr : s.AtRest)
    (hx : (s.withEntry c (s.entryOf tag r (.opened .waiting)) s.readyOrder).promote c = t.withEntry c e s.readyOrder)
    (ht : t.AtRest) (hh : t.head? c = none) (he : e.isOpen = false) :
    ∃ order, s.readyOrder <+: order ∧ exec i s = .next (t.withEntry c e order) :=
  exec_once hi hf hr hx (atRest_withEntry_ready ht hh he)

/-- What the lookup of a new head decides is decided without its entry. -/
theorem decideRequest_withEntry (r : Request) : (s.withEntry c e o).decideRequest c r = s.decideRequest c r := by
  cases r <;> rfl

theorem mayTake_of_rest (hr : s.AtRest) (n : Nat) : s.mayTake n = true := by
  unfold State.mayTake
  rw [List.all_eq_true]
  exact fun x hx => by simp [hr.pass x hx]

/-- The lookup of a channel's one open entry. -/
theorem lookup_newHead (h : s.head? c = none) (hw : s.isWaiting (.chan c) = false) (hr : s.AtRest) (r : Request) :
    (s.withEntry c (s.entryOf tag r (.opened .active)) o).lookupOp (.chan c) false
      = (s.withEntry c (s.entryOf tag r (.opened .active)) o).applyDecision (.chan c) s.nextPlace false true
          (lineOf (r.addr?.getD 0)) (s.decideRequest c r) := by
  have head : (s.withEntry c (s.entryOf tag r (.opened .active)) o).head? c
      = some (s.entryOf tag r (.opened .active)) := head_withEntry h rfl
  have waits : (s.withEntry c (s.entryOf tag r (.opened .active)) o).isWaiting (.chan c) = false := hw
  have pending : (s.withEntry c (s.entryOf tag r (.opened .active)) o).waiting.any
      (fun x => x.who = .chan c && x.pendingFlush) = false := by
    simp only [State.isWaiting, List.any_eq_false, decide_eq_true_eq] at hw
    simp only [List.any_eq_false, Bool.and_eq_true, decide_eq_true_eq, not_and]
    exact fun x hx hxc => absurd hxc (hw x hx)
  have may : (s.withEntry c (s.entryOf tag r (.opened .active)) o).mayTake (s.entryOf tag r (.opened .active)).place = true :=
    mayTake_of_rest hr _
  unfold State.lookupOp
  rw [pending, unwait_self waits]
  simp only [head]
  rw [decideRequest_withEntry, may]
  rfl

/-- What a new head finds: a RESERVE clears its channel's reservation first (R145). -/
def opened (s : State) (c : ChanId) (r : Request) : State :=
  match r with
  | .reserve _ => { s with reservations := s.reservations.set c none }
  | _ => s

theorem opened_of_ne (h : ∀ a, r ≠ .reserve a) : opened s c r = s := by
  cases r with
  | reserve a => exact absurd rfl (h a)
  | _ => rfl

/-- A request that presents is looked up as it arrives. -/
theorem promote_decides (h : s.Presents c) (hk : s.acceptanceCheck r = none) (hp : r.isPosted = false) :
    (s.withEntry c (s.entryOf tag r (.opened .waiting)) o).promote c
      = ((opened s c r).withEntry c (s.entryOf tag r (.opened .active)) o).applyDecision (.chan c) s.nextPlace false true
          (lineOf (r.addr?.getD 0)) ((opened s c r).decideRequest c r) := by
  rw [promote_activate h.free.head hk hp h.drained]
  unfold State.activate
  simp only [setPhase_withEntry h.free.head]
  rw [head_withEntry h.free.head rfl]
  have found : ∀ u : State, u.head? c = none → u.isWaiting (.chan c) = false → u.AtRest →
      (u.withEntry c (u.entryOf tag r (.opened .active)) o).lookupOp (.chan c) false
        = (u.withEntry c (u.entryOf tag r (.opened .active)) o).applyDecision (.chan c) u.nextPlace false true
          (lineOf (r.addr?.getD 0)) (u.decideRequest c r) := fun u hu hw hr => lookup_newHead hu hw hr r
  cases r with
  | reserve a =>
    have same := found { s with reservations := s.reservations.set c none } h.free.head h.free.notWaiting
      (atRest_same h.rest rfl rfl rfl rfl)
    exact same
  | _ => exact found s h.free.head h.free.notWaiting h.rest

/-- A request that is performed as it arrives. -/
theorem promote_performs (h : s.Presents c) (hk : s.acceptanceCheck r = none) (hp : r.isPosted = false)
    (hd : (opened s c r).decideRequest c r = .perform) :
    (s.withEntry c (s.entryOf tag r (.opened .waiting)) o).promote c
      = ((opened s c r).withEntry c (s.entryOf tag r (.opened .active)) o).performRequest c r := by
  rw [promote_decides h hk hp, hd]
  have head : (opened s c r).head? c = none := by
    unfold opened
    split <;> exact h.free.head
  exact perform_head (head_withEntry head rfl)

end Sys2Proof.Proofs.Presented
end

