-- ==== Sys2Proof/Proofs/Hits.lean ====
section
/-! PROOFS. Requests performed as they arrive in the way that holds their line, and FENCE, PROBE and STATUS (R125 to R132,
R143, R146, R151, R158, R170, R172). -/

namespace Sys2Proof.Proofs.Hits

open Sys2Proof Sys2Proof.Machine Sys2Proof.Proofs.AtRest Sys2Proof.Proofs.Acceptance Sys2Proof.Proofs.Status
open Sys2Proof.Proofs.Presented

variable {i : Instr} {s t : State} {c : ChanId} {tag : BitVec 8} {r : Request} {o : List ReadyToken} {e : HostEntry}
variable {a : Addr} {l : LineAddr}

/-! ### Held lines -/

theorem lookup_of_heldValid (h : s.heldValid l = true) : ∃ st, s.lookup l = some st ∧ st ≠ .invalid := by
  unfold State.heldValid at h
  split at h
  · rename_i st hl
    exact ⟨st, hl, fun hi => by rw [hi] at h; cases h⟩
  · cases h

theorem findWay_of_lookup {st : LineState} (h : s.lookup l = some st) : ∃ w, s.findWay l = some w := by
  unfold State.lookup at h
  obtain ⟨w, hw, -⟩ := Option.map_eq_some_iff.1 h
  exact ⟨w, hw⟩

theorem not_direct_of_lookup {st : LineState} (h : s.lookup l = some st) : isDirect l = false := by
  obtain ⟨w, hw⟩ := findWay_of_lookup h
  unfold State.findWay at hw
  split at hw
  · cases hw
  · rename_i hd; simpa using hd

theorem heldValid_of_lookup {st : LineState} (h : s.lookup l = some st) (hv : st ≠ .invalid) : s.heldValid l = true := by
  unfold State.heldValid
  rw [h]
  simpa [LineState.valid] using hv

theorem decideRead_held (h : s.heldValid l = true) (b : Bool) : s.decideRead l b = .perform := by
  obtain ⟨st, hl, hv⟩ := lookup_of_heldValid h
  unfold State.decideRead
  rw [hl]
  cases st <;> simp_all

theorem decideWrite_sole {st : LineState} (hl : s.lookup l = some st) (hs : st.sole = true) (hh : s.held l = false)
    (b : Bool) : s.decideWrite l b = .perform := by
  unfold State.decideWrite
  rw [hl]
  cases st <;> simp_all [LineState.sole]

/-! ### A store -/

theorem wayWritten_eq (a : Addr) (v : Word) :
    (s.writeWay a v).touch (lineOf a) = { s with lines := ((s.writeWay a v).touch (lineOf a)).lines } := by
  have touched := touch_eq (s := s.writeWay a v) (t := s.writeWay a v) rfl (lineOf a)
  rw [touched, writeWay_eq (s := s) (t := s) rfl]

/-- What a store finds when it answers the watches. -/
def storing (s : State) (a : Addr) (v : Word) : State :=
  { s with
    lines := ((s.writeWay a v).touch (lineOf a)).lines
    reservations := s.reservations.map (fun r => r.filter (fun b => b ≠ a)) }

theorem stored_eq (a : Addr) (v : Word) :
    s.stored a v = channels.foldl (fun u d => u.watchAnswered a v d) (storing s a v) := by
  unfold State.stored storing
  congr 1
  rw [wayWritten_eq]

theorem watchAnswered_hit {v : Word} {d : ChanId} {w : Watch} {h : HostEntry} (hw : s.watches[d] = some w)
    (hh : s.hostTable[d] = [h]) (hx : w.phase = .armed ∧ w.addr = a ∧ w.compare ≠ v ∧ h.isOpen = true) :
    s.watchAnswered a v d = State.answered { s with watches := s.watches.set d none } d h .ok [v] := by
  unfold State.watchAnswered
  rw [hw, hh]
  exact if_pos hx

theorem watchAnswered_miss {v : Word} {d : ChanId} (h : ∀ w h, s.watches[d] = some w → s.hostTable[d] = [h] →
    ¬(w.phase = .armed ∧ w.addr = a ∧ w.compare ≠ v ∧ h.isOpen = true)) : s.watchAnswered a v d = s := by
  unfold State.watchAnswered
  split
  · rename_i w x hw hx
    exact if_neg (h w x hw hx)
  · rfl

/-- A channel's WATCH is answered, or the store says nothing to it. -/
theorem watchAnswered_cases (a : Addr) (v : Word) (d : ChanId) : s.watchAnswered a v d = s ∨
    ∃ w h, s.watches[d] = some w ∧ s.hostTable[d] = [h] ∧
      (w.phase = .armed ∧ w.addr = a ∧ w.compare ≠ v ∧ h.isOpen = true) ∧
      s.watchAnswered a v d = State.answered { s with watches := s.watches.set d none } d h .ok [v] := by
  by_cases hx : ∃ w h, s.watches[d] = some w ∧ s.hostTable[d] = [h] ∧
      (w.phase = .armed ∧ w.addr = a ∧ w.compare ≠ v ∧ h.isOpen = true)
  · obtain ⟨w, h, hw, hh, hx⟩ := hx
    exact .inr ⟨w, h, hw, hh, hx, watchAnswered_hit hw hh hx⟩
  · exact .inl (watchAnswered_miss fun w h hw hh hc => hx ⟨w, h, hw, hh, hc⟩)

theorem stored_base (v : Word) : (s.stored a v).latches = s.latches ∧ (s.stored a v).waiting = s.waiting ∧
    (s.stored a v).posted = s.posted ∧ (s.stored a v).table = s.table := by
  have answered : ∀ (u : State) (d : ChanId), ((u.watchAnswered a v d).latches, (u.watchAnswered a v d).waiting,
      (u.watchAnswered a v d).posted, (u.watchAnswered a v d).table) = (u.latches, u.waiting, u.posted, u.table) := by
    intro u d
    rcases watchAnswered_cases (s := u) a v d with h | ⟨_, _, -, -, -, h⟩
    · simp only [h]
    · simp only [h]; rfl
  have all := foldl_keeps (fun u : State => (u.latches, u.waiting, u.posted, u.table))
    (fun (u : State) (d : ChanId) => u.watchAnswered a v d) answered channels (storing s a v)
  rw [← stored_eq] at all
  simp only [Prod.mk.injEq] at all
  exact all

/-- A WATCH that a store answers was the head of its channel. -/
theorem head_watchAnswered {v : Word} {d x : ChanId} (h : (s.watchAnswered a v d).head? x = some e) : s.head? x = some e := by
  rcases watchAnswered_cases (s := s) a v d with h' | ⟨_, _, -, -, -, h'⟩ <;> rw [h'] at h
  · exact h
  · by_cases hx : d = x
    · subst hx
      simp [State.head?, State.answered, HostEntry.isOpen] at h
    · have : (d : Nat) ≠ x := fun h => hx (Fin.ext h)
      simpa [State.head?, State.answered, Vector.getElem_set_ne _ _ this] using h

theorem head_stored {v : Word} {x : ChanId} (h : (s.stored a v).head? x = some e) : s.head? x = some e := by
  have folded : ∀ (ds : List ChanId) (u : State),
      (ds.foldl (fun u d => u.watchAnswered a v d) u).head? x = some e → u.head? x = some e := by
    intro ds
    induction ds with
    | nil => exact fun u h => h
    | cons d ds ih => exact fun u h => head_watchAnswered (ih _ h)
  rw [stored_eq] at h
  exact folded channels (storing s a v) h

theorem head_stored_none {v : Word} {x : ChanId} (h : s.head? x = none) : (s.stored a v).head? x = none := by
  cases hx : (s.stored a v).head? x with
  | none => rfl
  | some e => rw [head_stored hx] at h; cases h

theorem atRest_stored (v : Word) (h : s.AtRest) : (s.stored a v).AtRest := by
  obtain ⟨-, hw, hp, ht⟩ := stored_base (s := s) (a := a) v
  exact atRest_of_heads h hp hw ht fun _ _ => head_stored

/-- A channel without a head has no lone ARMED watch. -/
theorem disarmed_of_head (h : s.LoneWatches) (hc : s.head? c = none) (w : Watch) (hw : s.watches[c] = some w) :
    w.phase ≠ .armed := by
  intro ha
  obtain ⟨-, e, he, ho⟩ := h c w hw ha
  rw [State.head?, he] at hc
  simp [ho] at hc

theorem storable_withEntry (h : s.Storable a) (hc : s.head? c = none) : (s.withEntry c e o).Storable a where
  reservations := h.reservations
  watches d w hw ha := by
    obtain ⟨hwait, x, hx, ho⟩ := h.watches d w hw ha
    have hd : c ≠ d := fun hcd => disarmed_of_head h.watches hc w (hcd ▸ hw) ha
    have : (c : Nat) ≠ d := fun h => hd (Fin.ext h)
    exact ⟨hwait, x, by simpa [State.withEntry, Vector.getElem_set_ne _ _ this] using hx, ho⟩

/-- The answer of another channel's WATCH, or of none, takes no part in a new entry. -/
theorem watchAnswered_withEntry {v : Word} {d : ChanId} (h : ∀ w, s.watches[c] = some w → w.phase ≠ .armed) :
    (s.withEntry c e o).watchAnswered a v d = (s.watchAnswered a v d).withEntry c e o := by
  by_cases hd : c = d
  · subst hd
    have none : ∀ u : State, u.watches = s.watches → u.watchAnswered a v c = u :=
      fun u hu => watchAnswered_miss fun w _ hw _ hx => h w (hu ▸ hw) hx.1
    rw [none s rfl, none (s.withEntry c e o) rfl]
  · have hn : (c : Nat) ≠ d := fun h => hd (Fin.ext h)
    have table : (s.withEntry c e o).hostTable[d] = s.hostTable[d] := by
      simp [State.withEntry, Vector.getElem_set_ne _ _ hn]
    rcases watchAnswered_cases (s := s) a v d with hm | ⟨w, x, hw, hx, hc, hit⟩
    · rw [hm]
      refine watchAnswered_miss fun w x hw hx hc => ?_
      rw [table] at hx
      rw [watchAnswered_hit (s := s) hw hx hc] at hm
      have gone : s.watches[d] = none := by rw [← hm]; simp [State.answered]
      rw [show s.watches[d] = some w from hw] at gone
      cases gone
    · rw [hit, watchAnswered_hit (s := s.withEntry c e o) hw (table.trans hx) hc]
      have same : (s.hostTable.set d [{ x with progress := .ready .ok (s.latchSet d) [v] }])[c] = s.hostTable[c] := by
        simp [Vector.getElem_set_ne _ _ (Ne.symm hn)]
      unfold State.answered State.withEntry
      simp only [Fin.getElem_fin] at same ⊢
      simp only [State.latchSet] at same ⊢
      rw [same, set_set_ne _ _ _ hd]

theorem watches_watchAnswered {v : Word} {d : ChanId} {w : Watch} (h : (s.watchAnswered a v d).watches[c] = some w) :
    s.watches[c] = some w := by
  rcases watchAnswered_cases (s := s) a v d with h' | ⟨_, _, -, -, -, h'⟩ <;> rw [h'] at h
  · exact h
  · by_cases hd : d = c
    · subst hd; simp [State.answered] at h
    · have : (d : Nat) ≠ c := fun h => hd (Fin.ext h)
      simpa [State.answered, Vector.getElem_set_ne _ _ this] using h

theorem stored_withEntry {v : Word} (h : s.LoneWatches) (hc : s.head? c = none) :
    (s.withEntry c e o).stored a v = (s.stored a v).withEntry c e o := by
  have folded : ∀ (ds : List ChanId) (u : State), (∀ w, u.watches[c] = some w → w.phase ≠ .armed) →
      ds.foldl (fun u d => u.watchAnswered a v d) (u.withEntry c e o)
        = (ds.foldl (fun u d => u.watchAnswered a v d) u).withEntry c e o := by
    intro ds
    induction ds with
    | nil => exact fun u _ => rfl
    | cons d ds ih =>
      intro u hu
      rw [List.foldl_cons, List.foldl_cons, watchAnswered_withEntry hu]
      exact ih _ fun w hw => hu w (watches_watchAnswered hw)
  have start : storing (s.withEntry c e o) a v = (storing s a v).withEntry c e o := by
    have lines : (((s.withEntry c e o).writeWay a v).touch (lineOf a)).lines = ((s.writeWay a v).touch (lineOf a)).lines := by
      rw [writeWay_withEntry, touch_withEntry]; rfl
    unfold storing
    rw [lines]
    rfl
  rw [stored_eq, stored_eq, start]
  exact folded channels _ fun w hw => disarmed_of_head h hc w hw

/-- A store into the way that holds its line, under a new entry. -/
theorem storeWord_withEntry (v : Word) (h : s.Storable a) (hc : s.head? c = none) :
    (s.withEntry c e o).storeWord a v = (s.stored a v).withEntry c e o := by
  rw [State.storeWord_eq_stored v (storable_withEntry h hc), stored_withEntry h.watches hc]

/-- The new entry completes after a store. -/
theorem complete_stored (v : Word) (h : s.head? c = none) (he : e.isOpen = true) (hw : s.isWaiting (.chan c) = false)
    (st : Status) (d : List Word) : ((s.stored a v).withEntry c e o).complete c st d
      = (s.stored a v).withEntry c { e with progress := .ready st (s.latchSet c) d } o := by
  obtain ⟨hl, hwait, -, -⟩ := stored_base (s := s) (a := a) v
  rw [complete_entry (head_stored_none h) he ((isWaiting_congr hwait _).trans hw)]
  have latch : (s.stored a v).latchSet c = s.latchSet c := by unfold State.latchSet; rw [hl]
  rw [latch]

/-- The new entry completes after a touch. -/
theorem complete_touch (h : s.head? c = none) (he : e.isOpen = true) (hw : s.isWaiting (.chan c) = false)
    (st : Status) (d : List Word) : ((s.touch l).withEntry c e o).complete c st d
      = (s.touch l).withEntry c { e with progress := .ready st (s.latchSet c) d } o := by
  rw [touch_eq (s := s) (t := s) rfl]
  exact complete_entry (s := { s with lines := (s.touch l).lines }) h he hw st d

theorem head_touch (d : ChanId) : (s.touch l).head? d = s.head? d := by
  rw [touch_eq (s := s) (t := s) rfl]; rfl

theorem atRest_touch (h : s.AtRest) : (s.touch l).AtRest := by
  rw [touch_eq (s := s) (t := s) rfl]; exact atRest_same h rfl rfl rfl rfl

/-! ### READ -/

theorem withEntry_if {p : Prop} [Decidable p] {u : State} {x : HostEntry} : (if p then s.withEntry c e o else u.withEntry c x o)
    = (if p then s else u).withEntry c (if p then e else x) o := by
  split <;> rfl

/-- Settles O12: a READ of a held line is performed as it arrives. -/
theorem readHitAnswersTheWord : Obligations.ReadHitAnswersTheWord := by
  intro s c tag a h hk hv
  have performed := promote_performRequest (tag := tag) (o := s.readyOrder) (r := .read a) h hk rfl nofun (by
    rw [decideRequest_withEntry]
    obtain ⟨st, hl, -⟩ := lookup_of_heldValid hv
    show (if isDirect (lineOf a) then _ else s.decideRead (lineOf a) false) = Decision.perform
    rw [not_direct_of_lookup hl]; exact decideRead_held hv false)
  have run : (s.withEntry c (s.entryOf tag (.read a) (.opened .active)) s.readyOrder).performRead c a
      = if s.loadPoison a then
          s.withEntry c (s.entryOf tag (.read a) (.ready .dataError (s.latchSet c) [])) s.readyOrder
        else (s.touch (lineOf a)).withEntry c
          (s.entryOf tag (.read a) (.ready .ok (s.latchSet c) [s.loadWord a])) s.readyOrder := by
    show (if s.loadPoison a then State.complete _ c _ _ else State.complete (State.touch _ _) c _ _) = _
    rw [complete_entry h.free.head rfl h.free.notWaiting, touch_withEntry,
      complete_touch h.free.head rfl h.free.notWaiting]
    rfl
  split
  · rename_i hp
    rw [if_pos hp] at run
    exact exec_ready rfl h.free h.rest (performed.trans run) h.rest h.free.head rfl
  · rename_i hp
    rw [if_neg hp] at run
    exact exec_ready rfl h.free h.rest (performed.trans run) (atRest_touch h.rest) ((head_touch c).trans h.free.head) rfl

/-! ### WRITE -/

/-- A masked store under a new entry. -/
theorem storeMasked_withEntry (mask : BitVec 8) (v : Word) (h : s.Storable a) (hc : s.head? c = none) :
    (s.withEntry c e o).storeMasked a mask v = if mask ≠ fullMask ∧ s.loadPoison a = true then none
      else some ((s.stored a (if mask = fullMask then v else mergeMask mask (s.loadWord a) v)).withEntry c e o) := by
  unfold State.storeMasked
  rw [storeWord_withEntry _ h hc]
  simp only [Bool.and_eq_true, decide_eq_true_eq]
  rfl

/-- Settles O13: a WRITE of a line held sole is performed as it arrives. -/
theorem writeHitStores : Obligations.WriteHitStores := by
  intro s c tag a mask v st h hk hl hs hh hst
  have performed := promote_performRequest (tag := tag) (o := s.readyOrder) (r := .write a mask v) h hk rfl nofun (by
    rw [decideRequest_withEntry]
    show (if isDirect (lineOf a) then _ else s.decideWrite (lineOf a) false) = Decision.perform
    rw [not_direct_of_lookup hl]; exact decideWrite_sole hl hs hh false)
  have performed : _ = State.performWrite _ c a mask v := performed
  have run := storeMasked_withEntry (e := s.entryOf tag (.write a mask v) (.opened .active)) (o := s.readyOrder) mask v hst
    h.free.head
  rw [State.performWrite, show State.storeMasked _ a mask v = _ from run] at performed
  split
  · rename_i hp
    rw [if_pos hp] at performed
    exact exec_ready rfl h.free h.rest (performed.trans (complete_entry h.free.head rfl h.free.notWaiting _ _)) h.rest
      h.free.head rfl
  · rename_i hp
    rw [if_neg hp] at performed
    exact exec_ready rfl h.free h.rest
      (performed.trans (complete_stored _ h.free.head rfl h.free.notWaiting _ _)) (atRest_stored _ h.rest)
      (head_stored_none h.free.head) rfl

/-! ### ATOMIC -/

/-- Settles O14: an ATOMIC of a line held sole is performed as it arrives. -/
theorem atomicHitReturnsTheOldWord : Obligations.AtomicHitReturnsTheOldWord := by
  intro i s c tag op a x y st hi h hk hl hs hh hst
  have performed := promote_performRequest (tag := tag) (o := s.readyOrder) (r := .atomic op a x y) h hk rfl nofun (by
    rw [decideRequest_withEntry]
    show (if isDirect (lineOf a) then _ else s.decideWrite (lineOf a) false) = Decision.perform
    rw [not_direct_of_lookup hl]; exact decideWrite_sole hl hs hh false)
  have performed : _ = if s.loadPoison a then State.complete _ c _ _
      else match atomicNew op (s.loadWord a) x y with
        | some v => (State.storeWord _ a v).complete c .ok [s.loadWord a]
        | none => (State.touch _ (lineOf a)).complete c .ok [s.loadWord a] := performed
  split
  · rename_i hp
    rw [if_pos hp] at performed
    exact exec_ready hi h.free h.rest (performed.trans (complete_entry h.free.head rfl h.free.notWaiting _ _)) h.rest
      h.free.head rfl
  · rename_i hp
    rw [if_neg hp] at performed
    cases hn : atomicNew op (s.loadWord a) x y with
    | some v =>
      rw [hn] at performed
      have performed : _ = (State.storeWord _ a v).complete c .ok [s.loadWord a] := performed
      rw [storeWord_withEntry v hst h.free.head, complete_stored _ h.free.head rfl h.free.notWaiting] at performed
      exact exec_ready hi h.free h.rest performed (atRest_stored _ h.rest) (head_stored_none h.free.head) rfl
    | none =>
      rw [hn] at performed
      have performed : _ = (State.touch _ (lineOf a)).complete c .ok [s.loadWord a] := performed
      rw [touch_withEntry, complete_touch h.free.head rfl h.free.notWaiting] at performed
      exact exec_ready hi h.free h.rest performed (atRest_touch h.rest) ((head_touch c).trans h.free.head) rfl

end Sys2Proof.Proofs.Hits
end

