-- ==== Sys2Proof/Proofs/Claims.lean ====
section
/-! PROOFS. RESERVE, CONDITIONAL, WATCH, FENCE, PROBE and STATUS as they arrive (R143, R145, R146, R149, R151, R157, R158,
R170 to R174). -/

namespace Sys2Proof.Proofs.Claims

open Sys2Proof Sys2Proof.Machine Sys2Proof.Proofs.AtRest Sys2Proof.Proofs.Acceptance Sys2Proof.Proofs.Status
open Sys2Proof.Proofs.Presented Sys2Proof.Proofs.Hits

variable {s t : State} {c : ChanId} {tag : BitVec 8} {r : Request} {o : List ReadyToken} {e : HostEntry} {a : Addr}

/-- A state with a channel's reservation written. -/
def reserving (s : State) (c : ChanId) (x : Option Addr) : State := { s with reservations := s.reservations.set c x }

theorem atRest_reserving (h : s.AtRest) (x : Option Addr) : (reserving s c x).AtRest := atRest_same h rfl rfl rfl rfl

/-! ### RESERVE -/

/-- The state in which a channel has reserved a word, its way most recent. -/
def reserved (s : State) (c : ChanId) (a : Addr) : State :=
  { s with lines := (s.touch (lineOf a)).lines, reservations := s.reservations.set c (some a) }

theorem reserved_eq : ({ s.touch (lineOf a) with reservations := s.reservations.set c (some a) } : State) = reserved s c a := by
  rw [touch_eq (s := s) (t := s) rfl]; rfl

theorem performReserve_held (h : s.heldValid (lineOf a) = true) : s.performReserve c a =
    if s.loadPoison a then s.complete c .dataError [] else (reserved s c a).complete c .ok [s.loadWord a] := by
  unfold State.performReserve
  rw [h, ← reserved_eq]
  rfl

/-- The new head's reservation takes the place of the one that it cleared. -/
theorem reserved_withEntry : reserved ((reserving s c none).withEntry c e o) c a = (reserved s c a).withEntry c e o := by
  have lines : (((reserving s c none).withEntry c e o).touch (lineOf a)).lines = (s.touch (lineOf a)).lines := by
    rw [touch_eq (s := s) (t := (reserving s c none).withEntry c e o) rfl]
  have set : ((reserving s c none).withEntry c e o).reservations.set c (some a) = s.reservations.set c (some a) :=
    Vector.set_set _ _
  unfold reserved
  rw [lines, set]
  rfl

/-- Settles O15: a RESERVE of a held line clears the old reservation and sets its own. -/
theorem reserveHitReserves : Obligations.ReserveHitReserves := by
  intro s c tag a h hk hv
  have performed := promote_performs (tag := tag) (o := s.readyOrder) (r := .reserve a) h hk rfl (decideRead_held hv false)
  have performed : _ = State.performReserve
      ((reserving s c none).withEntry c (s.entryOf tag (.reserve a) (.opened .active)) s.readyOrder) c a := performed
  have performed := performed.trans (performReserve_held (by exact hv))
  rw [reserved_withEntry] at performed
  have performed : _ = if s.loadPoison a then _ else _ := performed
  split
  · rename_i hp
    rw [if_pos hp] at performed
    exact exec_ready rfl h.free h.rest
      (performed.trans (complete_entry (s := reserving s c none) h.free.head rfl h.free.notWaiting _ _))
      (atRest_reserving h.rest none) h.free.head rfl
  · rename_i hp
    rw [if_neg hp] at performed
    rw [reserved_eq]
    exact exec_ready rfl h.free h.rest
      (performed.trans (complete_entry (s := reserved s c a) h.free.head rfl h.free.notWaiting _ _))
      (atRest_same h.rest rfl rfl rfl rfl) h.free.head rfl

/-! ### CONDITIONAL -/

theorem stands_iff : s.stands c a = true ↔ s.reservations[c] = some a := decide_eq_true_iff

/-- A store of a CONDITIONAL, its own reservation cleared, meets what the store of the state would meet. -/
theorem storable_reserving (h : s.Storable a) : (reserving s c none).Storable a where
  reservations d hd := by
    refine h.reservations d ?_
    by_cases hc : (c : Nat) = d
    · have : c = d := Fin.ext hc
      subst this; simp [reserving] at hd
    · simpa [reserving, Vector.getElem_set_ne _ _ hc] using hd
  watches := h.watches

/-- Settles O16: a CONDITIONAL whose reservation does not stand fails as it arrives, one whose reservation stands on a sole
line is performed. -/
theorem conditionalStoresOrFails : Obligations.ConditionalStoresOrFails := by
  intro s c tag a v h hk
  refine ⟨fun hn => ?_, fun st hs hl hsole hh hst => ?_⟩
  · have decided := promote_decides (tag := tag) (o := s.readyOrder) (r := .conditional a v) h hk rfl
    have stands : s.stands c a = false := Bool.eq_false_iff.2 fun h => hn (stands_iff.1 h)
    have fails : (opened s c (.conditional a v)).decideRequest c (.conditional a v) = .finish .fail := by
      show (if s.stands c a then _ else Decision.finish .fail) = _
      rw [stands]; rfl
    rw [fails] at decided
    have head : (s.withEntry c (s.entryOf tag (.conditional a v) (.opened .active)) s.readyOrder).conditionalHead c = true := by
      unfold State.conditionalHead
      rw [head_withEntry h.free.head rfl]; rfl
    have finish : State.finishHead (s.withEntry c (s.entryOf tag (.conditional a v) (.opened .active)) s.readyOrder) c .fail
        = (reserving s c none).withEntry c (s.entryOf tag (.conditional a v) (.ready .fail (s.latchSet c) [])) s.readyOrder := by
      unfold State.finishHead
      rw [if_pos head]
      exact complete_entry (s := reserving s c none) h.free.head rfl h.free.notWaiting _ _
    exact exec_ready rfl h.free h.rest (decided.trans finish) (atRest_reserving h.rest none) h.free.head rfl
  · have stands : s.stands c a = true := stands_iff.2 hs
    have performed := promote_performRequest (tag := tag) (o := s.readyOrder) (r := .conditional a v) h hk rfl nofun (by
      rw [decideRequest_withEntry]
      show (if s.stands c a then s.decideWrite (lineOf a) true else _) = Decision.perform
      rw [stands]; exact decideWrite_sole hl hsole hh true)
    have run : State.performConditional
        (s.withEntry c (s.entryOf tag (.conditional a v) (.opened .active)) s.readyOrder) c a v
        = (State.stored (reserving s c none) a v).withEntry c
          (s.entryOf tag (.conditional a v) (.ready .ok (s.latchSet c) [])) s.readyOrder := by
      unfold State.performConditional
      refine (if_pos stands).trans ?_
      have word := storeWord_withEntry (e := s.entryOf tag (.conditional a v) (.opened .active)) (o := s.readyOrder) v
        (storable_reserving (c := c) hst) h.free.head
      exact (congrArg (fun u : State => u.complete c .ok []) word).trans
        (complete_stored (s := reserving s c none) v h.free.head rfl h.free.notWaiting _ _)
    exact exec_ready rfl h.free h.rest (performed.trans run) (atRest_stored _ (atRest_reserving h.rest none))
      (head_stored_none (s := reserving s c none) h.free.head) rfl

/-! ### WATCH -/

/-- The state in which a channel's watch is ARMED, its way most recent. -/
def arming (s : State) (c : ChanId) (a : Addr) (w : Watch) : State :=
  { s with lines := (s.touch (lineOf a)).lines, watches := s.watches.set c (some w) }

theorem arming_eq (w : Watch) :
    ({ s.touch (lineOf a) with watches := s.watches.set c (some w) } : State) = arming s c a w := by
  rw [touch_eq (s := s) (t := s) rfl]; rfl

theorem arming_withEntry (w : Watch) : arming (s.withEntry c e o) c a w = (arming s c a w).withEntry c e o := by
  have lines : ((s.withEntry c e o).touch (lineOf a)).lines = (s.touch (lineOf a)).lines := by
    rw [touch_eq (s := s) (t := s.withEntry c e o) rfl]
  unfold arming
  rw [lines]
  rfl

theorem performWatch_held (h : s.heldValid (lineOf a) = true) (hw : s.watches[c] = none) (v : Word) (n : BitVec 16) :
    s.performWatch c a v n =
      if s.loadPoison a then (s.freeWatch c).complete c .dataError []
      else if s.loadWord a ≠ v then ((s.touch (lineOf a)).freeWatch c).complete c .ok [s.loadWord a]
      else (arming s c a { phase := .armed, addr := a, compare := v, remaining := n.toNat }).setPhase c .active := by
  unfold State.performWatch
  rw [h, hw, ← arming_eq]
  rfl

/-- A free watch stays free. -/
theorem freeWatch_none (h : s.watches[c] = none) : s.freeWatch c = s := by
  have same : s.watches.set c none = s.watches := by
    refine Vector.ext fun i hi => ?_
    by_cases hc : (c : Nat) = i
    · subst hc; simpa using h.symm
    · simp [Vector.getElem_set_ne _ _ hc]
  unfold State.freeWatch
  rw [same]

/-- Settles O17: a WATCH of a held line is compared as it arrives. -/
theorem watchComparesOrArms : Obligations.WatchComparesOrArms := by
  intro s c tag a v n h hk hw hv
  have performed := promote_performRequest (tag := tag) (o := s.readyOrder) (r := .watch a v n) h hk rfl nofun (by
    rw [decideRequest_withEntry]; exact decideRead_held hv _)
  have performed : _ = State.performWatch (s.withEntry c (s.entryOf tag (.watch a v n) (.opened .active)) s.readyOrder) c a v n :=
    performed
  have performed := performed.trans (performWatch_held (by exact hv) (by exact hw) v n)
  rw [arming_withEntry, touch_withEntry] at performed
  have performed : _ = if s.loadPoison a then _ else if s.loadWord a ≠ v then _ else _ := performed
  split
  · rename_i hp
    rw [if_pos hp] at performed
    have performed := performed.trans (congrArg (fun u : State => u.complete c .dataError []) (freeWatch_none (by exact hw)))
    exact exec_ready rfl h.free h.rest (performed.trans (complete_entry h.free.head rfl h.free.notWaiting _ _)) h.rest
      h.free.head rfl
  · rename_i hp
    rw [if_neg hp] at performed
    split
    · rename_i hd
      rw [if_pos hd] at performed
      have free : (s.touch (lineOf a)).watches[c] = none := by rw [touch_eq (s := s) (t := s) rfl]; exact hw
      have performed := performed.trans
        (congrArg (fun u : State => u.complete c .ok [s.loadWord a]) (freeWatch_none (by exact free)))
      exact exec_ready rfl h.free h.rest (performed.trans (complete_touch h.free.head rfl h.free.notWaiting _ _))
        (atRest_touch h.rest) ((head_touch c).trans h.free.head) rfl
    · rename_i hd
      rw [if_neg hd] at performed
      rw [arming_eq]
      refine exec_once rfl h.free h.rest (performed.trans (setPhase_withEntry
        (s := arming s c a { phase := .armed, addr := a, compare := v, remaining := n.toNat }) h.free.head)) ?_
      exact atRest_withEntry_open (atRest_same h.rest rfl rfl rfl rfl) h.free.head rfl rfl (fun h => by cases h)
        (fun _ h => by cases h)

/-! ### FENCE -/

/-- The layout of the latch word. -/
theorem latchWord_fields (l : Latch) : (latchWord (some l)).getLsbD 63 = true ∧
    (latchWord (some l)).extractLsb' 59 4 = statusCode l.status ∧ (latchWord (some l)).getLsbD 58 = l.more ∧
    (latchWord (some l)).extractLsb' 21 37 = 0 ∧ (latchWord (some l)).extractLsb' 0 21 = l.addr := by
  have word : latchWord (some l)
      = (bit true ++ statusCode l.status ++ bit l.more ++ 0#37 ++ l.addr : BitVec (1 + 4 + 1 + 37 + 21)) := rfl
  refine ⟨?_, ?_, ?_, ?_, ?_⟩
  · rw [word]; simp only [BitVec.getLsbD_append, bit, BitVec.getLsbD_ofBool]; simp
  · rw [word]
    exact (BitVec.extractLsb'_append_eq_of_le (by decide)).trans
      ((BitVec.extractLsb'_append_eq_of_le (by decide)).trans
        ((BitVec.extractLsb'_append_eq_of_le (by decide)).trans BitVec.extractLsb'_append_eq_right))
  · rw [word]; simp only [BitVec.getLsbD_append, bit, BitVec.getLsbD_ofBool]; simp
  · rw [word]
    exact (BitVec.extractLsb'_append_eq_of_le (by decide)).trans BitVec.extractLsb'_append_eq_right
  · rw [word]
    exact BitVec.extractLsb'_append_eq_right

/-- Settles O19: a FENCE reads its latch and clears it as it arrives. -/
theorem fenceReportsTheLatch : Obligations.FenceReportsTheLatch := by
  intro s c tag h hk
  have performed := promote_performRequest (tag := tag) (o := s.readyOrder) (r := .fence) h hk rfl nofun (by
    rw [decideRequest_withEntry]; rfl)
  have run : State.performFence (s.withEntry c (s.entryOf tag .fence (.opened .active)) s.readyOrder) c
      = State.withEntry { s with latches := s.latches.set c none } c
        (s.entryOf tag .fence (.ready .ok (s.latches[c].isSome) [latchWord s.latches[c]])) s.readyOrder := by
    unfold State.performFence
    rw [complete_entry h.free.head rfl h.free.notWaiting]
    rfl
  obtain ⟨order, hp, hx⟩ := exec_ready (i := .fence c tag) rfl h.free h.rest (performed.trans run)
    (atRest_same h.rest rfl rfl rfl rfl) h.free.head rfl
  exact ⟨order, latchWord s.latches[c], hp, hx, fun hn => by rw [hn]; rfl, fun l hl => by rw [hl]; exact latchWord_fields l⟩

/-! ### PROBE and STATUS -/

/-- A new head that does not wait is no pending flush. -/
theorem flushPending_withEntry (h : s.isWaiting (.chan c) = false) (l : LineAddr) :
    (s.withEntry c e o).flushPending l = s.flushPending l := by
  unfold State.flushPending
  congr 1
  funext d
  by_cases hd : d = c
  · subst hd
    have none : s.waiting.any (fun x => x.who = .chan d && x.pendingFlush) = false := by
      simp only [State.isWaiting, List.any_eq_false, decide_eq_true_eq] at h
      simp only [List.any_eq_false, Bool.and_eq_true, decide_eq_true_eq, not_and]
      exact fun x hx hxc => absurd hxc (h x hx)
    rw [show (s.withEntry d e o).waiting = s.waiting from rfl, none, Bool.and_false, Bool.and_false]
  · rw [head_withEntry_ne hd]; rfl

/-- The line report reads no host request table but for pending flushes, and a PROBE is none. -/
theorem lineReport_withEntry (hw : s.isWaiting (.chan c) = false) (a : Addr) :
    (s.withEntry c e o).lineReport a = s.lineReport a := by
  unfold State.lineReport
  simp only [flushPending_withEntry hw]
  rfl

/-- Settles O20: PROBE and STATUS are performed as they arrive. -/
theorem probeAndStatusReport : Obligations.ProbeAndStatusReport := by
  intro s c tag h
  refine ⟨fun a hk => ?_, ?_, ?_⟩
  · have performed := promote_performRequest (tag := tag) (o := s.readyOrder) (r := .probe a) h hk rfl nofun (by
      rw [decideRequest_withEntry]; rfl)
    have performed : _ = State.complete _ c .ok [(State.lineReport _ a).word] := performed
    rw [lineReport_withEntry h.free.notWaiting] at performed
    exact exec_ready rfl h.free h.rest (performed.trans (complete_entry h.free.head rfl h.free.notWaiting _ _)) h.rest
      h.free.head rfl
  · exact exec_ready rfl h.free h.rest (promote_status h tag _) h.rest h.free.head rfl
  · have performed := promote_performRequest (tag := tag) (o := s.readyOrder) (r := .status true) h
      (acceptanceCheck_status true) rfl nofun (by rw [decideRequest_withEntry]; rfl)
    have run : State.performStatus (s.withEntry c (s.entryOf tag (.status true) (.opened .active)) s.readyOrder) c true
        = State.withEntry { s with counters := Counters.zero } c
          (s.entryOf tag (.status true) (.ready .ok (s.latchSet c) s.statusWords)) s.readyOrder := by
      unfold State.performStatus
      rw [complete_entry h.free.head rfl h.free.notWaiting]
      rfl
    exact exec_ready rfl h.free h.rest (performed.trans run) (atRest_same h.rest rfl rfl rfl rfl) h.free.head rfl

end Sys2Proof.Proofs.Claims
end

