-- ==== Sys2Proof/Proofs/Values.lean ====
section
/-! PROOFS. The fields of an address, the merge under a byte mask, the atomic values, and the one word that a store reaches
(00_scope.md, conventions; R5, R8, R103, R129). -/

namespace Sys2Proof.Proofs.Values

open Sys2Proof Sys2Proof.Machine Sys2Proof.Proofs.Acceptance

variable {s : State} {a b : Addr} {l : LineAddr}

/-! ### Address fields -/

theorem wordOf_toNat (a : Addr) : (wordOf a).toNat = a.toNat / 8 % 8 := by
  simp only [wordOf, BitVec.extractLsb'_toNat, Nat.shiftRight_eq_div_pow]

theorem setOf_val (l : LineAddr) : (Machine.setOf l).val = l.toNat % 32 := by
  simp [Machine.setOf]

/-! ### The merge -/

/-- Byte n of eight bytes put together. -/
theorem extractLsb'_bytes (p : Nat → BitVec 8) (n : Fin 8) :
    (p 7 ++ p 6 ++ p 5 ++ p 4 ++ p 3 ++ p 2 ++ p 1 ++ p 0 : BitVec (8+8+8+8+8+8+8+8)).extractLsb' (8 * n.val) 8 = p n.val := by
  have up : ∀ {w : Nat} (x : BitVec w) (y : BitVec 8) (k : Nat), (x ++ y).extractLsb' (8 * (k + 1)) 8 = x.extractLsb' (8 * k) 8 :=
    fun x y k => (BitVec.extractLsb'_append_eq_of_le (by omega)).trans (by congr 1)
  have low : ∀ {w : Nat} (x : BitVec w) (y : BitVec 8), (x ++ y).extractLsb' (8 * 0) 8 = y :=
    fun x y => BitVec.extractLsb'_append_eq_right
  have top : ∀ y : BitVec 8, y.extractLsb' (8 * 0) 8 = y := fun y => BitVec.extractLsb'_eq_self
  fin_cases n
  · exact low _ _
  · exact (up _ _ 0).trans (low _ _)
  · exact (up _ _ 1).trans ((up _ _ 0).trans (low _ _))
  · exact (up _ _ 2).trans ((up _ _ 1).trans ((up _ _ 0).trans (low _ _)))
  · exact (up _ _ 3).trans ((up _ _ 2).trans ((up _ _ 1).trans ((up _ _ 0).trans (low _ _))))
  · exact (up _ _ 4).trans ((up _ _ 3).trans ((up _ _ 2).trans ((up _ _ 1).trans ((up _ _ 0).trans (low _ _)))))
  · exact (up _ _ 5).trans ((up _ _ 4).trans ((up _ _ 3).trans ((up _ _ 2).trans ((up _ _ 1).trans ((up _ _ 0).trans
      (low _ _))))))
  · exact (up _ _ 6).trans ((up _ _ 5).trans ((up _ _ 4).trans ((up _ _ 3).trans ((up _ _ 2).trans ((up _ _ 1).trans
      ((up _ _ 0).trans (top _)))))))

theorem mergeMask_byte (mask : BitVec 8) (old new : Word) (n : Fin 8) : (mergeMask mask old new).extractLsb' (8 * n.val) 8
    = if mask.getLsbD n.val then new.extractLsb' (8 * n.val) 8 else old.extractLsb' (8 * n.val) 8 :=
  extractLsb'_bytes (fun n => if mask.getLsbD n then byteOf new n else byteOf old n) n

/-! ### The atomic values -/

theorem atomicNew_maxu (old a b : Word) : (atomicNew .maxu old a b).map BitVec.toNat = some (max old.toNat a.toNat) := by
  unfold atomicNew
  simp only [Option.map_some, Option.some.injEq]
  split <;> omega

/-! ### The word stored -/

theorem lineWord_lineStore_same (d : LineData) (w : BitVec 3) (v : Word) : lineWord (lineStore d w v) w = v := by
  simp [lineWord, lineStore]

theorem wordIx_ne {w w' : BitVec 3} (h : w' ≠ w) : (wordIx w : Nat) ≠ wordIx w' :=
  fun hn => h (BitVec.eq_of_toNat_eq hn.symm)

theorem lineWord_lineStore_other (d : LineData) {w w' : BitVec 3} (v : Word) (h : w' ≠ w) :
    lineWord (lineStore d w v) w' = lineWord d w' := by
  unfold lineWord lineStore
  exact Vector.getElem_set_ne (wordIx w).isLt (wordIx w').isLt (wordIx_ne h)

theorem linePoison_lineStore_same (d : LineData) (w : BitVec 3) (v : Word) : linePoison (lineStore d w v) w = false := by
  have := w.isLt
  simp [linePoison, lineStore, BitVec.getLsbD_and, BitVec.getLsbD_not, BitVec.getLsbD_shiftLeft]

theorem linePoison_lineStore_other (d : LineData) {w w' : BitVec 3} (v : Word) (h : w' ≠ w) :
    linePoison (lineStore d w v) w' = linePoison d w' := by
  have hw := w'.isLt
  have hn : w'.toNat ≠ w.toNat := fun hn => h (BitVec.eq_of_toNat_eq hn)
  have clear : (~~~(1#8 <<< w.toNat)).getLsbD w'.toNat = true := by
    simp only [BitVec.getLsbD_not, BitVec.getLsbD_shiftLeft, BitVec.getLsbD_one]
    have : ¬(w'.toNat - w.toNat = 0 ∧ w.toNat ≤ w'.toNat) := by omega
    simp
    omega
  unfold linePoison lineStore
  rw [BitVec.getLsbD_and, clear, Bool.and_true]

/-! ### A store reaches one word of one line -/

theorem writeWay_found {w : WayId} (h : s.findWay (lineOf a) = some w) (v : Word) : s.writeWay a v = s.setWay (lineOf a) w
    { s.wayAt (lineOf a) w with state := .dirtySole, data := lineStore (s.wayAt (lineOf a) w).data (wordOf a) v } := by
  unfold State.writeWay; rw [h]

theorem findWay_writeWay (v : Word) (k : LineAddr) : (s.writeWay a v).findWay k = s.findWay k := by
  cases h : s.findWay (lineOf a) with
  | none => unfold State.writeWay; rw [h]
  | some w => rw [writeWay_found h]; exact findWay_setWay_tag (by rfl) k

/-- Another line's way is another way. -/
theorem wayAt_writeWay_other (v : Word) {u : WayId} (hk : s.findWay l = some u) (hl : l ≠ lineOf a) :
    (s.writeWay a v).wayAt l u = s.wayAt l u := by
  cases h : s.findWay (lineOf a) with
  | none => unfold State.writeWay; rw [h]
  | some w =>
    rw [writeWay_found h]
    refine wayAt_setWay_other _ ?_
    by_contra hc
    push Not at hc
    obtain ⟨hset, rfl⟩ := hc
    have one := (findWay_some hk).2
    have two := (findWay_some h).2
    have same : s.wayAt l u = s.wayAt (lineOf a) u := by simp only [State.wayAt, hset]
    rw [same, two] at one
    exact hl (Option.some.inj one).symm

theorem lookup_writeWay_other (v : Word) (hl : l ≠ lineOf a) : (s.writeWay a v).lookup l = s.lookup l := by
  unfold State.lookup
  rw [findWay_writeWay]
  cases hk : s.findWay l with
  | none => rfl
  | some u => simp only [Option.map_some, wayAt_writeWay_other v hk hl]

theorem lineData_writeWay_other (v : Word) (hl : l ≠ lineOf a) : (s.writeWay a v).lineData l = s.lineData l := by
  unfold State.lineData
  rw [findWay_writeWay]
  cases hk : s.findWay l with
  | none => rfl
  | some u => simp only [wayAt_writeWay_other v hk hl]

theorem lineData_writeWay_same (v : Word) {w : WayId} (h : s.findWay (lineOf a) = some w) :
    (s.writeWay a v).lineData (lineOf a) = lineStore (s.lineData (lineOf a)) (wordOf a) v := by
  unfold State.lineData
  rw [findWay_writeWay, h, writeWay_found h]
  simp only [wayAt_setWay_same]

theorem lookup_writeWay_same (v : Word) {w : WayId} (h : s.findWay (lineOf a) = some w) :
    (s.writeWay a v).lookup (lineOf a) = some .dirtySole := by
  unfold State.lookup
  rw [findWay_writeWay, h, writeWay_found h]
  simp only [Option.map_some, wayAt_setWay_same]

theorem order_writeWay (v : Word) (i : Fin 32) : (s.writeWay a v).lines[i].order = s.lines[i].order := by
  unfold State.writeWay
  split
  · unfold State.setWay
    by_cases hi : i = setOf (lineOf a)
    · subst hi; simp
    · have : ((setOf (lineOf a) : Fin 32) : Nat) ≠ i := fun h => hi (Fin.ext h.symm)
      simp [Vector.getElem_set_ne _ _ this]
  · rfl

/-- Settles O10: each value by its arithmetic, and the store by the one way it writes. -/
theorem valuesAndTheOneWordStored : Obligations.ValuesAndTheOneWordStored := by
  refine ⟨fun a => ⟨lineOf_toNat a, wordOf_toNat a, homeOf_lineOf_toNat a, indexOf_lineOf_toNat a, ?_, isDirect_lineOf a,
    aligned_iff a⟩, mergeMask_byte, fun old a b => ⟨rfl, ?_, rfl, rfl, atomicNew_maxu old a b, ?_, ?_⟩,
    fun s a v h => ?_⟩
  · rw [setOf_val, lineOf_toNat]
  · simp [atomicNew, BitVec.toNat_add]
  · exact fun h => if_pos h
  · exact fun h => if_neg h
  · obtain ⟨w, hw⟩ := Option.isSome_iff_exists.1 h
    refine ⟨lookup_writeWay_same v hw, ?_, ?_, fun b hb => ?_, fun l hl => lookup_writeWay_other v hl, order_writeWay v⟩
    · unfold State.loadWord
      rw [lineData_writeWay_same v hw, lineWord_lineStore_same]
    · unfold State.loadPoison
      rw [lineData_writeWay_same v hw, linePoison_lineStore_same]
    · unfold State.loadWord State.loadPoison
      by_cases hl : lineOf b = lineOf a
      · have hn : wordOf b ≠ wordOf a := hb.resolve_left fun h => h hl
        rw [hl, lineData_writeWay_same v hw, lineWord_lineStore_other _ _ hn, linePoison_lineStore_other _ _ hn]
        exact ⟨rfl, rfl⟩
      · rw [lineData_writeWay_other v hl]
        exact ⟨rfl, rfl⟩

end Sys2Proof.Proofs.Values
end

