-- ==== Sys2Proof/Proofs/Choices.lean ====
section
/-! PROOFS. The choices by rank: the victim way of a set (R11), the holder of a set of station lines (R31, R178), and the
candidate put forward (R28, R29). -/

namespace Sys2Proof.Proofs.Choices

open Sys2Proof Sys2Proof.Machine

variable {s : State} {l : LineAddr}

/-! ### The last element with a property -/

/-- The first found from the end has the greatest index. -/
theorem find_reverse_eq_some {α : Type} [DecidableEq α] {xs : List α} (hn : xs.Nodup) (hm : ∀ v, v ∈ xs) {p : α → Bool} {w : α} :
    xs.reverse.find? p = some w ↔ p w = true ∧ ∀ v, p v = true → xs.idxOf v ≤ xs.idxOf w := by
  rw [List.find?_eq_some_iff_append]
  constructor
  · rintro ⟨hp, as, bs, hx, has⟩
    refine ⟨hp, fun v hv => ?_⟩
    have split : xs = bs.reverse ++ w :: as.reverse := by
      have := congrArg List.reverse hx
      simpa using this
    rw [split] at hn
    have hw : w ∉ bs.reverse := fun h => (List.nodup_append.1 hn).2.2 w h w List.mem_cons_self rfl
    have mem : v ∈ bs.reverse ++ w :: as.reverse := split ▸ hm v
    rw [split, List.idxOf_append_of_notMem hw, List.idxOf_cons_self]
    rcases List.mem_append.1 mem with hb | hb
    · rw [List.idxOf_append_of_mem hb]
      exact (List.idxOf_lt_length_of_mem hb).le.trans (Nat.le_add_right _ _)
    · rcases List.mem_cons.1 hb with rfl | ha
      · rw [List.idxOf_append_of_notMem hw, List.idxOf_cons_self]
      · have := has v (List.mem_reverse.1 ha)
        rw [hv] at this; cases this
  · rintro ⟨hp, hmax⟩
    obtain ⟨bs, as, split⟩ := List.append_of_mem (hm w)
    refine ⟨hp, as.reverse, bs.reverse, by rw [split]; simp, fun v hv => ?_⟩
    cases hpv : p v with
    | false => rfl
    | true =>
      have le := hmax v hpv
      rw [split] at hn le
      obtain ⟨-, hsplit, apart⟩ := List.nodup_append.1 hn
      have hv := List.mem_reverse.1 hv
      have hw : w ∉ bs := fun h => apart w h w List.mem_cons_self rfl
      have hvb : v ∉ bs := fun h => apart v h v (List.mem_cons_of_mem _ hv) rfl
      have hvw : w ≠ v := fun h => (List.nodup_cons.1 hsplit).1 (h ▸ hv)
      rw [List.idxOf_append_of_notMem hw, List.idxOf_append_of_notMem hvb, List.idxOf_cons_self,
        List.idxOf_cons_ne _ hvw] at le
      omega

theorem find_reverse_eq_none {α : Type} {xs : List α} (hm : ∀ v, v ∈ xs) {p : α → Bool} :
    xs.reverse.find? p = none ↔ ∀ v, p v = false := by
  rw [List.find?_eq_none]
  exact ⟨fun h v => by simpa using h v (List.mem_reverse.2 (hm v)), fun h v _ => by simp [h v]⟩

/-! ### The victim (R11) -/

theorem mem_wayIds (w : WayId) : w ∈ wayIds := by
  revert w; decide

theorem pinned_iff (w : Way) : s.pinned w = true ↔ ∃ t, w.tag = some t ∧
    (w.state = .invalid ∨ (∃ e ∈ s.table, e.line = t) ∨ s.flushPending t = true) := by
  have entry : ∀ t, (s.entryFor t).isSome = true ↔ ∃ e ∈ s.table, e.line = t := fun t => by
    simp [State.entryFor, List.find?_isSome]
  unfold State.pinned
  cases w.tag with
  | none => simp
  | some t => simp [entry, or_assoc]

theorem claimed_iff (t : LineAddr) : s.claimed t = true ↔
    (∃ (c : ChanId) (a : Addr), s.reservations[c] = some a ∧ lineOf a = t) ∨
      ∃ (c : ChanId) (x : Watch), s.watches[c] = some x ∧ x.phase = .armed ∧ lineOf x.addr = t := by
  unfold State.claimed
  simp only [List.any_eq_true, Bool.or_eq_true, Option.any_eq_true, Bool.and_eq_true, decide_eq_true_eq]
  constructor
  · rintro ⟨c, -, ⟨a, ha, hl⟩ | ⟨x, hx, hp, hl⟩⟩
    · exact .inl ⟨c, a, ha, hl⟩
    · exact .inr ⟨c, x, hx, hp, hl⟩
  · rintro (⟨c, a, ha, hl⟩ | ⟨c, x, hx, hp, hl⟩)
    · exact ⟨c, mem_channels c, .inl ⟨a, ha, hl⟩⟩
    · exact ⟨c, mem_channels c, .inr ⟨x, hx, hp, hl⟩⟩

/-- No claim stands on the line in the way. -/
def claimless (s : State) (l : LineAddr) (w : WayId) : Bool :=
  match (s.wayAt l w).tag with
  | some t => !s.claimed t
  | none => true

theorem claimless_iff (w : WayId) : claimless s l w = true ↔ ¬∃ t, (s.wayAt l w).tag = some t ∧ s.claimed t = true := by
  unfold claimless
  cases (s.wayAt l w).tag <;> simp

theorem victim_eq (s : State) (l : LineAddr) : s.victim l =
    (s.lines[setOf l].order.reverse.find? (fun w => (s.wayAt l w).tag = none)).or
      ((s.lines[setOf l].order.reverse.find? (fun w => !s.pinned (s.wayAt l w) && claimless s l w)).or
        (s.lines[setOf l].order.reverse.find? (fun w => !s.pinned (s.wayAt l w)))) := rfl

/-- Settles O26: three searches from the least recent way, one behind the other. -/
theorem victimIsTheLeastRecentOfItsRank : Obligations.VictimIsTheLeastRecentOfItsRank := by
  intro s l w hr tag free pinned claimed least
  have perm := hr (setOf l)
  have nodup : (s.lines[setOf l].order).Nodup := perm.nodup_iff.2 (by decide)
  have all : ∀ v, v ∈ s.lines[setOf l].order := fun v => perm.mem_iff.2 (mem_wayIds v)
  have free_iff : ∀ v, decide ((s.wayAt l v).tag = none) = true ↔ free v := fun v => decide_eq_true_iff
  have pinned_iff' : ∀ v, (!s.pinned (s.wayAt l v)) = true ↔ ¬pinned v := fun v => by
    rw [Bool.not_eq_true', ← Bool.not_eq_true, pinned_iff]
  have claimed_iff' : ∀ v, claimless s l v = true ↔ ¬claimed v := fun v => by
    rw [claimless_iff]
    simp only [claimed_iff]
    rfl
  have loose_iff : ∀ v, (!s.pinned (s.wayAt l v) && claimless s l v) = true ↔ ¬pinned v ∧ ¬claimed v := fun v => by
    rw [Bool.and_eq_true, pinned_iff', claimed_iff']
  have found : ∀ {p : WayId → Bool} {q : WayId → Prop}, (∀ v, p v = true ↔ q v) →
      (s.lines[setOf l].order.reverse.find? p = some w ↔ least q) := fun {p q} h => by
    rw [find_reverse_eq_some nodup all]
    simp only [h]
    rfl
  have missing : ∀ {p : WayId → Bool} {q : WayId → Prop}, (∀ v, p v = true ↔ q v) →
      (s.lines[setOf l].order.reverse.find? p = none ↔ ∀ v, ¬q v) := fun {p q} h => by
    rw [find_reverse_eq_none all]
    exact forall_congr' fun v => by rw [← h v, Bool.not_eq_true]
  rw [victim_eq, Option.or_eq_some_iff, Option.or_eq_some_iff, found free_iff, missing free_iff, found loose_iff,
    missing loose_iff, found pinned_iff']
  have busy : (∀ v, ¬(¬pinned v ∧ ¬claimed v)) ↔ ∀ v, pinned v ∨ claimed v :=
    forall_congr' fun v => by rw [not_and_or, not_not, not_not]
  rw [busy, and_or_left]

/-! ### The holder (R31, R178) -/

/-- How far a number stands behind the rotation point in the search. -/
def distance (rotation count n : Nat) : Nat := (n + count - 1 - rotation) % count

theorem distance_above {rotation count n : Nat} (hn : n < count) (h : rotation < n) :
    distance rotation count n = n - 1 - rotation := by
  unfold distance
  rw [show n + count - 1 - rotation = (n - 1 - rotation) + count by omega, Nat.add_mod_right, Nat.mod_eq_of_lt (by omega)]

theorem distance_below {rotation count n : Nat} (hr : rotation < count) (h : n ≤ rotation) :
    distance rotation count n = n + count - 1 - rotation := by
  unfold distance
  rw [Nat.mod_eq_of_lt (by omega)]

theorem mem_searchOrder {rotation count n : Nat} : n ∈ searchOrder rotation count ↔ n < count := by
  simp only [searchOrder, List.mem_append, List.mem_filter, List.mem_range, decide_eq_true_eq]
  omega

/-- The search goes by rising distance. -/
theorem searchOrder_rising {rotation count : Nat} (hr : rotation < count) :
    (searchOrder rotation count).Pairwise (fun m n => distance rotation count m < distance rotation count n) := by
  refine List.pairwise_append.2 ⟨?_, ?_, ?_⟩
  · refine List.Pairwise.imp_of_mem ?_ (List.pairwise_lt_range.filter _)
    intro m n hm hn hmn
    simp only [List.mem_filter, List.mem_range, decide_eq_true_eq] at hm hn
    rw [distance_above hm.1 hm.2, distance_above hn.1 hn.2]
    omega
  · refine List.Pairwise.imp_of_mem ?_ (List.pairwise_lt_range.filter _)
    intro m n hm hn hmn
    simp only [List.mem_filter, List.mem_range, decide_eq_true_eq] at hm hn
    rw [distance_below hr hm.2, distance_below hr hn.2]
    omega
  · intro m hm n hn
    simp only [List.mem_filter, List.mem_range, decide_eq_true_eq] at hm hn
    rw [distance_above hm.1 hm.2, distance_below hr hn.2]
    omega

/-- The first of a list in rising order of a key is the one of least key. -/
theorem find_eq_some_of_rising {xs : List Nat} {key : Nat → Nat} (h : xs.Pairwise (fun m n => key m < key n)) {p : Nat → Bool}
    {n : Nat} (hn : n ∈ xs) : xs.find? p = some n ↔ p n = true ∧ ∀ m ∈ xs, p m = true → key n ≤ key m := by
  rw [List.find?_eq_some_iff_append]
  constructor
  · rintro ⟨hp, as, bs, rfl, has⟩
    refine ⟨hp, fun m hm hpm => ?_⟩
    rcases List.mem_append.1 hm with hm | hm
    · have := has m hm
      rw [hpm] at this; cases this
    · rcases List.mem_cons.1 hm with rfl | hm
      · exact le_refl _
      · exact ((List.pairwise_cons.1 (List.pairwise_append.1 h).2.1).1 m hm).le
  · rintro ⟨hp, hmin⟩
    obtain ⟨as, bs, rfl⟩ := List.append_of_mem hn
    refine ⟨hp, as, bs, rfl, fun m hm => ?_⟩
    cases hpm : p m with
    | false => rfl
    | true =>
      have lt := (List.pairwise_append.1 h).2.2 m hm n List.mem_cons_self
      have le := hmin m (List.mem_append_left _ hm) hpm
      omega

/-- Settles O33: the search below the station count goes by rising distance, the one above it by rising number. -/
theorem holderIsTheFirstAfterTheRotationPoint : Obligations.HolderIsTheFirstAfterTheRotationPoint := by
  intro rotation count lines hc hr
  have none_below : (∀ n < count, lines.getLsbD n = false) →
      (searchOrder rotation count).find? (fun n => lines.getLsbD n) = none := fun h =>
    List.find?_eq_none.2 fun n hn => by rw [h n (mem_searchOrder.1 hn)]; exact Bool.false_ne_true
  refine ⟨fun n hn => ?_, fun h n hn => ?_, fun h => ?_⟩
  · have first := find_eq_some_of_rising (searchOrder_rising hr) (p := fun n => lines.getLsbD n)
      (mem_searchOrder.2 hn)
    simp only [mem_searchOrder] at first
    refine Iff.trans ?_ first
    unfold holderNumber
    rw [Option.or_eq_some_iff]
    refine ⟨fun h => h.resolve_right fun ⟨_, hx⟩ => ?_, .inl⟩
    have := List.find?_some hx
    simp only [Bool.and_eq_true, decide_eq_true_eq] at this
    omega
  · unfold holderNumber
    rw [none_below h, Option.none_or,
      find_eq_some_of_rising (key := fun n => n) List.pairwise_lt_range (List.mem_range.2 hn)]
    simp only [List.mem_range, Bool.and_eq_true, decide_eq_true_eq]
    have above : ∀ m, lines.getLsbD m = true → count ≤ m := fun m hm => by
      by_contra hlt
      rw [h m (by omega)] at hm; cases hm
    exact ⟨fun ⟨⟨_, hl⟩, hmin⟩ => ⟨hl, fun m hm hml => hmin m hm ⟨above m hml, hml⟩⟩,
      fun ⟨hl, hmin⟩ => ⟨⟨above n hl, hl⟩, fun m hm hml => hmin m hm hml.2⟩⟩
  · unfold holderNumber
    rw [none_below fun n _ => by rw [h]; simp, Option.none_or]
    exact List.find?_eq_none.2 fun n _ => by rw [h]; simp

/-! ### The candidate (R28, R29) -/

theorem mem_leastBy {α : Type} {key : α → Nat} {xs : List α} {x : α} :
    x ∈ leastBy key xs ↔ x ∈ xs ∧ ∀ y ∈ xs, key x ≤ key y := by
  simp [leastBy]

/-- A pick of a list that is not empty is one of its elements. -/
theorem freePick_mem {α : Type} (seed : Nat) {xs : List α} (h : xs ≠ []) : ∃ x ∈ xs, freePick seed xs = some x := by
  match xs with
  | [] => exact absurd rfl h
  | [x] => exact ⟨x, List.mem_singleton_self x, rfl⟩
  | x :: y :: ys =>
    have lt : Config.freeOrder seed % ((y :: ys).length + 1) < (x :: y :: ys).length := Nat.mod_lt _ (Nat.succ_pos _)
    exact ⟨_, List.getElem_mem lt, List.getElem?_eq_getElem lt⟩

/-- The oldest of some candidates is one of least age. -/
theorem oldestOf_mem {cs : List RequestCandidate} (h : cs ≠ []) :
    ∃ x ∈ cs, s.oldestOf cs = some x.which ∧ ∀ y ∈ cs, x.age ≤ y.age := by
  have some_least : leastBy (fun c : RequestCandidate => c.age) cs ≠ [] := by
    rw [Ne, leastBy_eq_nil]; exact h
  obtain ⟨x, hx, hp⟩ := freePick_mem s.now some_least
  obtain ⟨hm, hl⟩ := mem_leastBy.1 hx
  exact ⟨x, hm, by unfold State.oldestOf; rw [hp]; rfl, hl⟩

theorem contends_iff : s.contends = true ↔ s.station.mode ≠ .inert ∧ s.span.joined = true := by
  simp [State.contends]

theorem lineBarred_iff (l : LineAddr) :
    s.lineBarred l = true ↔ homeOf l = s.station.number ∧ s.station.mode = .clearing := by
  simp [State.lineBarred, State.homeHere]

theorem urgentCount_iff (n : Nat) : urgentCount n = true ↔ 32 ≤ n := decide_eq_true_iff

/-- The candidate of a QUEUED entry. -/
def entryCandidate (s : State) (e : TableEntry) : Option RequestCandidate :=
  match e.phase with
  | .queued age =>
    if s.lineBarred e.line then none
    else some { which := .entry e.line, line := e.line, age := age, urgent := urgentCount e.retry }
  | _ => none

/-- The candidate of a writeback buffer entry. -/
def writebackCandidate (s : State) (e : WritebackEntry) : Option RequestCandidate :=
  if s.lineBarred e.line then none
  else some { which := .writeback e.line, line := e.line, age := e.age, urgent := urgentCount e.retry }

theorem requestCandidates_eq : s.requestCandidates
    = s.table.filterMap (entryCandidate s) ++ s.writebacks.filterMap (writebackCandidate s) := rfl

theorem entryCandidate_iff {e : TableEntry} {x : RequestCandidate} : entryCandidate s e = some x ↔
    ¬s.lineBarred x.line = true ∧ e.phase = .queued x.age ∧ x.line = e.line ∧ x.which = .entry e.line ∧
      (x.urgent = true ↔ 32 ≤ e.retry) := by
  obtain ⟨which, line, age, urgent⟩ := x
  unfold entryCandidate
  cases hp : e.phase with
  | queued n =>
    by_cases hb : s.lineBarred e.line = true
    · simp only [hb, if_true, reduceCtorEq, false_iff]
      rintro ⟨hn, -, rfl, -⟩
      exact hn hb
    · simp only [hb, if_false, Option.some.injEq, RequestCandidate.mk.injEq, Phase.queued.injEq, ← urgentCount_iff,
        Bool.coe_iff_coe, Bool.false_eq_true]
      constructor
      · rintro ⟨rfl, rfl, rfl, rfl⟩; exact ⟨hb, rfl, rfl, rfl, rfl⟩
      · rintro ⟨-, rfl, rfl, rfl, rfl⟩; exact ⟨rfl, rfl, rfl, rfl⟩
  | awaitFill st n => simp
  | awaitResult n => simp

theorem writebackCandidate_iff {e : WritebackEntry} {x : RequestCandidate} : writebackCandidate s e = some x ↔
    ¬s.lineBarred x.line = true ∧ e.age = x.age ∧ x.line = e.line ∧ x.which = .writeback e.line ∧
      (x.urgent = true ↔ 32 ≤ e.retry) := by
  obtain ⟨which, line, age, urgent⟩ := x
  unfold writebackCandidate
  by_cases hb : s.lineBarred e.line = true
  · simp only [hb, if_true, reduceCtorEq, false_iff]
    rintro ⟨hn, -, rfl, -⟩
    exact hn hb
  · simp only [hb, if_false, Option.some.injEq, RequestCandidate.mk.injEq, ← urgentCount_iff, Bool.coe_iff_coe,
      Bool.false_eq_true]
    constructor
    · rintro ⟨rfl, rfl, rfl, rfl⟩; exact ⟨hb, rfl, rfl, rfl, rfl⟩
    · rintro ⟨-, rfl, rfl, rfl, rfl⟩; exact ⟨rfl, rfl, rfl, rfl⟩

theorem mem_requestCandidates {x : RequestCandidate} : x ∈ s.requestCandidates ↔
    ¬(homeOf x.line = s.station.number ∧ s.station.mode = .clearing) ∧
      ((∃ e ∈ s.table, e.phase = .queued x.age ∧ x.line = e.line ∧ x.which = .entry e.line ∧
          (x.urgent = true ↔ 32 ≤ e.retry)) ∨
        (∃ e ∈ s.writebacks, e.age = x.age ∧ x.line = e.line ∧ x.which = .writeback e.line ∧
          (x.urgent = true ↔ 32 ≤ e.retry))) := by
  rw [requestCandidates_eq, List.mem_append, List.mem_filterMap, List.mem_filterMap, ← lineBarred_iff]
  simp only [entryCandidate_iff, writebackCandidate_iff]
  constructor
  · rintro (⟨e, he, hb, h⟩ | ⟨e, he, hb, h⟩)
    · exact ⟨hb, .inl ⟨e, he, h⟩⟩
    · exact ⟨hb, .inr ⟨e, he, h⟩⟩
  · rintro ⟨hb, ⟨e, he, h⟩ | ⟨e, he, h⟩⟩
    · exact .inl ⟨e, he, hb, h⟩
    · exact .inr ⟨e, he, hb, h⟩

/-- A station that contends with no reply takes the oldest of its urgent entries, or of all. -/
theorem chooseCandidate_requests (hc : s.contends = true) (hr : s.replies = []) : s.chooseCandidate =
    if s.requestCandidates.filter (fun c => c.urgent && s.span.yields ≠ some c.line) = [] then s.oldestOf s.requestCandidates
    else s.oldestOf (s.requestCandidates.filter (fun c => c.urgent && s.span.yields ≠ some c.line)) := by
  unfold State.chooseCandidate
  rw [hc, hr]
  simp only [Bool.not_true, Bool.false_eq_true, if_false]
  split
  · rename_i h; rw [if_pos h]
  · rename_i h; rw [if_neg h]

/-- Settles O32: the candidates by their entries, and the choice by its three ranks. -/
theorem candidateIsTheOldestOfItsKind : Obligations.CandidateIsTheOldestOfItsKind := by
  intro s _
  refine ⟨fun h => ?_, fun hm hj => ?_⟩
  · have : s.contends = false := Bool.eq_false_iff.2 fun hc => by
      obtain ⟨hm, hj⟩ := contends_iff.1 hc
      rcases h with h | h
      · exact hm h
      · rw [hj] at h; cases h
    unfold State.chooseCandidate
    rw [this]; rfl
  · have hc : s.contends = true := contends_iff.2 ⟨hm, hj⟩
    refine ⟨fun x => mem_requestCandidates, fun r rs hr => ?_, fun hr he => ?_, fun hr hn => ?_⟩
    · unfold State.chooseCandidate
      rw [hc, hr]; rfl
    · rw [chooseCandidate_requests hc hr, he]; rfl
    · rw [chooseCandidate_requests hc hr]
      split
      · rename_i hu
        obtain ⟨x, hx, ho, hl⟩ := oldestOf_mem (s := s) hn
        refine ⟨x, hx, ho, .inr ⟨fun y hy hyu => ?_, hl⟩⟩
        have := List.filter_eq_nil_iff.1 hu y hy
        simp only [Bool.and_eq_true, decide_eq_true_eq] at this
        exact this hyu
      · rename_i hu
        obtain ⟨x, hx, ho, hl⟩ := oldestOf_mem (s := s) hu
        simp only [List.mem_filter, Bool.and_eq_true, decide_eq_true_eq] at hx hl
        exact ⟨x, hx.1, ho, .inl ⟨hx.2.1, hx.2.2, fun y hy hyu hyy => hl y ⟨hy, hyu, hyy⟩⟩⟩

end Sys2Proof.Proofs.Choices
end

