-- ==== Sys2Proof/Proofs/Windows.lean ====
section
/-! PROOFS. The close of a tenure: every verdict ends the window, whatever else it writes, and the claim put forward next is
chosen from the state it leaves (R25, R29 to R31, R34). -/

namespace Sys2Proof.Proofs.Windows

open Sys2Proof Sys2Proof.Machine Sys2Proof.Proofs.Steps

variable {i : Instr} {s t : State}

/-- The fields of the span interface that the close of a window writes. -/
def window (s : State) : Tenure × Option StationNo × Nat := (s.span.tenure, s.span.granted, s.span.idleCount)

theorem window_of_base (h : t.base = s.base) : window t = window s := by
  simp only [window, base_span h]

theorem window_closeTenure : window s.closeTenure = (.idle, none, 0) := rfl

/-! ### What a verdict brings about leaves the window -/

theorem window_convertHome (n : StationNo) (l : LineAddr) (body : RequestBody) (v : Verdict) :
    window (s.convertHome n l body v) = window s := by
  unfold State.convertHome
  simp only
  split
  · split <;> rfl
  · rfl

theorem window_offerDone : window s.offerDone = window s := by
  unfold State.offerDone
  split
  · split <;> rfl
  · rfl

theorem window_releaseAside : window s.releaseAside = window s := by
  unfold State.releaseAside
  split
  · exact window_offerDone
  · rfl

theorem window_queueSnapshot (n : StationNo) (l : LineAddr) : window (s.queueSnapshot n l) = window s := by
  unfold State.queueSnapshot
  split <;> rfl

theorem window_snoopVerdict (n : StationNo) (l : LineAddr) (body : RequestBody) (v : Verdict) :
    window (s.snoopVerdict n l body v) = window s := by
  have taken : ∀ u : State, window (if u.heldValid l then u.snoopLine l body else u).releaseAside = window u := by
    intro u
    rw [window_releaseAside]
    split
    · exact window_of_base (State.snoopLine_base u l body)
    · rfl
  unfold State.snoopVerdict
  cases v with
  | void => exact window_releaseAside.trans (window_convertHome n l body _)
  | ownerFill => exact (taken _).trans ((window_queueSnapshot n l).trans (window_convertHome n l body _))
  | homeFill | taken => exact (taken _).trans (window_convertHome n l body _)

theorem window_ownEnds (l : LineAddr) (body : RequestBody) (v : Verdict) : window (s.ownEnds l body v) = (.idle, none, 0) := by
  have conv : window (s.closeTenure.convertHome s.station.number l body v) = (.idle, none, 0) := window_convertHome _ _ _ _
  unfold State.ownEnds State.countVoid
  split <;> exact conv

theorem window_voidEntry (e : TableEntry) : window (s.voidEntry e) = window s := by
  unfold State.voidEntry
  split
  · exact window_of_base ((State.endEntry_base _ _).trans (State.freeFillPending_base _ _))
  · split
    · exact window_of_base ((State.raiseAbandoned_base _).trans (State.giveUpEntry_base _ _ _))
    · simp only
      split <;> rfl

theorem window_entryVerdict (l : LineAddr) (v : Verdict) (copy : Bool) : window (s.entryVerdict l v copy) = window s := by
  unfold State.entryVerdict
  split
  · rfl
  · split
    · exact window_voidEntry _
    · exact window_of_base (State.passEntry_base _ _ _ _)

theorem window_returnVerdict (e : WritebackEntry) (v : Verdict) : window (s.returnVerdict e v) = window s := by
  unfold State.returnVerdict
  split
  · simp only
    split <;> rfl
  · simp only
    split <;> rfl

theorem window_writebackVerdict (l : LineAddr) (v : Verdict) : window (s.writebackVerdict l v) = window s := by
  unfold State.writebackVerdict
  split
  · rfl
  · exact window_returnVerdict _ v

theorem window_ownReplyVerdict (l : LineAddr) (retry : Bool) : window (s.ownReplyVerdict l retry) = (.idle, none, 0) := by
  have removed : ∀ u : State, window (u.removeReply l) = window u := fun _ => window_offerDone
  unfold State.ownReplyVerdict State.voidReply
  split
  · split
    · rfl
    · split
      · exact removed s.closeTenure
      · rfl
  · exact removed s.closeTenure

theorem window_peerReplyVerdict (a : StationNo) (l : LineAddr) (body : ReplyBody) (g r : Bool) :
    window (s.peerReplyVerdict a l body g r) = (.idle, none, 0) := by
  unfold State.peerReplyVerdict
  split
  · exact window_of_base (s := s.closeTenure) (State.takeReply_base s.closeTenure l body)
  · rfl

/-! ### The next claim -/

/-- What the window, the claim and the candidate are after a verdict. -/
def Decided (t : State) : Prop :=
  t.span.tenure = .idle ∧ t.span.granted = none ∧ t.span.idleCount = 0 ∧
    t.span.putForward = t.chooseCandidate.map (fun c => { candidate := some c, cls := t.classOf c })

/-- The claim is chosen from fields that the arbitration does not write. -/
theorem decided_settle_arbitrate (h : window t = (.idle, none, 0)) : Decided t.settle.arbitrate := by
  have settled : window t.settle = (.idle, none, 0) := (window_of_base (State.settle_base t)).trans h
  simp only [window, Prod.mk.injEq] at settled
  obtain ⟨tenure, granted, idle⟩ := settled
  exact ⟨tenure, granted, idle, rfl⟩

/-- A command that is the verdict of a tenure. -/
def IsVerdict (i : Instr) : Prop :=
  (∃ others, i = .requestTenureVerdict others) ∨ (∃ others, i = .ownTenureVerdict others) ∨
    (∃ retry, i = .replyTenureVerdict retry)

theorem requestOf_verdict (h : IsVerdict i) : requestOf i = none := by
  rcases h with ⟨_, rfl⟩ | ⟨_, rfl⟩ | ⟨_, rfl⟩ <;> rfl

theorem frameOf_verdict (h : IsVerdict i) : frameOf i = none := by
  rcases h with ⟨_, rfl⟩ | ⟨_, rfl⟩ | ⟨_, rfl⟩ <;> rfl

theorem replyOf_verdict (h : IsVerdict i) : replyOf i = none := by
  rcases h with ⟨_, rfl⟩ | ⟨_, rfl⟩ | ⟨_, rfl⟩ <;> rfl

theorem decided_of_brings (hv : IsVerdict i) (hp : s.porst = false) (h : Brings i s t) : Decided t := by
  cases h with
  | held hq | pin _ _ hq => rw [hp] at hq; cases hq
  | discarded hi | refused hi | accepted hi => rw [requestOf_verdict hv] at hi; cases hi
  | requestFrame hi => rw [frameOf_verdict hv] at hi; cases hi
  | replyFrame hi => rw [replyOf_verdict hv] at hi; cases hi
  | peerVerdict others => exact decided_settle_arbitrate (window_snoopVerdict (s := s.count1.closeTenure) _ _ _ _)
  | unreadVerdict => exact decided_settle_arbitrate rfl
  | entryVerdict => exact decided_settle_arbitrate ((window_entryVerdict _ _ _).trans (window_ownEnds _ _ _))
  | returnVerdict => exact decided_settle_arbitrate ((window_writebackVerdict _ _).trans (window_ownEnds _ _ _))
  | replyVerdict => exact decided_settle_arbitrate (window_ownReplyVerdict _ _)
  | peerReplyVerdict => exact decided_settle_arbitrate (window_peerReplyVerdict _ _ _ _ _)
  | swept hi => rcases hi with rfl | rfl <;> simp [IsVerdict] at hv
  | homeEnded k => cases k <;> simp [IsVerdict, homeCommand] at hv
  | _ => simp [IsVerdict] at hv

/-- Settles O38: no part of a verdict's happening writes the window once it is closed, and the arbitration ends it. -/
theorem verdictsDecideTheNextClaim : Obligations.VerdictsDecideTheNextClaim :=
  fun _ _ _ hp hv h => decided_of_brings hv hp (brings_of_exec h)

end Sys2Proof.Proofs.Windows
end

