-- ==== Sys2Proof/Proofs/Frames.lean ====
section
/-! PROOFS. Frames of peers: the votes on a request frame taken as sent, what they reserve and set aside, and the frames
that are not voted on (R33 to R41, R45, R46, R176). -/

namespace Sys2Proof.Proofs.Frames

open Sys2Proof Sys2Proof.Machine Sys2Proof.Proofs.Steps

variable {i : Instr} {s t : State} {h : Header} {body : RequestBody} {decodes : Bool} {l : LineAddr}

/-! ### A frame on an idle span -/

theorem peerRequest_idle (hp : s.porst = false) (ht : s.span.tenure = .idle) :
    s.peerRequest h body decodes = .next (s.count1.readRequest h body decodes) := by
  simp [State.peerRequest, State.guarded, hp, spanIdle_iff.2 ht]

theorem exec_request (hi : frameOf i = some (h, body, decodes)) (hp : s.porst = false) (ht : s.span.tenure = .idle) :
    exec i s = .next (s.count1.readRequest h body decodes) := by
  refine Eq.trans ?_ (peerRequest_idle hp ht)
  cases i <;> cases hi <;> rfl

theorem exec_reply {a : StationNo} {body : ReplyBody} (hi : replyOf i = some (h, a, body)) (hp : s.porst = false)
    (ht : s.span.tenure = .idle) : exec i s = .next (s.count1.readReply h a body) := by
  have heard : s.peerReply h a body = .next (s.count1.readReply h a body) := by
    simp [State.peerReply, State.guarded, hp, spanIdle_iff.2 ht]
  refine Eq.trans ?_ heard
  cases i <;> cases hi <;> rfl

theorem exec_undecodable (sender : StationNo) (kind : BitVec 4) (good : Bool) (hp : s.porst = false)
    (ht : s.span.tenure = .idle) :
    exec (.undecodableFrameKind sender kind good) s = .next (s.count1.readUndecodable good) := by
  show s.guarded s.spanIdle .tenureOpen _ = _
  simp [State.guarded, hp, spanIdle_iff.2 ht]

/-! ### What makes a frame unreadable (R36) -/

theorem unreadable_iff : s.unreadable h (isDirectKind body) decodes = true ↔ ¬s.Readable h body decodes := by
  have readable : s.Readable h body decodes ↔ h.good = true ∧ decodes = true ∧ h.sender.toNat < s.station.count.toNat ∧
      h.sender = s.holder ∧ h.sender ≠ s.station.number ∧ isDirect h.line = isDirectKind body :=
    ⟨fun r => ⟨r.good, r.decodes, r.sender, r.holder, r.foreign, r.region⟩, fun ⟨a, b, c, d, e, f⟩ => ⟨a, b, c, d, e, f⟩⟩
  rw [readable]
  simp only [State.unreadable, Bool.or_eq_true, Bool.not_eq_true', decide_eq_true_eq, not_and_or, Bool.not_eq_true,
    Nat.not_lt, ne_eq, Decidable.not_not]
  tauto

/-! ### The votes (R37 to R40) -/

theorem isUpgradeFrame_iff : isUpgradeFrame body = true ↔ body = .table .upgrade := by
  cases body with
  | table k => cases k <;> simp [isUpgradeFrame]
  | ret d => simp [isUpgradeFrame]

theorem supplyVote_iff : s.supplyVote l body = true ↔
    (body = .table .share ∨ body = .table .own) ∧ s.heldDirty l = true := by
  simp [State.supplyVote, Verdict.wantsLine_iff]

theorem homeVote_iff : s.homeVote l body = true ↔ homeOf l = s.station.number ∧ s.station.mode = .ready ∧
    (body = .table .upgrade ∨ s.homeQueue.length + (if s.span.homeReserved then 1 else 0) < 6) := by
  have room : s.homeRoom = true ↔ s.homeQueue.length + (if s.span.homeReserved then 1 else 0) < 6 := decide_eq_true_iff
  simp only [State.homeVote, State.homeHere, Bool.and_eq_true, Bool.or_eq_true, decide_eq_true_eq, isUpgradeFrame_iff,
    room, and_assoc]

theorem replyRoom_iff : s.replyRoom = true ↔ s.replies.length + (if s.span.setAside.isSome then 1 else 0) < 4 :=
  decide_eq_true_iff

theorem replyHolds_iff : s.replyHolds l = true ↔ (∃ r ∈ s.replies, r.line = l) ∨ s.span.setAside = some l := by
  simp [State.replyHolds, State.replyFor]

theorem retryVote_iff : s.retryVote l body = true ↔ (∃ e ∈ s.table, e.line = l ∧ e.phase.awaiting = true) ∨
    (∃ e ∈ s.writebacks, e.line = l) ∨ s.replyHolds l = true ∨ (s.supplyVote l body = true ∧ ¬s.replyRoom = true) := by
  simp [State.retryVote, State.writebackFor, or_assoc]

/-! ### A request frame taken as sent -/

/-- What a frame heard writes: the counters of its check, and the span interface. -/
def heard (s : State) (good : Bool) (x : Tenure) : State :=
  { s with
    now := s.now + 1
    counters := if good = false ∧ s.station.mode ≠ .inert then
      { s.counters with checkErrors := s.counters.checkErrors + 1 } else s.counters
    span := { s.span with
      tenure := x
      granted := some s.count1.holder
      rotation := if s.station.count.toNat ≤ s.count1.holder.toNat then s.station.count.toNat - 1 else s.count1.holder.toNat
      joined := true } }

theorem check_counted (good : Bool) : (!good && (s.station.mode ≠ .inert : Bool)) = true ↔
    good = false ∧ s.station.mode ≠ .inert := by
  simp

theorem openTenure_heard (good : Bool) (x : Tenure) :
    ((s.count1.seeFrame s.count1.holder).countCheck good).openTenure x = heard s good x := by
  unfold heard
  by_cases hc : good = false ∧ s.station.mode ≠ .inert
  · have counted : (s.count1.seeFrame s.count1.holder).countCheck good = (s.count1.seeFrame s.count1.holder).raiseCheckErrors :=
      if_pos ((check_counted good).2 hc)
    rw [if_pos hc, counted]
    rfl
  · have uncounted : (s.count1.seeFrame s.count1.holder).countCheck good = s.count1.seeFrame s.count1.holder :=
      if_neg (mt (check_counted good).1 hc)
    rw [if_neg hc, uncounted]
    rfl

/-- A frame with a good check is heard without a count. -/
theorem countCheck_good : s.countCheck true = s := rfl

/-- The entry set aside after the votes on a frame. -/
def asideAfter (s : State) (l : LineAddr) (body : RequestBody) : Option LineAddr :=
  if s.supplyVote l body && s.canSetAside l then some l else s.span.setAside

theorem canSetAside_iff : s.canSetAside l = true ↔ s.replyRoom = true ∧ ¬s.replyHolds l = true := by
  simp [State.canSetAside]

theorem readRequest_taken (hm : s.station.mode ≠ .inert) (hr : s.count1.Readable h body decodes) :
    s.count1.readRequest h body decodes = { s with
      now := s.now + 1
      span := { s.span with
        tenure := .peer h.sender h.line body (s.votesOn h.line body)
        granted := some h.sender
        rotation := h.sender.toNat
        joined := true
        setAside := asideAfter s h.line body
        homeReserved := s.span.homeReserved || (s.homeVote h.line body && !isUpgradeFrame body) } } := by
  unfold State.readRequest
  have rotation : s.count1.rotationAfter h.sender.toNat = h.sender.toNat := if_neg (Nat.not_le.2 hr.sender)
  refine (if_neg hm).trans ((if_neg fun hu => unreadable_iff.1 hu hr).trans ?_)
  rw [hr.good, countCheck_good, ← hr.holder]
  unfold State.seeFrame
  rw [rotation]
  rfl

/-- Settles O35: a frame that the station can take as sent draws its votes, read off the station's own blocks. -/
theorem peerRequestIsVotedOn : Obligations.PeerRequestIsVotedOn := by
  intro i s h body decodes hi hp ht hm hr l room owed
  have kept : (s.votesOn l body).supply = true ∧ room ∧ ¬owed ↔ (s.supplyVote l body && s.canSetAside l) = true := by
    rw [Bool.and_eq_true, canSetAside_iff, replyRoom_iff, replyHolds_iff]
    rfl
  refine ⟨s.votesOn l body, rfl, supplyVote_iff, homeVote_iff, ?_, asideAfter s l body, fun hk => if_pos (kept.1 hk),
    fun hk => if_neg fun hs => hk (kept.2 hs), ?_⟩
  · refine retryVote_iff.trans ?_
    rw [replyHolds_iff, replyRoom_iff]
    rfl
  · rw [exec_request hi hp ht, readRequest_taken hm hr]
    have upgrade : (!isUpgradeFrame body) = decide (body ≠ .table .upgrade) := by
      rw [Bool.eq_iff_iff, decide_eq_true_iff, ne_eq, ← isUpgradeFrame_iff, Bool.not_eq_true, Bool.not_eq_true']
    rw [upgrade]
    rfl

/-! ### Frames that are not voted on -/

theorem holder_of_granted {g : StationNo} (hg : s.span.granted = some g) : s.count1.holder = g := by
  show (s.span.granted).getD _ = g
  rw [hg]
  rfl

theorem readRequest_inert (hm : s.station.mode = .inert) :
    s.count1.readRequest h body decodes = heard s h.good (.peerUnreadable false) :=
  (if_pos hm).trans (openTenure_heard _ _)

theorem readRequest_unreadable (hm : s.station.mode ≠ .inert) (hr : ¬s.count1.Readable h body decodes) :
    s.count1.readRequest h body decodes = heard s h.good (.peerUnreadable true) :=
  (if_neg hm).trans ((if_pos (unreadable_iff.2 hr)).trans (openTenure_heard _ _))

/-- The RETRY that a bad check draws, as the reply tenure keeps it. -/
theorem retry_on_bad_check (good : Bool) : (!good && decide (s.station.mode ≠ .inert))
    = (decide (good = false) && decide (s.station.mode ≠ .inert)) := by
  cases good <;> simp

theorem readReply_heard (a : StationNo) (b : ReplyBody) : s.count1.readReply h a b = heard s h.good
    (.peerReply a h.line b h.good (h.good = false && s.station.mode ≠ .inert)) :=
  (openTenure_heard _ _).trans (congrArg (fun r => heard s h.good (.peerReply a h.line b h.good r)) (retry_on_bad_check h.good))

/-- Settles O36: the holder's number is the one read, and each frame is heard with the tenure that its kind opens. -/
theorem framesNotVotedOn : Obligations.FramesNotVotedOn := by
  intro s hp ht
  refine ⟨fun _ => holder_of_granted, fun i h body decodes hi => ⟨fun hm => ?_, fun hm hr => ?_⟩,
    fun sender kind good => ?_, fun i h a b hi => ?_⟩
  · rw [exec_request hi hp ht, readRequest_inert hm]; rfl
  · rw [exec_request hi hp ht, readRequest_unreadable hm hr]; rfl
  · rw [exec_undecodable sender kind good hp ht]
    exact congrArg Host.Outcome.next (openTenure_heard _ _)
  · rw [exec_reply hi hp ht, readReply_heard]; rfl

end Sys2Proof.Proofs.Frames
end

