-- ==== Sys2Proof/Proofs/Grants.lean ====
section
/-! PROOFS. GRANT: the class that leads, the number its search finds, and what becomes of the station's own claim (R25,
R29, R31, R32, R35, R178). -/

namespace Sys2Proof.Proofs.Grants

open Sys2Proof Sys2Proof.Machine Sys2Proof.Proofs.Steps Sys2Proof.Proofs.Frames

variable {s : State} {own : Option Machine.Class} {k : Machine.Class} {r u n : BitVec 16} {claim : Option Claim}
  {rotation count : Nat}

/-! ### The class phase (R178) -/

/-- A class is asserted by the peers or by the station's own claim. -/
def Asserts (own : Option Machine.Class) (r u n : BitVec 16) (k : Machine.Class) : Prop :=
  classLines k r u n ≠ 0 ∨ own = some k

/-- A class is asserted and no higher one is. -/
def Highest (own : Option Machine.Class) (r u n : BitVec 16) (k : Machine.Class) : Prop :=
  Asserts own r u n k ∧ (k ≠ .reply → ¬Asserts own r u n .reply) ∧ (k = .normal → ¬Asserts own r u n .urgent)

theorem highestClass_eq : highestClass own r u n = open Classical in
    if Asserts own r u n .reply then some .reply
    else if Asserts own r u n .urgent then some .urgent
    else if Asserts own r u n .normal then some .normal
    else none := by
  simp only [highestClass, Asserts, classLines, Bool.or_eq_true, decide_eq_true_eq]
  congr

theorem highestClass_iff : highestClass own r u n = some k ↔ Highest own r u n k := by
  rw [highestClass_eq]
  unfold Highest
  by_cases reply : Asserts own r u n .reply <;> by_cases urgent : Asserts own r u n .urgent <;>
    by_cases normal : Asserts own r u n .normal <;> cases k <;> simp [reply, urgent, normal]

theorem highestClass_eq_none (h : ∀ k, ¬Asserts own r u n k) : highestClass own r u n = none := by
  rw [highestClass_eq, if_neg (h _), if_neg (h _), if_neg (h _)]

theorem claimLeads_iff : claimLeads claim k = true ↔ claim.map Claim.cls = some k := by
  cases claim <;> simp [claimLeads]

/-! ### The station phase (R31, R178) -/

/-- A number found is one of the 16 station lines. -/
theorem holderNumber_lt {lines : BitVec 16} {m : Nat} (h : holderNumber rotation count lines = some m) : m < 16 := by
  have asserted : lines.getLsbD m = true := by
    rcases Option.or_eq_some_iff.1 h with h | ⟨-, h⟩
    · exact List.find?_some h
    · have := List.find?_some h
      simp only [Bool.and_eq_true] at this
      exact this.2
  exact BitVec.lt_of_getLsbD asserted

/-- The search of a class's station lines, this station's own among them where `mine` says so. -/
def found (s : State) (r u n : BitVec 16) (k : Machine.Class) (mine : Bool) : Option Nat :=
  holderNumber s.span.rotation s.station.count.toNat
    (classLines k r u n ||| if mine then 1#16 <<< s.station.number.toNat else 0)

theorem grantHolder_none (h : highestClass (claim.map Claim.cls) r u n = none) : s.grantHolder claim r u n = none := by
  unfold State.grantHolder
  rw [h]

theorem grantHolder_some (h : highestClass (claim.map Claim.cls) r u n = some k) :
    s.grantHolder claim r u n = (found s r u n k (claimLeads claim k)).map (BitVec.ofNat 4) := by
  unfold State.grantHolder
  rw [h]
  cases hl : claimLeads claim k <;> simp only [hl, found, stationLine]

theorem winsGrant_iff : s.winsGrant claim r u n = true ↔ ∃ k, Highest (claim.map Claim.cls) r u n k ∧
    claim.map Claim.cls = some k ∧ found s r u n k true = some s.station.number.toNat := by
  unfold State.winsGrant
  constructor
  · intro h
    cases hk : highestClass (claim.map Claim.cls) r u n with
    | none => rw [hk] at h; cases h
    | some k =>
      rw [hk] at h
      simp only [Bool.and_eq_true, decide_eq_true_eq] at h
      obtain ⟨leads, holder⟩ := h
      rw [grantHolder_some hk, leads] at holder
      obtain ⟨m, hm, eq⟩ := Option.map_eq_some_iff.1 holder
      refine ⟨k, highestClass_iff.1 hk, claimLeads_iff.1 leads, ?_⟩
      rw [hm, ← eq, BitVec.toNat_ofNat, Nat.mod_eq_of_lt (holderNumber_lt hm)]
  · rintro ⟨k, high, leads, hf⟩
    have hk := highestClass_iff.2 high
    have leads' := claimLeads_iff.2 leads
    rw [hk]
    simp only [Bool.and_eq_true, decide_eq_true_eq]
    refine ⟨leads', ?_⟩
    rw [grantHolder_some hk, leads', hf, Option.map_some, BitVec.ofNat_toNat, BitVec.setWidth_eq]

/-! ### The grant -/

/-- What a grant writes whoever is granted. -/
def passed (s : State) (g : Option StationNo) : State :=
  { s with now := s.now + 1, span := { s.span with putForward := none, granted := g } }

/-- What the station's own frame writes. -/
def sent (s : State) (t : Tenure) (reserves : Bool) (yields : Option LineAddr) : State :=
  { s with
    now := s.now + 1
    span := { s.span with
      tenure := t
      granted := some s.station.number
      rotation := if s.station.count.toNat ≤ s.station.number.toNat then s.station.count.toNat - 1 else s.station.number.toNat
      joined := true
      putForward := none
      yields := yields
      homeReserved := s.span.homeReserved || reserves } }

theorem exec_grant (d : ArbitrationAt) (hp : s.porst = false) (ht : s.span.tenure = .idle) :
    exec (.grant d r u n) s = .next (s.count1.grantTo (s.count1.claim d) r u n) := by
  show s.guarded s.spanIdle .tenureOpen _ = _
  simp [State.guarded, hp, spanIdle_iff.2 ht]

theorem takeGrant_sent {g : Option StationNo} {c : Candidate} {cls : Machine.Class} {t : Tenure}
    (hc : s.stillCandidate c = true) (ht : s.ownTenure c = some t) :
    (passed s g).takeGrant { candidate := some c, cls := cls }
      = sent s t (tenureReserves t) (if ownRequest t then none else s.span.yields) := by
  have standing : (Option.filter (passed s g).stillCandidate (some c)).bind (passed s g).ownTenure = some t := by
    rw [Option.filter_some_pos (by exact hc)]
    exact ht
  unfold State.takeGrant
  simp only [standing]
  rfl

theorem takeGrant_lapsed {g : Option StationNo} {c : Claim} (hc : ∀ x, c.candidate = some x → s.stillCandidate x = false) :
    (passed s g).takeGrant c = passed s g := by
  have lapsed : Option.filter (passed s g).stillCandidate c.candidate = none := by
    cases hx : c.candidate with
    | none => rfl
    | some x => exact Option.filter_some_neg (by exact hc x hx)
  unfold State.takeGrant
  rw [lapsed]
  rfl

/-- A claim that wins and stands sends its frame. -/
theorem exec_grant_sent {d : ArbitrationAt} {c : Candidate} {t : Tenure} (hp : s.porst = false) (hi : s.span.tenure = .idle)
    (hc : s.count1.claim d = some { candidate := some c, cls := k }) (hw : s.winsGrant (s.count1.claim d) r u n = true)
    (hs : s.stillCandidate c = true) (ht : s.ownTenure c = some t) : exec (.grant d r u n) s
      = .next (sent s t (tenureReserves t) (if ownRequest t then none else s.span.yields)) := by
  rw [exec_grant d hp hi]
  rw [hc] at hw ⊢
  exact congrArg Host.Outcome.next ((if_pos hw).trans (takeGrant_sent hs ht))

/-- A claim that does not win, or that stands no longer, leaves the span idle. -/
theorem exec_grant_passed {d : ArbitrationAt} (hp : s.porst = false) (hi : s.span.tenure = .idle)
    (hc : ∀ c x, s.count1.claim d = some c → s.winsGrant (s.count1.claim d) r u n = true → c.candidate = some x →
      s.stillCandidate x = false) :
    exec (.grant d r u n) s = .next (passed s (s.grantHolder (s.count1.claim d) r u n)) := by
  rw [exec_grant d hp hi]
  cases hcl : s.count1.claim d with
  | none => rfl
  | some c =>
    rw [hcl] at hc
    by_cases hw : s.winsGrant (some c) r u n = true
    · exact congrArg Host.Outcome.next ((if_pos hw).trans (takeGrant_lapsed fun x => hc c x rfl hw))
    · exact congrArg Host.Outcome.next (if_neg hw)

/-- Settles O34: the claim wins in the highest class asserted where the search finds this station's number; the grant of one
that stands sends its frame, and every other leaves the span idle with the number found. -/
theorem grantSendsTheFrameOrPassesBy : Obligations.GrantSendsTheFrameOrPassesBy := by
  intro s d r u n hp hi no own driven asserts highest fnd wins snt
  refine ⟨fun c k hc hw hs => ?_, fun hlapse => ⟨_, exec_grant_passed hp hi ?_, fun k hk => ⟨fun hd => ?_, fun hd => ?_⟩,
    fun hk => grantHolder_none (highestClass_eq_none hk)⟩⟩
  · have leads : own.map Claim.cls = some k := by rw [hc]; rfl
    have won : s.winsGrant own r u n = true := winsGrant_iff.2 ⟨k, hw.1, leads, hw.2⟩
    refine ⟨fun l x hx hr => ?_, fun l x hx he => ?_, fun l x hx hw => ?_⟩
    · refine exec_grant_sent hp hi hc won hs ?_
      rw [hx]
      exact congrArg (Option.map _) hr
    · have tenure : s.ownTenure c = some (.ownEntry l (.request no l (.table x.kind)) (s.homeVote l (.table x.kind))) := by
        rw [hx]
        exact congrArg (Option.map _) he
      have upgrade : (!isUpgradeFrame (.table x.kind)) = decide (x.kind ≠ .upgrade) := by
        cases x.kind <;> rfl
      rw [exec_grant_sent hp hi hc won hs tenure, ← upgrade]
      rfl
    · refine exec_grant_sent hp hi hc won hs ?_
      rw [hx]
      exact congrArg (Option.map _) hw
  · intro c x hc hw hx
    obtain ⟨k, high, leads, hf⟩ := winsGrant_iff.1 hw
    have cls : c.cls = k := by rw [hc] at leads; exact Option.some.inj leads
    exact hlapse x k (by rw [← cls, ← hx]; exact hc) ⟨high, hf⟩
  · rw [grantHolder_some (highestClass_iff.2 hk), claimLeads_iff.2 hd]
    rfl
  · rw [grantHolder_some (highestClass_iff.2 hk), Bool.eq_false_iff.2 (mt claimLeads_iff.1 hd)]
    rfl

end Sys2Proof.Proofs.Grants
end

