-- ==== Sys2Proof/Proofs/HomeStore.lean ====
section
/-! PROOFS. The home store: reading and writing a line word by word, and the direct operations on one word (R89 to R91, R100
to R104). -/

namespace Sys2Proof.Proofs.HomeStore

open Sys2Proof Sys2Proof.Machine

variable {m m' : HomeMemory} {k : Nat} {ix : BitVec 11} {l : LineAddr} {w : BitVec 3}

/-! ### Keys (R89) -/

theorem storeKey_div (ix : BitVec 11) (w : Fin 8) : storeKey ix w / 8 = ix.toNat := by
  unfold storeKey
  omega

theorem storeKey_inj {v w : Fin 8} (h : v ≠ w) : storeKey ix v ≠ storeKey ix w := by
  unfold storeKey
  intro e
  exact h (Fin.ext (by omega))

theorem ne_storeKey (h : k / 8 ≠ ix.toNat) (w : Fin 8) : k ≠ storeKey ix w := fun e => h (e ▸ storeKey_div ix w)

/-! ### A tested read (R90) -/

/-- What a tested read answers depends on the word read alone. -/
theorem readTested_congr (h : memRead m k = memRead m' k) : (readTested m k).2 = (readTested m' k).2 := by
  unfold readTested
  rw [h]
  simp only
  split <;> rfl

theorem readTested_word (m : HomeMemory) (k : Nat) :
    (readTested m k).2 = { memRead m k with poison := (readTested m k).2.poison } := by
  unfold readTested
  simp only
  split <;> rfl

/-! ### A line read (R100) -/

/-- One word of a line read: its value, and its flag where it is set. -/
def readStep (ix : BitVec 11) (acc : HomeMemory × LineData) (w : Fin 8) : HomeMemory × LineData :=
  let r := readTested acc.1 (storeKey ix w)
  (r.1, { words := acc.2.words.set w r.2.value
          poison := if r.2.poison then acc.2.poison ||| (1#8 <<< w.val) else acc.2.poison })

theorem readLineTested_eq : readLineTested m ix = wordIds.foldl (readStep ix) (m, zeroLine) := rfl

theorem getLsbD_flag (v w : Fin 8) : (1#8 <<< v.val).getLsbD w.val = decide (v = w) := by
  revert v w
  decide

theorem readStep_word_same (d : LineData) (w : Fin 8) :
    (readStep ix (m, d) w).2.words[w] = (readTested m (storeKey ix w)).2.value := by
  simp [readStep]

theorem readStep_word_other {v w : Fin 8} (h : v ≠ w) (d : LineData) :
    (readStep ix (m, d) v).2.words[w] = d.words[w] := by
  have hn : (v : Nat) ≠ w := fun e => h (Fin.ext e)
  simp [readStep, Vector.getElem_set_ne _ _ hn]

theorem readStep_flag_same (d : LineData) (w : Fin 8) (hd : d.poison.getLsbD w.val = false) :
    (readStep ix (m, d) w).2.poison.getLsbD w.val = (readTested m (storeKey ix w)).2.poison := by
  unfold readStep
  by_cases hp : (readTested m (storeKey ix w)).2.poison = true
  · simp only [hp, if_pos]
    rw [BitVec.getLsbD_or, getLsbD_flag, decide_eq_true rfl, Bool.or_true]
  · simp only [hp]
    exact hd

theorem readStep_flag_other {v w : Fin 8} (h : v ≠ w) (d : LineData) :
    (readStep ix (m, d) v).2.poison.getLsbD w.val = d.poison.getLsbD w.val := by
  unfold readStep
  simp only
  split
  · rw [BitVec.getLsbD_or, getLsbD_flag, decide_eq_false h, Bool.or_false]
  · rfl

/-- What a read of some words of a line answers for a word: the tested read of it, once it has been read. -/
theorem readWords (ws : List (Fin 8)) (hw : ws.Nodup) (hm : memWf m = true) (d : LineData)
    (hd : ∀ w ∈ ws, d.poison.getLsbD w.val = false) (w : Fin 8) :
    let r := ws.foldl (readStep ix) (m, d)
    (w ∈ ws → r.2.words[w] = (readTested m (storeKey ix w)).2.value ∧
      r.2.poison.getLsbD w.val = (readTested m (storeKey ix w)).2.poison ∧
      memRead r.1 (storeKey ix w) = (readTested m (storeKey ix w)).2) ∧
    (w ∉ ws → r.2.words[w] = d.words[w] ∧ r.2.poison.getLsbD w.val = d.poison.getLsbD w.val ∧
      memRead r.1 (storeKey ix w) = memRead m (storeKey ix w)) := by
  induction ws generalizing m d with
  | nil => exact ⟨fun h => by simp at h, fun _ => ⟨rfl, rfl, rfl⟩⟩
  | cons v ws ih =>
    obtain ⟨hv, hws⟩ := List.nodup_cons.1 hw
    have clear : ∀ x ∈ ws, (readStep ix (m, d) v).2.poison.getLsbD x.val = false := fun x hx =>
      (readStep_flag_other (fun e : v = x => hv (by rwa [e])) d).trans (hd x (by simp [hx]))
    obtain ⟨inn, out⟩ := ih hws (memWf_readTested hm (storeKey ix v)) (readStep ix (m, d) v).2 clear
    by_cases e : v = w
    · subst e
      obtain ⟨words, flag, read⟩ := out hv
      exact ⟨fun _ => ⟨words.trans (readStep_word_same d v), flag.trans (readStep_flag_same d v (hd v (by simp))),
        read.trans (memRead_readTested_same hm _)⟩, fun h => absurd (by simp) h⟩
    · have stays : memRead (readTested m (storeKey ix v)).1 (storeKey ix w) = memRead m (storeKey ix w) :=
        memRead_readTested_other (storeKey_inj (Ne.symm e))
      have same := readTested_congr stays
      constructor
      · intro h
        obtain ⟨words, flag, read⟩ := inn (by simpa [Ne.symm e] using h)
        exact ⟨words.trans (congrArg StoreWord.value same), flag.trans (congrArg StoreWord.poison same), read.trans same⟩
      · intro h
        obtain ⟨words, flag, read⟩ := out fun hx => h (by simp [hx])
        exact ⟨words.trans (readStep_word_other e d), flag.trans (readStep_flag_other e d), read.trans stays⟩

/-- A line read leaves the words of other lines. -/
theorem readWords_elsewhere (ws : List (Fin 8)) (hk : k / 8 ≠ ix.toNat) (d : LineData) :
    memRead (ws.foldl (readStep ix) (m, d)).1 k = memRead m k := by
  induction ws generalizing m d with
  | nil => rfl
  | cons v ws ih =>
    exact (ih (m := (readTested m (storeKey ix v)).1) (readStep ix (m, d) v).2).trans (memRead_readTested_other (ne_storeKey hk v))

theorem mem_wordIds (w : Fin 8) : w ∈ wordIds := by
  revert w
  decide

theorem nodup_wordIds : wordIds.Nodup := by decide

/-- A line read, word by word. -/
theorem lineRead (hm : memWf m = true) (w : Fin 8) :
    (readLineTested m ix).2.words[w] = (readTested m (storeKey ix w)).2.value ∧
    (readLineTested m ix).2.poison.getLsbD w.val = (readTested m (storeKey ix w)).2.poison ∧
    memRead (readLineTested m ix).1 (storeKey ix w) = (readTested m (storeKey ix w)).2 := by
  have clear : ∀ v ∈ wordIds, zeroLine.poison.getLsbD v.val = false := fun _ _ => BitVec.getLsbD_zero
  rw [readLineTested_eq]
  exact (readWords wordIds nodup_wordIds hm zeroLine clear w).1 (mem_wordIds w)

/-! ### A line write (R101) -/

/-- A write of some words of a line: each holds its value with fresh parity and its flag, the others stand. -/
theorem writeWords (ws : List (Fin 8)) (hw : ws.Nodup) (hm : memWf m = true) (d : LineData) (w : Fin 8) :
    let r := ws.foldl (fun m w => memWrite m (storeKey ix w) (storeFresh d.words[w] (d.poison.getLsbD w.val))) m
    (w ∈ ws → memRead r (storeKey ix w) = storeFresh d.words[w] (d.poison.getLsbD w.val)) ∧
    (w ∉ ws → memRead r (storeKey ix w) = memRead m (storeKey ix w)) := by
  induction ws generalizing m with
  | nil => exact ⟨fun h => by simp at h, fun _ => rfl⟩
  | cons v ws ih =>
    obtain ⟨hv, hws⟩ := List.nodup_cons.1 hw
    obtain ⟨inn, out⟩ := ih hws (memWf_memWrite hm (storeKey ix v) (storeFresh d.words[v] (d.poison.getLsbD v.val)))
    by_cases e : v = w
    · subst e
      exact ⟨fun _ => (out hv).trans (memRead_memWrite_same hm _ _), fun h => absurd (by simp) h⟩
    · exact ⟨fun h => inn (by simpa [Ne.symm e] using h),
        fun h => (out fun hx => h (by simp [hx])).trans (memRead_memWrite_other (storeKey_inj (Ne.symm e)) _)⟩

theorem memRead_writeLine (hm : memWf m = true) (d : LineData) (w : Fin 8) :
    memRead (writeLine m ix d) (storeKey ix w) = storeFresh d.words[w] (d.poison.getLsbD w.val) :=
  (writeWords wordIds nodup_wordIds hm d w).1 (mem_wordIds w)

theorem memRead_writeLine_elsewhere (hk : k / 8 ≠ ix.toNat) (d : LineData) :
    memRead (writeLine m ix d) k = memRead m k := by
  unfold writeLine
  generalize wordIds = ws
  induction ws generalizing m with
  | nil => rfl
  | cons v ws ih => exact ih.trans (memRead_memWrite_other (ne_storeKey hk v) _)

/-! ### The direct operations (R102 to R104) -/

/-- The word's flag is set, or its parity fails. -/
def Bad (x : StoreWord) : Prop := x.poison = true ∨ x.parity ≠ parityOf x.value

theorem readTested_flagged (h : Bad (memRead m k)) : (readTested m k).2.poison = true := (readTested_poison m k).2 h

theorem readTested_of_bad (h : Bad (memRead m k)) : (readTested m k).2 = { memRead m k with poison := true } := by
  rw [readTested_word, readTested_flagged h]

theorem readTested_of_not_bad (h : ¬Bad (memRead m k)) : readTested m k = (m, memRead m k) :=
  readTested_good (.inl (by_contra fun hp => h (.inr hp)))

theorem poison_of_not_bad (h : ¬Bad (memRead m k)) : (memRead m k).poison = false :=
  Bool.eq_false_iff.2 fun hp => h (.inl hp)

theorem homeDirectRead_bad (h : Bad (memRead m (lineKey l w))) :
    homeDirectRead m l w = ((readTested m (lineKey l w)).1, .result w true 0) := by
  unfold homeDirectRead
  simp only [readTested_flagged h, if_true]

theorem homeDirectRead_good (h : ¬Bad (memRead m (lineKey l w))) :
    homeDirectRead m l w = (m, .result w false (memRead m (lineKey l w)).value) := by
  unfold homeDirectRead
  simp [readTested_of_not_bad h, poison_of_not_bad h]

theorem homeDirectWrite_full (v : Word) :
    homeDirectWrite m l w fullMask v = (memWrite m (lineKey l w) (storeFresh v false), .result w false 0) :=
  if_pos rfl

theorem homeDirectWrite_bad {mask : BitVec 8} (hk : mask ≠ fullMask) (v : Word) (h : Bad (memRead m (lineKey l w))) :
    homeDirectWrite m l w mask v = ((readTested m (lineKey l w)).1, .result w true 0) :=
  (if_neg hk).trans (if_pos (readTested_flagged h))

theorem homeDirectWrite_good {mask : BitVec 8} (hk : mask ≠ fullMask) (v : Word) (h : ¬Bad (memRead m (lineKey l w))) :
    homeDirectWrite m l w mask v = (memWrite m (lineKey l w)
      (storeFresh (mergeMask mask (memRead m (lineKey l w)).value v) false), .result w false 0) := by
  unfold homeDirectWrite
  simp [hk, readTested_of_not_bad h, poison_of_not_bad h]

theorem homeDirectAtomic_bad (op : AtomicOp) (a b : Word) (h : Bad (memRead m (lineKey l w))) :
    homeDirectAtomic m l w op a b = ((readTested m (lineKey l w)).1, .result w true 0) :=
  if_pos (readTested_flagged h)

theorem homeDirectAtomic_good (op : AtomicOp) (a b : Word) (h : ¬Bad (memRead m (lineKey l w))) :
    homeDirectAtomic m l w op a b = (match atomicNew op (memRead m (lineKey l w)).value a b with
      | some v => memWrite m (lineKey l w) (storeFresh v false)
      | none => m, .result w false (memRead m (lineKey l w)).value) := by
  unfold homeDirectAtomic
  simp only [readTested_of_not_bad h, poison_of_not_bad h, Bool.false_eq_true, if_false]
  cases atomicNew op (memRead m (lineKey l w)).value a b <;> rfl

theorem memRead_after_bad (hm : memWf m = true) (h : Bad (memRead m k)) :
    memRead (readTested m k).1 k = { memRead m k with poison := true } :=
  (memRead_readTested_same hm k).trans (readTested_of_bad h)

theorem memRead_atomic_good (hm : memWf m = true) (o : Option Word) :
    memRead (match o with
      | some v => memWrite m k (storeFresh v false)
      | none => m) k = match o with
      | some v => storeFresh v false
      | none => memRead m k := by
  cases o with
  | none => rfl
  | some v => exact memRead_memWrite_same hm _ _

/-! ### A direct operation reaches one word -/

theorem memRead_homeDirectRead_other {j : Nat} (hj : j ≠ lineKey l w) :
    memRead (homeDirectRead m l w).1 j = memRead m j := memRead_readTested_other hj

theorem memRead_homeDirectWrite_other {j : Nat} (hj : j ≠ lineKey l w) (mask : BitVec 8) (v : Word) :
    memRead (homeDirectWrite m l w mask v).1 j = memRead m j := by
  unfold homeDirectWrite
  split
  · exact memRead_memWrite_other hj _
  · simp only
    split
    · exact memRead_readTested_other hj
    · exact (memRead_memWrite_other hj _).trans (memRead_readTested_other hj)

theorem memRead_homeDirectAtomic_other {j : Nat} (hj : j ≠ lineKey l w) (op : AtomicOp) (a b : Word) :
    memRead (homeDirectAtomic m l w op a b).1 j = memRead m j := by
  unfold homeDirectAtomic
  simp only
  split
  · exact memRead_readTested_other hj
  · split
    · exact (memRead_memWrite_other hj _).trans (memRead_readTested_other hj)
    · exact memRead_readTested_other hj

/-- Settles O48: the line operations by the words of the line, the direct ones by whether their word is bad. -/
theorem homeStoreReadsWritesAndOperates : Obligations.HomeStoreReadsWritesAndOperates := by
  refine ⟨fun m ix hm => ?_, fun m l w hm => ?_⟩
  · intro sound
    refine ⟨fun w => ?_, fun k hk => ⟨readWords_elsewhere wordIds hk zeroLine, memRead_writeLine_elsewhere hk⟩⟩
    obtain ⟨words, flag, read⟩ := lineRead (ix := ix) hm w
    refine ⟨words.trans (readTested_value _ _), ?_, ?_, fun d => memRead_writeLine hm d w⟩
    · rw [flag]
      exact readTested_poison _ _
    · rw [read, flag]
      exact readTested_word _ _
  · intro k old bad fresh
    refine ⟨fun hb => ?_, homeDirectRead_good, fun v => ?_, fun mask v hk => ⟨fun hb => ?_, fun hg => ?_⟩,
      fun op a b => ⟨fun hb => ?_, fun hg => ?_⟩, fun j hj => ⟨memRead_homeDirectRead_other hj,
        memRead_homeDirectWrite_other hj, memRead_homeDirectAtomic_other hj⟩⟩
    · rw [homeDirectRead_bad hb]
      exact ⟨rfl, memRead_after_bad hm hb⟩
    · rw [homeDirectWrite_full]
      exact ⟨rfl, memRead_memWrite_same hm _ _⟩
    · rw [homeDirectWrite_bad hk v hb]
      exact ⟨rfl, memRead_after_bad hm hb⟩
    · rw [homeDirectWrite_good hk v hg]
      exact ⟨rfl, memRead_memWrite_same hm _ _⟩
    · rw [homeDirectAtomic_bad op a b hb]
      exact ⟨rfl, memRead_after_bad hm hb⟩
    · rw [homeDirectAtomic_good op a b hg]
      exact ⟨rfl, (memRead_atomic_good hm _).trans rfl⟩

end Sys2Proof.Proofs.HomeStore
end

