-- ==== Sys2Proof/Proofs/RoundTrips.lean ====
section
/-! PROOFS. Records and frames read back as the commands they were made from (R26, R27, R109, R175 to R177). -/

namespace Sys2Proof.Proofs.RoundTrips

open Sys2Proof

/-! ### Fields of beats -/

/-- A word is its four beats, the most significant first. -/
theorem word_of_beats (w : Word) : (w.extractLsb' 48 16 ++ w.extractLsb' 32 16 ++ w.extractLsb' 16 16 ++ w.extractLsb' 0 16 :
    BitVec (16 + 16 + 16 + 16)) = w := by
  apply BitVec.eq_of_getLsbD_eq
  intro i hi
  simp only [BitVec.getLsbD_append, BitVec.getLsbD_extractLsb']
  have : i < 64 := hi
  interval_cases i <;> simp

theorem headerBeat_kind (k : BitVec 4) (s a : StationNo) : (headerBeat k s a).extractLsb' 12 4 = k :=
  calc (headerBeat k s a).extractLsb' 12 4
    _ = (k ++ s ++ a).extractLsb' 8 4 := BitVec.extractLsb'_append_eq_of_le (by decide)
    _ = (k ++ s).extractLsb' 4 4 := BitVec.extractLsb'_append_eq_of_le (by decide)
    _ = k := BitVec.extractLsb'_append_eq_left

theorem headerBeat_sender (k : BitVec 4) (s a : StationNo) : (headerBeat k s a).extractLsb' 8 4 = s :=
  calc (headerBeat k s a).extractLsb' 8 4
    _ = (k ++ s ++ a).extractLsb' 4 4 := BitVec.extractLsb'_append_eq_of_le (by decide)
    _ = (k ++ s).extractLsb' 0 4 := BitVec.extractLsb'_append_eq_of_le (by decide)
    _ = s := BitVec.extractLsb'_append_eq_right

theorem headerBeat_addressee (k : BitVec 4) (s a : StationNo) : (headerBeat k s a).extractLsb' 4 4 = a :=
  calc (headerBeat k s a).extractLsb' 4 4
    _ = (k ++ s ++ a).extractLsb' 0 4 := BitVec.extractLsb'_append_eq_of_le (by decide)
    _ = a := BitVec.extractLsb'_append_eq_right

theorem lineBeat_line (l : LineAddr) : (lineBeat l).extractLsb' 0 15 = l := BitVec.extractLsb'_append_eq_right

theorem directBeat_word (hi : BitVec 8) (mid : BitVec 5) (w : BitVec 3) : (directBeat hi mid w).extractLsb' 0 3 = w :=
  BitVec.extractLsb'_append_eq_right

theorem directBeat_high (hi : BitVec 8) (mid : BitVec 5) (w : BitVec 3) : (directBeat hi mid w).extractLsb' 8 8 = hi :=
  calc (directBeat hi mid w).extractLsb' 8 8
    _ = (hi ++ mid).extractLsb' 5 8 := BitVec.extractLsb'_append_eq_of_le (by decide)
    _ = hi := BitVec.extractLsb'_append_eq_left

/-- The op code stands in bits 6..4 of a direct beat. -/
theorem directBeat_op (hi : BitVec 8) (op w : BitVec 3) :
    (directBeat hi (0#1 ++ op ++ 0#1 : BitVec (1 + 3 + 1)) w).extractLsb' 4 3 = op := by
  apply BitVec.eq_of_getLsbD_eq
  intro i hi
  simp only [directBeat, BitVec.getLsbD_extractLsb', BitVec.getLsbD_append]
  have : i < 3 := hi
  interval_cases i <;> simp

/-- The status stands in bits 5..4 of a RESULT's direct beat: OK or DATA-ERROR. -/
theorem directBeat_status (err : Bool) (w : BitVec 3) :
    (directBeat 0 (0#3 ++ BitVec.ofBool err ++ 0#1 : BitVec (3 + 1 + 1)) w).extractLsb' 4 2 = if err then 1 else 0 := by
  revert err w
  decide

/-! ### The data of a line -/

theorem words_toList (v : Vector Word 8) : v.toList = [v[0], v[1], v[2], v[3], v[4], v[5], v[6], v[7]] := by
  apply List.ext_getElem
  · simp
  · intro i hi hj
    have : i < 8 := by simpa using hi
    interval_cases i <;> simp

theorem lineBeats_eq (d : LineData) : lineBeats d = wordBeats d.words[0] ++ wordBeats d.words[1] ++ wordBeats d.words[2]
    ++ wordBeats d.words[3] ++ wordBeats d.words[4] ++ wordBeats d.words[5] ++ wordBeats d.words[6] ++ wordBeats d.words[7]
    ++ [(0#8 ++ d.poison : BitVec (8 + 8))] := by
  unfold lineBeats
  rw [words_toList]
  simp [List.append_assoc]

theorem lineBeats_length (d : LineData) : (lineBeats d).length = 33 := by
  rw [lineBeats_eq]
  rfl

theorem lineDataAt_lineBeats (a b c : Beat) (d : LineData) : lineDataAt (a :: b :: (lineBeats d ++ [c])) = d := by
  obtain ⟨words, poison⟩ := d
  rw [lineBeats_eq]
  unfold lineDataAt
  congr 1
  · apply Vector.ext
    intro i hi
    rw [Vector.getElem_ofFn]
    interval_cases i
    · exact word_of_beats words[0]
    · exact word_of_beats words[1]
    · exact word_of_beats words[2]
    · exact word_of_beats words[3]
    · exact word_of_beats words[4]
    · exact word_of_beats words[5]
    · exact word_of_beats words[6]
    · exact word_of_beats words[7]
  · exact BitVec.extractLsb'_append_eq_right

/-! ### A frame as sent (R26, R27) -/

/-- The check of a frame of known length is good: the code is over the beats before it. -/
theorem goodCheck_sent {k : BitVec 4} {body : List Beat} (h : frameLength k = some (body.length + 1)) :
    goodCheck k (body ++ [checkCode body]) false = true := by
  have last : (body ++ [checkCode body]).getLastD 0 = checkCode body := by simp
  unfold goodCheck
  rw [h, List.dropLast_concat, last]
  simp

/-- A frame as sent is read with its own header and a good check. -/
theorem readFrame_sent {k : BitVec 4} {s a : StationNo} {l : LineAddr} {rest : List Beat}
    (h : frameLength k = some (rest.length + 3)) :
    let body := headerBeat k s a :: lineBeat l :: rest
    readFrame (body ++ [checkCode body]) false = some (frameCommand k { sender := s, line := l, good := true }
      (body ++ [checkCode body])) := by
  intro body
  have good : goodCheck k (body ++ [checkCode body]) false = true := goodCheck_sent h
  show some (frameCommand ((headerBeat k s a).extractLsb' 12 4)
    { sender := (headerBeat k s a).extractLsb' 8 4, line := (lineBeat l).extractLsb' 0 15
      good := goodCheck ((headerBeat k s a).extractLsb' 12 4) (body ++ [checkCode body]) false }
    (body ++ [checkCode body])) = _
  rw [headerBeat_kind, headerBeat_sender, lineBeat_line, good]

theorem request_sent (s : StationNo) (l : LineAddr) (body : RequestBody) :
    readFrame (encodeFrame (.request s l body)) false = some (commandOfFrame (.request s l body)) := by
  have read := fun h => readFrame_sent (k := requestKind body) (s := s) (a := 0) (l := l) (rest := requestBeats body) h
  cases body with
  | table k => cases k with
    | share | own | upgrade => exact read rfl
    | direct d => cases d with
      | read w =>
        refine (read rfl).trans (congrArg some ?_)
        exact congrArg (Instr.dRead _) (directBeat_word 0 0 w)
      | write w mask v =>
        refine (read rfl).trans (congrArg some ?_)
        exact congr (congr (congrArg (Instr.dWrite _) (directBeat_word mask 0 w)) (directBeat_high mask 0 w)) (word_of_beats v)
      | atomic w op a b =>
        refine (read rfl).trans (congrArg some ?_)
        exact congr (congr (congr (congrArg (Instr.dAtomic _) (directBeat_word 0 _ w)) (directBeat_op 0 (opCode op) w))
          (word_of_beats a)) (word_of_beats b)
  | ret d =>
    refine (read (congrArg some (congrArg (· + 3) (lineBeats_length d)).symm)).trans (congrArg some ?_)
    exact congrArg (Instr.returnLine _) (lineDataAt_lineBeats _ _ _ d)

theorem reply_sent (s a : StationNo) (l : LineAddr) (body : ReplyBody) :
    readFrame (encodeFrame (.reply s a l body)) false = some (commandOfFrame (.reply s a l body)) := by
  have read := fun h => readFrame_sent (k := replyKind body) (s := s) (a := a) (l := l) (rest := replyBeats body) h
  cases body with
  | fill d =>
    refine (read (congrArg some (congrArg (· + 3) (lineBeats_length d)).symm)).trans (congrArg some ?_)
    exact congr (congrArg (Instr.fill _) (headerBeat_addressee _ s a)) (lineDataAt_lineBeats _ _ _ d)
  | result w err v =>
    refine (read rfl).trans (congrArg some ?_)
    exact congr (congr (congr (congrArg (Instr.result _) (headerBeat_addressee _ s a)) (directBeat_word 0 _ w))
      (directBeat_status err w)) (word_of_beats v)

/-- Settles O60: each kind of frame, by the fields of its beats. -/
theorem framesRoundTrip : Obligations.FramesRoundTrip := by
  intro f
  cases f with
  | request s l body => exact request_sent s l body
  | reply s a l body => exact reply_sent s a l body

/-! ### Request records (R109, R175) -/

/-- The fields of beat 0 are read back. -/
theorem recordFields_beat (f : RecordFields) : recordFields f.beat = f := by
  have kind : f.beat.extractLsb' 50 4 = f.kind := by
    unfold RecordFields.beat
    iterate 6 rw [BitVec.extractLsb'_append_eq_of_le (by decide)]
    exact BitVec.extractLsb'_append_eq_right
  have op : f.beat.extractLsb' 47 3 = f.op := by
    unfold RecordFields.beat
    iterate 5 rw [BitVec.extractLsb'_append_eq_of_le (by decide)]
    exact BitVec.extractLsb'_append_eq_right
  have posted : f.beat.extractLsb' 46 1 = f.posted := by
    unfold RecordFields.beat
    iterate 4 rw [BitVec.extractLsb'_append_eq_of_le (by decide)]
    exact BitVec.extractLsb'_append_eq_right
  have clear : f.beat.extractLsb' 45 1 = f.clear := by
    unfold RecordFields.beat
    iterate 3 rw [BitVec.extractLsb'_append_eq_of_le (by decide)]
    exact BitVec.extractLsb'_append_eq_right
  have mask : f.beat.extractLsb' 37 8 = f.mask := by
    unfold RecordFields.beat
    iterate 2 rw [BitVec.extractLsb'_append_eq_of_le (by decide)]
    exact BitVec.extractLsb'_append_eq_right
  have timeout : f.beat.extractLsb' 21 16 = f.timeout :=
    (BitVec.extractLsb'_append_eq_of_le (by decide)).trans BitVec.extractLsb'_append_eq_right
  have addr : f.beat.extractLsb' 0 21 = f.addr := BitVec.extractLsb'_append_eq_right
  unfold recordFields
  rw [Laws.beat_ch, Laws.beat_tag, kind, op, posted, clear, mask, timeout, addr]

theorem decodeRecord_recordOf (f : RecordFields) (v w : Word) : decodeRecord (recordOf f v w) = commandOf f v w :=
  congrArg (fun f => commandOf f v w) (recordFields_beat f)

/-- A kind code that names no kind is read as UNDECODABLE_REQUEST_KIND. -/
theorem commandOf_undecodable {f : RecordFields} (h : undecodableKindCode f.kind = true) (v w : Word) :
    commandOf f v w = .undecodableRequestKind f.ch.toFin { tag := f.tag, what := .kind f.kind } f.ignored w := by
  obtain ⟨ch, tag, kind, op, posted, clear, mask, timeout, addr⟩ := f
  unfold commandOf
  simp only [undecodableKindCode, Bool.or_eq_true, decide_eq_true_eq] at h ⊢
  rcases h with rfl | h
  · rfl
  · split
    case h_11 => rfl
    all_goals omega

theorem opOfCode_undecodable {code : BitVec 3} (h : undecodableOpCode code = true) : Machine.opOfCode code = none := by
  revert h
  revert code
  decide

/-- What the record of a command says is read back. -/
theorem decode_encode {i : Instr} {r : Record} (hw : i.wf = true) (h : encodeRecord i = some r) : decodeRecord r = i := by
  cases i with
  | undecodableRequestKind ch kept u b =>
    obtain ⟨tag, what⟩ := kept
    cases what with
    | kind code =>
      cases h
      exact (decodeRecord_recordOf _ _ _).trans (commandOf_undecodable (by exact hw) _ _)
    | op code addr a =>
      cases h
      have none_of : Machine.opOfCode code = none := opOfCode_undecodable hw
      refine (decodeRecord_recordOf _ _ _).trans ?_
      show atomicRecord ch tag code addr u a b = _
      unfold atomicRecord
      rw [none_of]
  | _ => cases h <;> exact (decodeRecord_recordOf _ _ _).trans rfl

theorem isSome_encodeRecord (i : Instr) : (encodeRecord i).isSome = (Machine.requestOf i).isSome := by
  cases i with
  | undecodableRequestKind ch kept u b =>
    obtain ⟨tag, what⟩ := kept
    cases what <;> rfl
  | _ => rfl

/-- Settles O59: the fields of the first beat are read back, and they name the command. -/
theorem recordsRoundTrip : Obligations.RecordsRoundTrip := fun i =>
  ⟨isSome_encodeRecord i, fun _ hw h => ⟨decode_encode hw h, congrArg some (decode_encode hw h)⟩⟩

end Sys2Proof.Proofs.RoundTrips
end

