-- ==== Sys2Proof/Proofs/Layouts.lean ====
section
/-! PROOFS. The layouts of the line report, the STATUS words and the completion header (R110, R170, R172, R173; chapter
12). -/

namespace Sys2Proof.Proofs.Layouts

open Sys2Proof Sys2Proof.Machine Sys2Proof.Proofs.Acceptance

variable {s : State} {a : Addr} {l : LineAddr} {w : Word}

/-! ### Fields of words -/

theorem getLsbD_of_bit {n k : Nat} {w : BitVec n} {b : Bool} (h : w.extractLsb' k 1 = bit b) : w.getLsbD k = b := by
  have := congrArg (fun x : BitVec 1 => x.getLsbD 0) h
  simpa [bit, BitVec.getLsbD_extractLsb'] using this

theorem extract_extract {n : Nat} (w : BitVec n) {i m j k : Nat} (h : j + k ≤ m) :
    (w.extractLsb' i m).extractLsb' j k = w.extractLsb' (i + j) k := by
  apply BitVec.eq_of_getLsbD_eq
  intro x hx
  have : j + x < m := by omega
  simp [hx, this, Nat.add_assoc]

theorem getLsbD_extract {n : Nat} {w : BitVec n} {i m j : Nat} (h : j < m) :
    (w.extractLsb' i m).getLsbD j = w.getLsbD (i + j) := by
  simp [h]

/-- A count that fits its field is read back. -/
theorem toNat_ofNat_of_lt {n x : Nat} (h : x < 2 ^ n) : (BitVec.ofNat n x).toNat = x := by
  rw [BitVec.toNat_ofNat, Nat.mod_eq_of_lt h]

/-! ### The line report -/

/-- The fields of a line report word, each at its place. -/
theorem lineReport_fields (r : LineReport) :
    r.word.extractLsb' 63 1 = bit r.direct ∧ r.word.extractLsb' 62 1 = bit r.homeHere ∧
    r.word.extractLsb' 59 3 = stateCode r.state ∧ r.word.extractLsb' 58 1 = bit r.fillPending ∧
    r.word.extractLsb' 57 1 = bit r.way.isSome ∧
    r.word.extractLsb' 55 2 = BitVec.ofNat 2 (r.way.map Fin.val |>.getD 0) ∧
    r.word.extractLsb' 52 3 = BitVec.ofNat 3 (r.position.getD 0) ∧ r.word.extractLsb' 44 8 = r.poison ∧
    r.word.extractLsb' 43 1 = bit r.pendingFlush ∧ r.word.extractLsb' 40 3 = BitVec.ofNat 3 r.reservations ∧
    r.word.extractLsb' 37 3 = BitVec.ofNat 3 r.armed ∧ r.word.extractLsb' 20 17 = entryBits r.entry ∧
    r.word.extractLsb' 10 10 = writebackBits r.writeback ∧ r.word.extractLsb' 0 10 = replyBits r.reply := by
  unfold LineReport.word
  refine ⟨?_, ?_, ?_, ?_, ?_, ?_, ?_, ?_, ?_, ?_, ?_, ?_, ?_, BitVec.extractLsb'_append_eq_right⟩
  · iterate 12 rw [BitVec.extractLsb'_append_eq_of_le (by decide)]
    exact BitVec.extractLsb'_append_eq_left
  · iterate 12 rw [BitVec.extractLsb'_append_eq_of_le (by decide)]
    exact BitVec.extractLsb'_append_eq_right
  · iterate 11 rw [BitVec.extractLsb'_append_eq_of_le (by decide)]
    exact BitVec.extractLsb'_append_eq_right
  · iterate 10 rw [BitVec.extractLsb'_append_eq_of_le (by decide)]
    exact BitVec.extractLsb'_append_eq_right
  · iterate 9 rw [BitVec.extractLsb'_append_eq_of_le (by decide)]
    exact BitVec.extractLsb'_append_eq_right
  · iterate 8 rw [BitVec.extractLsb'_append_eq_of_le (by decide)]
    exact BitVec.extractLsb'_append_eq_right
  · iterate 7 rw [BitVec.extractLsb'_append_eq_of_le (by decide)]
    exact BitVec.extractLsb'_append_eq_right
  · iterate 6 rw [BitVec.extractLsb'_append_eq_of_le (by decide)]
    exact BitVec.extractLsb'_append_eq_right
  · iterate 5 rw [BitVec.extractLsb'_append_eq_of_le (by decide)]
    exact BitVec.extractLsb'_append_eq_right
  · iterate 4 rw [BitVec.extractLsb'_append_eq_of_le (by decide)]
    exact BitVec.extractLsb'_append_eq_right
  · iterate 3 rw [BitVec.extractLsb'_append_eq_of_le (by decide)]
    exact BitVec.extractLsb'_append_eq_right
  · iterate 2 rw [BitVec.extractLsb'_append_eq_of_le (by decide)]
    exact BitVec.extractLsb'_append_eq_right
  · rw [BitVec.extractLsb'_append_eq_of_le (by decide)]
    exact BitVec.extractLsb'_append_eq_right

/-- The six bits of the way and its position are zero where each of the three fields is. -/
theorem wayBits_zero (valid : w.extractLsb' 57 1 = 0) (way : w.extractLsb' 55 2 = 0) (position : w.extractLsb' 52 3 = 0) :
    w.extractLsb' 52 6 = 0 := by
  have zero : ∀ {i m j : Nat}, w.extractLsb' i m = 0 → j < m → w.getLsbD (i + j) = false := fun h hj =>
    (getLsbD_extract hj).symm.trans (h ▸ BitVec.getLsbD_zero)
  apply BitVec.eq_of_getLsbD_eq
  intro i hi
  rw [getLsbD_extract hi]
  refine Eq.trans ?_ BitVec.getLsbD_zero.symm
  interval_cases i
  · exact zero position (j := 0) (by decide)
  · exact zero position (j := 1) (by decide)
  · exact zero position (j := 2) (by decide)
  · exact zero way (j := 0) (by decide)
  · exact zero way (j := 1) (by decide)
  · exact zero valid (j := 0) (by decide)

/-- The fields of an entry's 17 bits. -/
theorem entryBits_fields (e : EntryReport) : (entryBits (some e)).extractLsb' 16 1 = bit true ∧
    (entryBits (some e)).extractLsb' 13 3 = kindCode e.kind ∧ (entryBits (some e)).extractLsb' 11 2 = phaseCode e.phase ∧
    (entryBits (some e)).extractLsb' 3 8 = BitVec.ofNat 8 e.retry ∧
    (entryBits (some e)).extractLsb' 0 3 = BitVec.ofNat 3 e.waiters := by
  unfold entryBits
  refine ⟨?_, ?_, ?_, ?_, BitVec.extractLsb'_append_eq_right⟩
  · iterate 3 rw [BitVec.extractLsb'_append_eq_of_le (by decide)]
    exact BitVec.extractLsb'_append_eq_left
  · iterate 3 rw [BitVec.extractLsb'_append_eq_of_le (by decide)]
    exact BitVec.extractLsb'_append_eq_right
  · iterate 2 rw [BitVec.extractLsb'_append_eq_of_le (by decide)]
    exact BitVec.extractLsb'_append_eq_right
  · rw [BitVec.extractLsb'_append_eq_of_le (by decide)]
    exact BitVec.extractLsb'_append_eq_right

/-- The fields of a writeback entry's 10 bits. -/
theorem writebackBits_fields (n : Nat) (fl : Bool) : (writebackBits (some (n, fl))).extractLsb' 9 1 = bit true ∧
    (writebackBits (some (n, fl))).extractLsb' 1 8 = BitVec.ofNat 8 n ∧
    (writebackBits (some (n, fl))).extractLsb' 0 1 = bit fl := by
  unfold writebackBits
  refine ⟨?_, ?_, BitVec.extractLsb'_append_eq_right⟩
  · rw [BitVec.extractLsb'_append_eq_of_le (by decide)]
    exact BitVec.extractLsb'_append_eq_left
  · rw [BitVec.extractLsb'_append_eq_of_le (by decide)]
    exact BitVec.extractLsb'_append_eq_right

/-! ### The counts of the line report -/

theorem toList_channels {α : Type} (v : Vector α 4) : v.toList = channels.map (fun c => v[c]) := by
  apply List.ext_getElem
  · simp [channels]
  · intro i hi hj
    have : i < 4 := by simpa using hi
    interval_cases i <;> simp [channels]

/-- The number of channels whose slot satisfies a condition, and its three bits. -/
theorem count_channels {α : Type} (v : Vector α 4) (p : α → Bool) :
    (BitVec.ofNat 3 (channels.filter (fun c => p v[c])).length).toNat = v.toList.countP p := by
  have four : (channels.filter (fun c => p v[c])).length ≤ 4 := List.length_filter_le _ channels
  rw [toNat_ofNat_of_lt (by omega), ← List.countP_eq_length_filter, toList_channels, List.countP_map]
  rfl

theorem flushPending_iff : s.flushPending l = true ↔ ∃ (c : ChanId) (h : HostEntry) (b : Addr), s.head? c = some h ∧
    h.req = .flush b ∧ lineOf b = l ∧ ∃ x ∈ s.waiting, x.who = .chan c ∧ x.pendingFlush = true := by
  unfold State.flushPending
  rw [List.any_eq_true]
  constructor
  · rintro ⟨c, -, h⟩
    rw [Bool.and_eq_true, List.any_eq_true] at h
    obtain ⟨flush, x, hx, hw⟩ := h
    split at flush
    · rename_i e he
      split at flush
      · rename_i b hb
        exact ⟨c, e, b, he, hb, of_decide_eq_true flush, x, hx, by simpa using hw⟩
      · cases flush
    · cases flush
  · rintro ⟨c, e, b, he, hb, hl, x, hx, hw⟩
    refine ⟨c, CompletionOrder.mem_channels c, ?_⟩
    rw [Bool.and_eq_true, List.any_eq_true]
    refine ⟨?_, x, hx, by simpa using hw⟩
    simp [he, hb, hl]

theorem position_lt (h : s.Recency) (x : WayId) : s.position l x < 8 := by
  have member : x ∈ s.lines[setOf l].order := (h (setOf l)).mem_iff.2 (Choices.mem_wayIds x)
  have length : s.lines[setOf l].order.length = 4 := (h (setOf l)).length_eq
  have := List.idxOf_lt_length_iff.2 member
  unfold State.position
  omega

/-- The reply part of the report where the reply queue holds no reply for the line. -/
theorem replyBits_none (h : s.replyFor l = none) :
    replyBits (s.replyReport l) = if s.span.setAside = some l then 0x100 else 0 := by
  unfold State.replyReport
  rw [h]
  by_cases ha : s.span.setAside = some l
  · rw [if_pos ha]
    simp only [ha, if_true]
    rfl
  · rw [if_neg ha]
    simp only [ha, if_false]
    rfl

/-- The code and the count of a held reply. -/
theorem replyBits_some {r : ReplyEntry} (h : s.replyFor l = some r) :
    (replyBits (s.replyReport l)).extractLsb' 8 2 = (match r.body with
      | .fill _ => 2
      | .result _ _ _ => 3) ∧ (replyBits (s.replyReport l)).extractLsb' 0 8 = BitVec.ofNat 8 r.voids := by
  cases hb : r.body with
  | fill d =>
    have report : s.replyReport l = some (.fill r.voids) := by simp [State.replyReport, h, hb]
    rw [report]
    exact ⟨BitVec.extractLsb'_append_eq_left, BitVec.extractLsb'_append_eq_right⟩
  | result x err v =>
    have report : s.replyReport l = some (.result r.voids) := by simp [State.replyReport, h, hb]
    rw [report]
    exact ⟨BitVec.extractLsb'_append_eq_left, BitVec.extractLsb'_append_eq_right⟩

/-! ### The STATUS words (R172) -/

theorem modeCode_eq (m : StationMode) : modeCode m = (match m with
    | .inert => 0
    | .clearing => 1
    | .ready => 2) := by
  cases m <;> rfl

theorem statusHeader_mode : (Status.statusHeader s).extractLsb' 45 2 = modeCode s.station.mode := by
  unfold Status.statusHeader
  iterate 3 rw [BitVec.extractLsb'_append_eq_of_le (by decide)]
  exact BitVec.extractLsb'_append_eq_right

theorem statusHeader_sweep : (Status.statusHeader s).extractLsb' 33 12 = BitVec.ofNat 12 s.station.sweep := by
  unfold Status.statusHeader
  iterate 2 rw [BitVec.extractLsb'_append_eq_of_le (by decide)]
  exact BitVec.extractLsb'_append_eq_right

/-! ### The completion header (R110) -/

theorem completionHeader_fields (c : Completion) :
    (completionHeader c).extractLsb' 62 2 = BitVec.ofFin (w := 2) c.ch ∧ (completionHeader c).extractLsb' 54 8 = c.tag ∧
    (completionHeader c).extractLsb' 50 4 = statusCode c.status ∧ (completionHeader c).extractLsb' 49 1 = bit c.deferred ∧
    (completionHeader c).extractLsb' 46 3 = BitVec.ofNat 3 c.data.length := by
  unfold completionHeader
  refine ⟨?_, ?_, ?_, ?_, ?_⟩
  · iterate 4 rw [BitVec.extractLsb'_append_eq_of_le (by decide)]
    exact BitVec.extractLsb'_append_eq_left
  · iterate 4 rw [BitVec.extractLsb'_append_eq_of_le (by decide)]
    exact BitVec.extractLsb'_append_eq_right
  · iterate 3 rw [BitVec.extractLsb'_append_eq_of_le (by decide)]
    exact BitVec.extractLsb'_append_eq_right
  · iterate 2 rw [BitVec.extractLsb'_append_eq_of_le (by decide)]
    exact BitVec.extractLsb'_append_eq_right
  · rw [BitVec.extractLsb'_append_eq_of_le (by decide)]
    exact BitVec.extractLsb'_append_eq_right

theorem statusCode_toNat (st : Machine.Status) : (statusCode st).toNat = (match st with
    | .ok => 0
    | .fail => 1
    | .timeout => 2
    | .dataError => 3
    | .lostReply => 4
    | .stalled => 5
    | .noHome => 6
    | .region => 7
    | .badRequest => 8
    | .refused => 9
    | .badConfig => 10) := by
  cases st <;> rfl

/-- The line state code of a report: INVALID where no way carries the line. -/
theorem stateCode_lookup (o : Option LineState) : stateCode (o.getD .invalid) = (match o with
    | some .shared => 1
    | some .cleanSole => 2
    | some .dirtyShared => 3
    | some .dirtySole => 4
    | _ => 0) := by
  rcases o with _ | st
  · rfl
  · cases st <;> rfl

theorem kindCode_eq (k : TableKind) : kindCode k = (match k with
    | .share => 0
    | .own => 1
    | .upgrade => 2
    | .direct (.read _) => 3
    | .direct (.write _ _ _) => 4
    | .direct (.atomic _ _ _ _) => 5) := by
  rcases k with _ | _ | _ | d
  iterate 3 rfl
  cases d <;> rfl

theorem phaseCode_eq (p : Phase) : phaseCode p = (match p with
    | .queued _ => 0
    | .awaitFill _ _ => 1
    | .awaitResult _ => 2) := by
  cases p <;> rfl

/-- The entry that a report shows. -/
def entryReport (e : TableEntry) : EntryReport :=
  { kind := e.kind, phase := e.phase, retry := e.retry, waiters := e.waiters.length }

/-- Settles O21: each word is read field by field, and each field is the report's. -/
theorem reportsFollowTheirLayouts : Obligations.ReportsFollowTheirLayouts := by
  refine ⟨fun s a => ?_, fun s => ?_, fun c => ?_⟩
  · intro l w
    obtain ⟨direct, home, state, pending, valid, way, position, poison, flush, reserved, armed, entry, writeback, reply⟩ :=
      lineReport_fields (s.lineReport a)
    refine ⟨?_, ?_, state.trans (stateCode_lookup _), ?_, fun hn => ?_, fun x hx => ⟨?_, ?_, fun hr => ?_⟩, poison, ?_, ?_,
      ?_, fun hn => ?_, fun e he => ?_, fun hn => ?_, fun e he => ?_, fun hn => reply.trans (replyBits_none hn),
      fun r hr => ?_⟩
    · rw [getLsbD_of_bit direct]
      exact isDirect_lineOf a
    · rw [getLsbD_of_bit home]
      exact decide_eq_true_iff
    · rw [getLsbD_of_bit pending]
      exact decide_eq_true_iff
    · have none : (s.lineReport a).way = .none := hn
      have unplaced : (s.lineReport a).position = .none := congrArg (Option.map _) hn
      rw [none] at valid way
      rw [unplaced] at position
      exact wayBits_zero valid way position
    · have some : (s.lineReport a).way = .some x := hx
      rw [some] at valid
      exact getLsbD_of_bit valid
    · have some : (s.lineReport a).way = .some x := hx
      rw [some] at way
      exact (congrArg BitVec.toNat way).trans (toNat_ofNat_of_lt x.isLt)
    · have placed : (s.lineReport a).position = .some (s.position l x) := congrArg (Option.map _) hx
      rw [placed] at position
      exact (congrArg BitVec.toNat position).trans (toNat_ofNat_of_lt (position_lt hr x))
    · rw [getLsbD_of_bit flush]
      exact flushPending_iff
    · exact (congrArg BitVec.toNat reserved).trans (count_channels s.reservations _)
    · exact (congrArg BitVec.toNat armed).trans (count_channels s.watches _)
    · have none : (s.lineReport a).entry = .none := congrArg (Option.map entryReport) hn
      rw [none] at entry
      exact entry
    · have some : (s.lineReport a).entry = .some (entryReport e) := congrArg (Option.map entryReport) he
      rw [some] at entry
      obtain ⟨valid, kind, phase, retry, waiters⟩ := entryBits_fields (entryReport e)
      rw [← entry, extract_extract _ (by decide)] at valid kind phase retry waiters
      exact ⟨getLsbD_of_bit valid, kind.trans (kindCode_eq _), phase.trans (phaseCode_eq _),
        fun hr => (congrArg BitVec.toNat retry).trans (toNat_ofNat_of_lt (Nat.lt_succ_of_le hr)),
        fun hw => (congrArg BitVec.toNat waiters).trans (toNat_ofNat_of_lt (lt_of_le_of_lt hw (by decide)))⟩
    · have none : (s.lineReport a).writeback = .none := congrArg (Option.map _) hn
      rw [none] at writeback
      exact writeback
    · have some : (s.lineReport a).writeback = .some (e.retry, e.flush.isSome) := congrArg (Option.map _) he
      rw [some] at writeback
      obtain ⟨valid, retry, flush⟩ := writebackBits_fields e.retry e.flush.isSome
      rw [← writeback, extract_extract _ (by decide)] at valid retry flush
      exact ⟨getLsbD_of_bit valid, getLsbD_of_bit flush,
        fun hr => (congrArg BitVec.toNat retry).trans (toNat_ofNat_of_lt (Nat.lt_succ_of_le hr))⟩
    · obtain ⟨code, voids⟩ := replyBits_some hr
      have whole : w.extractLsb' 0 10 = replyBits (s.replyReport l) := reply
      rw [← whole, extract_extract _ (by decide)] at code voids
      exact ⟨code, fun hv => (congrArg BitVec.toNat voids).trans (toNat_ofNat_of_lt (Nat.lt_succ_of_le hv))⟩
  · exact ⟨_, _, _, _, rfl, Status.statusHeader_identification, Status.statusHeader_number, Status.statusHeader_count,
      statusHeader_mode.trans (modeCode_eq _),
      fun hs => (congrArg BitVec.toNat statusHeader_sweep).trans (toNat_ofNat_of_lt (lt_of_le_of_lt hs (by decide))),
      Status.statusHeader_voided, BitVec.extractLsb'_append_eq_left, BitVec.extractLsb'_append_eq_right,
      BitVec.extractLsb'_append_eq_left, BitVec.extractLsb'_append_eq_right, BitVec.extractLsb'_append_eq_left,
      BitVec.extractLsb'_append_eq_right⟩
  · obtain ⟨ch, tag, status, deferred, length⟩ := completionHeader_fields c
    exact ⟨_, rfl, congrArg BitVec.toNat ch, tag, getLsbD_of_bit deferred,
      fun hl => (congrArg BitVec.toNat length).trans (toNat_ofNat_of_lt (lt_of_le_of_lt hl (by decide))),
      (congrArg BitVec.toNat status).trans (statusCode_toNat _)⟩

end Sys2Proof.Proofs.Layouts
end

