-- ==== Sys2Proof/Proofs/OwnVerdicts.lean ====
section
/-! PROOFS. The verdicts of the station's own tenures that a happening ends with nothing left to do: a request that awaits its
reply, and a reply sent, counted or discarded (R44, R45, R61, R63, R82, R84, R95). -/

namespace Sys2Proof.Proofs.OwnVerdicts

open Sys2Proof Sys2Proof.Machine Sys2Proof.Proofs.AtRest Sys2Proof.Proofs.Verdict

variable {s t u : State} {l : LineAddr} {v : Verdict} {body : RequestBody} {n : StationNo} {home : Bool} {others : Votes}

/-! ### The end of a verdict's happening -/

/-- A verdict that leaves the station at rest closes its tenure on the state that it leaves. -/
theorem closes {r : Result} (hx : r = .next u.settle.arbitrate) (hu : u = t.count1.closeTenure) (h : t.AtRest)
    (ho : t.readyOrder = s.readyOrder) :
    ∃ order next, s.readyOrder <+: order ∧ r = .next (t.closed order next) := by
  refine ⟨t.readyOrder ++ t.count1.closeTenure.freshReady, t.count1.closeTenure.orderReady.claimNow,
    ho ▸ List.prefix_append _ _, ?_⟩
  rw [hx, hu, State.settle_rest (atRest_closeTenure h), arbitrate_orderReady_closeTenure]

/-- A pass over an empty waiting list owes nothing. -/
theorem owePass_empty (h : s.waiting = []) : s.owePass = s := by
  have none_owed : s.waiting.map (fun x => { x with due := true }) = s.waiting := by rw [h]; rfl
  unfold State.owePass
  rw [none_owed]

/-- Rest reads the table for who waits on it alone. -/
theorem isWaiter_map {f : TableEntry → TableEntry} (hf : ∀ e, (f e).waiters = e.waiters) (ht : t.table = s.table.map f)
    (who : Who) : t.isWaiter who = s.isWaiter who := by
  unfold State.isWaiter
  rw [ht, List.any_map]
  congr 1
  funext e
  simp [hf]

theorem atRest_table {f : TableEntry → TableEntry} (h : s.AtRest) (hf : ∀ e, (f e).waiters = e.waiters)
    (ht : t.table = s.table.map f) (hp : t.posted = s.posted) (hw : t.waiting = s.waiting)
    (hh : t.hostTable = s.hostTable) : t.AtRest :=
  atRest_congr h hp hw (fun c => by unfold State.head?; rw [hh]) (isWaiter_map hf ht _)

/-! ### The home reservation (R95) -/

theorem convertHome_released (h : v = .void ∨ v = .ownerFill ∨ homeBody body = none) :
    s.convertHome n l body v = { s with span := { s.span with homeReserved := false } } := by
  unfold State.convertHome
  rcases h with rfl | rfl | h
  · simp
  · simp
  · rw [h]
    simp

theorem convertHome_queued {b : HomeBody} (hv : v = .homeFill ∨ v = .taken) (hb : homeBody body = some b) :
    s.convertHome n l body v
      = { s with homeQueue := s.homeWith n l b, span := { s.span with homeReserved := false } } := by
  unfold State.convertHome State.homeWith
  rw [hb]
  by_cases hr : s.span.homeReserved = true
  · rcases hv with rfl | rfl <;> simp [hr]
  · simp [hr]

/-! ### The station's own request (R44) -/

theorem exec_own_entry {f : Frame} (hp : s.porst = false) (ht : s.span.tenure = .ownEntry l f home)
    (hv : classify (Machine.frameBody f) (orVotes (ownVotes home) others) = v) : exec (.ownTenureVerdict others) s
      = .next ((s.count1.ownEnds l (Machine.frameBody f) v).entryVerdict l v others.copy).settle.arbitrate := by
  show execOwnTenureVerdict others s = _
  simp [execOwnTenureVerdict, hp, ht, hv]

theorem exec_own_writeback {f : Frame} (hp : s.porst = false) (ht : s.span.tenure = .ownWriteback l f home)
    (hv : classify (Machine.frameBody f) (orVotes (ownVotes home) others) = v) : exec (.ownTenureVerdict others) s
      = .next ((s.count1.ownEnds l (Machine.frameBody f) v).writebackVerdict l v).settle.arbitrate := by
  show execOwnTenureVerdict others s = _
  simp [execOwnTenureVerdict, hp, ht, hv]

/-- The state in which a verdict's tenure is closed and its home reservation released. -/
def released (s : State) : State := { s.count1.closeTenure with span := { s.count1.closeTenure.span with homeReserved := false } }

theorem ownEnds_void : s.count1.ownEnds l body .void
    = { released s with counters := { s.counters with voided := s.counters.voided + 1 } } := by
  unfold State.ownEnds
  rw [convertHome_released (.inl rfl)]
  rfl

theorem ownEnds_released (hv : v = .ownerFill ∨ homeBody body = none) (hn : v ≠ .void) :
    s.count1.ownEnds l body v = released s := by
  unfold State.ownEnds
  rw [convertHome_released (.inr hv)]
  exact if_neg hn

theorem ownEnds_queued {b : HomeBody} (hv : v = .homeFill ∨ v = .taken) (hb : homeBody body = some b) :
    s.count1.ownEnds l body v = { released s with homeQueue := s.homeWith s.station.number l b } := by
  unfold State.ownEnds
  rw [convertHome_queued hv hb]
  refine (if_neg ?_).trans rfl
  rcases hv with rfl | rfl <;> nofun

theorem entryVerdict_void {e : TableEntry} (he : s.entryFor l = some e) (copy : Bool) :
    s.entryVerdict l .void copy = s.voidEntry e := by
  unfold State.entryVerdict
  rw [he]
  rfl

theorem entryVerdict_passed {e : TableEntry} (he : s.entryFor l = some e) (hv : v ≠ .void) (copy : Bool) :
    s.entryVerdict l v copy = s.passEntry e v copy := by
  unfold State.entryVerdict
  rw [he]
  exact if_neg hv

/-- The lines of the station's own tenure, as read: HOME is its own vote or another's, the rest are the others'. -/
theorem classify_own (hr : others.retry = false) (hh : home = true ∨ others.home = true) :
    classify body (orVotes (ownVotes home) others)
      = if wantsLine body then (if others.supply then .ownerFill else .homeFill) else .taken :=
  classify_homed hr (by simpa [orVotes, ownVotes] using hh)

/-! ### Awaiting a reply (R14, R61, R63) -/

/-- The entries of the table, those of a line awaiting their reply in a phase. -/
def awaits (s : State) (l : LineAddr) (p : Phase) : List TableEntry :=
  s.table.map (fun x => if x.line = l then { x with phase := p, orphan := false } else x)

theorem atRest_awaits (h : s.AtRest) {p : Phase} (ht : t.table = awaits s l p) (hp : t.posted = s.posted)
    (hw : t.waiting = s.waiting) (hh : t.hostTable = s.hostTable) : t.AtRest :=
  atRest_table h (fun e => by split <;> rfl) ht hp hw hh

/-- What a passed request of a kind other than UPGRADE awaits. -/
def awaitedPhase (k : TableKind) (v : Verdict) (copy : Bool) : Phase :=
  match k with
  | .direct _ => .awaitResult 250
  | k => .awaitFill (installState k v copy) 250

theorem awaitedPhase_fill {k : TableKind} (hk : k = .share ∨ k = .own) (supply copy : Bool) :
    awaitedPhase k (if supply then .ownerFill else .homeFill) copy
      = .awaitFill (if k = .own then (if supply then .dirtySole else .cleanSole)
          else if supply || copy then .shared else .cleanSole) 250 := by
  rcases hk with rfl | rfl <;> cases supply <;> cases copy <;> rfl

theorem passEntry_awaits {e : TableEntry} (he : s.entryFor l = some e) (hk : e.kind ≠ .upgrade) (copy : Bool) :
    s.passEntry e v copy = { s with table := awaits s l (awaitedPhase e.kind v copy) } := by
  obtain rfl : e.line = l := by simpa using List.find?_some he
  unfold State.passEntry
  cases hk' : e.kind with
  | upgrade => exact absurd hk' hk
  | share | own | direct d => rfl

theorem exec_awaits {e : TableEntry} (hp : s.porst = false) (hr : s.AtRest)
    (ht : s.span.tenure = .ownEntry l (.request n l (.table e.kind)) home) (he : s.entryFor l = some e)
    (hk : e.kind ≠ .upgrade) (hv : classify (.table e.kind) (orVotes (ownVotes home) others) = v) (hn : v ≠ .void)
    {queue : List HomeOp} (hq : s.count1.ownEnds l (.table e.kind) v = { released s with homeQueue := queue }) :
    ∃ order next, s.readyOrder <+: order ∧ exec (.ownTenureVerdict others) s = .next (State.closed
      { s with
        table := awaits s l (awaitedPhase e.kind v others.copy)
        homeQueue := queue
        span := { s.span with homeReserved := false } } order next) := by
  refine closes (exec_own_entry hp ht hv) ?_ (atRest_awaits hr rfl rfl rfl rfl) rfl
  have ended : s.count1.ownEnds l (Machine.frameBody (.request n l (.table e.kind))) v
      = { released s with homeQueue := queue } := hq
  rw [ended, entryVerdict_passed (by exact he) hn, passEntry_awaits (by exact he) hk]
  rfl

/-- Settles O43: past its VOID a request awaits its reply, by the verdict of its kind. -/
theorem ownRequestAwaitsItsReply : Obligations.OwnRequestAwaitsItsReply := by
  intro s others n l home e hp hr ht he hretry hhome waits
  refine ⟨fun d hd => ?_, fun hk => ?_⟩
  · have verdict : classify (.table e.kind) (orVotes (ownVotes home) others) = .taken := by
      rw [classify_own hretry hhome, hd]
      rfl
    have awaited := exec_awaits hp hr ht he (by rw [hd]; nofun) verdict nofun (ownEnds_queued (.inr rfl) (by rw [hd]; rfl))
    rw [hd] at awaited
    exact awaited
  · have kind : e.kind ≠ .upgrade := by rcases hk with hk | hk <;> rw [hk] <;> nofun
    have verdict : classify (.table e.kind) (orVotes (ownVotes home) others)
        = if others.supply then .ownerFill else .homeFill := by
      rw [classify_own hretry hhome]
      exact if_pos (wantsLine_iff.2 (by simpa using hk))
    have read : homeBody (.table e.kind) = some .read := by rcases hk with hk | hk <;> rw [hk] <;> rfl
    have queued : s.count1.ownEnds l (.table e.kind) (if others.supply then .ownerFill else .homeFill) = { released s with
        homeQueue := if others.supply then s.homeQueue else s.homeWith s.station.number l .read } := by
      cases others.supply with
      | false => exact ownEnds_queued (.inl rfl) read
      | true => exact (ownEnds_released (.inl rfl) nofun).trans rfl
    have awaited := exec_awaits hp hr ht he kind verdict (by cases others.supply <;> nofun) queued
    rw [awaitedPhase_fill hk] at awaited
    exact awaited

/-! ### The station's own reply (R45, R84) -/

theorem exec_own_reply {f : Frame} (retry : Bool) (hp : s.porst = false) (ht : s.span.tenure = .ownReply l f) :
    exec (.replyTenureVerdict retry) s = .next (s.count1.ownReplyVerdict l retry).settle.arbitrate := by
  show execReplyTenureVerdict retry s = _
  simp [execReplyTenureVerdict, hp, ht]

theorem voidReply_counted {r : ReplyEntry} (hr : s.replyFor l = some r) (hv : r.voids < 254) : s.voidReply l
    = { s with replies := s.replies.map (fun r => if r.line = l then { r with voids := r.voids + 1 } else r) } := by
  unfold State.voidReply
  rw [hr]
  exact if_neg (by simp only [Config.giveUpAt]; omega)

theorem voidReply_discarded {r : ReplyEntry} (hr : s.replyFor l = some r) (hv : 254 ≤ r.voids) :
    s.voidReply l = (s.removeReply l).raiseAbandoned := by
  unfold State.voidReply
  rw [hr]
  exact if_pos (by simp only [Config.giveUpAt]; omega)

theorem offerDone_none (h : s.homeDone = none) : s.offerDone = s := by
  unfold State.offerDone
  rw [h]
  split
  · contradiction
  · rfl

theorem takesReply_iff : s.takesReply l = true ↔
    s.replies.length + (if s.span.setAside.isSome then 1 else 0) < 4 ∧ (∀ x ∈ s.replies, x.line ≠ l) ∧
      s.span.setAside ≠ some l := by
  unfold State.takesReply
  rw [Bool.and_eq_true, Frames.replyRoom_iff, Bool.not_eq_true', Bool.eq_false_iff, Ne, Frames.replyHolds_iff, not_or,
    not_exists]
  simp only [not_and]

theorem offerDone_taken {op : HomeOp} {rest : List HomeOp} {b : ReplyBody} (hd : s.homeDone = some b)
    (hq : s.homeQueue = op :: rest) (ht : s.takesReply op.line = true) : s.offerDone
      = { s with
          replies := s.replies ++ [{ addressee := op.requester, line := op.line, body := b, voids := 0 }]
          homeQueue := rest
          homeDone := none } := by
  unfold State.offerDone
  rw [hd, hq]
  refine (if_pos ht).trans ?_
  unfold State.popHome State.addReply
  rw [hq]
  rfl

theorem removeReply_kept (h : s.homeDone = none) :
    s.removeReply l = { s with replies := s.replies.filter (fun r => r.line ≠ l) } := offerDone_none h

theorem removeReply_taken {op : HomeOp} {rest : List HomeOp} {b : ReplyBody} (hd : s.homeDone = some b)
    (hq : s.homeQueue = op :: rest)
    (ht : State.takesReply { s with replies := s.replies.filter (fun r => r.line ≠ l) } op.line = true) : s.removeReply l
      = { s with
          replies := s.replies.filter (fun r => r.line ≠ l)
            ++ [{ addressee := op.requester, line := op.line, body := b, voids := 0 }]
          homeQueue := rest
          homeDone := none } := offerDone_taken hd hq ht

theorem offerDone_refused {op : HomeOp} {rest : List HomeOp} (hq : s.homeQueue = op :: rest)
    (ht : s.takesReply op.line = false) : s.offerDone = s := by
  unfold State.offerDone
  rw [hq]
  cases s.homeDone with
  | none => rfl
  | some b => exact if_neg (Bool.eq_false_iff.1 ht)

/-- The reply that leaves, by its DELIVERED or by its last VOID. -/
theorem ownReplyVerdict_leaves {retry : Bool} {r : ReplyEntry} (hr : s.replyFor l = some r)
    (h : retry = false ∨ 254 ≤ r.voids) : s.ownReplyVerdict l retry
      = if retry then (s.closeTenure.removeReply l).raiseAbandoned else s.closeTenure.removeReply l := by
  cases retry with
  | false => rfl
  | true => exact voidReply_discarded (s := s.closeTenure) hr (h.resolve_left nofun)

/-- Settles O46: the reply is counted below its last VOID, and leaves otherwise with what the done head is offered. -/
theorem ownReplyLeavesOrIsCounted : Obligations.OwnReplyLeavesOrIsCounted := by
  intro s retry l f r hp hr ht hl others counters
  refine ⟨fun hv hc => ?_, fun hv hd => ?_, fun op rest b hv hd hq room free aside => ?_⟩
  · subst hv
    refine closes (exec_own_reply true hp ht) ?_ (atRest_same hr rfl rfl rfl rfl) rfl
    exact (voidReply_counted (s := s.count1.closeTenure) hl hc).trans rfl
  · refine closes (exec_own_reply retry hp ht) ?_ (atRest_same hr rfl rfl rfl rfl) rfl
    rw [ownReplyVerdict_leaves (by exact hl) hv]
    rw [removeReply_kept (by exact hd)]
    cases retry <;> rfl
  · refine closes (exec_own_reply retry hp ht) ?_ (atRest_same hr rfl rfl rfl rfl) rfl
    rw [ownReplyVerdict_leaves (by exact hl) hv]
    rw [removeReply_taken (by exact hd) (by exact hq)
      (by exact takesReply_iff.2 ⟨room, free, aside⟩)]
    cases retry <;> rfl

end Sys2Proof.Proofs.OwnVerdicts
end

