-- ==== Sys2Proof/Proofs/Waiters.lean ====
section
/-! PROOFS. The waiters of an entry that ends unserved, or at its RESULT: each is the one request of its channel or the one
posted write, so that dealing with them one after another writes what each of them says and leaves the station at rest (R52,
R60, R66, R68). -/

namespace Sys2Proof.Proofs.Waiters

open Sys2Proof Sys2Proof.Machine Sys2Proof.Proofs.AtRest Sys2Proof.Proofs.OwnVerdicts Sys2Proof.Proofs.Hits
open Sys2Proof.Proofs.Presented

variable {s t u b : State} {c d : ChanId} {h e : HostEntry} {l : LineAddr} {who : Who} {ws : List Who} {st : Machine.Status}

/-! ### The one request of a channel -/

theorem head_lone (hh : s.hostTable[c] = [h]) (ho : h.isOpen = true) : s.head? c = some h := by
  unfold State.head?
  rw [hh]
  simp [ho]

theorem unwait_empty (hw : s.waiting = []) (who : Who) : s.unwait who = s :=
  unwait_self (by simp [State.isWaiting, hw])

/-- The one request of a channel completes. -/
theorem complete_lone (hh : s.hostTable[c] = [h]) (ho : h.isOpen = true) (hw : s.isWaiting (.chan c) = false)
    (st : Machine.Status) (data : List Word) : s.complete c st data = s.answered c h st data := by
  have updated : s.updateHead c (fun e => { e with progress := .ready st (s.latchSet c) data }) = s.answered c h st data := by
    unfold State.updateHead State.answered
    rw [hh]
    simp [mapFirst, ho]
  unfold State.complete
  rw [updated]
  exact unwait_self (by exact hw)

theorem head_answered_self (st : Machine.Status) (data : List Word) : (s.answered c h st data).head? c = none := by
  simp [State.head?, State.answered, HostEntry.isOpen]

theorem hostTable_answered_ne (hd : c ≠ d) (st : Machine.Status) (data : List Word) :
    (s.answered c h st data).hostTable[d] = s.hostTable[d] := by
  have hn : (c : Nat) ≠ d := fun e => hd (Fin.ext e)
  simp [State.answered, Vector.getElem_set_ne _ _ hn]

theorem head_answered (hd : (s.answered c h st data).head? d = some e) : s.head? d = some e := by
  by_cases hc : c = d
  · subst hc
    rw [head_answered_self] at hd
    cases hd
  · unfold State.head? at hd ⊢
    rwa [hostTable_answered_ne hc] at hd

/-! ### Waiters alone -/

/-- Each of the operations is the one request of its channel, or the one entry of the posted write queue, and nothing waits. -/
structure Alone (s : State) (ws : List Who) : Prop where
  once : ws.Nodup
  still : s.waiting = []
  chan : ∀ c, .chan c ∈ ws → ∃ h, s.hostTable[c] = [h] ∧ h.isOpen = true
  posted : .posted ∈ ws → ∃ p, s.posted = [p]

theorem alone_of_lone (hl : s.Lone l ws) (hw : s.waiting = []) : Alone s ws where
  once := hl.once
  still := hw
  chan c hc := by
    obtain ⟨h, _, hh, ho, -⟩ := hl.chan c hc
    exact ⟨h, hh, ho⟩
  posted hp := by
    obtain ⟨p, hp, -⟩ := hl.posted hp
    exact ⟨p, hp⟩

theorem Alone.notWaiting (h : Alone s ws) (who : Who) : s.isWaiting who = false := by
  simp [State.isWaiting, h.still]

/-- What dealing with some waiters leaves: nothing waits, no new head but a WATCH that is ARMED again, and the posted write
gone if it was one of them. -/
structure Dealt (s t : State) (ws : List Who) : Prop where
  waiting : t.waiting = s.waiting
  heads : ∀ d e, t.head? d = some e → s.head? d = some e ∨ (e.inPhase .active = true ∧ e.req.isPosted = false)
  posted : t.posted = if .posted ∈ ws then [] else s.posted

theorem Dealt.nil : Dealt s s [] := ⟨rfl, fun _ _ h => .inl h, rfl⟩

theorem Dealt.cons (h : Dealt s t [who]) (g : Dealt t u ws) : Dealt s u (who :: ws) where
  waiting := g.waiting.trans h.waiting
  heads d e he := (g.heads d e he).elim (h.heads d e) .inr
  posted := by
    rw [g.posted, h.posted]
    by_cases hw : who = .posted
    · subst hw
      simp
    · have : ¬Who.posted ∈ [who] := by simpa using Ne.symm hw
      rw [if_neg this]
      simp [Ne.symm hw]

/-- A step that deals with each waiter in its turn deals with all. -/
theorem dealt_fold {f : State → Who → State} {P : State → List Who → Prop}
    (step : ∀ s who ws, P s (who :: ws) → P (f s who) ws ∧ Dealt s (f s who) [who]) (ws : List Who) (s : State)
    (h : P s ws) : Dealt s (ws.foldl f s) ws := by
  induction ws generalizing s with
  | nil => exact .nil
  | cons who ws ih =>
    obtain ⟨next, dealt⟩ := step s who ws h
    exact dealt.cons (ih _ next)

/-- Two steps that agree on each waiter in its turn agree on all. -/
theorem fold_eq {f g : State → Who → State} {P : State → List Who → Prop}
    (step : ∀ s who ws, P s (who :: ws) → f s who = g s who ∧ P (g s who) ws) (ws : List Who) (s : State)
    (h : P s ws) : ws.foldl f s = ws.foldl g s := by
  induction ws generalizing s with
  | nil => rfl
  | cons who ws ih =>
    obtain ⟨same, next⟩ := step s who ws h
    rw [List.foldl_cons, List.foldl_cons, same]
    exact ih _ next

theorem inPhase_draining_of_active (h : e.inPhase .active = true) : e.inPhase .draining = false := by
  have : e.progress = .opened .active := of_decide_eq_true h
  simp [HostEntry.inPhase, this]

theorem inPhase_waiting_of_active (h : e.inPhase .active = true) : e.inPhase .waiting = false := by
  have : e.progress = .opened .active := of_decide_eq_true h
  simp [HostEntry.inPhase, this]

/-- The posted write's one place is the entry that it waits on. -/
theorem isWaiter_filter {x : TableEntry} (one : s.OnePlace) (hx : s.entryFor l = some x) (hp : .posted ∉ x.waiters)
    (h : s.isWaiter .posted = true) (ht : t.table = s.table.filter (fun y => y.line ≠ l)) : t.isWaiter .posted = true := by
  unfold State.isWaiter at h ⊢
  rw [List.any_eq_true] at h ⊢
  obtain ⟨y, hy, hw⟩ := h
  refine ⟨y, ?_, hw⟩
  rw [ht, List.mem_filter]
  refine ⟨hy, ?_⟩
  rw [decide_eq_true_eq]
  intro hl
  have hxl := Happenings.line_of_entryFor hx
  have same : y = x := Happenings.eq_of_line_eq one.table hy (List.mem_of_find?_eq_some hx) (hl.trans hxl.symm)
  subst same
  simp only [List.any_eq_true, decide_eq_true_eq, exists_eq_right] at hw
  exact hp hw

/-- Rest after the waiters of an entry have been dealt with and the entry has ended. -/
theorem atRest_dealt {x : TableEntry} (hr : s.AtRest) (hw : s.waiting = []) (one : s.OnePlace) (hx : s.entryFor l = some x)
    (lone : s.Lone l x.waiters) (dealt : Dealt s u x.waiters) (hp : t.posted = u.posted) (htw : t.waiting = u.waiting)
    (hh : t.hostTable = u.hostTable) (ht : t.table = s.table.filter (fun y => y.line ≠ l)) : t.AtRest := by
  have still : t.waiting = [] := htw.trans (dealt.waiting.trans hw)
  have heads : ∀ d e, t.head? d = some e → s.head? d = some e ∨ (e.inPhase .active = true ∧ e.req.isPosted = false) :=
    fun d e he => dealt.heads d e (by unfold State.head? at he ⊢; rwa [hh] at he)
  by_cases hm : .posted ∈ x.waiters
  · obtain ⟨p, hs, -, noDrain⟩ := lone.posted hm
    have gone : t.posted = [] := by rw [hp, dealt.posted, if_pos hm]
    refine ⟨.inl gone, fun c e he => ?_, fun c e he hd => ?_, fun c e he ha hq => ?_, by simp [still]⟩
    · exact (heads c e he).elim (hr.heads c e) fun ha => inPhase_waiting_of_active ha.1
    · rcases heads c e he with he | ⟨ha, -⟩
      · rw [noDrain c e he] at hd
        cases hd
      · rw [inPhase_draining_of_active ha] at hd
        cases hd
    · rcases heads c e he with he | ⟨-, hn⟩
      · have := hr.room c e he ha hq
        rw [hs] at this
        simp [Config.postedEntries] at this
      · rw [hn] at hq
        cases hq
  · have same : t.posted = s.posted := by rw [hp, dealt.posted, if_neg hm]
    refine ⟨?_, fun c e he => ?_, fun c e he hd => ?_, fun c e he ha hq => ?_, by simp [still]⟩
    · rcases hr.posted with hz | hz | hz
      · exact .inl (same.trans hz)
      · rw [State.isWaiting, hw] at hz
        cases hz
      · exact .inr (.inr (isWaiter_filter one hx hm hz ht))
    · exact (heads c e he).elim (hr.heads c e) fun ha => inPhase_waiting_of_active ha.1
    · rcases heads c e he with he | ⟨ha, -⟩
      · have := hr.drains c e he hd
        unfold State.postedOf at this ⊢
        rwa [same]
      · rw [inPhase_draining_of_active ha] at hd
        cases hd
    · rcases heads c e he with he | ⟨-, hn⟩
      · rw [same]
        exact hr.room c e he ha hq
      · rw [hn] at hq
        cases hq

/-! ### The host side of a state, in the rest of another -/

/-- The host-facing blocks of one state in the rest of another. -/
def around (b u : State) : State :=
  { b with
    hostTable := u.hostTable, waiting := u.waiting, latches := u.latches, reservations := u.reservations
    watches := u.watches, posted := u.posted }

theorem alone_around (h : Alone u ws) : Alone (around b u) ws := ⟨h.once, h.still, h.chan, h.posted⟩

theorem fold_around {f : State → Who → State} (step : ∀ u who, f (around b u) who = around b (f u who)) (ws : List Who)
    (u : State) : ws.foldl f (around b u) = around b (ws.foldl f u) := by
  induction ws generalizing u with
  | nil => rfl
  | cons who ws ih =>
    rw [List.foldl_cons, step]
    exact ih _

/-! ### Waiters that fail -/

theorem failedWho_around (u : State) (who : Who) :
    State.failedWho st (around b u) who = around b (State.failedWho st u who) := by
  cases who with
  | chan c =>
    show (match u.hostTable[c] with | [h] => _ | _ => around b u) = around b (match u.hostTable[c] with | [h] => _ | _ => u)
    split <;> rfl
  | posted =>
    show (match u.posted with | [p] => _ | _ => around b u) = around b (match u.posted with | [p] => _ | _ => u)
    split <;> rfl

theorem failedWho_chan (hh : s.hostTable[c] = [h]) : State.failedWho st s (.chan c) = { s.answered c h st [] with
    reservations := if h.req.isConditional then s.reservations.set c none else s.reservations
    watches := if isWatch h.req then s.watches.set c none else s.watches } := by
  unfold State.failedWho
  simp only [hh]

theorem failedWho_posted {p : PostedWrite} (hp : s.posted = [p]) : State.failedWho st s .posted = s.failedPosted p st := by
  unfold State.failedWho
  simp only [hp]

theorem failPosted_lone {p : PostedWrite} (hp : s.posted = [p]) : s.failPosted st = s.failedPosted p st := by
  unfold State.failPosted State.failedPosted State.popPosted
  simp [hp]

theorem failWaiter_alone (h : Alone s (who :: ws)) : State.failWaiter st s who = State.failedWho st s who := by
  cases who with
  | chan c =>
    obtain ⟨x, hx, ho⟩ := h.chan c (by simp)
    rw [failedWho_chan hx]
    unfold State.failWaiter
    simp only [head_lone hx ho]
    have completed : ∀ u : State, u.hostTable = s.hostTable → u.waiting = s.waiting → u.complete c st [] = u.answered c x st [] :=
      fun u hu hw => complete_lone (by rw [hu]; exact hx) ho ((isWaiting_congr hw _).trans (h.notWaiting _)) st []
    cases hr : x.req with
    | conditional a v => exact completed (s.clearReservation c) rfl rfl
    | watch a v n => exact completed (s.freeWatch c) rfl rfl
    | _ => exact completed s rfl rfl
  | posted =>
    obtain ⟨p, hp⟩ := h.posted (by simp)
    rw [failedWho_posted hp]
    exact failPosted_lone hp

/-- The waiters behind the one dealt with are as they were. -/
theorem Alone.next (h : Alone s (who :: ws)) (hw : t.waiting = s.waiting)
    (hh : ∀ d, who ≠ .chan d → t.hostTable[d] = s.hostTable[d]) (hp : who ≠ .posted → t.posted = s.posted) : Alone t ws := by
  obtain ⟨hn, once⟩ := List.nodup_cons.1 h.once
  refine ⟨once, hw.trans h.still, fun d hd => ?_, fun hm => ?_⟩
  · rw [hh d fun e => hn (e ▸ hd)]
    exact h.chan d (by simp [hd])
  · rw [hp fun e => hn (e ▸ hm)]
    exact h.posted (by simp [hm])

theorem failedWho_step (s : State) (who : Who) (ws : List Who) (h : Alone s (who :: ws)) :
    Alone (State.failedWho st s who) ws ∧ Dealt s (State.failedWho st s who) [who] := by
  cases who with
  | chan c =>
    obtain ⟨x, hx, -⟩ := h.chan c (by simp)
    rw [failedWho_chan hx]
    refine ⟨h.next rfl (fun d hd => ?_) fun _ => rfl, rfl, fun d e he => .inl ?_, rfl⟩
    · exact hostTable_answered_ne (fun e => hd (by rw [e])) st []
    · exact head_answered (c := c) (h := x) (st := st) (data := []) he
  | posted =>
    obtain ⟨p, hp⟩ := h.posted (by simp)
    rw [failedWho_posted hp]
    exact ⟨h.next rfl (fun _ _ => rfl) fun hn => absurd rfl hn, rfl, fun _ _ he => .inl he, rfl⟩

theorem failed_dealt (h : Alone s ws) : Dealt s (ws.foldl (State.failedWho st) s) ws :=
  dealt_fold (fun s who ws h => failedWho_step s who ws h) ws s h

/-- The waiters of an entry fail one after another, in the surroundings that the entry's end has left. -/
theorem failWaiters_around (h : Alone s ws) :
    ws.foldl (State.failWaiter st) (around b s) = around b (ws.foldl (State.failedWho st) s) :=
  (fold_eq (f := State.failWaiter st) (P := Alone) (fun s who ws h => ⟨failWaiter_alone h, (failedWho_step s who ws h).1⟩) ws
    (around b s) (alone_around h)).trans
    (fold_around failedWho_around ws s)

/-! ### Waiters at their RESULT -/

variable {op : DirectOp} {err : Bool} {v : Word}

theorem resultWho_around (u : State) (who : Who) :
    State.resultWho op err v (around b u) who = around b (State.resultWho op err v u who) := by
  cases who with
  | chan c =>
    show (match u.hostTable[c] with | [h] => _ | _ => around b u) = around b (match u.hostTable[c] with | [h] => _ | _ => u)
    split
    · cases err <;> rfl
    · rfl
  | posted =>
    show (match u.posted with | [p] => _ | _ => around b u) = around b (match u.posted with | [p] => _ | _ => u)
    split
    · cases err <;> rfl
    · rfl

theorem resultWho_chan (hh : s.hostTable[c] = [h]) : State.resultWho op err v s (.chan c) =
    if err then s.answered c h .dataError [] else s.answered c h .ok (if isDirectWrite op then [] else [v]) := by
  unfold State.resultWho
  simp only [hh]

theorem resultWho_posted {p : PostedWrite} (hp : s.posted = [p]) : State.resultWho op err v s .posted =
    if err then s.failedPosted p .dataError else { s with posted := [] } := by
  unfold State.resultWho
  simp only [hp]

theorem resultWaiter_alone (h : Alone s (who :: ws)) :
    State.resultWaiter op err v s who = State.resultWho op err v s who := by
  cases who with
  | chan c =>
    obtain ⟨x, hx, ho⟩ := h.chan c (by simp)
    rw [resultWho_chan hx]
    unfold State.resultWaiter
    simp only [complete_lone hx ho (h.notWaiting _)]
    cases op <;> rfl
  | posted =>
    obtain ⟨p, hp⟩ := h.posted (by simp)
    rw [resultWho_posted hp]
    unfold State.resultWaiter State.popPosted
    simp only [failPosted_lone hp, hp, List.tail_cons]

theorem resultWho_step (s : State) (who : Who) (ws : List Who) (h : Alone s (who :: ws)) :
    Alone (State.resultWho op err v s who) ws ∧ Dealt s (State.resultWho op err v s who) [who] := by
  cases who with
  | chan c =>
    obtain ⟨x, hx, -⟩ := h.chan c (by simp)
    have answered : ∀ st data, Alone (s.answered c x st data) ws ∧ Dealt s (s.answered c x st data) [.chan c] := fun st data =>
      ⟨h.next rfl (fun d hd => hostTable_answered_ne (fun e => hd (by rw [e])) st data) fun _ => rfl,
        rfl, fun d e he => .inl (head_answered he), rfl⟩
    rw [resultWho_chan hx]
    split <;> exact answered _ _
  | posted =>
    obtain ⟨p, hp⟩ := h.posted (by simp)
    have gone : ∀ t : State, t.waiting = s.waiting → t.hostTable = s.hostTable → t.posted = [] →
        Alone t ws ∧ Dealt s t [.posted] := fun t hw hh hq =>
      ⟨h.next hw (fun _ _ => by rw [hh]) fun hn => absurd rfl hn, hw,
        fun d e he => .inl (by unfold State.head? at he ⊢; rwa [hh] at he), hq⟩
    rw [resultWho_posted hp]
    split <;> exact gone _ rfl rfl rfl

theorem result_dealt (h : Alone s ws) : Dealt s (ws.foldl (State.resultWho op err v) s) ws :=
  dealt_fold (fun s who ws h => resultWho_step s who ws h) ws s h

theorem resultWaiters_around (h : Alone s ws) :
    ws.foldl (State.resultWaiter op err v) (around b s) = around b (ws.foldl (State.resultWho op err v) s) :=
  (fold_eq (f := State.resultWaiter op err v) (P := Alone)
    (fun s who ws h => ⟨resultWaiter_alone h, (resultWho_step s who ws h).1⟩) ws (around b s) (alone_around h)).trans
    (fold_around resultWho_around ws s)

end Sys2Proof.Proofs.Waiters
end

