-- ==== Sys2Proof/Proofs/Expiries.lean ====
section
/-! PROOFS. What ends an entry unserved: the expiry of its reply timer, and the VOIDs of its own tenure; and the timebase tick
(R29, R34, R44, R59, R60, R68, R72, R92, R163). -/

namespace Sys2Proof.Proofs.Expiries

open Sys2Proof Sys2Proof.Machine Sys2Proof.Proofs.AtRest Sys2Proof.Proofs.OwnVerdicts Sys2Proof.Proofs.Waiters
open Sys2Proof.Proofs.Steps

variable {s t u b : State} {c d : ChanId} {h : HostEntry} {e : TableEntry} {l : LineAddr} {st : Machine.Status}

/-! ### A happening run to rest -/

/-- A happening that leaves the station at rest gives its completions their places. -/
theorem settles (ht : t.AtRest) (ho : t.readyOrder = s.readyOrder) :
    ∃ order, s.readyOrder <+: order ∧ t.settle = { t with readyOrder := order } :=
  ⟨t.readyOrder ++ t.freshReady, ho ▸ List.prefix_append _ _, State.settle_rest ht⟩

/-! ### An entry given up -/

theorem freeFillPending_eq (h : t.lines = s.lines) (l : LineAddr) :
    t.freeFillPending l = { t with lines := (s.freeFillPending l).lines } := by
  have same : t.lookup l = s.lookup l := by unfold State.lookup State.findWay State.wayAt; rw [h]
  unfold State.freeFillPending
  rw [same]
  split
  · exact Presented.dropTag_eq h l
  · rw [← h]

/-- The waiters of an entry are host-side: the rest of the state is as it was. -/
theorem failed_around (ws : List Who) (s : State) :
    ws.foldl (State.failedWho st) s = around s (ws.foldl (State.failedWho st) s) :=
  fold_around (b := s) (f := State.failedWho st) failedWho_around ws s

theorem giveUpEntry_alone (hs : Alone s e.waiters) (hb : b.lines = s.lines) : (around b s).giveUpEntry e st
    = { around b (e.waiters.foldl (State.failedWho st) s) with
        lines := (s.freeFillPending e.line).lines
        table := b.table.filter (fun x => x.line ≠ e.line) } := by
  have freed : (around b s).freeFillPending e.line
      = around { b with lines := (s.freeFillPending e.line).lines } s :=
    freeFillPending_eq (s := s) (t := around b s) hb e.line
  have still : (e.waiters.foldl (State.failedWho st) s).waiting = [] := (failed_dealt hs).waiting.trans hs.still
  unfold State.giveUpEntry
  rw [freed, failWaiters_around hs]
  exact owePass_empty still

/-! ### Reply timers and watches (R68, R163) -/

theorem exec_replyTimerExpiry (hp : s.porst = false) (he : s.entryFor l = some e) (ha : e.phase.awaiting = true) :
    exec (.replyTimerExpiry l) s = .next (s.count1.expireEntry e).settle := by
  show execReplyTimerExpiry l s = _
  simp [execReplyTimerExpiry, hp, he, ha]

theorem exec_watchTimeout {w : Watch} (hp : s.porst = false) (hw : s.watches[c] = some w) :
    exec (.watchTimeout c) s = .next (s.count1.timeOutWatch c w).settle := by
  show execWatchTimeout c s = _
  simp only [execWatchTimeout, hp, hw]
  rfl

theorem reply_runs_out (hp : s.porst = false) (hr : s.AtRest) (one : s.OnePlace) (hw : s.waiting = [])
    (he : s.entryFor l = some e) (ha : e.phase.awaiting = true) (hl : s.Lone l e.waiters) :
    ∃ order, s.readyOrder <+: order ∧
      exec (.replyTimerExpiry l) s = .next { e.waiters.foldl (State.failedWho .lostReply) s with
        now := s.now + 1
        lines := (s.freeFillPending l).lines
        table := s.table.filter (fun x => x.line ≠ l)
        counters := { s.counters with lostReplies := s.counters.lostReplies + 1 }
        readyOrder := order } := by
  have alone := alone_of_lone hl hw
  obtain rfl : e.line = l := Happenings.line_of_entryFor he
  have expired : s.count1.expireEntry e = { e.waiters.foldl (State.failedWho .lostReply) s with
      now := s.now + 1
      lines := (s.freeFillPending e.line).lines
      table := s.table.filter (fun x => x.line ≠ e.line)
      counters := { s.counters with lostReplies := s.counters.lostReplies + 1 } } := by
    unfold State.expireEntry
    rw [show s.count1 = around s.count1 s from rfl, giveUpEntry_alone (b := s.count1) alone rfl, failed_around]
    rfl
  have rest : (s.count1.expireEntry e).AtRest := by
    rw [expired]
    exact atRest_dealt hr hw one he hl (failed_dealt alone) rfl rfl rfl rfl
  obtain ⟨order, hp', hs⟩ := settles (s := s) rest (by rw [expired, failed_around]; rfl)
  refine ⟨order, hp', ?_⟩
  rw [exec_replyTimerExpiry hp he ha, hs, expired]

theorem unwait_eq (who : Who) : s.unwait who = { s with waiting := s.waiting.filter (fun x => x.who ≠ who) } := rfl

theorem watch_runs_out {w : Watch} (hp : s.porst = false) (hr : s.AtRest) (hw : s.watches[c] = some w)
    (hh : s.hostTable[c] = [h]) (ho : h.isOpen = true) :
    ∃ order, s.readyOrder <+: order ∧
      exec (.watchTimeout c) s = .next { s.answered c h .timeout [w.compare] with
        now := s.now + 1
        watches := s.watches.set c none
        waiting := s.waiting.filter (fun x => x.who ≠ .chan c)
        table := s.table.map (fun x => { x with waiters := x.waiters.filter (fun y => y ≠ .chan c) })
        readyOrder := order } := by
  have ended : s.count1.timeOutWatch c w = { s.answered c h .timeout [w.compare] with
      now := s.now + 1
      watches := s.watches.set c none
      waiting := s.waiting.filter (fun x => x.who ≠ .chan c)
      table := s.table.map (fun x => { x with waiters := x.waiters.filter (fun y => y ≠ .chan c) }) } := by
    unfold State.timeOutWatch State.complete State.updateHead
    simp only [show ((s.count1.freeWatch c).dropWaiter (.chan c)).hostTable[c] = [h] from hh, mapFirst, ho, if_true]
    rfl
  have waits : ∀ t : State, t.waiting = s.waiting.filter (fun x => x.who ≠ .chan c) → t.isWaiting .posted = s.isWaiting .posted := by
    intro t ht
    unfold State.isWaiting
    rw [ht, List.any_filter]
    congr 1
    funext x
    by_cases hx : x.who = .posted <;> simp [hx]
  have waiter : ∀ t : State, t.table = s.table.map (fun x => { x with waiters := x.waiters.filter (fun y => y ≠ .chan c) }) →
      t.isWaiter .posted = s.isWaiter .posted := by
    intro t ht
    unfold State.isWaiter
    rw [ht, List.any_map]
    congr 1
    funext x
    simp only [Function.comp, List.any_filter]
    congr 1
    funext y
    by_cases hy : y = .posted <;> simp [hy]
  have rest : (s.count1.timeOutWatch c w).AtRest := by
    rw [ended]
    obtain ⟨posted, heads, drains, room, pass⟩ := hr
    have head : ∀ d e, (s.answered c h .timeout [w.compare]).head? d = some e → s.head? d = some e := fun d e => head_answered
    refine ⟨?_, fun d e he => heads d e (head d e he), fun d e he => drains d e (head d e he),
      fun d e he => room d e (head d e he), fun x hx => pass x (List.mem_of_mem_filter hx)⟩
    rw [waits _ rfl, waiter _ rfl]
    exact posted
  obtain ⟨order, hp', hs⟩ := settles (s := s) rest (by rw [ended]; rfl)
  refine ⟨order, hp', ?_⟩
  rw [exec_watchTimeout hp hw, hs, ended]

/-! ### The idle count and the clear sweep (R34, R92) -/

theorem sweeping_iff : s.sweeping = true ↔ s.station.mode = .clearing ∧ s.station.sweep < 2048 := by
  unfold State.sweeping
  rw [Bool.and_eq_true, decide_eq_true_eq, decide_eq_true_eq]
  rfl

theorem guarded_taken {can : Bool} {why : Refusal} {r : Result} (hp : s.porst = false) (hc : can = true) :
    s.guarded can why r = r := by
  simp [State.guarded, hp, hc]

/-- One line swept, on a station that is CLEARING. -/
theorem sweepLine_eq (hm : s.station.mode = .clearing) : s.sweepLine = { s with
    homeStore := writeLine s.homeStore (BitVec.ofNat 11 s.station.sweep) zeroLine
    station := { s.station with
      sweep := s.station.sweep + 1
      mode := if s.station.sweep = 2047 then .ready else .clearing } } := by
  unfold State.sweepLine
  rw [hm]
  simp only [Config.homeLines, Nat.reduceEqDiff]

/-- Settles O50: each of the four ends its timer, and is taken whatever it then reads. -/
theorem timersAndTheSweepRunOut : Obligations.TimersAndTheSweepRunOut := by
  refine ⟨fun s hp hr => ⟨fun l e one hw he ha hl => reply_runs_out hp hr one hw he ha hl,
    fun c w h hw hh ho => watch_runs_out hp hr hw hh ho⟩, fun s hp => ⟨fun ht => ?_, fun hm hs => ⟨?_, fun hlast => ?_⟩⟩⟩
  · exact guarded_taken hp (spanIdle_iff.2 ht)
  · exact (guarded_taken hp (sweeping_iff.2 ⟨hm, hs⟩)).trans (congrArg Host.Outcome.next (sweepLine_eq (s := s.count1) hm))
  · have last : (s.sweeping && s.station.sweep + 1 = Config.homeLines) = true := by
      rw [sweeping_iff.2 ⟨hm, hs⟩, hlast]
      rfl
    exact (guarded_taken hp last).trans (congrArg Host.Outcome.next (sweepLine_eq (s := s.count1) hm))

/-! ### VOIDs of an own tenure (R29, R44, R59, R60, R72) -/

theorem urgentCount_eq (n : Nat) : urgentCount n = decide (32 ≤ n) := rfl

theorem voidEntry_requeued (ho : e.orphan = false) (hr : e.retry < 254) : s.voidEntry e = { s with
    table := s.table.map (fun x => if x.line = e.line then { x with retry := x.retry + 1, phase := .queued s.now } else x)
    span := { s.span with yields := if 32 ≤ e.retry + 1 then some e.line else s.span.yields } } := by
  have low : ¬Config.giveUpAt ≤ e.retry + 1 := by
    simp only [Config.giveUpAt]
    omega
  unfold State.voidEntry
  rw [ho]
  refine (if_neg low).trans ?_
  by_cases hu : 32 ≤ e.retry + 1
  · rw [if_pos hu]
    exact if_pos (decide_eq_true hu)
  · rw [if_neg hu]
    exact if_neg (by simpa [urgentCount_eq] using hu)

theorem voidEntry_abandoned (ho : e.orphan = false) (hr : 254 ≤ e.retry) :
    s.voidEntry e = (s.giveUpEntry e .stalled).raiseAbandoned := by
  have high : Config.giveUpAt ≤ e.retry + 1 := by
    simp only [Config.giveUpAt]
    omega
  unfold State.voidEntry
  rw [ho]
  exact if_pos high

theorem voidEntry_orphan (ho : e.orphan = true) (hw : s.waiting = []) : s.voidEntry e = { s with
    lines := (s.freeFillPending e.line).lines
    table := s.table.filter (fun x => x.line ≠ e.line) } := by
  have still : (s.freeFillPending e.line).waiting = [] := by
    rw [freeFillPending_eq (s := s) (t := s) rfl]
    exact hw
  unfold State.voidEntry
  refine (if_pos ho).trans ?_
  unfold State.endEntry
  rw [owePass_empty (by exact still), freeFillPending_eq (s := s) (t := s) rfl]

/-- The state in which a VOID has closed its tenure, released the home reservation and been counted. -/
def voided (s : State) : State := { released s with counters := { s.counters with voided := s.counters.voided + 1 } }

/-- The VOID of the station's own request, past the close of its tenure and the count of it. -/
theorem exec_void {n : StationNo} {home : Bool} {others : Votes} (hp : s.porst = false)
    (ht : s.span.tenure = .ownEntry l (.request n l (.table e.kind)) home) (he : s.entryFor l = some e)
    (hv : classify (.table e.kind) (orVotes (ownVotes home) others) = .void) : exec (.ownTenureVerdict others) s
      = .next ((voided s).voidEntry e).settle.arbitrate := by
  rw [exec_own_entry hp ht hv, ownEnds_void, entryVerdict_void (by exact he)]
  rfl

/-- Settles O42: the entry is requeued below its last VOID, given up at it, and withdrawn where a host reset left it. -/
theorem ownVoidRequeuesOrAbandons : Obligations.OwnVoidRequeuesOrAbandons := by
  intro s others n l home e hp hr one ht he hv free counted
  obtain rfl : e.line = l := Happenings.line_of_entryFor he
  refine ⟨fun ho hlt => ?_, fun ho hge hw hl => ?_, fun ho hw hn => ?_⟩
  · refine closes (exec_void hp ht he hv) ((voidEntry_requeued (s := voided s) ho hlt).trans rfl)
      (atRest_table hr (fun x => ?_) rfl rfl rfl rfl) rfl
    split <;> rfl
  · have alone := alone_of_lone hl hw
    refine closes (exec_void hp ht he hv) ?_ (atRest_dealt hr hw one he hl (failed_dealt alone) rfl rfl rfl rfl)
      (by rw [failed_around]; rfl)
    rw [voidEntry_abandoned ho hge]
    refine (congrArg State.raiseAbandoned (giveUpEntry_alone (b := voided s) alone rfl)).trans ?_
    rw [failed_around]
    rfl
  · have dealt : Dealt s s e.waiters := by
      rw [hn]
      exact .nil
    have lone : s.Lone e.line e.waiters := by
      rw [hn]
      exact ⟨.nil, fun _ => nofun, nofun⟩
    refine closes (exec_void hp ht he hv) ((voidEntry_orphan (s := voided s) ho hw).trans ?_)
      (atRest_dealt hr hw one he lone dealt rfl rfl rfl rfl) rfl
    rw [freeFillPending_eq (s := s) (t := voided s) rfl]
    rfl

/-! ### The timebase tick -/

/-- A list whose one element that is kept gives one value. -/
theorem filterMap_single {α β : Type} {f : α → Option β} {xs : List α} {x : α} {y : β} (hn : xs.Nodup) (hx : x ∈ xs)
    (hf : f x = some y) (others : ∀ z ∈ xs, z ≠ x → f z = none) : xs.filterMap f = [y] := by
  obtain ⟨pre, post, rfl⟩ := List.append_of_mem hx
  have apart := List.nodup_middle.1 hn
  have none : ∀ zs : List α, (∀ z ∈ zs, z ∈ pre ++ post) → zs.filterMap f = [] := fun zs hz =>
    List.filterMap_eq_nil_iff.2 fun z hm => others z (by
      rcases List.mem_append.1 (hz z hm) with h | h <;> simp [h]) fun e =>
        (List.nodup_cons.1 apart).1 (e ▸ hz z hm)
  rw [List.filterMap_append, List.filterMap_cons, hf, none pre (fun z hz => by simp [hz]), none post (fun z hz => by simp [hz])]
  rfl

/-- The state in which every timer has been lowered by a tick, the sweep and the idle count have gone on. -/
def lowered (s : State) : State := { s with
  now := s.now + 1
  homeStore := if s.sweeping then writeLine s.homeStore (BitVec.ofNat 11 s.station.sweep) zeroLine else s.homeStore
  station := if s.sweeping then { s.station with
      sweep := s.station.sweep + 1
      mode := if s.station.sweep = 2047 then .ready else .clearing }
    else s.station
  table := s.table.map (fun e => { e with phase := e.phase.lowered })
  watches := s.watches.map (fun w => w.map (fun w => { w with remaining := w.remaining - 1 }))
  span := if s.span.tenure = .idle ∧ s.span.idleCount < 4 then { s.span with
      idleCount := s.span.idleCount + 1
      rotation := if s.span.idleCount = 3 then s.station.count.toNat - 1 else s.span.rotation
      joined := s.span.idleCount = 3 || s.span.joined }
    else s.span }

/-- The idle count rises on an idle span, and its fourth tick joins (R34). -/
theorem idle_tick (s : State) : s.lowerTimers.tickIdle s.span.idleCount = { s.lowerTimers with
    span := if s.span.tenure = .idle ∧ s.span.idleCount < 4 then { s.span with
        idleCount := s.span.idleCount + 1
        rotation := if s.span.idleCount = 3 then s.station.count.toNat - 1 else s.span.rotation
        joined := s.span.idleCount = 3 || s.span.joined }
      else s.span } := by
  rcases hsp : s.span with ⟨tenure, granted, rotation, idleCount, joined, putForward, yields, setAside, reserved⟩
  have count : s.lowerTimers.span.idleCount = if tenure = .idle ∧ idleCount < 4 then idleCount + 1 else idleCount := by
    simp [State.lowerTimers, hsp, Config.idleLimit]
  unfold State.tickIdle
  rw [count]
  by_cases hi : tenure = .idle ∧ idleCount < 4
  · by_cases h3 : idleCount = 3
    · subst h3
      simp [hi.1, State.lowerTimers, State.idleExpires, hsp, Config.idleLimit]
    · have : ¬idleCount + 1 = 4 := by omega
      simp [hi, h3, State.lowerTimers, hsp, Config.idleLimit, this]
  · have still : ¬(idleCount < 4 ∧ idleCount = 4) := by omega
    have off : (decide (idleCount < Config.idleLimit) && decide (idleCount = Config.idleLimit)) = false :=
      Bool.eq_false_iff.2 fun h => by
        rw [Bool.and_eq_true] at h
        exact still ⟨of_decide_eq_true h.1, of_decide_eq_true h.2⟩
    have idle : (decide (tenure = .idle) && decide (idleCount < Config.idleLimit)) = false :=
      Bool.eq_false_iff.2 fun h => by
        rw [Bool.and_eq_true] at h
        exact hi ⟨of_decide_eq_true h.1, of_decide_eq_true h.2⟩
    simp [hi, off, State.lowerTimers, hsp, idle]

theorem tick_lowered (hp : s.porst = false) :
    s.tick = takeDues (lowered s).dues.length (lowered s).dues (lowered s) := by
  have swept : (if s.sweeping then s.count1.sweepLine else s.count1) = { s with
      now := s.now + 1
      homeStore := if s.sweeping then writeLine s.homeStore (BitVec.ofNat 11 s.station.sweep) zeroLine else s.homeStore
      station := if s.sweeping then { s.station with
          sweep := s.station.sweep + 1
          mode := if s.station.sweep = 2047 then .ready else .clearing }
        else s.station } := by
    by_cases hs : s.sweeping = true
    · rw [if_pos hs, sweepLine_eq (s := s.count1) (sweeping_iff.1 hs).1, hs]
      rfl
    · rw [if_neg hs, Bool.eq_false_iff.2 hs]
      rfl
  have ticked := idle_tick (if s.sweeping then s.count1.sweepLine else s.count1)
  rw [swept] at ticked
  have count : (if s.sweeping then { s.station with
      sweep := s.station.sweep + 1
      mode := if s.station.sweep = 2047 then StationMode.ready else .clearing } else s.station).count = s.station.count := by
    split <;> rfl
  simp only [count] at ticked
  unfold State.tick
  rw [hp]
  refine (if_neg nofun).trans ?_
  simp only [swept]
  rw [show State.tickIdle _ s.span.idleCount = lowered s from ticked]

theorem step_tick (hq : s.pending = []) : step s = .next s.tick := by
  unfold step
  rw [hq]

/-- An expiry due on an entry. -/
def replyDue (e : TableEntry) : Option Due := if e.phase.lowered.runOut then some (.reply e.line) else none

/-- An expiry due on a channel's watch. -/
def watchDue (s : State) (c : ChanId) : Option Due :=
  if s.watches[c].any (fun w => w.remaining - 1 = 0) then some (.watch c) else none

theorem dues_lowered (s : State) : (lowered s).dues = s.table.filterMap replyDue ++ channels.filterMap (watchDue s) := by
  have watch : ∀ c : ChanId, (lowered s).watches[c].any (fun w => w.remaining = 0)
      = s.watches[c].any (fun w => w.remaining - 1 = 0) := by
    intro c
    have : (lowered s).watches[c] = s.watches[c].map (fun w => { w with remaining := w.remaining - 1 }) := by
      simp [lowered]
    rw [this]
    cases s.watches[c] <;> rfl
  unfold State.dues
  rw [show (lowered s).table = s.table.map (fun e => { e with phase := e.phase.lowered }) from rfl, List.filterMap_map]
  simp only [watch]
  rfl

theorem replyDues_none (h : ∀ e ∈ s.table, e.phase.lowered.runOut = false) : s.table.filterMap replyDue = [] :=
  List.filterMap_eq_nil_iff.2 fun e he => if_neg (by rw [h e he]; nofun)

theorem watchDue_none (h : ∀ w, s.watches[c] = some w → w.remaining - 1 ≠ 0) : watchDue s c = none := by
  refine if_neg fun hw => ?_
  obtain ⟨w, hc, hz⟩ := (Option.any_eq_true _ _).1 hw
  exact h w hc (of_decide_eq_true hz)

/-- The one expiry that is due is taken. -/
theorem takeDues_one {x : Due} (h : (lowered s).dues = [x]) (hp : s.porst = false) : s.tick = (lowered s).takeDue x := by
  rw [tick_lowered hp, h]
  simp [takeDues, freePick]

theorem entryFor_lowered (he : s.entryFor l = some e) :
    (lowered s).entryFor l = some { e with phase := e.phase.lowered } := by
  unfold State.entryFor at he ⊢
  rw [show (lowered s).table = s.table.map (fun e => { e with phase := e.phase.lowered }) from rfl, List.find?_map]
  exact congrArg (Option.map _) he

theorem entryFor_of_mem (one : s.OnePlace) (he : e ∈ s.table) : s.entryFor e.line = some e := by
  cases hx : s.entryFor e.line with
  | none =>
    have := List.find?_eq_none.1 hx e he
    simp at this
  | some x =>
    exact congrArg some (Happenings.eq_of_line_eq one.table (List.mem_of_find?_eq_some hx) he (Happenings.line_of_entryFor hx))

/-- Settles O3: the timers are lowered, and the one expiry that the tick brings is the command of that expiry. -/
theorem emptyQueueTicks : Obligations.EmptyQueueTicks := by
  intro s hq
  refine ⟨fun hp => ?_, fun hp => ?_⟩
  · rw [step_tick hq, State.tick, hp]
    rfl
  · intro timesLeft watchesLeft low
    refine ⟨fun ht hw => ?_, fun e one he hr others hw => ?_, fun c w hw hz ht others => ?_⟩
    · have none : (lowered s).dues = [] := by
        rw [dues_lowered, replyDues_none ht, List.filterMap_eq_nil_iff.2 fun c _ => watchDue_none fun w => hw c w trivial]
        rfl
      rw [step_tick hq, tick_lowered hp, none]
      rfl
    · have due : (lowered s).dues = [.reply e.line] := by
        rw [dues_lowered, List.filterMap_eq_nil_iff.2 fun c _ => watchDue_none fun w => hw c w trivial, List.append_nil]
        refine filterMap_single one.table.of_map he (if_pos hr) fun z hz hne => if_neg ?_
        rw [others z hz fun hl => hne (Happenings.eq_of_line_eq one.table hz he hl)]
        nofun
      have entry := entryFor_lowered (entryFor_of_mem one he)
      rw [step_tick hq, takeDues_one due hp]
      refine Eq.trans ?_ (exec_replyTimerExpiry (s := lowered s) hp entry (awaiting_of_runOut hr)).symm
      unfold State.takeDue
      simp only [entry, hr, if_true]
    · have due : (lowered s).dues = [.watch c] := by
        rw [dues_lowered, replyDues_none ht, List.nil_append]
        refine filterMap_single (by decide) (CompletionOrder.mem_channels c) (if_pos ?_) fun d _ hd =>
          watchDue_none fun w => others d w hd
        rw [hw]
        exact decide_eq_true hz
      have watch : (lowered s).watches[c] = some { w with remaining := w.remaining - 1 } := by
        simp [lowered, show s.watches[(c : Nat)] = some w from hw]
      rw [step_tick hq, takeDues_one due hp]
      refine Eq.trans ?_ (exec_watchTimeout (s := lowered s) hp watch).symm
      unfold State.takeDue
      simp only [watch, hz, if_true]

end Sys2Proof.Proofs.Expiries
end

