-- ==== Sys2Proof/Proofs/Serving.lean ====
section
/-! PROOFS. The waiters of an entry that is served: performed in join order in the way that holds the line, each writes what its
kind of request writes (R64, R65, R146, R151, R158, R162). -/

namespace Sys2Proof.Proofs.Serving

open Sys2Proof Sys2Proof.Machine Sys2Proof.Proofs.AtRest Sys2Proof.Proofs.OwnVerdicts Sys2Proof.Proofs.Waiters
open Sys2Proof.Proofs.Hits Sys2Proof.Proofs.Presented Sys2Proof.Proofs.Values

variable {s t u b : State} {c d : ChanId} {h e : HostEntry} {l : LineAddr} {who : Who} {ws : List Who} {a : Addr} {v : Word}

/-! ### A store, as the other channels see it -/

/-- No ARMED watch is the channel's. -/
def Unarmed (s : State) (c : ChanId) : Prop := ∀ w, s.watches[c] = some w → w.phase ≠ .armed

theorem hostTable_watchAnswered (hc : Unarmed s c) : (s.watchAnswered a v d).hostTable[c] = s.hostTable[c] := by
  rcases watchAnswered_cases (s := s) a v d with he | ⟨w, x, hw, hx, ha, he⟩
  · rw [he]
  · have hd : d ≠ c := fun e => hc w (e ▸ hw) ha.1
    rw [he]
    exact hostTable_answered_ne hd _ _

theorem hostTable_stored (hc : Unarmed s c) : (s.stored a v).hostTable[c] = s.hostTable[c] := by
  have folded : ∀ (ds : List ChanId) (u : State), Unarmed u c →
      (ds.foldl (fun u d => u.watchAnswered a v d) u).hostTable[c] = u.hostTable[c] := by
    intro ds
    induction ds with
    | nil => exact fun _ _ => rfl
    | cons d ds ih =>
      intro u hu
      exact (ih _ fun w hw => hu w (watches_watchAnswered hw)).trans (hostTable_watchAnswered hu)
  rw [stored_eq]
  exact folded channels (storing s a v) hc

theorem watches_stored {w : Watch} (hw : (s.stored a v).watches[c] = some w) : s.watches[c] = some w := by
  have folded : ∀ (ds : List ChanId) (u : State),
      (ds.foldl (fun u d => u.watchAnswered a v d) u).watches[c] = some w → u.watches[c] = some w := by
    intro ds
    induction ds with
    | nil => exact fun _ h => h
    | cons d ds ih => exact fun u h => watches_watchAnswered (ih _ h)
  rw [stored_eq] at hw
  exact folded channels (storing s a v) hw

theorem stored_lone (hs : s.LoneWatches) : (s.stored a v).LoneWatches := by
  have folded : ∀ (ds : List ChanId) (u : State), u.LoneWatches →
      (ds.foldl (fun u d => u.watchAnswered a v d) u).LoneWatches := by
    intro ds
    induction ds with
    | nil => exact fun _ h => h
    | cons d ds ih => exact fun u h => ih _ (State.watchAnswered_alone h a v d)
  rw [stored_eq]
  exact folded channels (storing s a v) hs

theorem lines_stored : (s.stored a v).lines = ((s.writeWay a v).touch (lineOf a)).lines := by
  have answered : ∀ (u : State) (d : ChanId), (u.watchAnswered a v d).lines = u.lines := by
    intro u d
    rcases watchAnswered_cases (s := u) a v d with h | ⟨_, _, -, -, -, h⟩ <;> rw [h]
    rfl
  have all := foldl_keeps (fun u : State => u.lines) (fun (u : State) (d : ChanId) => u.watchAnswered a v d) answered
    channels (storing s a v)
  rw [← stored_eq] at all
  exact all

theorem lookup_of_lines (h : t.lines = s.lines) (l : LineAddr) : t.lookup l = s.lookup l := by
  unfold State.lookup State.findWay State.wayAt
  rw [h]

theorem lineData_of_lines (h : t.lines = s.lines) (l : LineAddr) : t.lineData l = s.lineData l := by
  unfold State.lineData State.findWay State.wayAt
  rw [h]

theorem heldValid_of_lines (h : t.lines = s.lines) (l : LineAddr) : t.heldValid l = s.heldValid l := by
  unfold State.heldValid
  rw [lookup_of_lines h]

theorem heldValid_writeWay (hl : s.heldValid l = true) : (s.writeWay a v).heldValid l = true := by
  obtain ⟨st, lookup, valid⟩ := lookup_of_heldValid hl
  by_cases hla : l = lineOf a
  · obtain ⟨w, hw⟩ := findWay_of_lookup lookup
    subst hla
    exact heldValid_of_lookup (lookup_writeWay_same v hw) nofun
  · exact heldValid_of_lookup ((lookup_writeWay_other v hla).trans lookup) valid

theorem heldValid_stored (hl : s.heldValid l = true) : (s.stored a v).heldValid l = true := by
  rw [heldValid_of_lines lines_stored, heldValid_touch]
  exact heldValid_writeWay hl

/-! ### What a waiter writes before it completes -/

/-- The lines stay held, the unarmed channels stay as they are, and fewer watches and heads are left. -/
structure Calm (s t : State) : Prop where
  waiting : t.waiting = s.waiting
  posted : t.posted = s.posted
  line : ∀ l, s.heldValid l = true → t.heldValid l = true
  table : ∀ d, Unarmed s d → t.hostTable[d] = s.hostTable[d]
  watches : ∀ (d : ChanId) w, t.watches[d] = some w → s.watches[d] = some w
  heads : ∀ d e, t.head? d = some e → s.head? d = some e
  lone : s.LoneWatches → t.LoneWatches

theorem calm_refl (s : State) : Calm s s := ⟨rfl, rfl, fun _ h => h, fun _ _ => rfl, fun _ _ h => h, fun _ _ h => h, fun h => h⟩

theorem Calm.trans (h : Calm s t) (g : Calm t u) : Calm s u where
  waiting := g.waiting.trans h.waiting
  posted := g.posted.trans h.posted
  line l hl := g.line l (h.line l hl)
  table d hd := (g.table d fun w hw => hd w (h.watches d w hw)).trans (h.table d hd)
  watches d w hw := h.watches d w (g.watches d w hw)
  heads d e he := h.heads d e (g.heads d e he)
  lone hs := g.lone (h.lone hs)

/-- Fewer watches over the same host request table stay lone. -/
theorem lone_of_watches (hs : s.LoneWatches) (hw : t.waiting = s.waiting) (hh : t.hostTable = s.hostTable)
    (hx : ∀ (d : ChanId) w, t.watches[d] = some w → s.watches[d] = some w) : t.LoneWatches := by
  intro d w hd ha
  obtain ⟨waits, x, table, isOpen⟩ := hs d w (hx d w hd) ha
  exact ⟨(isWaiting_congr hw _).trans waits, x, by rw [hh]; exact table, isOpen⟩

/-- An update of the ways, the reservations and the watches, that holds the lines and adds no watch. -/
theorem calm_aside (hw : t.waiting = s.waiting) (hp : t.posted = s.posted) (hh : t.hostTable = s.hostTable)
    (hl : ∀ l, s.heldValid l = true → t.heldValid l = true)
    (hx : ∀ (d : ChanId) w, t.watches[d] = some w → s.watches[d] = some w) : Calm s t where
  waiting := hw
  posted := hp
  line := hl
  table _ _ := by rw [hh]
  watches := hx
  heads d e he := by unfold State.head? at he ⊢; rwa [hh] at he
  lone hs := lone_of_watches hs hw hh hx

theorem calm_touch (s : State) (l : LineAddr) : Calm s (s.touch l) := by
  have same := touch_eq (s := s) (t := s) rfl l
  refine calm_aside ?_ ?_ ?_ (fun k hk => (heldValid_touch l k).trans hk) ?_ <;> rw [same]
  exact fun _ _ h => h

theorem calm_reserving (s : State) (r : Vector (Option Addr) 4) : Calm s { s with reservations := r } :=
  calm_aside rfl rfl rfl (fun _ h => h) fun _ _ h => h

theorem watches_set_none {w : Watch} (hw : (s.watches.set c none)[d] = some w) : s.watches[d] = some w := by
  by_cases hc : (c : Nat) = d
  · have : c = d := Fin.ext hc
    subst this
    simp at hw
  · simpa [Vector.getElem_set_ne _ _ hc] using hw

theorem calm_freed (s : State) (c : ChanId) : Calm s { s with watches := s.watches.set c none } :=
  calm_aside rfl rfl rfl (fun _ h => h) fun _ _ h => watches_set_none h

theorem calm_stored (s : State) (a : Addr) (v : Word) : Calm s (s.stored a v) := by
  obtain ⟨-, hw, hp, -⟩ := stored_base (s := s) (a := a) v
  exact ⟨hw, hp, fun _ => heldValid_stored, fun _ => hostTable_stored, fun _ _ => watches_stored, fun _ _ => head_stored,
    stored_lone⟩

/-! ### Waiters to be served -/

/-- The operations are alone, on words of a line that is held valid, and no ARMED watch is theirs. -/
structure Serves (s : State) (l : LineAddr) (ws : List Who) : Prop extends Alone s ws where
  line : s.heldValid l = true
  words : ∀ c, .chan c ∈ ws → ∃ h a, s.hostTable[c] = [h] ∧ h.req.word? = some a ∧ lineOf a = l
  unarmed : ∀ c, .chan c ∈ ws → Unarmed s c
  lone : s.LoneWatches

/-- The operations behind the one served are still to be served, where what it wrote was calm. -/
theorem Serves.behind (hs : Serves s l (who :: ws)) (k : Calm s t) (hw : u.waiting = t.waiting)
    (hh : ∀ d, who ≠ .chan d → u.hostTable[d] = t.hostTable[d]) (hp : who ≠ .posted → u.posted = t.posted)
    (hl : u.heldValid l = true) (hx : ∀ (d : ChanId) w, who ≠ .chan d → u.watches[d] = some w → t.watches[d] = some w)
    (lone : u.LoneWatches) : Serves u l ws := by
  have apart : ∀ d, .chan d ∈ ws → who ≠ .chan d := fun d hd e => (List.nodup_cons.1 hs.once).1 (e ▸ hd)
  have table : ∀ d, .chan d ∈ ws → u.hostTable[d] = s.hostTable[d] := fun d hd =>
    (hh d (apart d hd)).trans (k.table d (hs.unarmed d (by simp [hd])))
  refine ⟨⟨(List.nodup_cons.1 hs.once).2, hw.trans (k.waiting.trans hs.still), fun d hd => ?_, fun hm => ?_⟩, hl,
    fun d hd => ?_, fun d hd w hdw => ?_, lone⟩
  · rw [table d hd]
    exact hs.chan d (by simp [hd])
  · rw [hp fun e => (List.nodup_cons.1 hs.once).1 (e ▸ hm), k.posted]
    exact hs.posted (by simp [hm])
  · rw [table d hd]
    exact hs.words d (by simp [hd])
  · exact hs.unarmed d (by simp [hd]) w (k.watches d w (hx d w (apart d hd) hdw))

/-- A channel that completes after a calm update. -/
theorem served_answered (hs : Serves s l (.chan c :: ws)) (k : Calm s t) (h : HostEntry) (st : Machine.Status)
    (data : List Word) : Serves (t.answered c h st data) l ws ∧ Dealt s (t.answered c h st data) [.chan c] := by
  have ne : ∀ d, Who.chan c ≠ .chan d → c ≠ d := fun d hd e => hd (by rw [e])
  have lone : (t.answered c h st data).LoneWatches := by
    intro d w hd ha
    have hcd : c ≠ d := fun e => hs.unarmed c (by simp) w (k.watches c w (e ▸ hd)) ha
    obtain ⟨waits, x, table, isOpen⟩ := k.lone hs.lone d w hd ha
    exact ⟨waits, x, (hostTable_answered_ne hcd st data).trans table, isOpen⟩
  refine ⟨hs.behind k rfl (fun d hd => hostTable_answered_ne (ne d hd) st data) (fun _ => rfl) (k.line l hs.line)
    (fun _ _ _ h => h) lone, k.waiting, fun d e he => .inl (k.heads d e (head_answered he)), k.posted⟩

/-- The posted write leaves after a calm update. -/
theorem served_posted (hs : Serves s l (.posted :: ws)) (k : Calm s t) (hw : u.waiting = t.waiting)
    (hh : u.hostTable = t.hostTable) (hl : u.lines = t.lines) (hx : u.watches = t.watches) (hp : u.posted = []) :
    Serves u l ws ∧ Dealt s u [.posted] := by
  have lone : u.LoneWatches := lone_of_watches (k.lone hs.lone) hw hh fun _ _ h => by rwa [hx] at h
  refine ⟨hs.behind k hw (fun _ _ => by rw [hh]) (fun hn => absurd rfl hn) ((heldValid_of_lines hl l).trans (k.line l hs.line))
    (fun _ _ _ h => by rwa [hx] at h) lone, hw.trans k.waiting, fun d e he => .inl (k.heads d e ?_), hp⟩
  unfold State.head? at he ⊢
  rwa [hh] at he

theorem served_unposted (hs : Serves s l (.posted :: ws)) (k : Calm s t) :
    Serves { t with posted := [] } l ws ∧ Dealt s { t with posted := [] } [.posted] :=
  served_posted hs k rfl rfl rfl rfl rfl

/-- What a WATCH writes that is ARMED in its entry. -/
def rearmed (s : State) (c : ChanId) (h : HostEntry) (a : Addr) (w : Watch) : State :=
  { Claims.arming s c a w with hostTable := s.hostTable.set c [{ h with progress := .opened .active }] }

theorem rearmed_eq (w : Watch) : ({ s.touch (lineOf a) with
    watches := s.watches.set c (some w)
    hostTable := s.hostTable.set c [{ h with progress := .opened .active }] } : State) = rearmed s c h a w := by
  unfold rearmed
  rw [← Claims.arming_eq, touch_eq (s := s) (t := s) rfl]

theorem hostTable_rearmed_ne {w : Watch} (hd : c ≠ d) : (rearmed s c h a w).hostTable[d] = s.hostTable[d] := by
  have hn : (c : Nat) ≠ d := fun e => hd (Fin.ext e)
  simp [rearmed, Vector.getElem_set_ne _ _ hn]

theorem watches_rearmed_ne {w : Watch} (hd : c ≠ d) : (rearmed s c h a w).watches[d] = s.watches[d] := by
  have hn : (c : Nat) ≠ d := fun e => hd (Fin.ext e)
  simp [rearmed, Claims.arming, Vector.getElem_set_ne _ _ hn]

theorem served_rearmed (hs : Serves s l (.chan c :: ws)) {w : Watch} (hp : h.req.isPosted = false) :
    Serves (rearmed s c h a w) l ws ∧ Dealt s (rearmed s c h a w) [.chan c] := by
  have ne : ∀ d, Who.chan c ≠ .chan d → c ≠ d := fun d hd e => hd (by rw [e])
  have self : (rearmed s c h a w).hostTable[c] = [{ h with progress := .opened .active }] := by simp [rearmed]
  have lone : (rearmed s c h a w).LoneWatches := by
    intro d x hd ha
    refine ⟨(isWaiting_congr rfl _).trans (hs.notWaiting _), ?_⟩
    by_cases hcd : c = d
    · subst hcd
      exact ⟨_, self, rfl⟩
    · obtain ⟨-, y, table, isOpen⟩ := hs.lone d x ((watches_rearmed_ne hcd).symm.trans hd) ha
      exact ⟨y, (hostTable_rearmed_ne hcd).trans table, isOpen⟩
  refine ⟨hs.behind (calm_touch s (lineOf a)) ?_ (fun d hd => ?_) (fun _ => ?_)
    ((heldValid_of_lines rfl l).trans ((calm_touch s (lineOf a)).line l hs.line)) (fun d x hd hx => ?_) lone,
    rfl, fun d e he => ?_, rfl⟩
  · rw [touch_eq (s := s) (t := s) rfl]
    rfl
  · rw [hostTable_rearmed_ne (ne d hd), touch_eq (s := s) (t := s) rfl]
  · rw [touch_eq (s := s) (t := s) rfl]
    rfl
  · have stays : s.watches[d] = some x := (watches_rearmed_ne (ne d hd)).symm.trans hx
    rw [touch_eq (s := s) (t := s) rfl]
    exact stays
  · by_cases hcd : c = d
    · subst hcd
      have head := head_lone (s := rearmed s c h a w) self rfl
      rw [head] at he
      cases he
      exact .inr ⟨rfl, hp⟩
    · refine .inl ?_
      unfold State.head? at he ⊢
      rwa [hostTable_rearmed_ne hcd] at he

/-! ### Each kind of request, served -/

/-- What the model finds when it performs the one request of a channel on a line held valid. -/
structure Ready (s : State) (c : ChanId) (h : HostEntry) : Prop where
  table : s.hostTable[c] = [h]
  isOpen : h.isOpen = true
  still : s.waiting = []
  unarmed : Unarmed s c
  lone : s.LoneWatches

theorem Ready.storable (r : Ready s c h) (a : Addr) : s.Storable a :=
  ⟨fun _ _ => by simp [State.isWaiting, r.still], r.lone⟩

/-- The request completes after a calm update. -/
theorem Ready.completes (r : Ready s c h) (k : Calm s t) (st : Machine.Status) (data : List Word) :
    t.complete c st data = t.answered c h st data :=
  complete_lone ((k.table c r.unarmed).trans r.table) r.isOpen (by simp [State.isWaiting, k.waiting, r.still]) st data

theorem performRead_ready (r : Ready s c h) (a : Addr) : s.performRead c a =
    if s.loadPoison a then s.answered c h .dataError [] else (s.touch (lineOf a)).answered c h .ok [s.loadWord a] := by
  unfold State.performRead
  rw [r.completes (calm_refl s), r.completes (calm_touch s (lineOf a))]

theorem storeMasked_ready (hs : s.Storable a) (mask : BitVec 8) (v : Word) : s.storeMasked a mask v =
    if mask ≠ fullMask ∧ s.loadPoison a = true then none
    else some (s.stored a (if mask = fullMask then v else mergeMask mask (s.loadWord a) v)) := by
  unfold State.storeMasked
  rw [State.storeWord_eq_stored _ hs]
  simp only [Bool.and_eq_true, decide_eq_true_eq]

theorem performWrite_ready (r : Ready s c h) (a : Addr) (mask : BitVec 8) (v : Word) : s.performWrite c a mask v =
    if mask ≠ fullMask ∧ s.loadPoison a = true then s.answered c h .dataError []
    else (s.stored a (if mask = fullMask then v else mergeMask mask (s.loadWord a) v)).answered c h .ok [] := by
  unfold State.performWrite
  rw [storeMasked_ready (r.storable a)]
  by_cases hp : mask ≠ fullMask ∧ s.loadPoison a = true
  · rw [if_pos hp, if_pos hp]
    exact r.completes (calm_refl s) .dataError []
  · rw [if_neg hp, if_neg hp]
    exact r.completes (calm_stored s a _) .ok []

theorem performAtomic_ready (r : Ready s c h) (op : AtomicOp) (a : Addr) (x y : Word) : s.performAtomic c op a x y =
    if s.loadPoison a then s.answered c h .dataError []
    else match atomicNew op (s.loadWord a) x y with
      | some v => (s.stored a v).answered c h .ok [s.loadWord a]
      | none => (s.touch (lineOf a)).answered c h .ok [s.loadWord a] := by
  unfold State.performAtomic
  by_cases hp : s.loadPoison a = true
  · rw [if_pos hp, if_pos hp]
    exact r.completes (calm_refl s) .dataError []
  · rw [if_neg hp, if_neg hp]
    cases atomicNew op (s.loadWord a) x y with
    | none => exact r.completes (calm_touch s (lineOf a)) .ok _
    | some v =>
      show (s.storeWord a v).complete c .ok [s.loadWord a] = (s.stored a v).answered c h .ok [s.loadWord a]
      rw [State.storeWord_eq_stored v (r.storable a)]
      exact r.completes (calm_stored s a v) .ok _

theorem calm_reserved (s : State) (c : ChanId) (a : Addr) : Calm s (Claims.reserved s c a) :=
  calm_aside rfl rfl rfl (fun l hl => (heldValid_of_lines rfl l).trans ((calm_touch s (lineOf a)).line l hl)) fun _ _ h => h

theorem performReserve_ready (r : Ready s c h) (hl : s.heldValid (lineOf a) = true) : s.performReserve c a =
    if s.loadPoison a then s.answered c h .dataError []
    else State.answered { s.touch (lineOf a) with reservations := s.reservations.set c (some a) } c h .ok [s.loadWord a] := by
  rw [Claims.performReserve_held hl, r.completes (calm_refl s), r.completes (calm_reserved s c a), Claims.reserved_eq]

theorem performConditional_ready (r : Ready s c h) (a : Addr) (v : Word) : s.performConditional c a v =
    if s.reservations[c] = some a then
      (State.stored { s with reservations := s.reservations.set c none } a v).answered c h .ok []
    else State.answered { s with reservations := s.reservations.set c none } c h .fail [] := by
  have cleared : Ready (s.clearReservation c) c h := ⟨r.table, r.isOpen, r.still, r.unarmed, r.lone⟩
  unfold State.performConditional
  rw [State.storeWord_eq_stored v (cleared.storable a), cleared.completes (calm_stored _ a v), cleared.completes (calm_refl _)]
  by_cases hs : s.reservations[c] = some a
  · rw [if_pos hs, if_pos (Claims.stands_iff.2 hs)]
    rfl
  · rw [if_neg hs, if_neg (mt Claims.stands_iff.1 hs)]
    rfl

theorem setPhase_lone (ht : t.hostTable[c] = [h]) (ho : h.isOpen = true) (ph : HostPhase) :
    t.setPhase c ph = { t with hostTable := t.hostTable.set c [{ h with progress := .opened ph }] } := by
  unfold State.setPhase State.updateHead
  rw [ht]
  simp [mapFirst, ho]

theorem performWatch_ready (r : Ready s c h) (hl : s.heldValid (lineOf a) = true) (v : Word) (n : BitVec 16) :
    s.performWatch c a v n =
    if s.loadPoison a then State.answered { s with watches := s.watches.set c none } c h .dataError []
    else if s.loadWord a ≠ v then
      State.answered { s.touch (lineOf a) with watches := s.watches.set c none } c h .ok [s.loadWord a]
    else { s.touch (lineOf a) with
      watches := s.watches.set c (some {
        phase := .armed
        addr := a
        compare := v
        remaining := (s.watches[c].map (fun w => w.remaining)).getD n.toNat })
      hostTable := s.hostTable.set c [{ h with progress := .opened .active }] } := by
  have armed : ∀ w : Watch, State.setPhase { s.touch (lineOf a) with watches := s.watches.set c (some w) } c .active
      = { s.touch (lineOf a) with
          watches := s.watches.set c (some w)
          hostTable := s.hostTable.set c [{ h with progress := .opened .active }] } := by
    intro w
    rw [Claims.arming_eq, rearmed_eq]
    exact setPhase_lone (t := Claims.arming s c a w) r.table r.isOpen .active
  have freed : (s.touch (lineOf a)).freeWatch c = { s.touch (lineOf a) with watches := s.watches.set c none } := by
    unfold State.freeWatch
    rw [touch_eq (s := s) (t := s) rfl]
  unfold State.performWatch
  rw [hl]
  refine (if_neg nofun).trans ?_
  by_cases hp : s.loadPoison a = true
  · rw [if_pos hp, if_pos hp]
    exact r.completes (calm_freed s c) .dataError []
  · rw [if_neg hp, if_neg hp]
    by_cases hv : s.loadWord a ≠ v
    · rw [if_pos hv, if_pos hv, ← freed]
      exact r.completes ((calm_touch s (lineOf a)).trans (calm_freed _ c)) .ok _
    · rw [if_neg hv, if_neg hv]
      cases s.watches[c] with
      | none => exact armed _
      | some w => exact armed _

/-! #### The statement's own account of each kind -/

theorem served_read (hr : h.req = .read a) : s.served c h =
    if s.loadPoison a then s.answered c h .dataError [] else (s.touch (lineOf a)).answered c h .ok [s.loadWord a] := by
  obtain ⟨tag, req, place, check, progress⟩ := h
  subst hr
  rfl

theorem served_write {mask : BitVec 8} (hr : h.req = .write a mask v) : s.served c h =
    if mask ≠ fullMask ∧ s.loadPoison a = true then s.answered c h .dataError []
    else (s.stored a (if mask = fullMask then v else mergeMask mask (s.loadWord a) v)).answered c h .ok [] := by
  obtain ⟨tag, req, place, check, progress⟩ := h
  subst hr
  rfl

theorem served_atomic {op : AtomicOp} {x y : Word} (hr : h.req = .atomic op a x y) : s.served c h =
    if s.loadPoison a then s.answered c h .dataError []
    else match atomicNew op (s.loadWord a) x y with
      | some v => (s.stored a v).answered c h .ok [s.loadWord a]
      | none => (s.touch (lineOf a)).answered c h .ok [s.loadWord a] := by
  obtain ⟨tag, req, place, check, progress⟩ := h
  subst hr
  rfl

theorem served_atomic_some {op : AtomicOp} {x y : Word} (hr : h.req = .atomic op a x y)
    (hn : atomicNew op (s.loadWord a) x y = some v) : s.served c h =
    if s.loadPoison a then s.answered c h .dataError [] else (s.stored a v).answered c h .ok [s.loadWord a] := by
  rw [served_atomic hr, hn]

theorem served_atomic_none {op : AtomicOp} {x y : Word} (hr : h.req = .atomic op a x y)
    (hn : atomicNew op (s.loadWord a) x y = none) : s.served c h =
    if s.loadPoison a then s.answered c h .dataError [] else (s.touch (lineOf a)).answered c h .ok [s.loadWord a] := by
  rw [served_atomic hr, hn]

theorem served_reserve (hr : h.req = .reserve a) : s.served c h =
    if s.loadPoison a then s.answered c h .dataError []
    else State.answered { s.touch (lineOf a) with reservations := s.reservations.set c (some a) } c h .ok [s.loadWord a] := by
  obtain ⟨tag, req, place, check, progress⟩ := h
  subst hr
  rfl

theorem served_conditional (hr : h.req = .conditional a v) : s.served c h =
    if s.reservations[c] = some a then
      (State.stored { s with reservations := s.reservations.set c none } a v).answered c h .ok []
    else State.answered { s with reservations := s.reservations.set c none } c h .fail [] := by
  obtain ⟨tag, req, place, check, progress⟩ := h
  subst hr
  rfl

theorem served_watch {n : BitVec 16} (hr : h.req = .watch a v n) : s.served c h =
    if s.loadPoison a then State.answered { s with watches := s.watches.set c none } c h .dataError []
    else if s.loadWord a ≠ v then
      State.answered { s.touch (lineOf a) with watches := s.watches.set c none } c h .ok [s.loadWord a]
    else { s.touch (lineOf a) with
      watches := s.watches.set c (some {
        phase := .armed
        addr := a
        compare := v
        remaining := (s.watches[c].map (fun w => w.remaining)).getD n.toNat })
      hostTable := s.hostTable.set c [{ h with progress := .opened .active }] } := by
  obtain ⟨tag, req, place, check, progress⟩ := h
  subst hr
  rfl

theorem served_other (hr : h.req.word? = none) : s.served c h = s := by
  obtain ⟨tag, req, place, check, progress⟩ := h
  cases req <;> first | rfl | cases hr

/-- The model performs the one request of a channel as the statement says. -/
theorem performRequest_ready (r : Ready s c h) (hw : h.req.word? = some a) (hl : s.heldValid (lineOf a) = true) :
    s.performRequest c h.req = s.served c h := by
  cases hr : h.req with
  | read x => exact (performRead_ready r x).trans (served_read hr).symm
  | write x m v => exact (performWrite_ready r x m v).trans (served_write hr).symm
  | atomic op x y z => exact (performAtomic_ready r op x y z).trans (served_atomic hr).symm
  | reserve x =>
    obtain rfl : x = a := by simpa [hr, Request.word?] using hw
    exact (performReserve_ready r hl).trans (served_reserve hr).symm
  | conditional x v => exact (performConditional_ready r x v).trans (served_conditional hr).symm
  | watch x v n =>
    obtain rfl : x = a := by simpa [hr, Request.word?] using hw
    exact (performWatch_ready r hl v n).trans (served_watch hr).symm
  | _ => rw [hr] at hw; cases hw

/-- The word of a waiter lies on the line that is held. -/
theorem Serves.ready (hs : Serves s l (.chan c :: ws)) : ∃ h a, Ready s c h ∧ h.req.word? = some a ∧ lineOf a = l := by
  obtain ⟨x, hx, ho⟩ := hs.chan c (by simp)
  obtain ⟨h, a, hh, hw, hl⟩ := hs.words c (by simp)
  obtain rfl : x = h := by simpa [hx] using hh
  exact ⟨x, a, ⟨hx, ho, hs.still, hs.unarmed c (by simp), hs.lone⟩, hw, hl⟩

theorem servedWho_chan (r : Ready s c h) : s.servedWho (.chan c) = s.served c h := by
  unfold State.servedWho
  simp only [r.table, r.isOpen, if_true]

theorem servedWho_posted {p : PostedWrite} (hp : s.posted = [p]) : s.servedWho .posted =
    if p.mask ≠ fullMask ∧ s.loadPoison p.addr = true then s.failedPosted p .dataError
    else { s.stored p.addr (if p.mask = fullMask then p.value else mergeMask p.mask (s.loadWord p.addr) p.value) with
      posted := [] } := by
  unfold State.servedWho
  simp only [hp]

/-- The model performs a waiter as the statement says. -/
theorem perform_serves (hs : Serves s l (who :: ws)) : s.perform who = s.servedWho who := by
  cases who with
  | chan c =>
    obtain ⟨h, a, r, hw, rfl⟩ := hs.ready
    rw [Status.perform_head (head_lone r.table r.isOpen), performRequest_ready r hw hs.line, servedWho_chan r]
  | posted =>
    obtain ⟨p, hp⟩ := hs.posted (by simp)
    have storable : s.Storable p.addr := ⟨fun _ _ => hs.notWaiting _, hs.lone⟩
    rw [servedWho_posted hp]
    unfold State.perform State.performPosted
    simp only [hp, storeMasked_ready storable]
    by_cases hf : p.mask ≠ fullMask ∧ s.loadPoison p.addr = true
    · rw [if_pos hf, if_pos hf]
      exact failPosted_lone hp
    · rw [if_neg hf, if_neg hf]
      show State.popPosted _ = _
      unfold State.popPosted
      rw [(stored_base _).2.2.1, hp]
      rfl

/-! ### Waiters served one after another -/

theorem served_step (s : State) (who : Who) (ws : List Who) (hs : Serves s l (who :: ws)) :
    Serves (s.servedWho who) l ws ∧ Dealt s (s.servedWho who) [who] := by
  cases who with
  | chan c =>
    obtain ⟨h, a, r, hw, hl⟩ := hs.ready
    rw [servedWho_chan r]
    cases hr : h.req with
    | read x =>
      rw [served_read hr]
      split
      · exact served_answered hs (calm_refl s) h _ _
      · exact served_answered hs (calm_touch s (lineOf x)) h _ _
    | write x m v =>
      rw [served_write hr]
      split
      · exact served_answered hs (calm_refl s) h _ _
      · exact served_answered hs (calm_stored s x _) h _ _
    | atomic op x y z =>
      rw [served_atomic hr]
      split
      · exact served_answered hs (calm_refl s) h _ _
      · cases atomicNew op (s.loadWord x) y z with
        | some v => exact served_answered hs (calm_stored s x v) h _ _
        | none => exact served_answered hs (calm_touch s (lineOf x)) h _ _
    | reserve x =>
      rw [served_reserve hr]
      split
      · exact served_answered hs (calm_refl s) h _ _
      · rw [Claims.reserved_eq]
        exact served_answered hs (calm_reserved s c x) h _ _
    | conditional x v =>
      rw [served_conditional hr]
      split
      · exact served_answered hs ((calm_reserving s _).trans (calm_stored _ x v)) h _ _
      · exact served_answered hs (calm_reserving s _) h _ _
    | watch x v n =>
      rw [served_watch hr]
      split
      · exact served_answered hs (calm_freed s c) h _ _
      · split
        · have freed : ({ s.touch (lineOf x) with watches := s.watches.set c none } : State)
              = { s.touch (lineOf x) with watches := (s.touch (lineOf x)).watches.set c none } := by
            rw [touch_eq (s := s) (t := s) rfl]
          rw [freed]
          exact served_answered hs ((calm_touch s (lineOf x)).trans (calm_freed _ c)) h _ _
        · rw [rearmed_eq]
          exact served_rearmed hs (by rw [hr]; rfl)
    | _ => rw [hr] at hw; cases hw
  | posted =>
    obtain ⟨p, hp⟩ := hs.posted (by simp)
    rw [servedWho_posted hp]
    split
    · exact served_posted hs (calm_refl s) rfl rfl rfl rfl rfl
    · exact served_unposted hs (calm_stored s p.addr _)

theorem served_dealt (hs : Serves s l ws) : Dealt s (ws.foldl State.servedWho s) ws :=
  dealt_fold (P := fun s ws => Serves s l ws) (fun s who ws h => served_step s who ws h) ws s hs

theorem performed_served (hs : Serves s l ws) : ws.foldl State.perform s = ws.foldl State.servedWho s :=
  fold_eq (f := State.perform) (P := fun s ws => Serves s l ws)
    (fun s who ws h => ⟨perform_serves h, (served_step s who ws h).1⟩) ws s hs

/-! ### The line array and the host side of a state, in the rest of another -/

/-- The line array and the host-facing blocks of one state in the rest of another. -/
def within (b u : State) : State := { around b u with lines := u.lines }

theorem touch_within (u : State) (l : LineAddr) : (within b u).touch l = within b (u.touch l) :=
  (touch_eq (s := u) (t := within b u) rfl l).trans (congrArg (within b) (touch_eq (s := u) (t := u) rfl l)).symm

theorem writeWay_within (u : State) (a : Addr) (v : Word) : (within b u).writeWay a v = within b (u.writeWay a v) :=
  (writeWay_eq (s := u) (t := within b u) rfl a v).trans (congrArg (within b) (writeWay_eq (s := u) (t := u) rfl a v)).symm

theorem watchAnswered_within (u : State) (a : Addr) (v : Word) (d : ChanId) :
    (within b u).watchAnswered a v d = within b (u.watchAnswered a v d) := by
  show (match u.watches[d], u.hostTable[d] with | some w, [h] => _ | _, _ => within b u)
    = within b (match u.watches[d], u.hostTable[d] with | some w, [h] => _ | _, _ => u)
  split
  · split <;> rfl
  · rfl

theorem stored_within (u : State) (a : Addr) (v : Word) : (within b u).stored a v = within b (u.stored a v) := by
  have folded : ∀ (ds : List ChanId) (u : State), ds.foldl (fun u d => u.watchAnswered a v d) (within b u)
      = within b (ds.foldl (fun u d => u.watchAnswered a v d) u) := by
    intro ds
    induction ds with
    | nil => exact fun _ => rfl
    | cons d ds ih =>
      intro u
      rw [List.foldl_cons, watchAnswered_within]
      exact ih _
  have start : storing (within b u) a v = within b (storing u a v) := by
    unfold storing
    rw [writeWay_within, touch_within]
    rfl
  rw [stored_eq, stored_eq, start]
  exact folded channels _

theorem loadWord_within (u : State) (a : Addr) : (within b u).loadWord a = u.loadWord a := rfl

theorem loadPoison_within (u : State) (a : Addr) : (within b u).loadPoison a = u.loadPoison a := rfl

theorem answered_within (u : State) (c : ChanId) (h : HostEntry) (st : Status) (data : List Word) :
    (within b u).answered c h st data = within b (u.answered c h st data) := rfl

theorem reservations_within (u : State) : (within b u).reservations = u.reservations := rfl

theorem reserving_within (u : State) (r : Vector (Option Addr) 4) :
    ({ within b u with reservations := r } : State) = within b { u with reservations := r } := rfl

theorem within_ite (p : Prop) [Decidable p] (x y : State) : within b (if p then x else y) = if p then within b x else within b y :=
  apply_ite (within b) p x y

theorem served_within (u : State) (c : ChanId) (h : HostEntry) : (within b u).served c h = within b (u.served c h) := by
  cases hr : h.req with
  | read a =>
    rw [served_read hr, served_read hr, within_ite, touch_within]
    rfl
  | write a m v =>
    rw [served_write hr, served_write hr, within_ite, stored_within]
    rfl
  | atomic op a x y =>
    cases hn : atomicNew op (u.loadWord a) x y with
    | some v =>
      have same := (congrArg (atomicNew op · x y) (loadWord_within (b := b) u a)).trans hn
      rw [served_atomic_some hr same, served_atomic_some hr hn, within_ite, stored_within]
      exact if_congr (iff_of_eq (congrArg (· = true) (loadPoison_within u a))) (answered_within ..)
        ((congrArg (State.answered _ c h .ok [·]) (loadWord_within u a)).trans (answered_within ..))
    | none =>
      have same := (congrArg (atomicNew op · x y) (loadWord_within (b := b) u a)).trans hn
      rw [served_atomic_none hr same, served_atomic_none hr hn, within_ite, touch_within]
      exact if_congr (iff_of_eq (congrArg (· = true) (loadPoison_within u a))) (answered_within ..)
        ((congrArg (State.answered _ c h .ok [·]) (loadWord_within u a)).trans (answered_within ..))
  | reserve a =>
    rw [served_reserve hr, served_reserve hr, within_ite, touch_within]
    rfl
  | conditional a v =>
    rw [served_conditional hr, served_conditional hr, within_ite, reserving_within, stored_within, answered_within,
      answered_within, reservations_within]
  | watch a v n =>
    rw [served_watch hr, served_watch hr, within_ite, within_ite, touch_within]
    rfl
  | _ => exact (served_other (by rw [hr]; rfl)).trans (congrArg (within b) (served_other (by rw [hr]; rfl))).symm

theorem servedWho_lone (hh : s.hostTable[c] = [h]) : s.servedWho (.chan c) = if h.isOpen then s.served c h else s := by
  unfold State.servedWho
  simp only [hh]

theorem servedWho_crowd (hh : ∀ h, s.hostTable[c] ≠ [h]) : s.servedWho (.chan c) = s := by
  unfold State.servedWho
  simp only

theorem servedWho_queue (hp : ∀ p, s.posted ≠ [p]) : s.servedWho .posted = s := by
  unfold State.servedWho
  simp only

theorem within_unposted (u : State) : ({ within b u with posted := [] } : State) = within b { u with posted := [] } := rfl

theorem servedWho_within (u : State) (who : Who) : (within b u).servedWho who = within b (u.servedWho who) := by
  cases who with
  | chan c =>
    by_cases hh : ∃ h, u.hostTable[c] = [h]
    · obtain ⟨h, hh⟩ := hh
      rw [servedWho_lone (s := within b u) hh, servedWho_lone hh, within_ite, served_within]
    · have crowd : ∀ h, u.hostTable[c] ≠ [h] := fun h hx => hh ⟨h, hx⟩
      rw [servedWho_crowd (s := within b u) crowd, servedWho_crowd crowd]
  | posted =>
    by_cases hp : ∃ p, u.posted = [p]
    · obtain ⟨p, hp⟩ := hp
      rw [servedWho_posted (s := within b u) hp, servedWho_posted hp, within_ite, stored_within, within_unposted]
      rfl
    · have queue : ∀ p, u.posted ≠ [p] := fun p hx => hp ⟨p, hx⟩
      rw [servedWho_queue (s := within b u) queue, servedWho_queue queue]

theorem fold_within (ws : List Who) (u : State) :
    ws.foldl State.servedWho (within b u) = within b (ws.foldl State.servedWho u) := by
  induction ws generalizing u with
  | nil => rfl
  | cons who ws ih =>
    rw [List.foldl_cons, servedWho_within]
    exact ih _

theorem serves_within (h : Serves s l ws) : Serves (within b s) l ws :=
  ⟨⟨h.once, h.still, h.chan, h.posted⟩, h.line, h.words, h.unarmed, h.lone⟩

/-- The waiters of an entry are performed one after another, in the surroundings that its verdict has left. -/
theorem performed_within (h : Serves s l ws) :
    ws.foldl State.perform (within b s) = within b (ws.foldl State.servedWho s) :=
  (performed_served (serves_within h)).trans (fold_within ws s)

end Sys2Proof.Proofs.Serving
end

