-- ==== Sys2Proof/Proofs/Served.lean ====
section
/-! PROOFS. What ends an entry served: the station's own UPGRADE taken, a reply from the span and the result of the station's own
home (R61, R63 to R67, R70, R99 to R106). -/

namespace Sys2Proof.Proofs.Served

open Sys2Proof Sys2Proof.Machine Sys2Proof.Proofs.AtRest Sys2Proof.Proofs.OwnVerdicts Sys2Proof.Proofs.Waiters
open Sys2Proof.Proofs.Claims (reserving)
open Sys2Proof.Proofs.Hits Sys2Proof.Proofs.Presented Sys2Proof.Proofs.Values Sys2Proof.Proofs.Serving Sys2Proof.Proofs.Expiries

variable {s t u b : State} {c d : ChanId} {h : HostEntry} {e : TableEntry} {l k : LineAddr} {ws : List Who} {a : Addr} {v : Word}
  {body : ReplyBody}

/-! ### An entry that ends served -/

/-- A joined head has no ARMED watch, whose head is ACTIVE. -/
theorem unarmed_of_joined (head : s.HeadLaw) (hh : s.head? c = some h) (hj : h.inPhase .joined = true) : Unarmed s c := by
  intro w hw armed
  obtain ⟨x, _, _, hx, -, active⟩ := head.watch c w hw
  obtain rfl : x = h := Option.some.inj (hx.symm.trans hh)
  have hj' : x.progress = .opened .joined := of_decide_eq_true hj
  have ha : x.progress = .opened .active := of_decide_eq_true (active armed).1
  rw [hj'] at ha
  cases ha

/-- The waiters of an entry are to be served in the lines that its reply or its verdict leaves. -/
theorem serves_waiters (ways : Vector CacheSet 32) (he : s.entryFor l = some e) (head : s.HeadLaw) (hw : s.waiting = [])
    (lone : s.Lone l e.waiters) (watches : s.LoneWatches) (hl : State.heldValid { s with lines := ways } l = true) :
    Serves { s with lines := ways } l e.waiters where
  toAlone :=
    have alone := alone_of_lone lone hw
    ⟨alone.once, alone.still, alone.chan, alone.posted⟩
  line := hl
  words c hc := by
    obtain ⟨h, a, hh, -, word, line⟩ := lone.chan c hc
    exact ⟨h, a, hh, word, line⟩
  unarmed c hc := by
    obtain ⟨h, a, hh, joined, -⟩ := head.waiter e (List.mem_of_find?_eq_some he) c hc
    exact unarmed_of_joined (s := s) head hh joined
  lone := watches

theorem served_endEntry (h : Serves s l ws) : (ws.foldl State.perform (within b s)).endEntry k
    = { within b (ws.foldl State.servedWho s) with table := b.table.filter (fun x => x.line ≠ k) } := by
  unfold State.endEntry
  rw [performed_within h]
  exact owePass_empty ((served_dealt h).waiting.trans h.still)

/-- What the waiters write is in the lines and on the host side of the state. -/
theorem served_eq (ways : Vector CacheSet 32) (ws : List Who) : ws.foldl State.servedWho { s with lines := ways }
    = within s (ws.foldl State.servedWho { s with lines := ways }) :=
  fold_within (b := s) ws { s with lines := ways }

theorem atRest_served (ways : Vector CacheSet 32) (hr : s.AtRest) (hw : s.waiting = []) (one : s.OnePlace) (he : s.entryFor l = some e)
    (lone : s.Lone l e.waiters) (hs : Serves { s with lines := ways } l e.waiters)
    (hu : u = e.waiters.foldl State.servedWho { s with lines := ways })
    (hp : t.posted = u.posted) (htw : t.waiting = u.waiting) (hh : t.hostTable = u.hostTable)
    (ht : t.table = s.table.filter (fun y => y.line ≠ l)) : t.AtRest := by
  have dealt := served_dealt hs
  rw [← hu] at dealt
  exact atRest_dealt hr hw one he lone ⟨dealt.waiting, dealt.heads, dealt.posted⟩ hp htw hh ht

/-! ### The word and the claims after a store -/

theorem loadWord_stored (hl : s.heldValid (lineOf a) = true) : (s.stored a v).loadWord a = v := by
  obtain ⟨st, lookup, -⟩ := lookup_of_heldValid hl
  obtain ⟨w, found⟩ := findWay_of_lookup lookup
  unfold State.loadWord
  rw [lineData_of_lines lines_stored, lineData_touch, lineData_writeWay_same v found, lineWord_lineStore_same]

theorem reservations_stored : (s.stored a v).reservations = s.reservations.map (fun r => r.filter (fun b => b ≠ a)) := by
  have answered : ∀ (u : State) (d : ChanId), (u.watchAnswered a v d).reservations = u.reservations := by
    intro u d
    rcases watchAnswered_cases (s := u) a v d with h | ⟨_, _, -, -, -, h⟩ <;> rw [h]
    rfl
  have all := foldl_keeps (fun u : State => u.reservations) (fun (u : State) (d : ChanId) => u.watchAnswered a v d) answered
    channels (storing s a v)
  rw [← stored_eq] at all
  exact all

theorem broken_stored (res : s.reservations[c] = some a) : (s.stored a v).reservations[c] = none := by
  rw [reservations_stored, Fin.getElem_fin, Vector.getElem_map]
  rw [Fin.getElem_fin] at res
  rw [res]
  simp

theorem loadWord_reserving (s : State) (c : ChanId) (r : Option Addr) (a : Addr) : (reserving s c r).loadWord a = s.loadWord a :=
  rfl

theorem latchSet_reserving (s : State) (c d : ChanId) (r : Option Addr) : (reserving s c r).latchSet d = s.latchSet d := rfl

theorem served_unreserved (hr : h.req = .conditional a v) (res : s.reservations[c] ≠ some a) :
    s.served c h = (reserving s c none).answered c h .fail [] := (served_conditional hr).trans (if_neg res)

theorem served_reserved (hr : h.req = .conditional a v) (res : s.reservations[c] = some a) :
    s.served c h = (State.stored (reserving s c none) a v).answered c h .ok [] := (served_conditional hr).trans (if_pos res)

theorem latchSet_stored : (s.stored a v).latchSet c = s.latchSet c := by
  unfold State.latchSet
  rw [(stored_base v).1]

theorem hostTable_answered_self (s : State) (c : ChanId) (h : HostEntry) (st : Machine.Status) (data : List Word) :
    (s.answered c h st data).hostTable[c] = [{ h with progress := .ready st (s.latchSet c) data }] := by
  simp [State.answered]

theorem reservations_answered (s : State) (c : ChanId) (h : HostEntry) (st : Machine.Status) (data : List Word) :
    (s.answered c h st data).reservations = s.reservations := rfl

theorem latchSet_answered (s : State) (c d : ChanId) (h : HostEntry) (st : Machine.Status) (data : List Word) :
    (s.answered c h st data).latchSet d = s.latchSet d := rfl

theorem loadWord_answered (s : State) (c : ChanId) (h : HostEntry) (st : Machine.Status) (data : List Word) (a : Addr) :
    (s.answered c h st data).loadWord a = s.loadWord a := rfl

theorem heldValid_answered (s : State) (c : ChanId) (h : HostEntry) (st : Machine.Status) (data : List Word) (l : LineAddr) :
    (s.answered c h st data).heldValid l = s.heldValid l := rfl

theorem watches_answered (s : State) (c : ChanId) (h : HostEntry) (st : Machine.Status) (data : List Word) :
    (s.answered c h st data).watches = s.watches := rfl

/-! ### The station's own UPGRADE taken (R61, R63) -/

/-- The line becomes DIRTY-SOLE and most recent. -/
def soleLines (s : State) (l : LineAddr) : Vector CacheSet 32 := ((s.setLineState l .dirtySole).touch l).lines

theorem sole_eq (h : t.lines = s.lines) : (t.setLineState l .dirtySole).touch l = { t with lines := soleLines s l } := by
  have state := setLineState_eq h l .dirtySole
  have lines : (t.setLineState l .dirtySole).lines = (s.setLineState l .dirtySole).lines := by rw [state]
  rw [touch_eq lines, state]
  rfl

theorem findWay_isSome (h : (s.lookup l).isSome = true) : (s.findWay l).isSome = true := by
  obtain ⟨st, lookup⟩ := Option.isSome_iff_exists.1 h
  obtain ⟨w, found⟩ := findWay_of_lookup lookup
  rw [found]
  rfl

theorem heldValid_sole (h : (s.lookup l).isSome = true) : State.heldValid { s with lines := soleLines s l } l = true := by
  rw [← sole_eq rfl, heldValid_touch]
  exact heldValid_of_lookup (lookup_setLineState .dirtySole (findWay_isSome h)) nofun

theorem upgrade_taken {others : Votes} {n : StationNo} {home : Bool} (hp : s.porst = false) (hr : s.AtRest) (one : s.OnePlace)
    (hw : s.waiting = []) (ht : s.span.tenure = .ownEntry l (.request n l (.table .upgrade)) home)
    (he : s.entryFor l = some e) (hk : e.kind = .upgrade) (retry : others.retry = false)
    (hh : home = true ∨ others.home = true) (lone : s.Lone l e.waiters)
    (hs : Serves { s with lines := soleLines s l } l e.waiters) : ∃ order next, s.readyOrder <+: order ∧
      exec (.ownTenureVerdict others) s = .next (State.closed
        { e.waiters.foldl State.servedWho { s with lines := soleLines s l } with
          table := s.table.filter (fun x => x.line ≠ l)
          span := { s.span with homeReserved := false } } order next) := by
  have taken : classify (.table .upgrade) (orVotes (ownVotes home) others) = .taken := (classify_own retry hh).trans rfl
  obtain rfl : e.line = l := Happenings.line_of_entryFor he
  have passed : (released s).passEntry e .taken others.copy = { within (released s)
      (e.waiters.foldl State.servedWho { s with lines := soleLines s e.line }) with
      table := s.table.filter (fun x => x.line ≠ e.line) } := by
    unfold State.passEntry
    rw [hk]
    refine Eq.trans ?_ (served_endEntry (b := released s) hs)
    exact congrArg (fun u => (e.waiters.foldl State.perform u).endEntry e.line) (sole_eq (s := s) (t := released s) rfl)
  refine closes (exec_own_entry hp ht taken) ?_ (atRest_served _ hr hw one he lone hs rfl rfl rfl rfl rfl) ?_
  · have ends : s.count1.ownEnds e.line (Machine.frameBody (.request n e.line (.table .upgrade))) .taken = released s :=
      ownEnds_released (.inr rfl) (by nofun)
    rw [ends]
    refine (entryVerdict_passed (s := released s) he (by nofun) others.copy).trans (passed.trans ?_)
    generalize hq : e.waiters.foldl State.servedWho { s with lines := soleLines s e.line } = q
    rw [served_eq] at hq
    subst hq
    rfl
  · rw [served_eq]
    rfl

/-- A WRITE before a CONDITIONAL of its word breaks its reservation. -/
theorem write_then_conditional {c' : ChanId} {h' : HostEntry} {v' : Word} (hs : Serves s l [.chan c, .chan c'])
    (hn : c ≠ c') (hh : s.hostTable[c] = [h]) (hh' : s.hostTable[c'] = [h']) (hq : h.req = .write a fullMask v)
    (hq' : h'.req = .conditional a v') (res : s.reservations[c'] = some a) :
    (State.servedWho (State.servedWho s (.chan c)) (.chan c')).hostTable[c']
        = [{ h' with progress := .ready .fail (s.latchSet c') [] }] ∧
      (State.servedWho (State.servedWho s (.chan c)) (.chan c')).loadWord a = v := by
  obtain ⟨x, _, ready, word, line⟩ := hs.ready
  obtain rfl : x = h := by simpa [ready.table] using hh
  rw [hq] at word
  cases word
  have first : s.servedWho (.chan c) = (s.stored a v).answered c x .ok [] := by
    rw [servedWho_chan ready, served_write hq, if_neg (fun m => m.1 rfl), if_pos rfl]
  have behind := (served_step s (.chan c) [.chan c'] hs).1
  rw [first] at behind
  obtain ⟨x', _, ready', -⟩ := behind.ready
  have kept : ((s.stored a v).answered c x .ok []).hostTable[c'] = [h'] := by
    rw [hostTable_answered_ne hn, hostTable_stored (hs.unarmed c' (by simp)), hh']
  obtain rfl : x' = h' := by simpa [ready'.table] using kept
  have broken : ((s.stored a v).answered c x .ok []).reservations[c'] = none := by
    rw [reservations_answered]
    exact broken_stored res
  rw [first, servedWho_chan ready', served_unreserved hq' (by rw [broken]; nofun)]
  constructor
  · rw [hostTable_answered_self, latchSet_reserving, latchSet_answered, latchSet_stored]
  · rw [loadWord_answered, loadWord_reserving, loadWord_answered]
    exact loadWord_stored (line ▸ hs.line)

/-- A WRITE behind a CONDITIONAL of its word is stored over it. -/
theorem conditional_then_write {c' : ChanId} {h' : HostEntry} {v' : Word} (hs : Serves s l [.chan c', .chan c])
    (hn : c ≠ c') (hh : s.hostTable[c] = [h]) (hh' : s.hostTable[c'] = [h']) (hq : h.req = .write a fullMask v)
    (hq' : h'.req = .conditional a v') (res : s.reservations[c'] = some a) :
    (State.servedWho (State.servedWho s (.chan c')) (.chan c)).hostTable[c']
        = [{ h' with progress := .ready .ok (s.latchSet c') [] }] ∧
      (State.servedWho (State.servedWho s (.chan c')) (.chan c)).loadWord a = v := by
  obtain ⟨x', _, ready', word, line⟩ := hs.ready
  obtain rfl : x' = h' := by simpa [ready'.table] using hh'
  rw [hq'] at word
  cases word
  have first : s.servedWho (.chan c') = (State.stored (reserving s c' none) a v').answered c' x' .ok [] := by
    rw [servedWho_chan ready', served_reserved hq' res]
  have unarmed : ∀ x, .chan x ∈ [Who.chan c', .chan c] → Unarmed (State.stored (reserving s c' none) a v') x :=
    fun x hx w hw => hs.unarmed x hx w (watches_stored (s := reserving s c' none) hw)
  have behind := (served_step s (.chan c') [.chan c] hs).1
  rw [first] at behind
  obtain ⟨x, _, ready, -⟩ := behind.ready
  have kept : ((State.stored (reserving s c' none) a v').answered c' x' .ok []).hostTable[c] = [h] := by
    rw [hostTable_answered_ne (Ne.symm hn), hostTable_stored (s := reserving s c' none) (hs.unarmed c (by simp))]
    exact hh
  obtain rfl : x = h := by simpa [ready.table] using kept
  rw [first, servedWho_chan ready, served_write hq, if_neg (fun m => m.1 rfl), if_pos rfl]
  constructor
  · rw [hostTable_answered_ne hn, hostTable_stored (by rw [Unarmed, watches_answered]; exact unarmed c' (by simp)),
      hostTable_answered_self, latchSet_stored]
    rfl
  · rw [loadWord_answered]
    exact loadWord_stored (line ▸ behind.line)

/-- Settles O44: the waiters are served in the line that the verdict made sole. -/
theorem ownUpgradeMakesTheLineSole : Obligations.OwnUpgradeMakesTheLineSole := by
  intro s others n l home e hp hr one hw found ht he hk retry hh head lone watches sole performed
  have hs := serves_waiters (soleLines s l) he head hw lone watches (heldValid_sole found)
  have made : sole = { s with lines := soleLines s l } := sole_eq rfl
  have done : performed = e.waiters.foldl State.servedWho { s with lines := soleLines s l } :=
    congrArg (fun u => e.waiters.foldl State.servedWho u) made
  refine ⟨?_, fun c c' h h' a v v' hn hc hc' hq hq' res => ⟨fun order => ?_, fun order => ?_⟩⟩
  · rw [done]
    exact upgrade_taken hp hr one hw ht he hk retry hh lone hs
  · rw [done, order]
    exact write_then_conditional (order ▸ hs) hn hc hc' hq hq' res
  · rw [done, order]
    exact conditional_then_write (order ▸ hs) hn hc hc' hq hq' res

/-! ### A reply taken (R64 to R67, R70) -/

theorem replyPoisoned_iff : replyPoisoned body = true ↔ poisonedReply body := by
  cases body <;> simp [replyPoisoned, poisonedReply]

/-- What a taken reply changes of one state, in the rest of another. -/
def carried (b t : State) : State := { within b t with table := t.table, counters := t.counters }

theorem matchReply_late (h : ∀ e, s.entryFor l = some e → ¬e.awaits body) : s.matchReply l body = s.raiseLateReplies := by
  unfold State.matchReply
  split
  · rfl
  · rename_i e he
    have unawaited := h e he
    split
    · split
      · rename_i phase
        exact absurd (.inl ⟨_, _, _, phase, rfl⟩) unawaited
      · rfl
    · split
      · rename_i phase kind
        split
        · rename_i word
          exact absurd (.inr ⟨_, _, _, _, phase, kind, by rw [word]⟩) unawaited
        · rfl
      · rfl

theorem matchReply_fill {st : LineState} {n : Nat} {x : LineData} (he : s.entryFor l = some e) (hp : e.phase = .awaitFill st n) :
    s.matchReply l (.fill x) = s.installFill e st x := by
  unfold State.matchReply
  rw [he]
  simp only [hp]

theorem matchReply_result {op : DirectOp} {n : Nat} {err : Bool} (he : s.entryFor l = some e) (hp : e.phase = .awaitResult n)
    (hk : e.kind = .direct op) : s.matchReply l (.result (directWord op) err v) = s.takeResult e op err v := by
  unfold State.matchReply
  rw [he]
  simp only [hp, hk, if_true]

/-- The line holds the data of the FILL in a valid state. -/
theorem heldValid_install {st : LineState} {x : LineData} (hl : (s.lookup l).isSome = true) (hv : st.valid = true) :
    (s.install l st x).heldValid l = true := by
  obtain ⟨w, found⟩ := Option.isSome_iff_exists.1 (findWay_isSome hl)
  have tagged : ({ tag := some l, state := st, data := x } : Way).tag = (s.wayAt l w).tag := (findWay_some found).2.symm
  have same : ((s.setWay l w { tag := some l, state := st, data := x }).touchWay l w).findWay l = some w :=
    ((findWay_congr fun w => by rw [wayAt_touchWay]).trans (findWay_setWay_tag tagged l)).trans found
  have looked : (s.install l st x).lookup l = some st := by
    unfold State.install
    simp only [found]
    unfold State.lookup
    simp only [same, Option.map_some, wayAt_touchWay, wayAt_setWay_same]
  exact heldValid_of_lookup looked (by cases st <;> simp_all [LineState.valid])

/-- The taken reply is counted, and matched in the rest of the state in which it comes. -/
theorem takeReply_counted {counted : Counters} (hp : poisonedReply body → counted =
      { s.counters with poisonReceived := s.counters.poisonReceived + 1 }) (hn : ¬poisonedReply body → counted = s.counters)
    (l : LineAddr) : (carried b s).takeReply l body = (carried b { s with counters := counted }).matchReply l body := by
  unfold State.takeReply
  by_cases h : poisonedReply body
  · rw [if_pos (replyPoisoned_iff.2 h), hp h]
    rfl
  · rw [hn h]
    exact congrArg (fun u : State => u.matchReply l body) (if_neg fun p => h (replyPoisoned_iff.1 p))

/-- The transaction table takes a reply in whatever state is around it. -/
theorem takeReply_taken (hr : s.AtRest) (ht : s.ReplyTaken l body t) :
    (carried b s).takeReply l body = carried b t ∧ t.AtRest ∧ t = carried s t := by
  obtain ⟨counted, poisoned, clean, cases⟩ := ht
  rw [takeReply_counted poisoned clean l]
  rcases cases with ⟨late, rfl⟩ | ⟨e, st, n, x, one, head, still, he, phase, rfl, valid, found, lone, watches, rfl⟩ |
    ⟨e, n, op, err, v, one, still, he, phase, kind, rfl, lone, rfl⟩
  · refine ⟨(matchReply_late (s := carried b { s with counters := counted }) late).trans ?_, atRest_same hr rfl rfl rfl rfl, rfl⟩
    have counts : counted.lateReplies = s.counters.lateReplies := by
      by_cases h : poisonedReply body
      · rw [poisoned h]
      · rw [clean h]
    unfold State.raiseLateReplies
    rw [← counts]
    rfl
  · obtain rfl : e.line = l := Happenings.line_of_entryFor he
    have ways : s.install e.line st x = { s with lines := (s.install e.line st x).lines } := install_eq rfl e.line st x
    have hs := serves_waiters _ he head still lone watches (ways ▸ heldValid_install found valid)
    have installed : (carried b { s with counters := counted }).install e.line st x
        = within (carried b { s with counters := counted }) { s with lines := (s.install e.line st x).lines } :=
      install_eq (s := s) (t := carried b { s with counters := counted }) rfl e.line st x
    rw [ways]
    refine ⟨?_, atRest_served _ hr still one he lone hs rfl rfl rfl rfl rfl, ?_⟩
    · refine (matchReply_fill (s := carried b { s with counters := counted }) he phase).trans ?_
      unfold State.installFill
      rw [installed, served_endEntry hs]
      rfl
    · rw [served_eq]
      rfl
  · obtain rfl : e.line = l := Happenings.line_of_entryFor he
    have alone := alone_of_lone lone still
    have rest : (e.waiters.foldl (State.resultWho op err v) s) = around s (e.waiters.foldl (State.resultWho op err v) s) :=
      fold_around (b := s) resultWho_around e.waiters s
    have ended : (e.waiters.foldl (State.resultWho op err v) s).waiting = [] := (result_dealt alone).waiting.trans still
    refine ⟨?_, atRest_dealt hr still one he lone (result_dealt alone) rfl rfl rfl rfl, ?_⟩
    · refine (matchReply_result (s := carried b { s with counters := counted }) he phase kind).trans ?_
      unfold State.takeResult State.endEntry
      have dealt := resultWaiters_around (b := carried b { s with counters := counted }) (op := op) (err := err) (v := v) alone
      rw [show carried b { s with counters := counted } = around (carried b { s with counters := counted }) s from rfl, dealt,
        rest]
      exact owePass_empty ended
    · rw [rest]
      rfl

/-! ### The verdict of a peer's reply (R45, R47, R86) -/

theorem exec_peer_reply {addressee : StationNo} {good mine : Bool} (retry : Bool) (hp : s.porst = false)
    (ht : s.span.tenure = .peerReply addressee l body good mine) : exec (.replyTenureVerdict retry) s
      = .next (s.count1.peerReplyVerdict addressee l body good (mine || retry)).settle.arbitrate := by
  show execReplyTenureVerdict retry s = _
  simp [execReplyTenureVerdict, hp, ht]

theorem peerReply_passes {addressee : StationNo} {good mine retry : Bool} (h : mine = true ∨ retry = true ∨ good = false ∨
      addressee ≠ s.station.number ∨ s.span.granted = some addressee ∨ s.station.mode = .inert) :
    s.peerReplyVerdict addressee l body good (mine || retry) = s.closeTenure := by
  refine if_neg ?_
  rcases h with rfl | rfl | rfl | h | h | h <;> simp_all

theorem peerReply_reaches (hm : s.station.mode ≠ .inert) (hg : s.span.granted ≠ some s.station.number) :
    s.peerReplyVerdict s.station.number l body true false = s.closeTenure.takeReply l body := by
  refine if_pos ?_
  simp [hm, hg]

/-- Settles O47: the reply passes by, or the transaction table takes it in the tenure closed. -/
theorem peerReplyIsTakenOrPasses : Obligations.PeerReplyIsTakenOrPasses := by
  intro s l body hp hr
  refine ⟨fun retry addressee good mine ht h => ?_, fun t hm ht hg taken => ?_⟩
  · refine closes (exec_peer_reply retry hp ht) ?_ hr rfl
    exact peerReply_passes (s := s.count1) h
  · obtain ⟨matched, rest, same⟩ := takeReply_taken (b := s.count1.closeTenure) hr taken
    refine closes (exec_peer_reply false hp ht) ?_ rest (by rw [same]; rfl)
    refine ((peerReply_reaches (s := s.count1) hm hg).trans matched).trans ?_
    conv_rhs => rw [same]
    rfl

/-! ### The end of a home operation (R99 to R106) -/

variable {op : HomeOp} {rest : List HomeOp} {m : HomeMemory} {i : Instr}

/-- The home operation of each command that ends one. -/
theorem exec_home (hp : s.porst = false) (hd : s.homeDone = none) (hq : s.homeQueue = op :: rest)
    (hi : (i = .homeRead ∧ homeKind op = .read) ∨ (i = .homeWrite ∧ homeKind op = .write) ∨ (i = .homeDRead ∧ homeKind op = .dRead) ∨
      (i = .homeDWrite ∧ homeKind op = .dWrite) ∨ (i = .homeDAtomic ∧ homeKind op = .dAtomic)) :
    exec i s = .next (s.count1.finishHome op).settle := by
  have performing : s.performing = some op := by
    unfold State.performing
    rw [hd, hq]
    rfl
  have ends : ∀ k, homeKind op = k → s.endHome k = .next (s.count1.finishHome op).settle := by
    intro k hk
    simp [State.endHome, hp, performing, hk]
  rcases hi with ⟨rfl, hk⟩ | ⟨rfl, hk⟩ | ⟨rfl, hk⟩ | ⟨rfl, hk⟩ | ⟨rfl, hk⟩ <;> exact ends _ hk

/-- The home's memory after the operation and before its result is delivered. -/
def homeEnds (s : State) (m : HomeMemory) : State := { s.count1 with homeStore := m }

theorem finishHome_eq {r : Option ReplyBody} (h : homePerform s.homeStore op = (m, r)) :
    s.count1.finishHome op = (homeEnds s m).deliverHome op r := by
  unfold State.finishHome
  rw [show s.count1.homeStore = s.homeStore from rfl, h]
  rfl

theorem popHome_homeEnds (hd : s.homeDone = none) (hq : s.homeQueue = op :: rest) :
    (homeEnds s m).popHome = { homeEnds s m with homeQueue := rest } := by
  have queue : s.homeQueue.tail = rest := by rw [hq]; rfl
  unfold State.popHome
  rw [show (homeEnds s m).homeQueue = s.homeQueue from rfl, queue, ← hd]
  rfl

theorem deliver_reply {x : ReplyBody} (hd : s.homeDone = none) (hq : s.homeQueue = op :: rest)
    (peer : op.requester ≠ s.station.number) (room : s.takesReply op.line = true) :
    (homeEnds s m).deliverHome op (some x) = { homeEnds s m with
      homeQueue := rest
      replies := s.replies ++ [{ addressee := op.requester, line := op.line, body := x, voids := 0 }] } := by
  have offered : (homeEnds s m).deliverHome op (some x) = ((homeEnds s m).addReply op.requester op.line x).popHome :=
    (if_neg peer).trans (if_pos room)
  have queue : s.homeQueue.tail = rest := by rw [hq]; rfl
  rw [offered]
  unfold State.popHome State.addReply
  rw [show (homeEnds s m).homeQueue = s.homeQueue from rfl, queue, ← hd]
  rfl

theorem deliver_refused {x : ReplyBody} (peer : op.requester ≠ s.station.number) (room : ¬s.takesReply op.line = true) :
    (homeEnds s m).deliverHome op (some x) = { homeEnds s m with homeDone := some x } := (if_neg peer).trans (if_neg room)

/-- The result of each operation but a HOME-WRITE. -/
theorem homePerform_result {x : ReplyBody}
    (h : (i = .homeRead ∧ op.body = .read ∧ ∃ d, readLineTested s.homeStore (indexOf op.line) = (m, d) ∧ x = .fill d) ∨
        (i = .homeDRead ∧ ∃ w, op.body = .direct (.read w) ∧ homeDirectRead s.homeStore op.line w = (m, x)) ∨
        (i = .homeDWrite ∧ ∃ w mask v, op.body = .direct (.write w mask v) ∧
          homeDirectWrite s.homeStore op.line w mask v = (m, x)) ∨
        (i = .homeDAtomic ∧ ∃ w o y z, op.body = .direct (.atomic w o y z) ∧
          homeDirectAtomic s.homeStore op.line w o y z = (m, x))) :
    homePerform s.homeStore op = (m, some x) ∧
      ((i = .homeRead ∧ homeKind op = .read) ∨ (i = .homeWrite ∧ homeKind op = .write) ∨ (i = .homeDRead ∧ homeKind op = .dRead) ∨
        (i = .homeDWrite ∧ homeKind op = .dWrite) ∨ (i = .homeDAtomic ∧ homeKind op = .dAtomic)) := by
  unfold homePerform homeKind
  rcases h with ⟨hi, hb, d, hm, rfl⟩ | ⟨hi, w, hb, hm⟩ | ⟨hi, w, mask, v, hb, hm⟩ | ⟨hi, w, o, y, z, hb, hm⟩ <;>
    simp [hi, hb, hm]

/-- Settles O49: each operation ends at the head of its queue, and its result goes where its requester is. -/
theorem homeOperationDeliversItsResult : Obligations.HomeOperationDeliversItsResult := by
  intro s op rest m hp hr hd hq ends
  refine ⟨fun x hb hm => ?_, fun i x h => ?_⟩
  · have performed : homePerform s.homeStore op = (m, none) := by
      unfold homePerform
      simp [hb, hm]
    have finished : s.count1.finishHome op = { homeEnds s m with homeQueue := rest } :=
      (finishHome_eq performed).trans (popHome_homeEnds hd hq)
    obtain ⟨order, hpre, hs⟩ := settles (s := s) (t := { homeEnds s m with homeQueue := rest }) (atRest_same hr rfl rfl rfl rfl) rfl
    refine ⟨order, hpre, ?_⟩
    rw [exec_home hp hd hq (.inr (.inl ⟨rfl, by simp [homeKind, hb]⟩)), finished, hs]
    rfl
  · obtain ⟨performed, kind⟩ := homePerform_result h
    have run := exec_home hp hd hq kind
    rw [finishHome_eq performed] at run
    intro room
    refine ⟨fun peer => ⟨fun hroom => ?_, fun hroom => ?_⟩, fun t own taken => ?_⟩
    · obtain ⟨order, hpre, hs⟩ := settles (s := s) (t := { homeEnds s m with
        homeQueue := rest
        replies := s.replies ++ [{ addressee := op.requester, line := op.line, body := x, voids := 0 }] })
        (atRest_same hr rfl rfl rfl rfl) rfl
      refine ⟨order, hpre, ?_⟩
      rw [run, deliver_reply hd hq peer (takesReply_iff.2 hroom), hs]
      rfl
    · obtain ⟨order, hpre, hs⟩ := settles (s := s) (t := { homeEnds s m with homeDone := some x })
        (atRest_same hr rfl rfl rfl rfl) rfl
      refine ⟨order, hpre, ?_⟩
      rw [run, deliver_refused peer (fun h => hroom (takesReply_iff.1 h)), hs]
      rfl
    · obtain ⟨matched, atRest, same⟩ := takeReply_taken (b := { homeEnds s m with homeQueue := rest }) hr taken
      have delivered : (homeEnds s m).deliverHome op (some x) = carried { homeEnds s m with homeQueue := rest } t :=
        (if_pos own).trans ((congrArg (fun u : State => u.takeReply op.line x) (popHome_homeEnds hd hq)).trans matched)
      obtain ⟨order, hpre, hs⟩ := settles (s := s) (t := carried { homeEnds s m with homeQueue := rest } t)
        (atRest_same atRest rfl rfl rfl rfl) rfl
      refine ⟨order, hpre, ?_⟩
      rw [run, delivered, hs, same]
      rfl

end Sys2Proof.Proofs.Served
end

