-- ==== Sys2Proof/Proofs/Unordered.lean ====
section
/-! PROOFS. A recency order that is no permutation. Two statements of watches whose line leaves take for granted that the way it
left is the victim its refetch finds, for a free way is chosen first (R11). Where the set's recency order lacks that way, the
victim is a way that holds another line, and that line departs: its reservations break, which the statements leave standing.
No run reaches such an order, for every step keeps it a permutation, but the statements do not ask for one. -/

namespace Sys2Proof.Proofs.Unordered

open Sys2Proof Sys2Proof.Machine

/-- A WATCH of word 0 of line 0, in progress. -/
def watchHead : HostEntry := { tag := 0, req := .watch 0 0 1, place := 0, check := none, progress := .opened .active }

/-- Its watch table entry, ARMED on the compare value 0. -/
def armed : Watch := { phase := .armed, addr := 0, compare := 0, remaining := 1 }

/-- Lines 0 and 32 held in ways 0 and 1 of set 0, whose recency order has way 1 alone. -/
def disordered (x : LineState) : CacheSet :=
  { ways := #v[{ tag := some 0, state := x, data := zeroLine }, { tag := some 32, state := .cleanSole, data := zeroLine },
      Way.free, Way.free]
    order := [1] }

/-- A READY station that holds the two lines, watches line 0 for channel 1, and keeps a reservation on line 32 for channel 2. -/
def reserving (x : LineState) : State := { State.reset with
  porst := false
  station := { number := 0, count := 1, mode := .ready, sweep := 2048 }
  lines := (Vector.replicate 32 CacheSet.reset).set 0 (disordered x)
  hostTable := #v[[], [watchHead], [], []]
  watches := #v[none, some armed, none, none]
  reservations := #v[none, none, some 2048, none]
  nextPlace := 1 }

theorem tagAt_reserving : ∀ (i : Fin 32) (w : WayId), (reserving .shared).tagAt i w
    = if i = 0 ∧ w = 0 then some 0 else if i = 0 ∧ w = 1 then some 32 else none := by decide

variable {s : State}

/-- The two tags, each in its place. -/
theorem tag_cases (hs : ∀ (i : Fin 32) (w : WayId), s.tagAt i w
    = if i = 0 ∧ w = 0 then some 0 else if i = 0 ∧ w = 1 then some 32 else none) {i : Fin 32} {w : WayId} {l : LineAddr}
    (h : s.tagAt i w = some l) : i = 0 ∧ ((w = 0 ∧ l = 0) ∨ (w = 1 ∧ l = 32)) := by
  rw [hs] at h
  split at h
  · rename_i hi
    exact ⟨hi.1, .inl ⟨hi.2, (Option.some.inj h).symm⟩⟩
  · split at h
    · rename_i hi
      exact ⟨hi.1, .inr ⟨hi.2, (Option.some.inj h).symm⟩⟩
    · cases h

theorem onePlace_of_tags (hs : ∀ (i : Fin 32) (w : WayId), s.tagAt i w
    = if i = 0 ∧ w = 0 then some 0 else if i = 0 ∧ w = 1 then some 32 else none)
    (table : (s.table.map (fun e => e.line)).Nodup) (writebacks : s.writebacks = [])
    (replies : (s.replies.map (fun r => r.line) ++ s.span.setAside.toList).Nodup) : s.OnePlace where
  table := table
  writebacks := by rw [writebacks]; exact List.nodup_nil
  replies := replies
  set i w l h := by obtain ⟨rfl, ⟨-, rfl⟩ | ⟨-, rfl⟩⟩ := tag_cases hs h <;> decide
  region i w l h := by obtain ⟨-, ⟨-, rfl⟩ | ⟨-, rfl⟩⟩ := tag_cases hs h <;> decide
  way i w w' l h h' := by
    obtain ⟨-, ⟨rfl, rfl⟩ | ⟨rfl, rfl⟩⟩ := tag_cases hs h <;> obtain ⟨-, ⟨rfl, e⟩ | ⟨rfl, e⟩⟩ := tag_cases hs h' <;> cases e <;> rfl
  apart i w l h e he := by rw [writebacks] at he; cases he

theorem watchedBy_of (hw : s.watches = #v[none, some armed, none, none]) (hh : s.hostTable[(1 : ChanId)] = [watchHead]) :
    s.WatchedBy 0 1 armed watchHead where
  watch := by rw [hw]; rfl
  armed := rfl
  line := by decide
  head := hh
  active := rfl
  request := ⟨1, rfl⟩
  alone x y hn hx _ := by
    rw [hw] at hx
    fin_cases x
    · cases hx
    · exact absurd rfl hn
    · cases hx
    · cases hx

/-- Whether channel 2's reservation has broken. -/
def broken : Host.Outcome State Fault Refusal → Bool
  | .next t => t.reservations[(2 : ChanId)] = none
  | _ => false

/-! ### A FLUSH of the watched line -/

theorem presents_reserving : (reserving .shared).Presents 0 :=
  ⟨⟨rfl, rfl, by decide, rfl, rfl⟩, State.atRest_iff.2 (by decide), rfl⟩

theorem flush_breaks : broken (exec (.flush 0 0 0) (reserving .shared)) = true := by decide

/-- Refutes O31: the FLUSH of line 0 sends its refetch to the way of line 32, whose reservation breaks. -/
theorem not_departedWatchesFetchAgain : ¬ Obligations.DepartedWatchesFetchAgain := by
  intro h
  obtain ⟨dropped, -⟩ := h (reserving .shared) 0 1 armed watchHead 1 rfl presents_reserving.rest
    (onePlace_of_tags tagAt_reserving (by decide) rfl (by decide)) rfl (by decide) (watchedBy_of rfl rfl) rfl rfl
  obtain ⟨order, -, hx⟩ := (dropped (by decide)).2 0 0 0 presents_reserving (by decide) (by decide) rfl (by decide)
  have hb := flush_breaks
  rw [hx, if_pos (by decide)] at hb
  have kept : ((reserving .shared).reservations.map (fun r => r.filter (fun x => lineOf x ≠ 0)))[(2 : ChanId)] = none :=
    of_decide_eq_true hb
  rw [Fin.getElem_fin, Vector.getElem_map] at kept
  exact absurd kept (by decide)

/-! ### A peer's UPGRADE over a QUEUED one -/

/-- A CONDITIONAL of word 0 of line 0, joined. -/
def conditionalHead : HostEntry :=
  { tag := 0, req := .conditional 0 1, place := 1, check := none, progress := .opened .joined }

/-- The QUEUED UPGRADE of line 0 on which it waits. -/
def upgrade : TableEntry :=
  { line := 0, kind := .upgrade, phase := .queued 0, way := none, retry := 0, waiters := [.chan 0], orphan := false }

/-- Votes that read HOME alone, or none. -/
def votes (home : Bool) : Votes := { retry := false, home := home, supply := false, copy := false }

/-- The same station while a peer's UPGRADE of line 0 is on the span. -/
def overtaken : State := { reserving .shared with
  hostTable := #v[[conditionalHead], [watchHead], [], []]
  reservations := #v[some 0, none, some 2048, none]
  table := [upgrade]
  span := { (reserving .shared).span with tenure := .peer 2 0 (.table .upgrade) (votes false) }
  nextPlace := 2 }

theorem verdict_breaks : broken (exec (.requestTenureVerdict (votes true)) overtaken) = true := by decide

/-- Refutes O41: the UPGRADE is withdrawn, and the refetch of line 0 goes to the way of line 32, whose reservation breaks. -/
theorem not_overtakenUpgradeIsRewrittenOrWithdrawn : ¬ Obligations.OvertakenUpgradeIsRewrittenOrWithdrawn := by
  intro h
  have conditional : ∀ c, .chan c ∈ upgrade.waiters → overtaken.conditionalHead c = true →
      ∃ x, overtaken.hostTable[c] = [x] := by
    intro c hc _
    obtain rfl : c = 0 := by simpa [upgrade] using hc
    exact ⟨conditionalHead, rfl⟩
  obtain ⟨-, watched⟩ := h overtaken (votes true) (votes false) 2 0 .upgrade upgrade rfl (State.atRest_iff.2 (by decide))
    (onePlace_of_tags tagAt_reserving (by decide) rfl (by decide)) (.inr rfl) rfl (by decide) (by decide) rfl nofun conditional
    .taken (by decide) nofun (.inl rfl)
  obtain ⟨order, next, -, hx⟩ := (watched 1 armed watchHead (watchedBy_of rfl rfl)).2 1 (by decide) (by decide) (by decide)
  have hb := verdict_breaks
  rw [hx] at hb
  have kept : ((overtaken.reservations.map (fun r => r.filter (fun x => lineOf x ≠ 0))).set 0 none)[(2 : ChanId)] = none :=
    of_decide_eq_true hb
  rw [Fin.getElem_fin, Vector.getElem_set_ne _ _ (by decide), Vector.getElem_map] at kept
  exact absurd kept (by decide)

end Sys2Proof.Proofs.Unordered
end

