-- ==== Sys2Proof/Proofs/Departures.lean ====
section
/-! PROOFS. The reports of the line array on each channel: what breaks its reservation, what answers its watch, and what moves
it to REFETCH (R9, R10, R147, R148, R150, R159 to R161). -/

namespace Sys2Proof.Proofs.Departures

open Sys2Proof Sys2Proof.Machine Sys2Proof.Proofs.Waiters

variable {s t u : State} {c d : ChanId} {h e : HostEntry} {l : LineAddr} {a : Addr} {v : Word} {p : Addr → Bool}

/-! ### A head completed, as the other channels see it -/

theorem hostTable_complete_ne (hd : c ≠ d) (st : Machine.Status) (data : List Word) :
    (s.complete c st data).hostTable[d] = s.hostTable[d] := by
  have hn : (c : Nat) ≠ d := fun e => hd (Fin.ext e)
  simp [State.complete, State.unwait, State.updateHead, Vector.getElem_set_ne _ _ hn]

theorem head_complete_ne (hd : c ≠ d) (st : Machine.Status) (data : List Word) : (s.complete c st data).head? d = s.head? d := by
  unfold State.head?
  rw [hostTable_complete_ne hd]

theorem conditionalHead_of_head (h : t.head? c = s.head? c) : t.conditionalHead c = s.conditionalHead c := by
  unfold State.conditionalHead
  rw [h]

theorem isWaiting_unwait_ne {who other : Who} (h : who ≠ other) : (s.unwait who).isWaiting other = s.isWaiting other := by
  simp only [State.isWaiting, State.unwait, List.any_filter]
  congr 1
  funext x
  by_cases hx : x.who = other
  · simp [hx, Ne.symm h]
  · simp [hx]

theorem isWaiting_unwait_self (who : Who) : (s.unwait who).isWaiting who = false := by
  simp [State.isWaiting, State.unwait]

theorem isWaiting_complete_ne {who : Who} (hd : Who.chan c ≠ who) (st : Machine.Status) (data : List Word) :
    (s.complete c st data).isWaiting who = s.isWaiting who :=
  isWaiting_unwait_ne (s := s.updateHead c _) hd

theorem complete_reservations (st : Machine.Status) (data : List Word) (r : Vector (Option Addr) 4) :
    State.complete { s with reservations := r } c st data = { s.complete c st data with reservations := r } := rfl

/-! ### Reservations broken (R147, R148, R150) -/

/-- The reservation is to break, and the channel's CONDITIONAL waits for it. -/
def breaks (s : State) (p : Addr → Bool) (c : ChanId) : Bool :=
  s.reservations[c].any p && (s.isWaiting (.chan c) && s.conditionalHead c)

/-- A channel's CONDITIONAL completes FAIL. -/
def fail (s : State) (c : ChanId) : State := s.complete c .fail []

/-- What is left of a channel's reservation. -/
def kept (p : Addr → Bool) (r : Option Addr) : Option Addr := r.filter (fun a => !p a)

theorem set_same (r : Vector (Option Addr) 4) (c : ChanId) : r.set c r[c] = r := by
  ext i hi
  simp

theorem break_step (s : State) (p : Addr → Bool) (c : ChanId) : (if s.reservations[c].any p then s.breakReservation c else s)
    = { (if breaks s p c then fail s c else s) with reservations := s.reservations.set c (kept p s.reservations[c]) } := by
  by_cases hp : s.reservations[c].any p = true
  · have gone : kept p s.reservations[c] = none := by
      unfold kept
      cases hr : s.reservations[c] <;> simp_all
    rw [if_pos hp, gone]
    unfold breaks
    rw [hp, Bool.true_and]
    unfold State.breakReservation
    by_cases hw : (s.isWaiting (.chan c) && s.conditionalHead c) = true
    · rw [if_pos hw]
      exact if_pos hw
    · rw [if_neg hw]
      exact if_neg hw
  · have same : kept p s.reservations[c] = s.reservations[c] := by
      unfold kept
      cases hr : s.reservations[c] <;> simp_all
    have stands : breaks s p c = false := by
      unfold breaks
      rw [Bool.eq_false_iff.2 hp]
      rfl
    rw [if_neg hp, same, set_same, stands]
    rfl

theorem breaks_next (hd : c ≠ d) (r : Vector (Option Addr) 4) (hr : r[d] = s.reservations[d]) (b : Bool) :
    breaks { (if b then fail s c else s) with reservations := r } p d = breaks s p d := by
  have waits : State.isWaiting { (if b then fail s c else s) with reservations := r } (.chan d) = s.isWaiting (.chan d) := by
    cases b
    · rfl
    · exact isWaiting_complete_ne (s := s) (fun e => hd (Who.chan.inj e)) _ _
  have head : State.conditionalHead { (if b then fail s c else s) with reservations := r } d = s.conditionalHead d := by
    cases b
    · rfl
    · exact conditionalHead_of_head (head_complete_ne hd _ _)
  unfold breaks
  rw [waits, head]
  exact congrArg (fun x => x.any p && (s.isWaiting (.chan d) && s.conditionalHead d)) hr

theorem fold_fail_reservations (cs : List ChanId) (s : State) (r : Vector (Option Addr) 4) :
    cs.foldl fail { s with reservations := r } = { cs.foldl fail s with reservations := r } := by
  induction cs generalizing s with
  | nil => rfl
  | cons c cs ih => exact ih (fail s c)

/-- The CONDITIONALs that wait for a reservation that breaks complete; the reservations themselves are left by the test. -/
theorem breakReservations_eq (s : State) (p : Addr → Bool) : s.breakReservations p
    = { (channels.filter (breaks s p)).foldl fail s with reservations := s.reservations.map (kept p) } := by
  have folded : ∀ (cs : List ChanId) (u : State), cs.Nodup → (∀ c ∈ cs, breaks u p c = breaks s p c) →
      cs.foldl (fun s c => if s.reservations[c].any p then s.breakReservation c else s) u
        = { (cs.filter (breaks s p)).foldl fail u with
            reservations := cs.foldl (fun (r : Vector (Option Addr) 4) (c : ChanId) => r.set c (kept p r[c])) u.reservations } := by
    intro cs
    induction cs with
    | nil => exact fun _ _ _ => rfl
    | cons c cs ih =>
      intro u nodup agree
      obtain ⟨fresh, nodup⟩ := List.nodup_cons.1 nodup
      rw [List.foldl_cons, break_step]
      refine (ih _ nodup fun d hd => ?_).trans ?_
      · have hn : c ≠ d := fun e => fresh (e ▸ hd)
        rw [breaks_next hn _ _ (breaks u p c)]
        · exact agree d (by simp [hd])
        · have hv : (c : Nat) ≠ d := fun e => hn (Fin.ext e)
          simp [Vector.getElem_set_ne _ _ hv]
      · rw [fold_fail_reservations, List.foldl_cons, List.filter_cons, ← agree c (by simp)]
        cases breaks u p c <;> rfl
  have all := folded channels s (by decide) fun _ _ => rfl
  rw [foldl_set_eq_map] at all
  exact all

/-! ### One channel among the others -/

/-- A channel's place among the four. -/
theorem channels_split (c : ChanId) : ∃ xs ys, channels = xs ++ c :: ys ∧ c ∉ xs ∧ c ∉ ys := by
  obtain ⟨xs, ys, split⟩ := List.append_of_mem (mem_channels c)
  have nodup : (xs ++ c :: ys).Nodup := split ▸ (by decide)
  rw [List.nodup_append] at nodup
  obtain ⟨-, behind, apart⟩ := nodup
  exact ⟨xs, ys, split, fun h => apart c h c (by simp) rfl, (List.nodup_cons.1 behind).1⟩

theorem foldl_keeps_apart {β : Type} {f : State → ChanId → State} {view : State → β} {cs : List ChanId}
    (keeps : ∀ u, ∀ d ∈ cs, view (f u d) = view u) (s : State) : view (cs.foldl f s) = view s := by
  induction cs generalizing s with
  | nil => rfl
  | cons d cs ih =>
    rw [List.foldl_cons, ih fun u x hx => keeps u x (by simp [hx])]
    exact keeps s d (by simp)

/-- What a fold over the channels leaves of one channel is what its own step leaves. -/
theorem foldl_channel {β : Type} {f : State → ChanId → State} {view : State → β} (c : ChanId)
    (keeps : ∀ u d, d ≠ c → view (f u d) = view u) (s : State) :
    ∃ u, view u = view s ∧ view (channels.foldl f s) = view (f u c) := by
  obtain ⟨xs, ys, split, before, behind⟩ := channels_split c
  refine ⟨xs.foldl f s, foldl_keeps_apart (fun u d hd => keeps u d fun e => before (e ▸ hd)) s, ?_⟩
  rw [split, List.foldl_append, List.foldl_cons]
  exact foldl_keeps_apart (fun u d hd => keeps u d fun e => behind (e ▸ hd)) _

/-! ### What the breaking of reservations leaves of a channel -/

/-- A channel's requests and watch, the latches, and whether the channel waits. -/
def onChannel (c : ChanId) (s : State) : List HostEntry × Option Watch × Vector (Option Latch) 4 × Bool :=
  (s.hostTable[c], s.watches[c], s.latches, s.isWaiting (.chan c))

theorem onChannel_fail_ne (hd : d ≠ c) : onChannel c (fail s d) = onChannel c s := by
  unfold onChannel fail
  rw [hostTable_complete_ne hd, isWaiting_complete_ne fun e => hd (Who.chan.inj e)]
  rfl

theorem onChannel_breakReservations (p : Addr → Bool) (c : ChanId) : ∃ u, onChannel c u = onChannel c s ∧
    onChannel c (s.breakReservations p) = onChannel c (if breaks s p c then fail u c else u) := by
  obtain ⟨u, before, after⟩ := foldl_channel (f := fun u d => if breaks s p d then fail u d else u) (view := onChannel c) c
    (fun u d hd => by
      cases breaks s p d
      · rfl
      · exact onChannel_fail_ne hd) s
  refine ⟨u, before, ?_⟩
  rw [breakReservations_eq, ← after]
  have filtered : (channels.filter (breaks s p)).foldl fail s = channels.foldl (fun u d => if breaks s p d then fail u d else u) s :=
    List.foldl_filter
  rw [← filtered]
  rfl

theorem onChannel_kept (hb : breaks s p c = false) : onChannel c (s.breakReservations p) = onChannel c s := by
  obtain ⟨u, before, after⟩ := onChannel_breakReservations (s := s) p c
  rw [after, hb]
  exact before

/-- The requests of a channel whose one request completes. -/
theorem hostTable_complete (hh : s.hostTable[c] = [h]) (ho : h.isOpen = true) (st : Machine.Status) (data : List Word) :
    (s.complete c st data).hostTable[c] = [{ h with progress := .ready st (s.latchSet c) data }] := by
  simp [State.complete, State.unwait, State.updateHead, hh, mapFirst, ho]

theorem isWaiting_complete (st : Machine.Status) (data : List Word) : (s.complete c st data).isWaiting (.chan c) = false :=
  isWaiting_unwait_self (s := s.updateHead c _) _

theorem onChannel_eq : onChannel c t = onChannel c s ↔ t.hostTable[c] = s.hostTable[c] ∧ t.watches[c] = s.watches[c] ∧
    t.latches = s.latches ∧ t.isWaiting (.chan c) = s.isWaiting (.chan c) := by
  simp only [onChannel, Prod.mk.injEq]

/-- A CONDITIONAL that waits for a reservation that breaks completes FAIL. -/
theorem onChannel_broken (hb : breaks s p c = true) (hh : s.hostTable[c] = [h]) (ho : h.isOpen = true) :
    onChannel c (s.breakReservations p)
      = ([{ h with progress := .ready .fail (s.latchSet c) [] }], s.watches[c], s.latches, false) := by
  obtain ⟨u, before, after⟩ := onChannel_breakReservations (s := s) p c
  obtain ⟨table, watches, latches, -⟩ := onChannel_eq.1 before
  rw [after, hb]
  have set : u.latchSet c = s.latchSet c := by unfold State.latchSet; rw [latches]
  rw [hh] at table
  refine Prod.ext ((hostTable_complete table ho .fail []).trans (by rw [set])) (Prod.ext watches (Prod.ext latches ?_))
  exact isWaiting_complete .fail []

theorem reservations_breakReservations : (s.breakReservations p).reservations[c] = kept p s.reservations[c] := by
  rw [breakReservations_eq, Fin.getElem_fin, Vector.getElem_map]
  rfl

theorem watches_breakReservations : (s.breakReservations p).watches[c] = s.watches[c] := by
  obtain ⟨u, before, after⟩ := onChannel_breakReservations (s := s) p c
  cases hb : breaks s p c
  · exact (onChannel_eq.1 (onChannel_kept hb)).2.1
  · rw [hb] at after
    have := congrArg (fun x => x.2.1) after
    exact this.trans (onChannel_eq.1 before).2.1

/-! ### The report of a store (R9, R148, R159) -/

theorem watchStore_ne (hd : d ≠ c) : onChannel c (s.watchStore d a v) = onChannel c s := by
  have hn : (d : Nat) ≠ c := fun e => hd (Fin.ext e)
  unfold State.watchStore
  split
  · split
    · refine onChannel_eq.2 ⟨hostTable_complete_ne hd _ _, ?_, rfl, isWaiting_complete_ne (fun e => hd (Who.chan.inj e)) _ _⟩
      exact Vector.getElem_set_ne d.isLt c.isLt hn
    · rfl
  · rfl

theorem reservations_watchStore : (s.watchStore d a v).reservations = s.reservations := by
  unfold State.watchStore
  split
  · split <;> rfl
  · rfl

theorem reservations_reportStore :
    (s.reportStore a v).reservations[c] = if s.reservations[c] = some a then none else s.reservations[c] := by
  have stands : (s.reportStore a v).reservations = (s.breakReservations (fun x => x = a)).reservations :=
    foldl_keeps (fun u : State => u.reservations) (fun u d => u.watchStore d a v) (fun _ _ => reservations_watchStore) channels _
  rw [stands, reservations_breakReservations]
  unfold kept
  cases hr : s.reservations[c] with
  | none => rfl
  | some b =>
    by_cases hb : b = a
    · simp [hb]
    · simp [hb]

/-- A channel after the report of a store: its own watch's answer, on what the breaking of reservations left of it. -/
theorem onChannel_reportStore (a : Addr) (v : Word) (c : ChanId) : ∃ u,
    onChannel c u = onChannel c (s.breakReservations (fun x => x = a)) ∧
      onChannel c (s.reportStore a v) = onChannel c (u.watchStore c a v) :=
  foldl_channel (f := fun u d => u.watchStore d a v) (view := onChannel c) c (fun _ _ hd => watchStore_ne hd) _

theorem watchStore_answers {w : Watch} (hw : s.watches[c] = some w) (ha : w.phase = .armed ∧ w.addr = a ∧ v ≠ w.compare) :
    s.watchStore c a v = (s.freeWatch c).complete c .ok [v] := by
  have differs : (w.phase = .armed && w.addr = a && w.compare ≠ v) = true := by simp [ha.1, ha.2.1, Ne.symm ha.2.2]
  unfold State.watchStore
  rw [hw]
  exact if_pos differs

theorem watchStore_passes (h : ∀ w, s.watches[c] = some w → ¬(w.phase = .armed ∧ w.addr = a ∧ v ≠ w.compare)) :
    s.watchStore c a v = s := by
  unfold State.watchStore
  split
  · rename_i w hw
    refine if_neg fun hc => h w hw ?_
    simp only [Bool.and_eq_true, decide_eq_true_eq] at hc
    exact ⟨hc.1.1, hc.1.2, Ne.symm hc.2⟩
  · rfl

theorem watches_reportStore {w : Watch} (hw : s.watches[c] = some w) : (s.reportStore a v).watches[c]
    = if w.phase = .armed ∧ w.addr = a ∧ v ≠ w.compare then none else some w := by
  obtain ⟨u, before, after⟩ := onChannel_reportStore (s := s) a v c
  have watch : u.watches[c] = some w := (onChannel_eq.1 before).2.1.trans (watches_breakReservations.trans hw)
  rw [(onChannel_eq.1 after).2.1]
  by_cases ha : w.phase = .armed ∧ w.addr = a ∧ v ≠ w.compare
  · rw [watchStore_answers watch ha, if_pos ha]
    exact Vector.getElem_set_self _
  · rw [if_neg ha, watchStore_passes fun x hx => ?_, watch]
    obtain rfl : x = w := Option.some.inj (hx.symm.trans watch)
    exact ha

theorem watches_reportStore_none (hw : s.watches[c] = none) : (s.reportStore a v).watches[c] = none := by
  obtain ⟨u, before, after⟩ := onChannel_reportStore (s := s) a v c
  have watch : u.watches[c] = none := (onChannel_eq.1 before).2.1.trans (watches_breakReservations.trans hw)
  rw [(onChannel_eq.1 after).2.1, watchStore_passes fun x hx => ?_, watch]
  rw [watch] at hx
  cases hx

/-- The head that a channel's watch concerns is no CONDITIONAL's. -/
theorem breaks_false (hh : s.hostTable[c] = [h]) (ho : h.isOpen = true) (hc : h.req.isConditional = false) :
    breaks s p c = false := by
  have head : s.conditionalHead c = false := by
    unfold State.conditionalHead
    rw [head_lone hh ho]
    exact hc
  unfold breaks
  rw [head, Bool.and_false, Bool.and_false]

theorem hostTable_reportStore {w : Watch} (hh : s.hostTable[c] = [h]) (ho : h.isOpen = true) (hc : h.req.isConditional = false)
    (hw : s.watches[c] = some w) (ha : w.phase = .armed) (hv : v ≠ w.compare) :
    (s.reportStore w.addr v).hostTable[c] = [{ h with progress := .ready .ok (s.latchSet c) [v] }] := by
  obtain ⟨u, before, after⟩ := onChannel_reportStore (s := s) w.addr v c
  obtain ⟨table, watch, latches, -⟩ := onChannel_eq.1 (before.trans (onChannel_kept (breaks_false hh ho hc)))
  have set : u.latchSet c = s.latchSet c := by unfold State.latchSet; rw [latches]
  rw [(onChannel_eq.1 after).1, watchStore_answers (watch.trans hw) ⟨ha, rfl, hv⟩, ← set]
  exact hostTable_complete (s := u.freeWatch c) (table.trans hh) ho .ok [v]

theorem breaks_true (hr : s.reservations[c] = some a) (hp : p a = true) (hh : s.hostTable[c] = [h]) (ho : h.isOpen = true)
    (hc : h.req.isConditional = true) (hw : s.isWaiting (.chan c) = true) : breaks s p c = true := by
  have head : s.conditionalHead c = true := by
    unfold State.conditionalHead
    rw [head_lone hh ho]
    exact hc
  unfold breaks
  rw [head, hw, hr]
  simpa using hp

/-- A completion that finds no head leaves the channel's requests as they are. -/
theorem hostTable_complete_done (hh : s.hostTable[c] = [h]) (ho : h.isOpen = false) (st : Machine.Status) (data : List Word) :
    (s.complete c st data).hostTable[c] = [h] := by
  simp [State.complete, State.unwait, State.updateHead, hh, mapFirst, ho]

theorem conditional_reportStore (hr : s.reservations[c] = some a) (hh : s.hostTable[c] = [h]) (ho : h.isOpen = true)
    (hc : h.req.isConditional = true) (hw : s.isWaiting (.chan c) = true) :
    (s.reportStore a v).hostTable[c] = [{ h with progress := .ready .fail (s.latchSet c) [] }] ∧
      (s.reportStore a v).isWaiting (.chan c) = false := by
  obtain ⟨u, before, after⟩ := onChannel_reportStore (s := s) a v c
  rw [onChannel_broken (breaks_true hr (by simp) hh ho hc hw) hh ho] at before
  obtain ⟨table, -, -, waits⟩ : u.hostTable[c] = [{ h with progress := .ready .fail (s.latchSet c) [] }] ∧
      u.watches[c] = s.watches[c] ∧ u.latches = s.latches ∧ u.isWaiting (.chan c) = false := by
    simpa only [onChannel, Prod.mk.injEq] using before
  obtain ⟨table', -, -, waits'⟩ := onChannel_eq.1 after
  rw [table', waits']
  unfold State.watchStore
  split
  · split
    · exact ⟨hostTable_complete_done (s := u.freeWatch c) table rfl _ _, isWaiting_complete (s := u.freeWatch c) _ _⟩
    · exact ⟨table, waits⟩
  · exact ⟨table, waits⟩

/-! ### The report of a departure (R10, R147, R160, R161) -/

/-- The refetch of a watch that moves to REFETCH, in the waiting list at its WATCH's place. -/
def refetch (s : State) (c : ChanId) : Waiting := { who := .chan c, place := s.headPlace c, pendingFlush := false, due := true }

theorem watchDepart_eq (s : State) (d : ChanId) (l : LineAddr) : s.watchDepart d l = s ∨
    ∃ w, s.watches[d] = some w ∧ w.phase = .armed ∧ lineOf w.addr = l ∧ s.watchDepart d l
      = State.owePass { s with
        watches := s.watches.set d (some { w with phase := .refetch })
        waiting := insertBy (fun y => y.place) (refetch s d) s.waiting } := by
  unfold State.watchDepart
  split
  · rename_i w hw
    split
    · rename_i hc
      obtain ⟨ha, hl⟩ : w.phase = .armed ∧ lineOf w.addr = l := by simpa using hc
      exact .inr ⟨w, hw, ha, hl, rfl⟩
    · exact .inl rfl
  · exact .inl rfl

theorem watchDepart_moves {w : Watch} (hw : s.watches[c] = some w) (ha : w.phase = .armed) (hl : lineOf w.addr = l) :
    s.watchDepart c l = State.owePass { s with
      watches := s.watches.set c (some { w with phase := .refetch })
      waiting := insertBy (fun y => y.place) (refetch s c) s.waiting } := by
  have moves : (w.phase = .armed && lineOf w.addr = l) = true := by simp [ha, hl]
  unfold State.watchDepart
  rw [hw]
  exact if_pos moves

theorem watchDepart_side (d : ChanId) : (s.watchDepart d l).hostTable = s.hostTable ∧
    (s.watchDepart d l).reservations = s.reservations := by
  rcases watchDepart_eq s d l with h | ⟨w, -, -, -, h⟩ <;> rw [h] <;> exact ⟨rfl, rfl⟩

theorem watchDepart_watches_ne (hd : d ≠ c) : (s.watchDepart d l).watches[c] = s.watches[c] := by
  have hn : (d : Nat) ≠ c := fun e => hd (Fin.ext e)
  rcases watchDepart_eq s d l with h | ⟨w, -, -, -, h⟩ <;> rw [h]
  exact Vector.getElem_set_ne d.isLt c.isLt hn

theorem isWaiting_owePass (who : Who) : s.owePass.isWaiting who = s.isWaiting who := by
  simp only [State.isWaiting, State.owePass, List.any_map]
  rfl

theorem isWaiting_insertBy {x : Waiting} {who : Who} (hx : x.who ≠ who) :
    State.isWaiting { s with waiting := insertBy (fun y => y.place) x s.waiting } who = s.isWaiting who := by
  unfold State.isWaiting
  rw [(insertBy_perm _ x s.waiting).any_eq, List.any_cons]
  simp [hx]

theorem watchDepart_waits_ne (hd : d ≠ c) : (s.watchDepart d l).isWaiting (.chan c) = s.isWaiting (.chan c) := by
  rcases watchDepart_eq s d l with h | ⟨w, -, -, -, h⟩ <;> rw [h]
  rw [isWaiting_owePass]
  exact isWaiting_insertBy fun e => hd (Who.chan.inj e)

theorem depart_side : (s.depart l).hostTable = (s.breakReservations (fun a => lineOf a = l)).hostTable ∧
    (s.depart l).reservations = (s.breakReservations (fun a => lineOf a = l)).reservations :=
  ⟨foldl_keeps (fun u : State => u.hostTable) (fun u d => u.watchDepart d l) (fun _ d => (watchDepart_side d).1) channels _,
    foldl_keeps (fun u : State => u.reservations) (fun u d => u.watchDepart d l) (fun _ d => (watchDepart_side d).2) channels _⟩

theorem reservations_depart : (s.depart l).reservations[c] = kept (fun a => lineOf a = l) s.reservations[c] := by
  rw [depart_side.2, reservations_breakReservations]

theorem watches_depart : ∃ u : State, u.watches[c] = s.watches[c] ∧ (s.depart l).watches[c] = (u.watchDepart c l).watches[c] := by
  obtain ⟨u, before, after⟩ := foldl_channel (f := fun u d => u.watchDepart d l) (view := fun u => u.watches[c]) c
    (fun _ _ hd => watchDepart_watches_ne hd) (s.breakReservations (fun a => lineOf a = l))
  exact ⟨u, before.trans watches_breakReservations, after⟩

theorem watches_depart_some {w : Watch} (hw : s.watches[c] = some w) : (s.depart l).watches[c]
    = some (if w.phase = .armed ∧ lineOf w.addr = l then { w with phase := .refetch } else w) := by
  obtain ⟨u, before, after⟩ := watches_depart (s := s) (c := c) (l := l)
  rw [hw] at before
  rw [after]
  unfold State.watchDepart
  rw [before]
  by_cases ha : w.phase = .armed ∧ lineOf w.addr = l
  · rw [if_pos ha]
    simp [ha.1, ha.2, State.owePass, State.enterWaiting]
  · rw [if_neg ha]
    have passes : ¬(w.phase = .armed && lineOf w.addr = l) = true := by simpa using ha
    simp only [if_neg passes]
    exact before

theorem watches_depart_none (hw : s.watches[c] = none) : (s.depart l).watches[c] = none := by
  obtain ⟨u, before, after⟩ := watches_depart (s := s) (c := c) (l := l)
  rw [hw] at before
  rw [after]
  unfold State.watchDepart
  rw [before]
  exact before

theorem isWaiting_depart (hw : s.watches[c] = none) :
    (s.depart l).isWaiting (.chan c) = (s.breakReservations (fun a => lineOf a = l)).isWaiting (.chan c) := by
  obtain ⟨u, before, after⟩ := foldl_channel (f := fun u d => u.watchDepart d l)
    (view := fun u => (u.watches[c], u.isWaiting (.chan c))) c
    (fun _ _ hd => Prod.ext (watchDepart_watches_ne hd) (watchDepart_waits_ne hd)) (s.breakReservations (fun a => lineOf a = l))
  obtain ⟨watch, waits⟩ := Prod.mk.inj before
  have idle : u.watchDepart c l = u := by
    unfold State.watchDepart
    rw [watch.trans (watches_breakReservations.trans hw)]
  rw [idle] at after
  obtain ⟨-, same⟩ := Prod.mk.inj after
  unfold State.depart
  exact same.trans waits

theorem conditional_depart (hr : s.reservations[c] = some a) (hh : s.hostTable[c] = [h]) (ho : h.isOpen = true)
    (hc : h.req.isConditional = true) (hw : s.isWaiting (.chan c) = true) :
    (s.depart (lineOf a)).hostTable[c] = [{ h with progress := .ready .fail (s.latchSet c) [] }] ∧
      (s.watches[c] = none → (s.depart (lineOf a)).isWaiting (.chan c) = false) := by
  have broken := onChannel_broken (p := fun b => lineOf b = lineOf a) (breaks_true hr (by simp) hh ho hc hw) hh ho
  refine ⟨?_, fun hx => ?_⟩
  · rw [depart_side.1]
    exact congrArg Prod.fst broken
  · rw [isWaiting_depart hx]
    exact congrArg (fun x => x.2.2.2) broken

/-- The refetch of a channel stays in the waiting list while the other channels' watches are moved. -/
theorem refetch_kept {x : Waiting} (hx : x ∈ s.waiting) (due : x.due = true) (d : ChanId) : x ∈ (s.watchDepart d l).waiting := by
  rcases watchDepart_eq s d l with h | ⟨w, -, -, -, h⟩ <;> rw [h]
  · exact hx
  · refine List.mem_map.2 ⟨x, ((insertBy_perm _ _ _).mem_iff).2 (by simp [hx]), ?_⟩
    rw [← due]

theorem refetch_depart {w : Watch} (hh : s.hostTable[c] = [h]) (ho : h.isOpen = true) (hc : h.req.isConditional = false)
    (hw : s.watches[c] = some w) (ha : w.phase = .armed) (hl : lineOf w.addr = l) :
    { who := .chan c, place := h.place, pendingFlush := false, due := true } ∈ (s.depart l).waiting := by
  obtain ⟨xs, ys, split, before, -⟩ := channels_split c
  obtain ⟨table, watch, -⟩ := onChannel_eq.1 (onChannel_kept (p := fun a => lineOf a = l) (breaks_false hh ho hc))
  generalize hb : s.breakReservations (fun a => lineOf a = l) = b at table watch
  have early : (xs.foldl (fun u d => u.watchDepart d l) b).watches[c] = some w ∧
      (xs.foldl (fun u d => u.watchDepart d l) b).hostTable[c] = [h] := by
    have view := foldl_keeps_apart (f := fun u d => u.watchDepart d l) (view := fun u => (u.watches[c], u.hostTable)) (cs := xs)
      (fun u d hd => Prod.ext (watchDepart_watches_ne fun e => before (e ▸ hd)) (watchDepart_side d).1) b
    obtain ⟨hx, ht⟩ := Prod.mk.inj view
    rw [hx, ht]
    exact ⟨watch.trans hw, table.trans hh⟩
  generalize hu : xs.foldl (fun u d => u.watchDepart d l) b = u at early
  have place : u.headPlace c = h.place := by
    unfold State.headPlace
    rw [head_lone early.2 ho]
  have moved : { who := .chan c, place := h.place, pendingFlush := false, due := true } ∈ (u.watchDepart c l).waiting := by
    rw [watchDepart_moves early.1 ha hl]
    refine List.mem_map.2 ⟨refetch u c, ((insertBy_perm _ _ _).mem_iff).2 (by simp), ?_⟩
    unfold refetch
    rw [place]
  have stays : ∀ (cs : List ChanId) (u : State), { who := .chan c, place := h.place, pendingFlush := false, due := true } ∈ u.waiting →
      { who := .chan c, place := h.place, pendingFlush := false, due := true } ∈ (cs.foldl (fun u d => u.watchDepart d l) u).waiting := by
    intro cs
    induction cs with
    | nil => exact fun _ h => h
    | cons d cs ih => exact fun u h => ih _ (refetch_kept h rfl d)
  unfold State.depart
  rw [hb, split, List.foldl_append, List.foldl_cons, hu]
  exact stays ys _ moved

/-- Settles O11: each report, channel by channel. -/
theorem reportsReachEveryChannel : Obligations.ReportsReachEveryChannel := by
  intro s c
  refine ⟨fun a v => ⟨reservations_reportStore, fun w hw => watches_reportStore hw, watches_reportStore_none⟩,
    fun l => ⟨fun a hr => ?_, fun hr => ?_, fun w hw => watches_depart_some hw, watches_depart_none⟩, fun h hh ho => ?_⟩
  · rw [reservations_depart, hr]
    by_cases hl : lineOf a = l <;> simp [kept, hl]
  · rw [reservations_depart, hr]
    rfl
  · refine ⟨fun w v hw ha hv hc => hostTable_reportStore hh ho hc hw ha hv,
      fun l w hw ha hl hc => refetch_depart hh ho hc hw ha hl, fun a v hr hc hw => ?_⟩
    obtain ⟨stored, idle⟩ := conditional_reportStore (v := v) hr hh ho hc hw
    obtain ⟨departed, still⟩ := conditional_depart hr hh ho hc hw
    exact ⟨stored, idle, departed, still⟩

end Sys2Proof.Proofs.Departures
end

