-- ==== Sys2Proof/Proofs/Passes.lean ====
section
/-! PROOFS. A happening that goes on: each rule that applies is carried out, and the pass over the waiting list looks its
operations up, oldest first (R56, R114 to R117, R136, R137). -/

namespace Sys2Proof.Proofs.Passes

open Sys2Proof Sys2Proof.Machine Sys2Proof.Proofs.AtRest Sys2Proof.Proofs.OwnVerdicts Sys2Proof.Proofs.Waiters
open Sys2Proof.Proofs.Departures

variable {s t u b : State} {c d : ChanId} {h e : HostEntry} {l : LineAddr} {a : Addr} {v : Word} {x y : Waiting}

/-! ### One rule after another -/

theorem settleLoop_stable {n : Nat} (h : (settleLoop n s).nextRule = none) (m : Nat) : settleLoop (n + m) s = settleLoop n s := by
  induction n generalizing s with
  | zero => exact settleLoop_rest (State.atRest_iff.2 h) _
  | succ n ih =>
    rw [Nat.succ_add]
    unfold settleLoop at h ⊢
    cases hn : s.nextRule with
    | none => rfl
    | some t =>
      rw [hn] at h
      exact ih h

/-- A happening goes on in the state that its next rule leaves. -/
theorem settle_next (h : s.nextRule = some t) : s.settle = t.settle := by
  have nearer := nearer_measure (State.nextRule_nearer h)
  obtain ⟨m, hm⟩ := Nat.exists_eq_add_of_le (show t.measure + 1 ≤ s.measure by omega)
  have fuel : s.fuel = t.fuel + m + 1 := by
    show s.measure + 1 = t.measure + 1 + m + 1
    omega
  have rest : (settleLoop t.fuel t).nextRule = none := settleLoop_atRest _ _ (Nat.lt_succ_self t.measure)
  have goes : settleLoop s.fuel s = settleLoop t.fuel t := by
    rw [fuel, ← settleLoop_stable rest m]
    simp only [settleLoop, h]
  unfold State.settle
  rw [goes]

/-! ### Nothing left but the pass -/

/-- The station is at rest but for lookups that the pass owes. -/
structure Still (s : State) : Prop where
  posted : s.posted = [] ∨ s.isWaiting .posted = true ∨ s.isWaiter .posted = true
  heads : ∀ c e, s.head? c = some e → e.inPhase .waiting = false
  drains : ∀ c e, s.head? c = some e → e.inPhase .draining = true → s.postedOf c = true
  room : ∀ c e, s.head? c = some e → e.inPhase .active = true → e.req.isPosted = true → Config.postedEntries ≤ s.posted.length

theorem still_of_rest (h : s.AtRest) : Still s := ⟨h.posted, h.heads, h.drains, h.room⟩

theorem Still.rest (h : Still s) (hp : ∀ x ∈ s.waiting, x.due = false) : s.AtRest := ⟨h.posted, h.heads, h.drains, h.room, hp⟩

/-- The same blocks but for the waiting list, from which the posted write queue's head does not go, and fewer heads. -/
theorem Still.congr (hs : Still s) (hp : t.posted = s.posted) (hh : ∀ c e, t.head? c = some e → s.head? c = some e)
    (hw : s.isWaiting .posted = true → t.isWaiting .posted = true) (ht : s.isWaiter .posted = true → t.isWaiter .posted = true) :
    Still t where
  posted := hs.posted.imp (fun h => hp.trans h) (Or.imp hw ht)
  heads c e he := hs.heads c e (hh c e he)
  drains c e he hd := by
    have := hs.drains c e (hh c e he) hd
    unfold State.postedOf at this ⊢
    rwa [hp]
  room c e he ha hq := by
    rw [hp]
    exact hs.room c e (hh c e he) ha hq

theorem Still.nextRule (hs : Still s) : s.nextRule = s.rulePass := by
  have posted : s.rulePosted = none := by
    rcases hs.posted with h | h | h <;> simp [State.rulePosted, State.owesPosted, h]
  have drain : s.ruleDrain = none := by
    simp only [State.ruleDrain, Option.map_eq_none_iff, State.oldestHead_eq_none]
    intro c e he
    cases hd : e.inPhase .draining with
    | false => rfl
    | true => rw [hs.drains c e he hd]; rfl
  have head : s.ruleHead = none := by
    simp only [State.ruleHead, Option.map_eq_none_iff, State.oldestHead_eq_none]
    exact hs.heads
  have room : s.ruleRoom = none := by
    unfold State.ruleRoom
    split
    · rename_i hlt
      simp only [Option.map_eq_none_iff, State.oldestHead_eq_none, Bool.and_eq_false_iff]
      intro c e he
      by_contra hc
      simp only [not_or, Bool.not_eq_false] at hc
      exact absurd (hs.room c e he hc.1 hc.2) (by omega)
    · rfl
  unfold State.nextRule
  rw [posted, drain, head, room]
  rfl

/-! ### The pass (R56) -/

/-- The oldest that is owed its lookup is looked up. -/
theorem settle_pass (hs : Still s) {xs : List Waiting} (hx : leastBy (fun x => x.place) (s.waiting.filter (fun x => x.due)) = x :: xs) :
    s.settle = (s.lookupOp x.who true).settle := by
  refine settle_next ?_
  rw [hs.nextRule]
  unfold State.rulePass
  rw [hx]
  rfl

/-- The first of a list is the least where every other is greater. -/
theorem leastBy_head {α : Type} {key : α → Nat} {x : α} {ys : List α} (h : ∀ y ∈ ys, key x < key y) :
    leastBy key (x :: ys) = [x] := by
  have first : (x :: ys).all (fun y => decide (key x ≤ key y)) = true := by
    rw [List.all_eq_true]
    intro y hy
    rcases List.mem_cons.1 hy with rfl | hy
    · simp
    · exact decide_eq_true (Nat.le_of_lt (h y hy))
  have others : ys.filter (fun z => (x :: ys).all (fun y => decide (key z ≤ key y))) = [] := by
    rw [List.filter_eq_nil_iff]
    intro z hz hall
    have := of_decide_eq_true (List.all_eq_true.1 hall x (by simp))
    have := h z hz
    omega
  unfold leastBy
  rw [List.filter_cons, if_pos first, others]

theorem settle_one (hs : Still s) (hw : s.waiting = [x]) (hd : x.due = true) : s.settle = (s.lookupOp x.who true).settle := by
  refine settle_pass hs (xs := []) ?_
  rw [hw]
  simp [hd]

theorem settle_oldest {ys : List Waiting} (hs : Still s) (hw : s.waiting = x :: ys) (hx : x.due = true)
    (hy : ∀ y ∈ ys, x.place < y.place) : s.settle = (s.lookupOp x.who true).settle := by
  refine settle_pass hs (xs := []) ?_
  rw [hw, List.filter_cons, if_pos hx]
  exact leastBy_head fun y h => hy y (List.mem_of_mem_filter h)

theorem settle_younger (hs : Still s) (hw : s.waiting = [x, y]) (hx : x.due = false) (hy : y.due = true) :
    s.settle = (s.lookupOp y.who true).settle := by
  refine settle_pass hs (xs := []) ?_
  rw [hw]
  simp [hx, hy]

/-- The lookup of a waiting channel's head, once it is out of the waiting list. -/
theorem lookupOp_chan (hh : s.head? c = some h) (hu : s.unwait (.chan c) = u) (turn : Bool) : s.lookupOp (.chan c) turn
    = u.applyDecision (.chan c) h.place (s.waiting.any (fun x => x.who = .chan c && x.pendingFlush))
        (turn || u.mayTake h.place) (lineOf (h.req.addr?.getD 0)) (u.decideRequest c h.req) := by
  subst hu
  have head : (s.unwait (.chan c)).head? c = some h := hh
  unfold State.lookupOp
  simp only [head]

/-! ### A departure that no watch hears -/

theorem depart_unwatched (hu : s.Unwatched l) : s.depart l = s.breakReservations (fun a => lineOf a = l) := by
  have quiet : ∀ (cs : List ChanId) (t : State), t.Unwatched l → cs.foldl (fun s c => s.watchDepart c l) t = t := by
    intro cs
    induction cs with
    | nil => exact fun _ _ => rfl
    | cons c cs ih =>
      intro t ht
      have passes : t.watchDepart c l = t := by
        rcases watchDepart_eq t c l with h | ⟨w, hw, ha, hl, -⟩
        · exact h
        · exact absurd hl (ht c w hw ha)
      rw [List.foldl_cons, passes]
      exact ih t ht
  refine quiet channels _ fun c w hw ha => hu c w ?_ ha
  rwa [watches_breakReservations] at hw

theorem breakReservations_calm {p : Addr → Bool} (hb : ∀ c, breaks s p c = false) :
    s.breakReservations p = { s with reservations := s.reservations.map (fun r => r.filter (fun a => !p a)) } := by
  have quiet : channels.filter (breaks s p) = [] := List.filter_eq_nil_iff.2 fun c _ => by simp [hb c]
  rw [breakReservations_eq, quiet]
  rfl

theorem depart_calm (hu : s.Unwatched l) (hb : ∀ c, breaks s (fun a => lineOf a = l) c = false) :
    s.depart l = { s with reservations := s.reservations.map (fun r => r.filter (fun b => lineOf b ≠ l)) } := by
  rw [depart_unwatched hu, breakReservations_calm hb]
  simp only [← decide_not]

end Sys2Proof.Proofs.Passes
end

