-- ==== Sys2Proof/Proofs/Returns.lean ====
section
/-! PROOFS. The verdict of the station's own RETURN, and the pending FLUSHes that its freed room serves (R17, R44, R56, R75, R77,
R78, R134). -/

namespace Sys2Proof.Proofs.Returns

open Sys2Proof Sys2Proof.Machine Sys2Proof.Proofs.AtRest Sys2Proof.Proofs.OwnVerdicts Sys2Proof.Proofs.Waiters
open Sys2Proof.Proofs.Hits Sys2Proof.Proofs.Presented Sys2Proof.Proofs.Serving
open Sys2Proof.Proofs.Departures Sys2Proof.Proofs.Passes

variable {s t u b : State} {c : ChanId} {h : HostEntry} {l k : LineAddr} {a : Addr} {n : StationNo} {home : Bool} {others : Votes}
  {d : LineData} {e : WritebackEntry} {w : WayId}

/-! ### A line that leaves, as the other lines see it -/

theorem dropTag_found (h : s.findWay l = some w) :
    s.dropTag l = s.setWay l w { s.wayAt l w with tag := none, state := .invalid } := by
  unfold State.dropTag
  rw [h]

theorem tag_dropTag (hk : k ≠ l) (v : WayId) : ((s.dropTag l).wayAt k v).tag = some k ↔ (s.wayAt k v).tag = some k := by
  cases hw : s.findWay l with
  | none =>
    unfold State.dropTag
    rw [hw]
  | some w =>
    rw [dropTag_found hw]
    by_cases hs : setOf k = setOf l
    · by_cases hv : v = w
      · subst hv
        have dropped : ((s.setWay l v { s.wayAt l v with tag := none, state := .invalid }).wayAt k v)
            = { s.wayAt l v with tag := none, state := .invalid } := by
          have := wayAt_setWay_same (s := s) l v { s.wayAt l v with tag := none, state := .invalid }
          simpa only [State.wayAt, hs] using this
        have tagged : (s.wayAt k v).tag = some l := by
          have := (findWay_some hw).2
          simpa only [State.wayAt, hs] using this
        rw [dropped, tagged]
        simpa using Ne.symm hk
      · rw [wayAt_setWay_other _ (.inr hv)]
    · rw [wayAt_setWay_other _ (.inl hs)]

theorem findWay_dropTag_ne (hk : k ≠ l) : (s.dropTag l).findWay k = s.findWay k := findWay_congr fun v => tag_dropTag hk v

theorem wayAt_dropTag_ne (hk : k ≠ l) {v : WayId} (hv : s.findWay k = some v) : (s.dropTag l).wayAt k v = s.wayAt k v := by
  cases hw : s.findWay l with
  | none =>
    unfold State.dropTag
    rw [hw]
  | some w =>
    rw [dropTag_found hw]
    by_cases hs : setOf k = setOf l
    · refine wayAt_setWay_other _ (.inr ?_)
      rintro rfl
      have held := (findWay_some hv).2
      have left := (findWay_some hw).2
      simp only [State.wayAt, hs] at held left
      exact hk (Option.some.inj (held.symm.trans left))
    · exact wayAt_setWay_other _ (.inl hs)

theorem lookup_dropTag_ne (hk : k ≠ l) : (s.dropTag l).lookup k = s.lookup k := by
  unfold State.lookup
  rw [findWay_dropTag_ne hk]
  cases hv : s.findWay k with
  | none => rfl
  | some v => exact congrArg (fun x : Way => some x.state) (wayAt_dropTag_ne hk hv)

theorem heldDirty_of_lookup (h : t.lookup l = s.lookup l) : t.heldDirty l = s.heldDirty l := by
  unfold State.heldDirty
  rw [h]

/-! ### The verdict of a RETURN -/

theorem void_of_votes {body : RequestBody} (h : others.retry = true ∨ (home = false ∧ others.home = false)) :
    classify body (orVotes (ownVotes home) others) = .void := by
  rcases h with h | ⟨h, h'⟩
  · exact Verdict.classify_void_of_retry (by simp [orVotes, h])
  · exact Verdict.classify_void_of_no_home (by simp [orVotes, ownVotes, h, h'])

theorem writebackVerdict_found (he : s.writebackFor l = some e) (v : Machine.Verdict) :
    s.writebackVerdict l v = s.returnVerdict e v := by
  unfold State.writebackVerdict
  rw [he]

theorem line_of_writebackFor (he : s.writebackFor l = some e) : e.line = l := by simpa using List.find?_some he

/-- The writeback buffer as a VOID of the line's RETURN leaves it. -/
def retried (s : State) (l : LineAddr) (e : WritebackEntry) : State := { s with
  counters := { s.counters with voided := s.counters.voided + 1 }
  writebacks := s.writebacks.map (fun x => if x.line = l then { x with retry := min (e.retry + 1) 255, age := s.now + 1 } else x)
  span := { s.span with
    homeReserved := false
    yields := if 32 ≤ min (e.retry + 1) 255 then some l else s.span.yields } }

theorem return_void (he : s.writebackFor l = some e) : (s.count1.ownEnds l (.ret d) .void).writebackVerdict l .void
    = (retried s l e).count1.closeTenure := by
  obtain rfl := line_of_writebackFor he
  rw [ownEnds_void, writebackVerdict_found (by exact he)]
  show (if urgentCount (min (e.retry + 1) Config.giveUpAt) then _ else _) = _
  by_cases hu : 32 ≤ min (e.retry + 1) 255
  · have urgent : urgentCount (min (e.retry + 1) Config.giveUpAt) = true := decide_eq_true hu
    rw [if_pos urgent]
    unfold retried
    rw [if_pos hu]
    rfl
  · have calm : ¬urgentCount (min (e.retry + 1) Config.giveUpAt) = true :=
      fun h => hu (of_decide_eq_true h)
    rw [if_neg calm]
    unfold retried
    rw [if_neg hu]
    rfl

/-- The station as TAKEN of the line's RETURN leaves it: every waiting operation is owed its lookup. -/
def returned (s t : State) (l : LineAddr) (d : LineData) : State := { t with
  now := s.now + 1
  writebacks := s.writebacks.filter (fun x => x.line ≠ l)
  homeQueue := s.homeWith s.station.number l (.write d)
  span := (released s).span
  waiting := s.waiting.map (fun x => { x with due := true }) }

/-- The flush waiter, if the RETURN has one, has completed. -/
def FlushDone (s : State) (e : WritebackEntry) (t : State) : Prop :=
  (e.flush = none ∧ t = s) ∨ ∃ b g, e.flush = some b ∧ s.isWaiting (.chan b) = false ∧ s.hostTable[b] = [g] ∧
    g.isOpen = true ∧ t = s.answered b g .ok []

theorem exec_returned (hp : s.porst = false) (ht : s.span.tenure = .ownWriteback l (.request n l (.ret d)) home)
    (he : s.writebackFor l = some e) (hr : others.retry = false) (hh : home = true ∨ others.home = true)
    (done : FlushDone s e t) : exec (.ownTenureVerdict others) s = .next (returned s t l d).settle.arbitrate := by
  have taken : classify (.ret d) (orVotes (ownVotes home) others) = .taken := (classify_own hr hh).trans rfl
  have ends : s.count1.ownEnds l (Machine.frameBody (.request n l (.ret d))) .taken
      = { released s with homeQueue := s.homeWith s.station.number l (.write d) } := ownEnds_queued (.inr rfl) rfl
  obtain rfl := line_of_writebackFor he
  rw [exec_own_writeback hp ht taken, ends, writebackVerdict_found (by exact he)]
  rcases done with ⟨hf, rfl⟩ | ⟨b, g, hf, hw, hg, ho, rfl⟩
  · unfold State.returnVerdict
    rw [hf]
    rfl
  · unfold State.returnVerdict
    rw [hf]
    have owed : (returned s s e.line d).isWaiting (.chan b) = false := (isWaiting_owePass (s := s) _).trans hw
    exact congrArg (fun u : State => Host.Outcome.next u.settle.arbitrate) (complete_lone (s := returned s s e.line d) hg ho owed .ok [])

theorem FlushDone.fields (done : FlushDone s e t) : t.lines = s.lines ∧ t.table = s.table ∧ t.posted = s.posted ∧
    t.watches = s.watches ∧ t.reservations = s.reservations ∧ t.readyOrder = s.readyOrder ∧ t.span = s.span ∧ t.now = s.now ∧
    t.waiting = s.waiting := by
  rcases done with ⟨-, rfl⟩ | ⟨b, g, -, -, -, -, rfl⟩ <;> exact ⟨rfl, rfl, rfl, rfl, rfl, rfl, rfl, rfl, rfl⟩

theorem FlushDone.heads (done : FlushDone s e t) {x : HostEntry} (hx : t.head? c = some x) : s.head? c = some x := by
  rcases done with ⟨-, rfl⟩ | ⟨b, g, -, -, -, -, rfl⟩
  · exact hx
  · exact head_answered hx

theorem FlushDone.table (done : FlushDone s e t) (hw : s.isWaiting (.chan c) = true) : t.hostTable[c] = s.hostTable[c] := by
  rcases done with ⟨-, rfl⟩ | ⟨b, g, -, hb, -, -, rfl⟩
  · rfl
  · refine hostTable_answered_ne ?_ _ _
    rintro rfl
    rw [hb] at hw
    cases hw

/-! ### The pending FLUSHes that the room serves -/

/-- A pending FLUSH in the waiting list. -/
def pendingItem (c : ChanId) (h : HostEntry) (due : Bool) : Waiting :=
  { who := .chan c, place := h.place, pendingFlush := true, due := due }

/-- What the lookup of a FLUSH of a dirty line decides. -/
theorem decideFlush_dirty (hd : s.heldDirty l = true) (hh : s.held l = false) (he : s.entryFor l = none) :
    s.decideFlush l = .flushLine := by
  unfold State.heldDirty at hd
  cases hl : s.lookup l with
  | none => rw [hl] at hd; cases hd
  | some st =>
    rw [hl] at hd
    unfold State.decideFlush
    rw [not_direct_of_lookup hl, hh, he, hl]
    cases st with
    | invalid => cases hd
    | _ => rfl

theorem any_pendingItem (c : ChanId) (h : HostEntry) (due : Bool) (ws : List Waiting) :
    (pendingItem c h due :: ws).any (fun x => x.who = .chan c && x.pendingFlush) = true := by
  simp [pendingItem]

/-- The oldest pending FLUSH, its line dirty, takes the room; the younger ones are owed their lookups. -/
theorem lookupOp_takes {ws : List Waiting} (hw : s.waiting = pendingItem c h true :: ws) (hn : ∀ x ∈ ws, x.who ≠ .chan c)
    (head : s.head? c = some h) (hr : h.req = .flush a) (hd : s.heldDirty (lineOf a) = true) (hh : s.held (lineOf a) = false)
    (he : s.entryFor (lineOf a) = none) (room : s.writebackRoom = true) (watch : s.Unwatched (lineOf a))
    (calm : ∀ x, breaks (s.unwait (.chan c)) (fun b => lineOf b = lineOf a) x = false) : s.lookupOp (.chan c) true = { s with
      lines := (s.dropTag (lineOf a)).lines
      reservations := s.reservations.map (fun r => r.filter (fun b => lineOf b ≠ lineOf a))
      waiting := ws.map (fun x => { x with due := true })
      writebacks := s.writebacks ++ [{ line := lineOf a, data := s.lineData (lineOf a), retry := 0, flush := some c, age := s.now }] } := by
  have left : s.unwait (.chan c) = { s with waiting := ws } := by
    unfold State.unwait
    rw [hw, List.filter_cons]
    simp only [pendingItem, ne_eq, not_true_eq_false, decide_false, Bool.false_eq_true, if_false]
    rw [List.filter_eq_self.2 fun x hx => by simpa using hn x hx]
  rw [left] at calm
  have decided : State.decideRequest { s with waiting := ws } c h.req = .flushLine := by
    rw [hr]
    exact decideFlush_dirty (s := { s with waiting := ws }) hd hh he
  have added : (State.addWriteback { s with waiting := ws } (lineOf a) (s.lineData (lineOf a)) (some c)).lines = s.lines := rfl
  have gone := dropTag_eq added (lineOf a)
  rw [lookupOp_chan head left true, decided, hw, any_pendingItem, hr]
  show (State.flushHeld { s with waiting := ws } c h.place true true (lineOf a)) = _
  unfold State.flushHeld
  rw [if_pos (by exact hd), if_neg (by rw [show State.writebackRoom { s with waiting := ws } = true from room]; nofun)]
  simp only [if_true]
  rw [show State.lineData { s with waiting := ws } (lineOf a) = s.lineData (lineOf a) from rfl, gone, depart_calm (by exact watch) (by exact calm)]
  rfl

/-- A pending FLUSH of a dirty line that finds no room stays pending. -/
theorem lookupOp_stays (hw : s.waiting = [pendingItem c h true]) (head : s.head? c = some h) (hr : h.req = .flush a)
    (hd : s.heldDirty (lineOf a) = true) (hh : s.held (lineOf a) = false) (he : s.entryFor (lineOf a) = none)
    (room : s.writebackRoom = false) : s.lookupOp (.chan c) true = { s with waiting := [pendingItem c h false] } := by
  have left : s.unwait (.chan c) = { s with waiting := [] } := by
    unfold State.unwait
    rw [hw]
    simp [pendingItem]
  have decided : State.decideRequest { s with waiting := [] } c h.req = .flushLine := by
    rw [hr]
    exact decideFlush_dirty (s := { s with waiting := [] }) hd hh he
  rw [lookupOp_chan head left true, decided, hw, any_pendingItem, hr]
  show (State.flushHeld { s with waiting := [] } c h.place true true (lineOf a)) = _
  unfold State.flushHeld
  rw [if_pos (by exact hd), if_pos (by rw [show State.writebackRoom { s with waiting := [] } = false from room]; rfl)]
  rfl

theorem posted_not_pending {ws : List Waiting} (hw : s.waiting = ws) (hn : ∀ x ∈ ws, ∃ c, x.who = .chan c) :
    s.isWaiting .posted = false := by
  unfold State.isWaiting
  rw [hw, List.any_eq_false]
  intro x hx
  obtain ⟨c, hc⟩ := hn x hx
  simp [hc]

/-- What is left after the oldest pending FLUSH has taken the room. -/
def flushed (s t : State) (l : LineAddr) (d : LineData) (c : ChanId) (a : Addr) (later : List Waiting) : State := { t with
  lines := (s.dropTag (lineOf a)).lines
  reservations := s.reservations.map (fun r => r.filter (fun b => lineOf b ≠ lineOf a))
  waiting := later
  writebacks := s.writebacks.filter (fun x => x.line ≠ l) ++ [{
    line := lineOf a
    data := s.lineData (lineOf a)
    retry := 0
    flush := some c
    age := s.now + 1 }]
  homeQueue := s.homeWith s.station.number l (.write d)
  span := { s.span with homeReserved := false } }

/-- The lines of a station by those of another. -/
theorem heldDirty_of_lines (h : t.lines = s.lines) (l : LineAddr) : t.heldDirty l = s.heldDirty l :=
  heldDirty_of_lookup (lookup_of_lines h l)

/-- What waits is younger than a pending FLUSH, and no CONDITIONAL. -/
def Younger (s : State) (c : ChanId) (h : HostEntry) (ws : List Waiting) : Prop :=
  ∀ x ∈ ws, ∃ c' h', x.who = .chan c' ∧ c' ≠ c ∧ h.place < x.place ∧ s.hostTable[c'] = [h'] ∧ h'.req.isConditional = false

theorem isOpen_of_active (ho : h.inPhase .active = true) : h.isOpen = true := by
  have active : h.progress = .opened .active := of_decide_eq_true ho
  unfold HostEntry.isOpen
  rw [active]

theorem conditionalHead_lone (hh : s.hostTable[c] = [h]) (hc : h.req.isConditional = false) : s.conditionalHead c = false := by
  unfold State.conditionalHead State.head?
  rw [hh]
  cases ho : h.isOpen <;> simp [ho, hc]

theorem isWaiting_of_mem {ws : List Waiting} {x : Waiting} (hw : s.waiting = ws) (hx : x ∈ ws) (hc : x.who = .chan c) :
    s.isWaiting (.chan c) = true := by
  unfold State.isWaiting
  rw [hw, List.any_eq_true]
  exact ⟨x, hx, by simp [hc]⟩

theorem still_returned {ws : List Waiting} (done : FlushDone s e t) (hr : s.AtRest) (hw : s.waiting = pendingItem c h false :: ws)
    (young : Younger s c h ws) : Still (returned s t l d) := by
  obtain ⟨-, table, posted, -⟩ := done.fields
  have none_posted : s.isWaiting .posted = false := by
    refine posted_not_pending hw fun x hx => ?_
    rcases List.mem_cons.1 hx with rfl | hx
    · exact ⟨c, rfl⟩
    · obtain ⟨c', _, hc', -⟩ := young x hx
      exact ⟨c', hc'⟩
  refine (still_of_rest hr).congr (t := returned s t l d) posted (fun c x hx => done.heads hx) (fun h => ?_) fun h => ?_
  · rw [none_posted] at h
    cases h
  · unfold State.isWaiter at h ⊢
    rw [show (returned s t l d).table = s.table from table]
    exact h

/-- The oldest pending FLUSH takes the room of the RETURN that was taken. -/
theorem returned_takes {ws : List Waiting} (done : FlushDone s e t) (hr : s.AtRest)
    (hw : s.waiting = pendingItem c h false :: ws) (young : Younger s c h ws) (hh : s.hostTable[c] = [h])
    (ho : h.inPhase .active = true) (hq : h.req = .flush a) (hd : s.heldDirty (lineOf a) = true)
    (he : s.entryFor (lineOf a) = none) (watch : s.Unwatched (lineOf a))
    (room : (s.writebacks.filter (fun x => x.line ≠ l)).length = 1) : (returned s t l d).settle
      = (State.closeTenure (State.count1 (flushed s t l d c a (ws.map (fun x => { x with due := true }))))).settle := by
  obtain ⟨lines, table, -, watches, reservations, -, span, now, -⟩ := done.fields
  have isOpen := isOpen_of_active ho
  have waits : (returned s t l d).waiting = pendingItem c h true :: ws.map (fun x => { x with due := true }) := by
    show s.waiting.map _ = _
    rw [hw]
    rfl
  have head : (returned s t l d).head? c = some h :=
    head_lone ((done.table (isWaiting_of_mem hw List.mem_cons_self rfl)).trans hh) isOpen
  have apart : ∀ x ∈ ws.map (fun x => { x with due := true }), x.who ≠ .chan c := by
    intro x hx
    obtain ⟨y, hy, rfl⟩ := List.mem_map.1 hx
    obtain ⟨c', _, hc', hn, -⟩ := young y hy
    intro e
    exact hn (Who.chan.inj (hc'.symm.trans e))
  have calm : ∀ x, breaks ((returned s t l d).unwait (.chan c)) (fun b => lineOf b = lineOf a) x = false := by
    intro x
    unfold breaks
    by_cases hx : ((returned s t l d).unwait (.chan c)).isWaiting (.chan x) = true
    · obtain ⟨y, hy, hyx⟩ := List.any_eq_true.1 hx
      have hyx : y.who = .chan x := of_decide_eq_true hyx
      obtain ⟨hy, hyc⟩ := List.mem_filter.1 hy
      rw [waits] at hy
      rcases List.mem_cons.1 hy with rfl | hy
      · simp [pendingItem] at hyc
      · obtain ⟨z, hz, rfl⟩ := List.mem_map.1 hy
        obtain ⟨c', h', hc', -, -, table', cond⟩ := young z hz
        obtain rfl : c' = x := Who.chan.inj (hc'.symm.trans hyx)
        have waiting := isWaiting_of_mem hw (List.mem_cons_of_mem _ hz) hc'
        have head : ((returned s t l d).unwait (.chan c)).conditionalHead c' = false :=
          conditionalHead_lone (s := (returned s t l d).unwait (.chan c)) ((done.table waiting).trans table') cond
        rw [head, Bool.and_false, Bool.and_false]
    · rw [Bool.not_eq_true] at hx
      rw [hx, Bool.false_and, Bool.and_false]
  have free : (returned s t l d).held (lineOf a) = false := rfl
  have entry : (returned s t l d).entryFor (lineOf a) = none := by
    unfold State.entryFor
    rw [show (returned s t l d).table = s.table from table]
    exact he
  have fits : (returned s t l d).writebackRoom = true := decide_eq_true (by
    show (s.writebacks.filter (fun x => x.line ≠ l)).length < 2
    omega)
  have dirty : (returned s t l d).heldDirty (lineOf a) = true := (heldDirty_of_lines (s := s) lines _).trans hd
  have unwatched : (returned s t l d).Unwatched (lineOf a) := fun x w hx => watch x w (by rw [← watches]; exact hx)
  have taken := lookupOp_takes waits apart head hq dirty free entry fits unwatched calm
  refine (settle_oldest (still_returned done hr hw young) waits rfl ?_).trans (congrArg State.settle (taken.trans ?_))
  · intro x hx
    obtain ⟨y, hy, rfl⟩ := List.mem_map.1 hx
    obtain ⟨_, _, -, -, older, -⟩ := young y hy
    exact older
  · have data : (returned s t l d).lineData (lineOf a) = s.lineData (lineOf a) := lineData_of_lines (s := s) lines _
    have dropped : ((returned s t l d).dropTag (lineOf a)).lines = (s.dropTag (lineOf a)).lines := by
      rw [dropTag_eq (s := s) (t := returned s t l d) lines]
    have kept : (returned s t l d).reservations = s.reservations := reservations
    rw [data, dropped, kept, List.map_map]
    unfold flushed returned
    rw [now]
    rfl

/-- Rest once every pending FLUSH has had its turn. -/
theorem atRest_flushed {ws later : List Waiting} (done : FlushDone s e t) (hr : s.AtRest)
    (hw : s.waiting = pendingItem c h false :: ws) (young : Younger s c h ws) (hl : ∀ x ∈ later, x.due = false) :
    (flushed s t l d c a later).AtRest := by
  have still := still_returned (l := l) (d := d) done hr hw young
  have none_posted : (returned s t l d).isWaiting .posted = false := by
    refine posted_not_pending rfl fun x hx => ?_
    obtain ⟨y, hy, rfl⟩ := List.mem_map.1 hx
    rw [hw] at hy
    rcases List.mem_cons.1 hy with rfl | hy
    · exact ⟨c, rfl⟩
    · obtain ⟨c', _, hc', -⟩ := young y hy
      exact ⟨c', hc'⟩
  refine (still.congr (t := flushed s t l d c a later) rfl (fun _ _ h => h) (fun h => ?_) fun h => h).rest hl
  rw [none_posted] at h
  cases h

/-- The younger pending FLUSH finds the room taken. -/
theorem flushed_stays {c' : ChanId} {h' : HostEntry} {a' : Addr} (done : FlushDone s e t) (hr : s.AtRest)
    (hw : s.waiting = [pendingItem c h false, pendingItem c' h' false]) (hn : c' ≠ c) (older : h.place < h'.place)
    (hh : s.hostTable[c'] = [h']) (ho : h'.inPhase .active = true) (hq : h'.req = .flush a') (hl : lineOf a' ≠ lineOf a)
    (hd : s.heldDirty (lineOf a') = true) (he : s.entryFor (lineOf a') = none)
    (room : (s.writebacks.filter (fun x => x.line ≠ l)).length = 1) :
    (State.closeTenure (State.count1 (flushed s t l d c a [pendingItem c' h' true]))).settle
      = (State.closeTenure (State.count1 (flushed s t l d c a [pendingItem c' h' false]))).settle := by
  obtain ⟨lines, table, -⟩ := done.fields
  have young : Younger s c h [pendingItem c' h' false] := by
    intro x hx
    obtain rfl := List.mem_singleton.1 hx
    exact ⟨c', h', rfl, hn, older, hh, by rw [hq]; rfl⟩
  generalize hu : State.closeTenure (State.count1 (flushed s t l d c a [pendingItem c' h' true])) = u
  have head : u.head? c' = some h' := by
    subst hu
    exact head_lone ((done.table (isWaiting_of_mem hw (List.mem_cons_of_mem _ List.mem_cons_self) rfl)).trans hh) (isOpen_of_active ho)
  have entry : u.entryFor (lineOf a') = none := by
    subst hu
    unfold State.entryFor
    rw [show (State.closeTenure (State.count1 (flushed s t l d c a [pendingItem c' h' true]))).table = s.table from table]
    exact he
  have full : u.writebackRoom = false := by
    subst hu
    have two : (flushed s t l d c a [pendingItem c' h' true]).writebacks.length = 2 := by
      unfold flushed
      rw [List.length_append, room]
      rfl
    exact decide_eq_false (Nat.not_lt.2 (Nat.le_of_eq two.symm))
  have dirty : u.heldDirty (lineOf a') = true := by
    subst hu
    refine (heldDirty_of_lines (s := s.dropTag (lineOf a)) rfl _).trans ?_
    exact (heldDirty_of_lookup (lookup_dropTag_ne hl)).trans hd
  have still : Still u := by
    subst hu
    refine (still_of_rest (atRest_flushed (l := l) (d := d) (a := a) (later := [pendingItem c' h' false]) done hr hw young
      (by simp [pendingItem]))).congr rfl (fun _ _ h => h) (fun h => ?_) fun h => h
    exact h
  have free : u.held (lineOf a') = false := by
    subst hu
    rfl
  have waits : u.waiting = [pendingItem c' h' true] := by
    subst hu
    rfl
  rw [settle_one still waits rfl]
  refine congrArg State.settle ((lookupOp_stays waits head hq dirty free entry full).trans ?_)
  subst hu
  rfl

/-- What TAKEN of the RETURN leaves where nothing waits. -/
def vacated (s t : State) (l : LineAddr) (d : LineData) : State := { t with
  writebacks := s.writebacks.filter (fun x => x.line ≠ l)
  homeQueue := s.homeWith s.station.number l (.write d)
  span := { s.span with homeReserved := false } }

theorem returned_empty (done : FlushDone s e t) (hw : s.waiting = []) :
    returned s t l d = (vacated s t l d).count1.closeTenure := by
  obtain ⟨-, -, -, -, -, -, -, now, waiting⟩ := done.fields
  have still : s.waiting.map (fun x => { x with due := true }) = t.waiting := by
    rw [waiting, hw]
    rfl
  unfold returned
  rw [still, ← now]
  rfl

theorem atRest_vacated (done : FlushDone s e t) (hr : s.AtRest) (hw : s.waiting = []) : (vacated s t l d).AtRest := by
  obtain ⟨-, table, posted, -, -, -, -, -, waiting⟩ := done.fields
  have still : (vacated s t l d).waiting = [] := waiting.trans hw
  have same : (vacated s t l d).table = s.table := table
  refine ((still_of_rest hr).congr (t := vacated s t l d) posted (fun c x hx => done.heads hx) (fun h => ?_) fun h => ?_).rest ?_
  · rw [State.isWaiting, hw] at h
    cases h
  · unfold State.isWaiter at h ⊢
    rwa [same]
  · rw [still]
    nofun

/-- Settles O45: the verdict reaches the writeback buffer, and the freed room the pending FLUSHes in their order. -/
theorem ownReturnIsRetriedOrWritten : Obligations.OwnReturnIsRetriedOrWritten := by
  intro s others n l home d e hp hr ht he
  refine ⟨fun hv => ?_, fun t retry hh hw done => ?_, ?_⟩
  · exact closes (t := retried s l e) (exec_own_writeback hp ht (void_of_votes hv)) (return_void he)
      (atRest_same hr rfl rfl rfl rfl) rfl
  · have flushDone : FlushDone s e t := done.imp_right fun ⟨c, h, hf, hh, ho, same⟩ =>
      ⟨c, h, hf, by simp [State.isWaiting, hw], hh, ho, same⟩
    obtain ⟨-, -, -, -, -, order, -⟩ := flushDone.fields
    exact closes (t := vacated s t l d) (exec_returned hp ht he retry hh flushDone) (returned_empty flushDone hw)
      (atRest_vacated flushDone hr hw) order
  · intro t c h a later retry hh item hw hc hq ho hd entry watch younger room done
    have young : Younger s c h later := by
      intro x hx
      rcases younger with rfl | ⟨c', h', a', rfl, hn, older, hc', hq', -⟩
      · cases hx
      · obtain rfl := List.mem_singleton.1 hx
        exact ⟨c', h', rfl, hn, older, hc', by rw [hq']; rfl⟩
    have rest : ∀ x ∈ later, x.due = false := by
      intro x hx
      rcases younger with rfl | ⟨c', h', a', rfl, -⟩
      · cases hx
      · obtain rfl := List.mem_singleton.1 hx
        rfl
    have done : FlushDone s e t := done
    obtain ⟨-, -, -, -, -, order, -⟩ := done.fields
    have settled : (returned s t l d).settle = (State.closeTenure (State.count1 (flushed s t l d c a later))).settle := by
      refine (returned_takes done hr hw young hc ho hq hd entry watch room).trans ?_
      rcases younger with rfl | ⟨c', h', a', rfl, hn, older, hc', hq', ho', hl, hd', entry'⟩
      · rfl
      · exact flushed_stays done hr hw hn older hc' ho' hq' hl hd' entry' room
    refine closes (t := flushed s t l d c a later) (u := State.closeTenure (State.count1 (flushed s t l d c a later))) ?_ rfl
      (atRest_flushed done hr hw young rest) order
    rw [exec_returned hp ht he retry hh done, settled]

end Sys2Proof.Proofs.Returns
end

