-- ==== Sys2Proof/Proofs/Lookups.lean ====
section
/-! PROOFS. What a lookup decides, and how its outcome is carried out: the operation joins, opens an entry, or waits (R11 to R13,
R49 to R56). -/

namespace Sys2Proof.Proofs.Lookups

open Sys2Proof Sys2Proof.Machine Sys2Proof.Proofs.AtRest Sys2Proof.Proofs.Presented Sys2Proof.Proofs.Hits
open Sys2Proof.Proofs.Departures Sys2Proof.Proofs.Passes Sys2Proof.Proofs.Serving

variable {s t u b : State} {c d : ChanId} {h : HostEntry} {e : TableEntry} {l k : LineAddr} {a : Addr} {v : Word} {r : Request}
  {w : WayId} {kind : TableKind} {who : Who} {tag : BitVec 8} {o : List ReadyToken} {x : HostEntry} {i : Instr} {st : LineState} {hold : Bool}

/-! ### What is decided (R49 to R52, R125 to R131, R136, R145, R149, R157) -/

theorem decideRead_pending (hl : s.lookup l = some .invalid) (he : s.entryFor l = some e)
    (hh : hold = true → s.held l = false) : s.decideRead l hold = if e.kind = .share ∨ e.kind = .own then .join else .wait := by
  have free : (hold && s.held l) = false := by
    cases hold
    · rfl
    · rw [hh rfl]; rfl
  unfold State.decideRead
  simp only [hl, he, free, Bool.or_eq_true, decide_eq_true_eq, Bool.false_eq_true, if_false]

theorem decideRead_missing (hl : s.lookup l = none) :
    s.decideRead l hold = if (s.writebackFor l).isSome = true ∨ s.held l = true then .wait else .allocate .share := by
  unfold State.decideRead
  simp only [hl, Bool.or_eq_true]

theorem decideWrite_missing (hl : s.lookup l = none) :
    s.decideWrite l hold = if (s.writebackFor l).isSome = true ∨ s.held l = true then .wait else .allocate .own := by
  unfold State.decideWrite
  simp only [hl, Bool.or_eq_true]

theorem decideWrite_pending (hl : s.lookup l = some .invalid) (he : s.entryFor l = some e)
    (hh : hold = true → s.held l = false) : s.decideWrite l hold = if e.kind = .own then .join else .wait := by
  have free : (hold && s.held l) = false := by
    cases hold
    · rfl
    · rw [hh rfl]; rfl
  unfold State.decideWrite
  simp only [hl, he, free, Bool.false_eq_true, if_false]

/-- A line held shared. -/
def shared (s : State) (l : LineAddr) : Prop := s.lookup l = some .shared ∨ s.lookup l = some .dirtyShared

theorem decideWrite_joined (hl : shared s l) (he : s.entryFor l = some e) :
    s.decideWrite l hold = if e.kind = .upgrade ∧ ¬(hold = true ∧ s.held l = true) then .join else .wait := by
  rcases hl with hl | hl <;> unfold State.decideWrite <;> cases hold <;> simp [hl, he, LineState.sole]

theorem decideWrite_upgrade (hl : shared s l) (he : s.entryFor l = none) :
    s.decideWrite l hold = if s.held l = true then .wait else .allocate .upgrade := by
  rcases hl with hl | hl <;> unfold State.decideWrite <;> simp [hl, he, LineState.sole]

theorem decideWrite_held (hl : s.lookup l = some st) (hs : st.sole = true) (hh : s.held l = true) :
    s.decideWrite l hold = .wait := by
  cases st with
  | invalid | shared | dirtyShared => cases hs
  | cleanSole | dirtySole =>
    unfold State.decideWrite
    simp [hl, hh, LineState.sole]

theorem decideDirect_eq (d : DirectOp) : s.decideDirect l d
    = if (s.entryFor l).isSome = true ∨ s.held l = true then .wait else .allocate (.direct d) := by
  unfold State.decideDirect
  simp only [Bool.or_eq_true]

/-- A READ, RESERVE or WATCH of a cached line; a WATCH alone may be a refetch. -/
theorem decideRequest_reads (hm : missKind r = some .share) (ha : r.addr? = some a) (hd : isDirect (lineOf a) = false) :
    ∃ refetch, s.decideRequest c r = s.decideRead (lineOf a) refetch ∧ (s.watches[c] = none → refetch = false) := by
  cases r <;> cases hm <;> cases ha
  · refine ⟨false, ?_, fun _ => rfl⟩
    unfold State.decideRequest
    simp only [hd, Bool.false_eq_true, if_false]
  · exact ⟨false, rfl, fun _ => rfl⟩
  · refine ⟨s.refetching c, rfl, fun hw => ?_⟩
    unfold State.refetching
    rw [hw]
    rfl

/-- A WRITE or ATOMIC of a cached line. -/
theorem decideRequest_writes (hm : missKind r = some .own) (ha : r.addr? = some a) (hd : isDirect (lineOf a) = false) :
    s.decideRequest c r = s.decideWrite (lineOf a) false := by
  cases r <;> cases hm <;> cases ha <;> unfold State.decideRequest <;> simp only [hd, Bool.false_eq_true, if_false]

theorem decideRequest_conditional (hr : r = .conditional a v) (hs : s.reservations[c] = some a) :
    s.decideRequest c r = s.decideWrite (lineOf a) true := by
  subst hr
  unfold State.decideRequest
  simp only [Claims.stands_iff.2 hs, if_true]

theorem decideRequest_direct {op : DirectOp} (hd : directOf r = some op) (ha : r.addr? = some a)
    (hl : isDirect (lineOf a) = true) : s.decideRequest c r = s.decideDirect (lineOf a) op := by
  cases r <;> cases hd <;> cases ha <;> unfold State.decideRequest <;> simp only [hl, if_true]

/-! ### What leaves a victim way (R4, R10, R12, R13) -/

theorem shared_cached (hl : shared s l) : isDirect l = false :=
  hl.elim (fun h => not_direct_of_lookup h) fun h => not_direct_of_lookup h

theorem fillPend_eq (h : t.lines = s.lines) (l : LineAddr) (w : WayId) : t.fillPend l w = { t with
    lines := (s.setWay l w { tag := some l, state := .invalid, data := (s.wayAt l w).data }).lines } := by
  unfold State.fillPend State.setWay State.wayAt
  rw [h]

theorem filter_unnamed (x : Option Addr) : x.filter (fun b => decide ((none : Option LineAddr) ≠ some (lineOf b))) = x := by
  cases x <;> rfl

theorem filter_named (x : Option Addr) (l : LineAddr) :
    x.filter (fun b => decide (some l ≠ some (lineOf b))) = x.filter (fun b => decide (lineOf b ≠ l)) := by
  congr 1
  funext b
  exact decide_eq_decide.2 ⟨fun h e => h (by rw [e]), fun h e => h (Option.some.inj e).symm⟩

/-- What the emptied way changes, in the rest of a state. -/
def emptied (s t : State) (l : LineAddr) (w : WayId) : State := { t with
  lines := (s.victimGone l w).lines
  reservations := (s.victimGone l w).reservations
  writebacks := (s.victimGone l w).writebacks }

/-- The blocks that the emptying of a way reads. -/
structure Beside (s t : State) : Prop where
  lines : t.lines = s.lines
  reservations : t.reservations = s.reservations
  writebacks : t.writebacks = s.writebacks
  watches : t.watches = s.watches
  waiting : t.waiting = s.waiting
  span : t.span = s.span
  now : t.now = s.now + 1

theorem held_of_span (h : t.span = s.span) (l : LineAddr) : t.held l = s.held l := by
  unfold State.held State.hold
  rw [h]

theorem wayAt_of_lines (h : t.lines = s.lines) (l : LineAddr) (w : WayId) : t.wayAt l w = s.wayAt l w := by
  unfold State.wayAt
  rw [h]

theorem emptyVictim_leaves (hb : Beside s t) (hl : s.Leaves l w) : t.emptyVictim l w = some (emptied s t l w) := by
  obtain ⟨lines, reservations, writebacks, watches, waiting, span, now⟩ := hb
  unfold State.emptyVictim
  rw [wayAt_of_lines lines]
  cases ht : (s.wayAt l w).tag with
  | none =>
    have kept : t.reservations.map (fun r => r.filter (fun b => decide ((none : Option LineAddr) ≠ some (lineOf b))))
        = t.reservations := by simp only [filter_unnamed, Vector.map_id_fun', id_eq]
    simp only
    rw [fillPend_eq lines]
    unfold emptied State.victimGone
    simp only [ht, ← reservations, ← writebacks]
    rw [kept]
  | some x =>
    obtain ⟨held, watched, still, room⟩ := hl x ht
    have quiet : ∀ y : State, y.waiting = t.waiting → y.watches = t.watches → y.depart x
        = { y with reservations := y.reservations.map (fun r => r.filter (fun b => lineOf b ≠ x)) } := by
      intro y hy hx
      refine State.depart_quiet (fun c z hz => watched c z (by rw [← watches, ← hx]; exact hz)) fun c z _ _ => ?_
      simp [State.isWaiting, hy, waiting, still]
    have left : ∀ y : State, y.reservations = s.reservations →
        y.reservations.map (fun r => r.filter (fun b => decide (lineOf b ≠ x)))
          = (s.victimGone l w).reservations := by
      intro y hy
      unfold State.victimGone
      simp only [ht, filter_named, hy]
    simp only
    rw [held_of_span span, held, if_neg nofun]
    by_cases hd : (s.wayAt l w).state.dirty = true
    · have fits : t.writebackRoom = true := decide_eq_true (by rw [writebacks]; exact room hd)
      rw [if_pos hd, if_pos fits]
      rw [fillPend_eq (s := s) (by exact lines), quiet _ (by rfl) (by rfl), left _ (by exact reservations)]
      unfold emptied State.addWriteback State.victimGone
      simp only [ht, hd, if_true, writebacks, now]
    · rw [if_neg hd]
      rw [fillPend_eq (s := s) lines, quiet _ (by rfl) (by rfl), left _ (by exact reservations)]
      unfold emptied State.victimGone
      simp only [ht, hd, ← writebacks]
      rfl

/-! ### Allocation (R53, R54) -/

theorem findWay_none_of_lookup (hl : s.lookup l = none) : s.findWay l = none := by
  cases hf : s.findWay l with
  | none => rfl
  | some w =>
    unfold State.lookup at hl
    rw [hf] at hl
    cases hl

/-- The table has room, and nothing of the line stands in its way. -/
structure Grantable (s : State) (l : LineAddr) : Prop where
  room : s.table.length < 4
  entry : s.entryFor l = none
  free : s.held l = false

theorem grantable_guard (hg : Grantable s l) :
    ¬(Config.tableEntries ≤ s.table.length || (s.entryFor l).isSome || s.held l) = true := by
  have room : ¬Config.tableEntries ≤ s.table.length := Nat.not_le.2 hg.room
  rw [hg.entry, hg.free]
  simp [room]

theorem grant_wayless (hg : Grantable s l) (hk : kind = .upgrade ∨ ∃ d, kind = .direct d) (who : Who) :
    s.grant who kind l = some (s.addEntry who kind none l) := by
  unfold State.grant
  rw [if_neg (grantable_guard hg)]
  rcases hk with rfl | ⟨d, rfl⟩ <;> rfl

theorem grant_missing (hg : Grantable s l) (hk : kind = .share ∨ kind = .own) (hd : isDirect l = false) (hl : s.lookup l = none)
    (hw : s.writebackFor l = none) (hv : s.victim l = some w) (he : s.emptyVictim l w = some u) (who : Who) :
    s.grant who kind l = some (u.addEntry who kind (some w) l) := by
  have clear : ¬((s.findWay l).isSome || (s.writebackFor l).isSome || isDirect l) = true := by
    rw [findWay_none_of_lookup hl, hw, hd]
    nofun
  unfold State.grant
  rw [if_neg (grantable_guard hg)]
  rcases hk with rfl | rfl <;> simp only [if_neg clear, hv, he, Option.map_some]

theorem emptyVictim_none {x : LineAddr} (ht : (s.wayAt l w).tag = some x)
    (hx : s.held x = true ∨ ((s.wayAt l w).state.dirty = true ∧ 2 ≤ s.writebacks.length)) : s.emptyVictim l w = none := by
  unfold State.emptyVictim
  rw [ht]
  simp only
  by_cases hh : s.held x = true
  · rw [if_pos hh]
  · obtain ⟨dirty, full⟩ := hx.resolve_left hh
    have noRoom : ¬s.writebackRoom = true := fun h => Nat.not_lt.2 full (of_decide_eq_true h)
    rw [if_neg hh, if_pos dirty, if_neg noRoom]

theorem grant_barred (h : 4 ≤ s.table.length ∨ (s.entryFor l).isSome = true ∨ s.held l = true) (who : Who) :
    s.grant who kind l = none := by
  unfold State.grant
  refine if_pos ?_
  simp only [Bool.or_eq_true, decide_eq_true_eq, or_assoc]
  exact h

theorem grant_cramped (hk : kind = .share ∨ kind = .own) (hc : s.Cramped l) (who : Who) : s.grant who kind l = none := by
  have none_empties : (match s.victim l with
      | none => none
      | some w => (s.emptyVictim l w).map (fun s' => s'.addEntry who kind (some w) l)) = none := by
    rcases hc with hv | ⟨w, x, hv, ht, hx⟩
    · rw [hv]
    · rw [hv]
      simp only [emptyVictim_none ht hx, Option.map_none]
  unfold State.grant
  split
  · rfl
  · rcases hk with rfl | rfl <;> exact ite_eq_left_iff.2 fun _ => none_empties

theorem applyDecision_granted {place : Nat} {pending : Bool} (hg : s.grant who kind l = some u) :
    s.applyDecision who place pending true l (.allocate kind) = u := by
  unfold State.applyDecision
  simp only [hg, if_true]

theorem applyDecision_barred {place : Nat} {pending : Bool} (hg : s.grant who kind l = none) :
    s.applyDecision who place pending true l (.allocate kind) = s.waitAt who place false false := by
  unfold State.applyDecision
  simp only [hg, if_true]

/-! ### The outcome for a record that has just arrived -/

theorem victim_withEntry (hw : s.isWaiting (.chan c) = false) (l : LineAddr) :
    (s.withEntry c x o).victim l = s.victim l := by
  unfold State.victim
  have pinned : ∀ way, (s.withEntry c x o).pinned way = s.pinned way := by
    intro way
    unfold State.pinned
    simp only [Claims.flushPending_withEntry hw]
    rfl
  simp only [pinned]
  rfl

theorem joinEntry_withEntry (hh : u.head? c = none) (l : LineAddr) :
    (u.withEntry c (u.entryOf tag r (.opened .active)) o).joinEntry (.chan c) l
      = (u.joins (.chan c) l).withEntry c (u.entryOf tag r (.opened .joined)) o :=
  setPhase_withEntry (s := u.joins (.chan c) l) hh

theorem addEntry_withEntry (hh : u.head? c = none) (way : Option WayId) (l : LineAddr) :
    (u.withEntry c (u.entryOf tag r (.opened .active)) o).addEntry (.chan c) kind way l
      = (u.opens (.chan c) kind way l).withEntry c (u.entryOf tag r (.opened .joined)) o :=
  setPhase_withEntry (s := u.opens (.chan c) kind way l) hh

theorem waitAt_withEntry (place : Nat) :
    (u.withEntry c x o).waitAt who place false false = (u.waits who place).withEntry c x o := rfl

/-! ### Rest -/

/-- Nothing is taken from the tables, and what waits is owed nothing. -/
theorem atRest_grown (hr : s.AtRest) (hp : t.posted = s.posted) (hh : t.hostTable = s.hostTable)
    (hw : s.isWaiting .posted = true → t.isWaiting .posted = true) (ht : s.isWaiter .posted = true → t.isWaiter .posted = true)
    (hd : ∀ x ∈ t.waiting, x.due = false) : t.AtRest :=
  ((still_of_rest hr).congr hp (fun c e he => by unfold State.head? at he ⊢; rwa [hh] at he) hw ht).rest hd

theorem isWaiter_opens (h : s.isWaiter who = true) {other : Who} {way : Option WayId} : (s.opens other kind way l).isWaiter who = true := by
  unfold State.isWaiter State.opens at *
  rw [List.any_append, h, Bool.true_or]

theorem isWaiter_joins (h : s.isWaiter who = true) {other : Who} : (s.joins other l).isWaiter who = true := by
  unfold State.isWaiter State.joins at *
  obtain ⟨e, he, hx⟩ := List.any_eq_true.1 h
  refine List.any_eq_true.2 ⟨_, List.mem_map_of_mem he, ?_⟩
  split
  · rw [List.any_append, hx, Bool.true_or]
  · exact hx

theorem isWaiting_waits {other : Who} {place : Nat} (h : s.isWaiting who = true) : (s.waits other place).isWaiting who = true := by
  unfold State.isWaiting State.waits at *
  rw [(insertBy_perm _ _ _).any_eq, List.any_cons, h, Bool.or_true]

theorem due_waits (hr : s.AtRest) {other : Who} {place : Nat} : ∀ y ∈ (s.waits other place).waiting, y.due = false := by
  intro y hy
  rcases List.mem_cons.1 ((insertBy_perm _ _ _).mem_iff.1 hy) with rfl | hy
  · rfl
  · exact hr.pass y hy

theorem atRest_opens (hr : s.AtRest) {other : Who} {way : Option WayId} : (s.opens other kind way l).AtRest :=
  atRest_grown hr rfl rfl (fun h => h) (fun h => isWaiter_opens h) hr.pass

theorem atRest_joins (hr : s.AtRest) {other : Who} : (s.joins other l).AtRest :=
  atRest_grown hr rfl rfl (fun h => h) (fun h => isWaiter_joins h) hr.pass

theorem atRest_waits (hr : s.AtRest) {other : Who} {place : Nat} : (s.waits other place).AtRest :=
  atRest_grown hr rfl rfl (fun h => isWaiting_waits h) (fun h => h) (due_waits hr)

theorem atRest_opened (hr : s.AtRest) : (opened s c r).AtRest := by
  unfold opened
  split
  · exact atRest_same hr rfl rfl rfl rfl
  · exact hr

theorem head_opened : (opened s c r).head? d = s.head? d := by
  unfold opened
  split <;> rfl

theorem entryOf_opened (p : Progress) : (opened s c r).entryOf tag r p = s.entryOf tag r p := by
  unfold opened
  split <;> rfl

/-- The state that the statements look a new head up in. -/
theorem opened_eq (ha : r.addr? = some a) : opened s c r
    = { s with reservations := if r = .reserve a then s.reservations.set c none else s.reservations } := by
  cases r with
  | reserve b =>
    cases ha
    rw [if_pos rfl]
    rfl
  | _ =>
    rw [if_neg nofun]
    rfl

/-! ### A record that arrives and joins, opens an entry, or waits -/

/-- What the lookup of a new head leaves. -/
theorem exec_looked (hi : requestOf i = some (c, tag, r)) (h : s.Presents c) (hk : s.acceptanceCheck r = none)
    (hp : r.isPosted = false) {ph : HostPhase} (hx : ((opened s c r).withEntry c (s.entryOf tag r (.opened .active)) s.readyOrder).applyDecision
      (.chan c) s.nextPlace false true (lineOf (r.addr?.getD 0)) ((opened s c r).decideRequest c r)
        = t.withEntry c (s.entryOf tag r (.opened ph)) s.readyOrder)
    (ht : t.AtRest) (hh : t.head? c = none) (hph : ph = .joined ∨ ph = .active) :
    ∃ order, s.readyOrder <+: order ∧ exec i s = .next (t.withEntry c (s.entryOf tag r (.opened ph)) order) := by
  refine exec_once hi h.free h.rest ((promote_decides h hk hp).trans hx) (atRest_withEntry_open ht hh rfl ?_ (fun hd => ?_) fun _ hq => ?_)
  · rcases hph with rfl | rfl <;> rfl
  · rcases hph with rfl | rfl <;> cases hd
  · rw [show (s.entryOf tag r (.opened ph)).req = r from rfl, hp] at hq
    cases hq

/-- It joins. -/
theorem exec_joins (hi : requestOf i = some (c, tag, r)) (h : s.Presents c) (hk : s.acceptanceCheck r = none)
    (hp : r.isPosted = false) (ha : r.addr? = some a) (hd : (opened s c r).decideRequest c r = .join) :
    ∃ order, s.readyOrder <+: order ∧ exec i s = .next (((opened s c r).joins (.chan c) (lineOf a)).withEntry c
      (s.entryOf tag r (.opened .joined)) order) := by
  have head : (opened s c r).head? c = none := head_opened.trans h.free.head
  refine exec_looked hi h hk hp ?_ (atRest_joins (atRest_opened h.rest)) head (.inl rfl)
  rw [hd, ha, ← entryOf_opened (s := s) (c := c) (.opened .active), ← entryOf_opened (s := s) (c := c) (.opened .joined)]
  exact joinEntry_withEntry head (lineOf a)

/-- It opens an entry, on what its grant leaves of the state. -/
theorem exec_opens (hi : requestOf i = some (c, tag, r)) (h : s.Presents c) (hk : s.acceptanceCheck r = none)
    (hp : r.isPosted = false) (ha : r.addr? = some a) (hd : (opened s c r).decideRequest c r = .allocate kind) {way : Option WayId}
    (hg : ∀ x, ((opened s c r).withEntry c x s.readyOrder).grant (.chan c) kind (lineOf a)
      = some ((u.withEntry c x s.readyOrder).addEntry (.chan c) kind way (lineOf a)))
    (hu : u.AtRest) (hh : u.head? c = none) (he : u.entryOf tag r (.opened .active) = s.entryOf tag r (.opened .active)) :
    ∃ order, s.readyOrder <+: order ∧ exec i s = .next ((u.opens (.chan c) kind way (lineOf a)).withEntry c
      (s.entryOf tag r (.opened .joined)) order) := by
  have he' : u.entryOf tag r (.opened .joined) = s.entryOf tag r (.opened .joined) :=
    congrArg (fun x : HostEntry => { x with progress := .opened .joined }) he
  refine exec_looked hi h hk hp ?_ (atRest_opens hu) hh (.inl rfl)
  rw [hd, ha, ← he', ← he]
  exact (applyDecision_granted (hg _)).trans (addEntry_withEntry hh way (lineOf a))

/-- It waits. -/
theorem exec_waits (hi : requestOf i = some (c, tag, r)) (h : s.Presents c) (hk : s.acceptanceCheck r = none)
    (hp : r.isPosted = false) (ha : r.addr? = some a) (hd : (opened s c r).decideRequest c r = .wait ∨
      ∃ kind, (opened s c r).decideRequest c r = .allocate kind ∧
        ∀ x, ((opened s c r).withEntry c x s.readyOrder).grant (.chan c) kind (lineOf a) = none) :
    ∃ order, s.readyOrder <+: order ∧ exec i s = .next (((opened s c r).waits (.chan c) s.nextPlace).withEntry c
      (s.entryOf tag r (.opened .active)) order) := by
  have head : (opened s c r).head? c = none := head_opened.trans h.free.head
  refine exec_looked hi h hk hp ?_ (atRest_waits (atRest_opened h.rest)) head (.inr rfl)
  rw [ha]
  rcases hd with hd | ⟨kind, hd, hg⟩
  · rw [hd]
    exact waitAt_withEntry (u := opened s c r) s.nextPlace
  · rw [hd]
    exact (applyDecision_barred (hg _)).trans (waitAt_withEntry (u := opened s c r) s.nextPlace)

/-! ### Entries without a way, and misses -/

theorem isPosted_of_miss (hm : missKind r = some kind) : r.isPosted = false := by
  cases r <;> first | rfl | cases hm

theorem isPosted_of_direct {d : DirectOp} (hd : directOf r = some d) : r.isPosted = false := by
  cases r <;> first | rfl | cases hd

/-- A request whose entry needs no way. -/
theorem exec_wayless (hi : requestOf i = some (c, tag, r)) (h : s.Presents c) (hk : s.acceptanceCheck r = none)
    (hp : r.isPosted = false) (ha : r.addr? = some a) (hn : ∀ b, r ≠ .reserve b) (hd : s.decideRequest c r = .allocate kind)
    (hg : Grantable s (lineOf a)) (hw : kind = .upgrade ∨ ∃ d, kind = .direct d) :
    ∃ order, s.readyOrder <+: order ∧ exec i s = .next ((s.opens (.chan c) kind none (lineOf a)).withEntry c
      (s.entryOf tag r (.opened .joined)) order) := by
  have same := opened_of_ne (s := s) (c := c) hn
  refine exec_opens hi h hk hp ha (by rw [same]; exact hd) (u := s) (fun x => ?_) h.rest h.free.head rfl
  rw [same]
  exact grant_wayless (s := s.withEntry c x s.readyOrder) ⟨hg.room, hg.entry, hg.free⟩ hw _

/-- Settles O28: the request's lookup allocates, and its grant needs no way. -/
theorem upgradeAndDirectOpenAnEntry : Obligations.UpgradeAndDirectOpenAnEntry := by
  intro i s c tag r a k hi ha h hk free entry room cases
  have grantable : Grantable s (lineOf a) := ⟨room, entry, free⟩
  rcases cases with ⟨rfl, sh, hm | ⟨⟨v, rfl⟩, stands⟩⟩ | ⟨direct, d, hd, rfl⟩
  · refine exec_wayless hi h hk (isPosted_of_miss hm) ha (fun b e => by rw [e] at hm; cases hm) ?_ grantable (.inl rfl)
    rw [decideRequest_writes hm ha (shared_cached sh), decideWrite_upgrade sh entry, free]
    rfl
  · cases ha
    refine exec_wayless hi h hk rfl rfl nofun ?_ grantable (.inl rfl)
    rw [decideRequest_conditional rfl stands, decideWrite_upgrade sh entry, free]
    rfl
  · refine exec_wayless hi h hk (isPosted_of_direct hd) ha (fun b e => by rw [e] at hd; cases hd) ?_ grantable (.inr ⟨d, rfl⟩)
    rw [decideRequest_direct hd ha direct, decideDirect_eq, entry, free]
    rfl

/-- What a miss decides. -/
theorem decideRequest_missing (hm : missKind r = some kind) (ha : r.addr? = some a) (hd : isDirect (lineOf a) = false)
    (hl : s.lookup (lineOf a) = none) : (kind = .share ∨ kind = .own) ∧ s.decideRequest c r
      = if (s.writebackFor (lineOf a)).isSome = true ∨ s.held (lineOf a) = true then .wait else .allocate kind := by
  have kinds : kind = .share ∨ kind = .own := by
    cases r <;> cases hm <;> simp
  refine ⟨kinds, ?_⟩
  rcases kinds with rfl | rfl
  · obtain ⟨_, decided, -⟩ := decideRequest_reads (s := s) (c := c) hm ha hd
    rw [decided, decideRead_missing hl]
  · rw [decideRequest_writes hm ha hd, decideWrite_missing hl]

theorem decideRequest_opened : (opened s c r).decideRequest c r = s.decideRequest c r := by
  cases r <;> rfl

/-- The lookup's own change is to the reservations alone. -/
theorem opened_same : (opened s c r).table = s.table ∧ (opened s c r).lines = s.lines ∧
    (opened s c r).writebacks = s.writebacks ∧ (opened s c r).span = s.span := by
  unfold opened
  split <;> exact ⟨rfl, rfl, rfl, rfl⟩

theorem entryFor_of_table (h : t.table = s.table) (l : LineAddr) : t.entryFor l = s.entryFor l := by
  unfold State.entryFor
  rw [h]

theorem writebackFor_of_writebacks (h : t.writebacks = s.writebacks) (l : LineAddr) : t.writebackFor l = s.writebackFor l := by
  unfold State.writebackFor
  rw [h]

theorem leaves_opened (h : s.Leaves l w) : (opened s c r).Leaves l w := by
  unfold opened
  split <;> exact h

theorem beside_withEntry : Beside s (s.withEntry c x o) := ⟨rfl, rfl, rfl, rfl, rfl, rfl, rfl⟩

theorem entryOf_victimGone (p : Progress) : (s.victimGone l w).entryOf tag r p = s.entryOf tag r p := rfl

/-- Settles O27: the victim way is emptied, and the entry opened in it. -/
theorem missOpensAnEntry : Obligations.MissOpensAnEntry := by
  intro i s c tag r a k w hi ha hm h hk hd hl hw free entry room base victim leaves
  have same : base = opened s c r := (opened_eq ha).symm
  rw [same] at victim ⊢
  obtain ⟨table, lines, writebacks, span⟩ := opened_same (s := s) (c := c) (r := r)
  obtain ⟨kinds, decided⟩ := decideRequest_missing (s := s) (c := c) hm ha hd hl
  have allocates : (opened s c r).decideRequest c r = .allocate k := by
    rw [decideRequest_opened, decided, hw, free]
    rfl
  have waits : (opened s c r).isWaiting (.chan c) = false := by
    unfold opened
    split <;> exact h.free.notWaiting
  refine exec_opens hi h hk (isPosted_of_miss hm) ha allocates (way := some w) (u := (opened s c r).victimGone (lineOf a) w) (fun x => ?_)
    (atRest_same (atRest_opened (r := r) (c := c) h.rest) rfl rfl rfl rfl)
    (head_opened.trans h.free.head : (opened s c r).head? c = none) ?_
  · refine grant_missing (s := (opened s c r).withEntry c x s.readyOrder) ⟨?_, ?_, ?_⟩ kinds hd ?_ ?_
      ((victim_withEntry waits _).trans victim) (emptyVictim_leaves beside_withEntry (leaves_opened leaves)) _
    · exact (congrArg List.length table).trans_lt room
    · exact (entryFor_of_table (s := s) (t := (opened s c r).withEntry c x s.readyOrder) table _).trans entry
    · exact (held_of_span (s := s) (t := (opened s c r).withEntry c x s.readyOrder) span _).trans free
    · exact (lookup_of_lines (s := s) (t := (opened s c r).withEntry c x s.readyOrder) lines _).trans hl
    · exact (writebackFor_of_writebacks (s := s) (t := (opened s c r).withEntry c x s.readyOrder) writebacks _).trans hw
  · rw [entryOf_victimGone, entryOf_opened]

/-! ### Joining and waiting (R51, R55) -/

/-- A write-type request, or a CONDITIONAL whose reservation stands. -/
def Stores (s : State) (c : ChanId) (r : Request) (a : Addr) : Prop :=
  missKind r = some .own ∨ (∃ v, r = .conditional a v) ∧ s.reservations[c] = some a

theorem isPosted_of_stores (hs : Stores s c r a) : r.isPosted = false := by
  rcases hs with hm | ⟨⟨v, rfl⟩, -⟩
  · exact isPosted_of_miss hm
  · rfl

theorem decideRequest_stores (hs : Stores s c r a) (ha : r.addr? = some a) (hd : isDirect (lineOf a) = false) :
    ∃ hold, s.decideRequest c r = s.decideWrite (lineOf a) hold := by
  rcases hs with hm | ⟨⟨v, hr⟩, stands⟩
  · exact ⟨false, decideRequest_writes hm ha hd⟩
  · exact ⟨true, decideRequest_conditional hr stands⟩

theorem cramped_withEntry (hw : s.isWaiting (.chan c) = false) (hc : s.Cramped l) : (s.withEntry c x o).Cramped l := by
  unfold State.Cramped at hc ⊢
  rw [victim_withEntry hw]
  exact hc

/-- It waits where its lookup does not perform it, and no grant is to be had. -/
theorem exec_barred (hi : requestOf i = some (c, tag, r)) (h : s.Presents c) (hk : s.acceptanceCheck r = none)
    (hp : r.isPosted = false) (ha : r.addr? = some a)
    (hd : s.decideRequest c r = .wait ∨ ∃ kind, s.decideRequest c r = .allocate kind ∧
      (4 ≤ s.table.length ∨ ((kind = .share ∨ kind = .own) ∧ (opened s c r).Cramped (lineOf a)))) :
    ∃ order, s.readyOrder <+: order ∧ exec i s = .next (((opened s c r).waits (.chan c) s.nextPlace).withEntry c
      (s.entryOf tag r (.opened .active)) order) := by
  obtain ⟨table, -⟩ := opened_same (s := s) (c := c) (r := r)
  have waits : (opened s c r).isWaiting (.chan c) = false := by
    unfold opened
    split <;> exact h.free.notWaiting
  refine exec_waits hi h hk hp ha ?_
  rw [decideRequest_opened]
  refine hd.imp_right fun ⟨kind, allocates, barred⟩ => ⟨kind, allocates, fun x => ?_⟩
  rcases barred with full | ⟨kinds, cramped⟩
  · exact grant_barred (s := (opened s c r).withEntry c x s.readyOrder) (.inl (full.trans_eq (congrArg List.length table).symm)) _
  · exact grant_cramped kinds (cramped_withEntry waits cramped) _

/-- Settles O29: each row of the tables decides, and the decision is carried out. -/
theorem requestsJoinOrWait : Obligations.RequestsJoinOrWait := by
  intro i s c tag r a hi ha h hk hx l base reads writes stands shared' direct becomes
  have same : base = opened s c r := (opened_eq ha).symm
  have joins : r.isPosted = false → s.decideRequest c r = .join → becomes (base.joins (.chan c) l) .joined := by
    intro hp hd
    rw [same]
    exact exec_joins hi h hk hp ha (decideRequest_opened.trans hd)
  have waits : r.isPosted = false → (s.decideRequest c r = .wait ∨ ∃ kind, s.decideRequest c r = .allocate kind ∧
      (4 ≤ s.table.length ∨ ((kind = .share ∨ kind = .own) ∧ (opened s c r).Cramped l))) →
      becomes (base.waits (.chan c) s.nextPlace) .active := by
    intro hp hd
    rw [same]
    exact exec_barred hi h hk hp ha hd
  have directs : direct → r.isPosted = false ∧ s.decideRequest c r
      = if (s.entryFor l).isSome = true ∨ s.held l = true then .wait else .allocate (.direct ((directOf r).getD (.read 0))) := by
    rintro ⟨hl, ho⟩
    obtain ⟨d, hd⟩ := Option.isSome_iff_exists.1 ho
    rw [hd]
    exact ⟨isPosted_of_direct hd, (decideRequest_direct hd ha hl).trans (decideDirect_eq d)⟩
  have misses : (reads ∨ writes) → ∃ k, missKind r = some k := fun hm => hm.elim (fun h => ⟨_, h⟩) fun h => ⟨_, h⟩
  refine ⟨fun e he => ⟨fun hl hm => ?_, fun hl hu hm => ?_, fun hw => ?_⟩, fun hw => ?_⟩
  · have hd := not_direct_of_lookup hl
    rcases hm with ⟨hr, hk'⟩ | ⟨hw, hk'⟩
    · obtain ⟨refetch, decided, once⟩ := decideRequest_reads (s := s) (c := c) hr ha hd
      refine joins (isPosted_of_miss hr) ?_
      rw [decided, once hx, decideRead_pending (hold := false) hl he (by nofun), if_pos hk']
    · refine joins (isPosted_of_miss hw) ?_
      rw [decideRequest_writes hw ha hd, decideWrite_pending (hold := false) hl he (by nofun), if_pos hk']
  · have hd := shared_cached hl
    rcases hm with hw | ⟨⟨⟨v, hr⟩, hs⟩, free⟩
    · refine joins (isPosted_of_miss hw) ?_
      rw [decideRequest_writes hw ha hd, decideWrite_joined hl he, if_pos ⟨hu, fun h => by cases h.1⟩]
    · refine joins (by rw [hr]; rfl) ?_
      rw [decideRequest_conditional hr hs, decideWrite_joined hl he, if_pos ⟨hu, fun h => by rw [free] at h; cases h.2⟩]
  · rcases hw with hd | ⟨hl, hw, hk'⟩ | ⟨hl, ⟨⟨v, hr⟩, hs⟩, hh⟩
    · obtain ⟨hp, decided⟩ := directs hd
      refine waits hp (.inl ?_)
      rw [decided, if_pos (.inl (by rw [he]; rfl))]
    · refine waits (isPosted_of_miss hw) (.inl ?_)
      rw [decideRequest_writes hw ha (not_direct_of_lookup hl), decideWrite_pending (hold := false) hl he (by nofun), if_neg hk']
    · refine waits (by rw [hr]; rfl) (.inl ?_)
      rw [decideRequest_conditional hr hs, decideWrite_joined hl he, if_neg fun h => h.2 ⟨rfl, hh⟩]
  · rcases hw with ⟨hl, hd, hm, hb⟩ | ⟨hh, hw⟩ | ⟨hh, hw, st, hl, hs⟩ | ⟨full, he, hw⟩ | ⟨hl, hd, hm, hc⟩
    · obtain ⟨k, hm⟩ := misses hm
      obtain ⟨-, decided⟩ := decideRequest_missing (s := s) (c := c) hm ha hd hl
      refine waits (isPosted_of_miss hm) (.inl ?_)
      rw [decided, if_pos hb]
    · rcases hw with hd | ⟨hs, hl, he⟩
      · obtain ⟨hp, decided⟩ := directs hd
        refine waits hp (.inl ?_)
        rw [decided, if_pos (.inr hh)]
      · obtain ⟨hold, decided⟩ := decideRequest_stores hs ha (shared_cached hl)
        refine waits (isPosted_of_stores hs) (.inl ?_)
        rw [decided, decideWrite_upgrade hl he, if_pos hh]
    · obtain ⟨hold, decided⟩ := decideRequest_stores hw ha (not_direct_of_lookup hl)
      refine waits (isPosted_of_stores hw) (.inl ?_)
      rw [decided, decideWrite_held hl hs hh]
    · rcases hw with hd | ⟨hl, hd, hm⟩ | ⟨hl, hs⟩
      · obtain ⟨hp, decided⟩ := directs hd
        refine waits hp ?_
        rw [decided]
        split
        · exact .inl rfl
        · exact .inr ⟨_, rfl, .inl full⟩
      · obtain ⟨k, hm⟩ := misses hm
        obtain ⟨-, decided⟩ := decideRequest_missing (s := s) (c := c) hm ha hd hl
        refine waits (isPosted_of_miss hm) ?_
        rw [decided]
        split
        · exact .inl rfl
        · exact .inr ⟨_, rfl, .inl full⟩
      · obtain ⟨hold, decided⟩ := decideRequest_stores hs ha (shared_cached hl)
        refine waits (isPosted_of_stores hs) ?_
        rw [decided, decideWrite_upgrade hl he]
        split
        · exact .inl rfl
        · exact .inr ⟨_, rfl, .inl full⟩
    · obtain ⟨k, hm⟩ := misses hm
      obtain ⟨kinds, decided⟩ := decideRequest_missing (s := s) (c := c) hm ha hd hl
      refine waits (isPosted_of_miss hm) ?_
      rw [decided]
      split
      · exact .inl rfl
      · exact .inr ⟨_, rfl, .inr ⟨kinds, same ▸ hc⟩⟩

end Sys2Proof.Proofs.Lookups
end

