-- ==== Sys2Proof/Proofs/Flushes.lean ====
section
/-! PROOFS. A FLUSH that arrives, and the records that complete, wait or drain without a lookup (R10, R17, R76, R112 to R115, R117,
R121, R133, R147). -/

namespace Sys2Proof.Proofs.Flushes

open Sys2Proof Sys2Proof.Machine Sys2Proof.Proofs.AtRest Sys2Proof.Proofs.Presented Sys2Proof.Proofs.Hits
open Sys2Proof.Proofs.Departures Sys2Proof.Proofs.Passes Sys2Proof.Proofs.Serving Sys2Proof.Proofs.Lookups

variable {s t u : State} {c d : ChanId} {h : HostEntry} {e : WritebackEntry} {l : LineAddr} {a : Addr} {r : Request}
  {tag : BitVec 8} {o : List ReadyToken} {i : Instr}

/-! ### What a FLUSH decides (R17, R76, R133) -/

theorem decideFlush_direct (hd : isDirect l = true) : s.decideFlush l = .finish .ok := by
  unfold State.decideFlush
  rw [if_pos hd]

theorem decideFlush_behind (hd : isDirect l = false)
    (h : s.held l = true ∨ (s.entryFor l).isSome = true ∨ s.lookup l = some .invalid) : s.decideFlush l = .wait := by
  unfold State.decideFlush
  rw [hd, if_neg nofun]
  by_cases hb : (s.held l || (s.entryFor l).isSome) = true
  · rw [if_pos hb]
  · rw [if_neg hb]
    simp only [Bool.or_eq_true, not_or] at hb
    rw [(h.resolve_left hb.1).resolve_left hb.2]

theorem decideFlush_free (hd : isDirect l = false) (hh : s.held l = false) (he : s.entryFor l = none) : s.decideFlush l
    = match s.lookup l with
      | some .invalid => .wait
      | some _ => .flushLine
      | none => match s.writebackFor l with
        | some e => if e.flush.isSome then .wait else .flushWaiter
        | none => .finish .ok := by
  unfold State.decideFlush
  rw [hd, hh, he]
  rfl

theorem decideFlush_held (hh : s.held l = false) (he : s.entryFor l = none) (hv : s.heldValid l = true) :
    s.decideFlush l = .flushLine := by
  obtain ⟨st, hl, valid⟩ := lookup_of_heldValid hv
  rw [decideFlush_free (not_direct_of_lookup hl) hh he, hl]
  cases st with
  | invalid => exact absurd rfl valid
  | _ => rfl

/-! ### A FLUSH that arrives -/

/-- The FLUSH has just arrived. -/
def arrived (s : State) (c : ChanId) (tag : BitVec 8) (a : Addr) : State :=
  s.withEntry c (s.entryOf tag (.flush a) (.opened .active)) s.readyOrder

theorem flush_completes (h : s.Presents c) (hk : s.acceptanceCheck (.flush a) = none) (hg : t.AtRest) (hh : t.head? c = none)
    (hx : (arrived s c tag a).applyDecision (.chan c) s.nextPlace false true (lineOf a) (s.decideFlush (lineOf a))
      = t.withEntry c (s.entryOf tag (.flush a) (.ready .ok (s.latchSet c) [])) s.readyOrder) :
    ∃ order, s.readyOrder <+: order ∧ exec (.flush c tag a) s
      = .next (t.withEntry c (s.entryOf tag (.flush a) (.ready .ok (s.latchSet c) [])) order) :=
  exec_ready rfl h.free h.rest ((promote_decides h hk rfl).trans hx) hg hh rfl

theorem flush_stays (h : s.Presents c) (hk : s.acceptanceCheck (.flush a) = none) (hg : t.AtRest) (hh : t.head? c = none)
    (hx : (arrived s c tag a).applyDecision (.chan c) s.nextPlace false true (lineOf a) (s.decideFlush (lineOf a))
      = t.withEntry c (s.entryOf tag (.flush a) (.opened .active)) s.readyOrder) :
    ∃ order, s.readyOrder <+: order ∧ exec (.flush c tag a) s
      = .next (t.withEntry c (s.entryOf tag (.flush a) (.opened .active)) order) :=
  exec_looked (i := .flush c tag a) rfl h hk rfl hx hg hh (.inr rfl)

theorem conditionalHead_arrived (h : s.head? c = none) : (arrived s c tag a).conditionalHead c = false := by
  unfold State.conditionalHead arrived
  rw [head_withEntry h rfl]
  rfl

/-- Nothing to do. -/
theorem finishHead_arrived (h : s.head? c = none) (hw : s.isWaiting (.chan c) = false) : (arrived s c tag a).finishHead c .ok
    = s.withEntry c (s.entryOf tag (.flush a) (.ready .ok (s.latchSet c) [])) s.readyOrder := by
  unfold State.finishHead
  rw [conditionalHead_arrived h, if_neg nofun]
  exact complete_withEntry h hw

/-- The line leaves its way and its reservations break, where no watch hears it and no CONDITIONAL waits. -/
def goneFrom (s : State) (l : LineAddr) : State := { s.dropTag l with
  reservations := s.reservations.map (fun r => r.filter (fun b => lineOf b ≠ l)) }

theorem atRest_goneFrom (h : s.AtRest) : (goneFrom s l).AtRest := by
  unfold goneFrom
  rw [dropTag_eq (s := s) (t := s) rfl]
  exact atRest_same h rfl rfl rfl rfl

theorem head_goneFrom : (goneFrom s l).head? d = s.head? d := by
  unfold goneFrom
  rw [dropTag_eq (s := s) (t := s) rfl]
  rfl

theorem goneFrom_eq : goneFrom s l = { s with lines := (goneFrom s l).lines, reservations := (goneFrom s l).reservations } := by
  unfold goneFrom
  rw [dropTag_eq (s := s) (t := s) rfl]

/-- The FLUSH of a clean line completes once the line is dropped. -/
theorem clean_completes (h : s.head? c = none) (hw : s.isWaiting (.chan c) = false) :
    State.complete { arrived s c tag a with lines := (goneFrom s l).lines, reservations := (goneFrom s l).reservations } c .ok []
      = (goneFrom s l).withEntry c (s.entryOf tag (.flush a) (.ready .ok (s.latchSet c) [])) s.readyOrder := by
  have completed := complete_withEntry (s := { s with lines := (goneFrom s l).lines, reservations := (goneFrom s l).reservations })
    (tag := tag) (r := .flush a) (o := s.readyOrder) (p := .active) (st := .ok) (d := []) h hw
  rw [goneFrom_eq]
  exact completed

/-- The conditions under which a line leaves quietly. -/
def Quietly (s : State) (l : LineAddr) : Prop := s.Unwatched l ∧
  ∀ (d : ChanId) b, s.reservations[d] = some b → lineOf b = l → s.isWaiting (.chan d) = false

theorem departs (hq : Quietly s l) (hl : t.lines = s.lines) (hr : t.reservations = s.reservations) (hw : t.watches = s.watches)
    (hg : t.waiting = s.waiting) : (t.dropTag l).depart l
      = { t with lines := (goneFrom s l).lines, reservations := (goneFrom s l).reservations } := by
  rw [dropTag_eq hl, State.depart_quiet]
  · unfold goneFrom
    simp only [hr]
  · exact fun c w hx => hq.1 c w (by rw [← hw]; exact hx)
  · exact fun c b hb hl => (isWaiting_congr hg _).trans (hq.2 c b (by rw [← hr]; exact hb) hl)

theorem flushHeld_clean (hd : s.heldDirty l = false) (place : Nat) :
    s.flushHeld c place false true l = ((s.dropTag l).depart l).complete c .ok [] := by
  unfold State.flushHeld
  rw [hd, if_neg nofun]
  rfl

theorem flushHeld_moves (hd : s.heldDirty l = true) (room : s.writebackRoom = true) (place : Nat) :
    s.flushHeld c place false true l = ((s.addWriteback l (s.lineData l) (some c)).dropTag l).depart l := by
  unfold State.flushHeld
  rw [if_pos hd, room]
  rfl

theorem flushHeld_pends (hd : s.heldDirty l = true) (room : s.writebackRoom = false) (place : Nat) :
    s.flushHeld c place false true l = s.waitAt (.chan c) place true false := by
  unfold State.flushHeld
  rw [if_pos hd, room]
  rfl

/-- A FLUSH waits for room. -/
def pends (s : State) (c : ChanId) : State := { s with
  waiting := insertBy (fun y => y.place) { who := .chan c, place := s.nextPlace, pendingFlush := true, due := false } s.waiting }

theorem atRest_pends (hr : s.AtRest) : (pends s c).AtRest := by
  refine atRest_grown hr rfl rfl (fun h => ?_) (fun h => h) fun y hy => ?_
  · unfold State.isWaiting pends at *
    rw [(insertBy_perm _ _ _).any_eq, List.any_cons, h, Bool.or_true]
  · rcases List.mem_cons.1 ((insertBy_perm _ _ _).mem_iff.1 hy) with rfl | hy
    · rfl
    · exact hr.pass y hy

theorem heldValid_of_dirty (h : s.heldDirty l = true) : s.heldValid l = true := by
  unfold State.heldDirty at h
  cases hl : s.lookup l with
  | none => rw [hl] at h; cases h
  | some st =>
    rw [hl] at h
    exact heldValid_of_lookup hl (by rintro rfl; cases h)

/-- Settles O18: each row of the table for a FLUSH. -/
theorem flushActsOnTheHeldCopy : Obligations.FlushActsOnTheHeldCopy := by
  intro s c tag a h hk l becomes done
  have waits : s.decideFlush l = .wait → becomes (s.waits (.chan c) s.nextPlace) (.opened .active) := by
    intro hd
    exact exec_waits (i := .flush c tag a) rfl h hk rfl rfl (.inl hd)
  have nothing : s.decideFlush l = .finish .ok → becomes s done := by
    intro hd
    refine flush_completes h hk h.rest h.free.head ?_
    rw [show s.decideFlush (lineOf a) = _ from hd]
    exact finishHead_arrived h.free.head h.free.notWaiting
  refine ⟨fun hn => ?_, fun hd hw => waits (decideFlush_behind hd hw), fun e hd hh he hl hx => ⟨fun hf => ?_, fun hf => ?_⟩,
    fun hh he hv => ?_⟩
  · rcases hn with hd | ⟨hh, he, hl, hx⟩
    · exact nothing (decideFlush_direct hd)
    · by_cases hd : isDirect l = true
      · exact nothing (decideFlush_direct hd)
      · refine nothing ?_
        rw [decideFlush_free (Bool.eq_false_iff.2 hd) hh he, hl, hx]
  · have decided : s.decideFlush (lineOf a) = .flushWaiter := by
      rw [decideFlush_free hd hh he, hl, hx]
      simp [hf]
    refine flush_stays (t := { s with
      writebacks := s.writebacks.map (fun x => if x.line = l then { x with flush := some c } else x) }) h hk
      (atRest_same h.rest rfl rfl rfl rfl) h.free.head ?_
    rw [decided]
    rfl
  · refine waits ?_
    rw [decideFlush_free hd hh he, hl, hx]
    simp [hf]
  · have decided := decideFlush_held hh he hv
    intro gone quiet
    have quietly : quiet → Quietly s l := id
    refine ⟨fun hc hq => ?_, fun hd room hq => ?_, fun hd full => ?_⟩
    · refine flush_completes (t := goneFrom s l) h hk (atRest_goneFrom h.rest) ?_ ?_
      · exact head_goneFrom.trans h.free.head
      · rw [decided]
        refine (flushHeld_clean (s := arrived s c tag a) hc s.nextPlace).trans ?_
        rw [departs (s := s) (t := arrived s c tag a) (quietly hq) rfl rfl rfl rfl]
        exact clean_completes h.free.head h.free.notWaiting
    · refine flush_stays (t := { goneFrom s l with
        writebacks := s.writebacks ++ [{ line := l, data := s.lineData l, retry := 0, flush := some c, age := s.now + 1 }] }) h hk
        (atRest_same (atRest_goneFrom (l := l) h.rest) rfl rfl rfl rfl) (head_goneFrom.trans h.free.head) ?_
      rw [decided]
      refine (flushHeld_moves (s := arrived s c tag a) hd (decide_eq_true room) s.nextPlace).trans ?_
      rw [departs (s := s) (t := (arrived s c tag a).addWriteback l ((arrived s c tag a).lineData l) (some c)) (quietly hq) rfl rfl
        rfl rfl]
      unfold goneFrom
      rw [dropTag_eq (s := s) (t := s) rfl]
      rfl
    · refine flush_stays (t := pends s c) h hk (atRest_pends h.rest) h.free.head ?_
      rw [decided]
      exact flushHeld_pends (s := arrived s c tag a) hd (decide_eq_false (Nat.not_lt.2 full)) s.nextPlace

/-! ### Records that fail, wait or drain (R112 to R115, R117, R121) -/

/-- An entry behind the head of its channel is no head. -/
theorem head_withEntry_behind {x : HostEntry} (hh : s.head? c = some h) : (s.withEntry c x o).head? d = s.head? d := by
  by_cases hd : d = c
  · subst hd
    unfold State.head? State.withEntry at *
    simp only [Fin.getElem_fin, Vector.getElem_set_self] at *
    rw [List.find?_append, hh]
    rfl
  · exact head_withEntry_ne hd

/-- Settles O8: the promotion of the entry completes it, leaves it WAITING behind its head, or drains it. -/
theorem recordsFailOrWaitTheirTurn : Obligations.RecordsFailOrWaitTheirTurn := by
  refine ⟨fun i c tag r s st hi hf hr hk => ?_, fun i c tag r s hi hr => ⟨fun h hp hh credit head => ?_, fun hf hk hp hd => ?_⟩⟩
  · refine exec_ready hi hf hr ?_ hr hf.head rfl
    unfold State.promote
    rw [head_withEntry hf.head rfl]
    simp only [State.entryOf, hk]
    have completed := complete_withEntry (o := s.readyOrder) (tag := tag) (r := r) (p := .waiting) (st := st) (d := []) hf.head
      hf.notWaiting
    simpa only [State.entryOf, hk] using completed
  · have rest : (s.withEntry c (s.entryOf tag r (.opened .waiting)) s.readyOrder).AtRest :=
      atRest_of_heads hr rfl rfl rfl fun d e he => by rwa [head_withEntry_behind head] at he
    refine ⟨s.readyOrder ++ (s.withEntry c (s.entryOf tag r (.opened .waiting)) s.readyOrder).freshReady, List.prefix_append _ _, ?_⟩
    rw [Acceptance.exec_eq_arrive hi, Acceptance.arrive_credit hp hh credit, accept_eq, State.settle_rest rest]
    rfl
  · refine exec_once (t := s) hi hf hr ?_ (atRest_withEntry_open hr hf.head rfl rfl (fun _ => hd) fun ha => by cases ha)
    unfold State.promote
    rw [head_withEntry hf.head rfl]
    have draining := setPhase_withEntry (o := s.readyOrder) (tag := tag) (r := r) (p := .waiting) (q := .draining) hf.head
    simp only [State.entryOf, hk, hp] at draining ⊢
    exact (if_pos hd).trans draining

end Sys2Proof.Proofs.Flushes
end

