-- ==== Sys2Proof/Proofs/Posted.lean ====
section
/-! PROOFS. Which rule of a happening comes next, and the lookup of the posted write queue's head (R114 to R117, R136 to R138). -/

namespace Sys2Proof.Proofs.Posted

open Sys2Proof Sys2Proof.Machine Sys2Proof.Proofs.AtRest Sys2Proof.Proofs.Acceptance Sys2Proof.Proofs.Presented
open Sys2Proof.Proofs.Hits Sys2Proof.Proofs.Waiters Sys2Proof.Proofs.Serving Sys2Proof.Proofs.Passes Sys2Proof.Proofs.Lookups

variable {s t u : State} {c d : ChanId} {h e : HostEntry} {l : LineAddr} {a : Addr} {v : Word} {w : WayId} {tag : BitVec 8}
  {p : PostedWrite} {ps q : List PostedWrite} {st : LineState} {mask : BitVec 8} {r : Request} {i : Instr} {x : TableEntry}
  {o : List ReadyToken}

/-! ### The oldest head -/

theorem head?_of_only {α : Type} {xs : List α} {x : α} (hx : x ∈ xs) (only : ∀ y ∈ xs, y = x) : xs.head? = some x := by
  cases xs with
  | nil => cases hx
  | cons y ys => rw [only y List.mem_cons_self]; rfl

/-- A head that satisfies the test, before the others that do. -/
theorem oldestHead_least {test : ChanId → HostEntry → Bool} (hc : s.head? c = some h) (ht : test c h = true)
    (others : ∀ d g, d ≠ c → s.head? d = some g → test d g = true → h.place < g.place) : s.oldestHead test = some c := by
  have mem : ∀ y : ChanId × Nat, y ∈ channels.filterMap (fun c => (s.head? c).bind (fun e =>
      if test c e then some (c, e.place) else none)) ↔ ∃ g, s.head? y.1 = some g ∧ test y.1 g = true ∧ g.place = y.2 := by
    rintro ⟨d, n⟩
    simp only [List.mem_filterMap, Option.bind_eq_some_iff, Option.ite_none_right_eq_some, Option.some.injEq, Prod.mk.injEq]
    constructor
    · rintro ⟨d, -, g, hg, hq, rfl, rfl⟩
      exact ⟨g, hg, hq, rfl⟩
    · rintro ⟨g, hg, hq, rfl⟩
      exact ⟨d, mem_channels d, g, hg, hq, rfl, rfl⟩
  have this_one := (mem (c, h.place)).2 ⟨h, hc, ht, rfl⟩
  have least : ∀ y, (∃ g, s.head? y.1 = some g ∧ test y.1 g = true ∧ g.place = y.2) → h.place ≤ y.2 ∧
      (y.2 ≤ h.place → y = (c, h.place)) := by
    rintro ⟨d, n⟩ ⟨g, hg, hq, hn⟩
    by_cases hd : d = c
    · subst hd
      obtain rfl : g = h := Option.some.inj (hg.symm.trans hc)
      exact ⟨Nat.le_of_eq hn, fun _ => Prod.ext rfl hn.symm⟩
    · have later := others d g hd hg hq
      have hn : g.place = n := hn
      exact ⟨by simp only; omega, fun h => by simp only at h; omega⟩
  refine (congrArg (Option.map _) (head?_of_only (x := (c, h.place)) ?_ ?_)).trans rfl
  · refine List.mem_filter.2 ⟨this_one, List.all_eq_true.2 fun y hy => decide_eq_true ?_⟩
    exact (least y ((mem y).1 hy)).1
  · intro y hy
    obtain ⟨hy, all⟩ := List.mem_filter.1 hy
    exact (least y ((mem y).1 hy)).2 (of_decide_eq_true (List.all_eq_true.1 all _ this_one))

/-! ### The rules in their order (R114 to R117, R137) -/

theorem owesPosted_iff : s.owesPosted = true ↔ s.posted ≠ [] ∧ s.isWaiting .posted = false ∧ s.isWaiter .posted = false := by
  simp [State.owesPosted, and_assoc]

/-- The posted write queue's head stands somewhere, or there is none. -/
def Stands (s : State) : Prop := s.posted = [] ∨ s.isWaiting .posted = true ∨ s.isWaiter .posted = true

theorem rulePosted_none (hp : Stands s) : s.rulePosted = none := by
  rcases hp with h | h | h <;> simp [State.rulePosted, State.owesPosted, h]

/-- No head has drained. -/
def Drained (s : State) : Prop := ∀ c e, s.head? c = some e → e.inPhase .draining = true → s.postedOf c = true

theorem ruleDrain_none (hd : Drained s) : s.ruleDrain = none := by
  simp only [State.ruleDrain, Option.map_eq_none_iff, State.oldestHead_eq_none]
  intro c e he
  cases h : e.inPhase .draining with
  | false => rfl
  | true => rw [hd c e he h]; rfl

theorem ruleHead_none (hh : ∀ c e, s.head? c = some e → e.inPhase .waiting = false) : s.ruleHead = none := by
  simp only [State.ruleHead, Option.map_eq_none_iff, State.oldestHead_eq_none]
  exact hh

theorem nextRule_posted (hp : s.posted ≠ []) (hw : s.isWaiting .posted = false) (ht : s.isWaiter .posted = false) :
    s.nextRule = some (s.lookupOp .posted false) := by
  unfold State.nextRule State.rulePosted
  rw [if_pos (owesPosted_iff.2 ⟨hp, hw, ht⟩)]
  rfl

theorem nextRule_drain (hp : Stands s) (hc : s.head? c = some h) (hd : h.inPhase .draining = true) (hq : s.postedOf c = false)
    (others : ∀ d g, d ≠ c → s.head? d = some g → g.inPhase .draining = true → s.postedOf d = true) :
    s.nextRule = some (s.activate c) := by
  have found : s.oldestHead (fun c e => e.inPhase .draining && !s.postedOf c) = some c :=
    oldestHead_least hc (by rw [hd, hq]; rfl) fun d g hne hg hx => by
      rw [Bool.and_eq_true, Bool.not_eq_true'] at hx
      rw [others d g hne hg hx.1] at hx
      cases hx.2
  unfold State.nextRule State.ruleDrain
  rw [rulePosted_none hp, found]
  rfl

theorem nextRule_head (hp : Stands s) (hd : Drained s) (hc : s.head? c = some h) (hh : h.inPhase .waiting = true)
    (others : ∀ d g, d ≠ c → s.head? d = some g → g.inPhase .waiting = false) : s.nextRule = some (s.promote c) := by
  have found : s.oldestHead (fun _ e => e.inPhase .waiting) = some c :=
    oldestHead_least hc hh fun d g hne hg hx => by rw [others d g hne hg] at hx; cases hx
  unfold State.nextRule State.ruleHead
  rw [rulePosted_none hp, ruleDrain_none hd, found]
  rfl

theorem nextRule_room (hp : Stands s) (hd : Drained s) (hh : ∀ c e, s.head? c = some e → e.inPhase .waiting = false)
    (hr : s.posted.length < 8) (hc : s.head? c = some h) (ha : h.inPhase .active = true) (hq : h.req.isPosted = true)
    (others : ∀ d g, d ≠ c → s.head? d = some g → g.inPhase .active = true → g.req.isPosted = true → h.place < g.place) :
    s.nextRule = some (s.enterPosted c) := by
  have found : s.oldestHead (fun _ e => e.inPhase .active && e.req.isPosted) = some c :=
    oldestHead_least hc (by rw [ha, hq]; rfl) fun d g hne hg hx => by
      rw [Bool.and_eq_true] at hx
      exact others d g hne hg hx.1 hx.2
  have room : s.posted.length < Config.postedEntries := hr
  unfold State.nextRule State.ruleRoom
  rw [rulePosted_none hp, ruleDrain_none hd, ruleHead_none hh, if_pos room, found]
  rfl

/-! ### The lookup of the posted write queue's head (R136) -/

/-- The head of the posted write queue stands nowhere yet, and nothing is owed its lookup. -/
structure Heads (s : State) (p : PostedWrite) (ps : List PostedWrite) : Prop where
  queue : s.posted = p :: ps
  notWaiting : s.isWaiting .posted = false
  notWaiter : s.isWaiter .posted = false
  pass : ∀ x ∈ s.waiting, x.due = false

theorem mayTake_of_pass (h : ∀ x ∈ s.waiting, x.due = false) (n : Nat) : s.mayTake n = true := by
  unfold State.mayTake
  rw [List.all_eq_true]
  exact fun x hx => by simp [h x hx]

theorem Heads.next (h : Heads s p ps) : s.nextRule = some (s.lookupOp .posted false) :=
  nextRule_posted (by rw [h.queue]; nofun) h.notWaiting h.notWaiter

theorem Heads.lookup (h : Heads s p ps) : s.lookupOp .posted false
    = s.applyDecision .posted p.place false true (lineOf p.addr) (s.decidePosted p) := by
  unfold State.lookupOp
  rw [unwait_self h.notWaiting]
  simp only [h.queue, mayTake_of_pass h.pass, Bool.or_true]

theorem decidePosted_cached (hd : isDirect (lineOf p.addr) = false) : s.decidePosted p = s.decideWrite (lineOf p.addr) true := by
  unfold State.decidePosted
  rw [hd]
  exact if_neg nofun

theorem decidePosted_direct (hd : isDirect (lineOf p.addr) = true) :
    s.decidePosted p = if (s.entryFor (lineOf p.addr)).isSome = true ∨ s.held (lineOf p.addr) = true then .wait
      else .allocate (.direct (.write (wordOf p.addr) p.mask p.value)) := by
  unfold State.decidePosted
  rw [if_pos hd, decideDirect_eq]

theorem Heads.performs (h : Heads s p ps) (hl : s.lookup (lineOf p.addr) = some st) (hs : st.sole = true)
    (free : s.held (lineOf p.addr) = false) : s.lookupOp .posted false = s.performPosted := by
  rw [h.lookup, decidePosted_cached (not_direct_of_lookup hl), decideWrite_sole hl hs free]
  rfl

/-- It is stored into the sole line. -/
theorem Heads.stores (h : Heads s p ps) (hl : s.lookup (lineOf p.addr) = some st) (hs : st.sole = true)
    (free : s.held (lineOf p.addr) = false) (hst : s.Storable p.addr) (clean : p.mask = fullMask ∨ s.loadPoison p.addr = false) :
    s.lookupOp .posted false = { s.stored p.addr (if p.mask = fullMask then p.value
      else mergeMask p.mask (s.loadWord p.addr) p.value) with posted := ps } := by
  have kept : ¬(p.mask ≠ fullMask ∧ s.loadPoison p.addr = true) := fun ⟨hm, hx⟩ => by
    rw [clean.resolve_left hm] at hx
    cases hx
  rw [h.performs hl hs free]
  unfold State.performPosted
  simp only [h.queue, storeMasked_ready hst, if_neg kept]
  unfold State.popPosted
  rw [(stored_base _).2.2.1, h.queue]
  rfl

/-- It fails where a partial mask meets a poisoned word (R138). -/
theorem Heads.fails (h : Heads s p []) (hl : s.lookup (lineOf p.addr) = some st) (hs : st.sole = true)
    (free : s.held (lineOf p.addr) = false) (hm : p.mask ≠ fullMask) (poison : s.loadPoison p.addr = true) :
    s.lookupOp .posted false = s.failedPosted p .dataError := by
  have unstored : s.storeMasked p.addr p.mask p.value = none := by
    unfold State.storeMasked
    exact if_pos (by simp [hm, poison])
  rw [h.performs hl hs free]
  unfold State.performPosted
  simp only [h.queue, unstored]
  exact failPosted_lone h.queue

/-- It joins an OWN of its line, or an UPGRADE. -/
theorem Heads.joins (h : Heads s p ps) (free : s.held (lineOf p.addr) = false) (he : s.entryFor (lineOf p.addr) = some x)
    (hx : (s.lookup (lineOf p.addr) = some .invalid ∧ x.kind = .own) ∨ (shared s (lineOf p.addr) ∧ x.kind = .upgrade)) :
    s.lookupOp .posted false = s.joins .posted (lineOf p.addr) := by
  have decided : s.decidePosted p = .join := by
    rcases hx with ⟨hl, hk⟩ | ⟨hl, hk⟩
    · rw [decidePosted_cached (not_direct_of_lookup hl), decideWrite_pending hl he fun _ => free, if_pos hk]
    · rw [decidePosted_cached (shared_cached hl), decideWrite_joined hl he,
        if_pos ⟨hk, fun hx => by rw [free] at hx; cases hx.2⟩]
  rw [h.lookup, decided]
  rfl

/-- What it opens without a way: an UPGRADE of a shared line, or a D-WRITE. -/
theorem Heads.opens (h : Heads s p ps) (hg : Grantable s (lineOf p.addr)) {kind : TableKind}
    (hk : (shared s (lineOf p.addr) ∧ kind = .upgrade) ∨
      (isDirect (lineOf p.addr) = true ∧ kind = .direct (.write (wordOf p.addr) p.mask p.value))) :
    s.lookupOp .posted false = s.addEntry .posted kind none (lineOf p.addr) := by
  have decided : s.decidePosted p = .allocate kind := by
    rcases hk with ⟨hl, rfl⟩ | ⟨hd, rfl⟩
    · rw [decidePosted_cached (shared_cached hl), decideWrite_upgrade hl hg.entry, hg.free]
      rfl
    · rw [decidePosted_direct hd, hg.entry, hg.free]
      rfl
  rw [h.lookup, decided]
  exact applyDecision_granted (grant_wayless hg (hk.imp And.right fun hk => ⟨_, hk.2⟩) _)

/-- A miss opens an OWN in the victim way. -/
theorem Heads.misses (h : Heads s p ps) (hg : Grantable s (lineOf p.addr)) (hd : isDirect (lineOf p.addr) = false)
    (hl : s.lookup (lineOf p.addr) = none) (hw : s.writebackFor (lineOf p.addr) = none) (hv : s.victim (lineOf p.addr) = some w)
    (he : s.emptyVictim (lineOf p.addr) w = some u) :
    s.lookupOp .posted false = u.addEntry .posted .own (some w) (lineOf p.addr) := by
  have decided : s.decidePosted p = .allocate .own := by
    rw [decidePosted_cached hd, decideWrite_missing hl, hw, hg.free]
    rfl
  rw [h.lookup, decided]
  exact applyDecision_granted (grant_missing hg (.inr rfl) hd hl hw hv he _)

/-- Under a hold it waits, whatever it finds. -/
theorem decideWrite_barred (hh : s.held l = true) : s.decideWrite l true = .wait := by
  unfold State.decideWrite
  cases hl : s.lookup l with
  | none => simp [hh]
  | some st =>
    cases st with
    | invalid => simp [hh]
    | shared | dirtyShared => cases he : s.entryFor l <;> simp [hh, LineState.sole]
    | cleanSole | dirtySole => simp [hh, LineState.sole]

/-- What the head waits for. -/
def Waits (s : State) (l : LineAddr) : Prop :=
  s.held l = true ∨ (s.lookup l = none ∧ isDirect l = false ∧ (s.writebackFor l).isSome = true) ∨
  (∃ e, s.entryFor l = some e ∧ ((s.lookup l = some .invalid ∧ e.kind ≠ .own) ∨ isDirect l = true)) ∨
  (4 ≤ s.table.length ∧ s.entryFor l = none ∧ (isDirect l = true ∨ s.lookup l = none ∨ shared s l)) ∨
  (s.lookup l = none ∧ isDirect l = false ∧ s.Cramped l)

/-- A write that is not performed and not joined waits, or no grant of what it asks for is to be had. -/
theorem decidePosted_waits (hw : Waits s (lineOf p.addr)) : s.decidePosted p = .wait ∨
    ∃ kind, s.decidePosted p = .allocate kind ∧ s.grant .posted kind (lineOf p.addr) = none := by
  have barred : ∀ {kinds : Prop} [Decidable kinds] {kind : TableKind}, s.decidePosted p = (if kinds then .wait else .allocate kind) →
      s.grant .posted kind (lineOf p.addr) = none → s.decidePosted p = .wait ∨
        ∃ kind, s.decidePosted p = .allocate kind ∧ s.grant .posted kind (lineOf p.addr) = none := by
    intro kinds _ kind hd hg
    by_cases hk : kinds
    · exact .inl (hd.trans (if_pos hk))
    · exact .inr ⟨kind, hd.trans (if_neg hk), hg⟩
  have direct : isDirect (lineOf p.addr) = true → (s.entryFor (lineOf p.addr)).isSome = true ∨ s.held (lineOf p.addr) = true →
      s.decidePosted p = .wait := fun hd hx => (decidePosted_direct hd).trans (if_pos hx)
  rcases hw with hh | ⟨hl, hd, hb⟩ | ⟨e, he, hx⟩ | ⟨full, he, hx⟩ | ⟨hl, hd, hc⟩
  · by_cases hd : isDirect (lineOf p.addr) = true
    · exact .inl (direct hd (.inr hh))
    · exact .inl (by rw [decidePosted_cached (by simpa using hd), decideWrite_barred hh])
  · exact .inl (by rw [decidePosted_cached hd, decideWrite_missing hl, if_pos (.inl hb)])
  · rcases hx with ⟨hl, hk⟩ | hd
    · refine .inl ?_
      rw [decidePosted_cached (not_direct_of_lookup hl)]
      by_cases hh : s.held (lineOf p.addr) = true
      · exact decideWrite_barred hh
      · rw [decideWrite_pending hl he fun _ => by simpa using hh, if_neg hk]
    · exact .inl (direct hd (.inl (by rw [he]; rfl)))
  · rcases hx with hd | hl | hl
    · exact barred (decidePosted_direct hd) (grant_barred (.inl full) _)
    · by_cases hd : isDirect (lineOf p.addr) = true
      · exact barred (decidePosted_direct hd) (grant_barred (.inl full) _)
      · exact barred ((decidePosted_cached (by simpa using hd)).trans (decideWrite_missing hl)) (grant_barred (.inl full) _)
    · exact barred ((decidePosted_cached (shared_cached hl)).trans (decideWrite_upgrade hl he)) (grant_barred (.inl full) _)
  · exact barred ((decidePosted_cached hd).trans (decideWrite_missing hl)) (grant_cramped (.inr rfl) hc _)

theorem Heads.waits (h : Heads s p ps) (hw : Waits s (lineOf p.addr)) :
    s.lookupOp .posted false = s.waits .posted p.place := by
  rw [h.lookup]
  rcases decidePosted_waits hw with hd | ⟨kind, hd, hg⟩
  · rw [hd]
    rfl
  · rw [hd]
    exact applyDecision_barred hg

/-! ### The queue in the rest of a state -/

theorem watchAnswered_posted (a : Addr) (v : Word) (d : ChanId) (q : List PostedWrite) (u : State) :
    ({ u with posted := q } : State).watchAnswered a v d = { u.watchAnswered a v d with posted := q } := by
  show (match u.watches[d], u.hostTable[d] with | some w, [h] => _ | _, _ => ({ u with posted := q } : State))
    = { (match u.watches[d], u.hostTable[d] with | some w, [h] => _ | _, _ => u) with posted := q }
  split
  · split <;> rfl
  · rfl

/-- A store does not read the posted write queue. -/
theorem stored_posted (a : Addr) (v : Word) (q : List PostedWrite) :
    ({ s with posted := q } : State).stored a v = { s.stored a v with posted := q } := by
  have folded : ∀ (ds : List ChanId) (u : State), ds.foldl (fun u d => u.watchAnswered a v d) { u with posted := q }
      = { ds.foldl (fun u d => u.watchAnswered a v d) u with posted := q } := by
    intro ds
    induction ds with
    | nil => exact fun _ => rfl
    | cons d ds ih =>
      intro u
      rw [List.foldl_cons, watchAnswered_posted]
      exact ih _
  have start : storing { s with posted := q } a v = { storing s a v with posted := q } := by
    have lines : ((({ s with posted := q } : State).writeWay a v).touch (lineOf a)).lines
        = ((s.writeWay a v).touch (lineOf a)).lines := by
      rw [writeWay_eq (s := s) (t := { s with posted := q }) rfl,
        touch_eq (s := s.writeWay a v) (t := { s with posted := q, lines := (s.writeWay a v).lines }) rfl]
    unfold storing
    rw [lines]
  rw [stored_eq, stored_eq, start]
  exact folded channels _

/-! ### A posted WRITE that arrives on a free channel (R116) -/

/-- It becomes its channel's head. -/
theorem exec_written (hi : requestOf i = some (c, tag, r)) (hf : s.ChannelFree c) (hr : s.AtRest)
    (hk : s.acceptanceCheck r = none) (hq : r.isPosted = true) :
    exec i s = .next (s.withEntry c (s.entryOf tag r (.opened .active)) s.readyOrder).settle := by
  have promoted : (s.withEntry c (s.entryOf tag r (.opened .waiting)) s.readyOrder).promote c
      = s.withEntry c (s.entryOf tag r (.opened .active)) s.readyOrder := by
    have passed : (s.entryOf tag r (.opened .waiting)).check = none := hk
    have posted : (s.entryOf tag r (.opened .waiting)).req.isPosted = true := hq
    unfold State.promote
    rw [head_withEntry hf.head (by rfl)]
    simp only [passed, posted, if_true]
    exact setPhase_withEntry hf.head
  have next := settle_next (accept_nextRule hf hr tag r)
  rw [accept_eq, promoted] at next
  rw [exec_eq_arrive hi, arrive_credit hf.porst hf.hrst hf.credit, accept_eq, next]

/-- The posted write queue with the WRITE behind it. -/
def queued (s : State) (p : PostedWrite) : State := { s with posted := s.posted ++ [p] }

/-- The WRITE in the posted write queue, its completion ready. -/
def entered (s : State) (c : ChanId) (tag : BitVec 8) (a : Addr) (mask : BitVec 8) (v : Word) : State :=
  (queued s { ch := c, addr := a, mask := mask, value := v, place := s.nextPlace }).withEntry c
    (s.entryOf tag (.posted a mask v) (.ready .ok (s.latchSet c) [])) s.readyOrder

/-- Room takes it in at once. -/
theorem exec_entered (hf : s.ChannelFree c) (hr : s.AtRest) (hk : s.acceptanceCheck (.posted a mask v) = none)
    (room : s.posted.length < 8) : exec (.postedWrite c tag a mask v) s = .next (entered s c tag a mask v).settle := by
  have others : ∀ d g, (s.withEntry c (s.entryOf tag (.posted a mask v) (.opened .active)) s.readyOrder).head? d = some g →
      (d = c ∧ g = s.entryOf tag (.posted a mask v) (.opened .active)) ∨ (d ≠ c ∧ s.head? d = some g) := by
    intro d g hg
    by_cases hd : d = c
    · subst hd
      rw [head_withEntry hf.head (by rfl)] at hg
      exact .inl ⟨rfl, (Option.some.inj hg).symm⟩
    · rw [head_withEntry_ne hd] at hg
      exact .inr ⟨hd, hg⟩
  have head : (s.withEntry c (s.entryOf tag (.posted a mask v) (.opened .active)) s.readyOrder).head? c
      = some (s.entryOf tag (.posted a mask v) (.opened .active)) := head_withEntry hf.head rfl
  have next := nextRule_room (s := s.withEntry c (s.entryOf tag (.posted a mask v) (.opened .active)) s.readyOrder) (c := c)
    hr.posted (fun d g hg hd => by
      rcases others d g hg with ⟨-, rfl⟩ | ⟨-, hg⟩
      · cases hd
      · exact hr.drains d g hg hd)
    (fun d g hg => by
      rcases others d g hg with ⟨-, rfl⟩ | ⟨-, hg⟩
      · rfl
      · exact hr.heads d g hg)
    room head rfl rfl (fun d g hd hg ha hq => by
      rcases others d g hg with ⟨rfl, -⟩ | ⟨-, hg⟩
      · exact absurd rfl hd
      · exact absurd (hr.room d g hg ha hq) (Nat.not_le.2 room))
  have enters : (s.withEntry c (s.entryOf tag (.posted a mask v) (.opened .active)) s.readyOrder).enterPosted c
      = entered s c tag a mask v := by
    unfold State.enterPosted
    rw [head]
    exact complete_withEntry (s := queued s _) hf.head hf.notWaiting
  rw [exec_written rfl hf hr hk rfl, settle_next next, enters]

/-- A happening that is at rest orders its completions, and is over. -/
theorem rests (hi : exec i s = .next u.settle) (hu : u.settle = (t.withEntry c e s.readyOrder).settle)
    (ht : (t.withEntry c e s.readyOrder).AtRest) : ∃ order, s.readyOrder <+: order ∧ exec i s = .next (t.withEntry c e order) :=
  ⟨s.readyOrder ++ (t.withEntry c e s.readyOrder).freshReady, List.prefix_append _ _, by
    rw [hi, hu, State.settle_rest ht]
    rfl⟩

/-! ### Rest behind an empty queue -/

/-- On an empty queue no head drains and none waits for room, so that only the queue's new head can be owed something. -/
theorem atRest_placed (hr : s.AtRest) (he : s.posted = []) (ht : Stands t) (hh : ∀ d g, t.head? d = some g → s.head? d = some g)
    (hw : ∀ x ∈ t.waiting, x.due = false) : t.AtRest where
  posted := ht
  heads d g hg := hr.heads d g (hh d g hg)
  drains d g hg hd := by
    have := hr.drains d g (hh d g hg) hd
    unfold State.postedOf at this
    rw [he] at this
    cases this
  room d g hg ha hq := by
    have := hr.room d g (hh d g hg) ha hq
    rw [he] at this
    exact absurd this (by decide)
  pass := hw

/-- The new head on an empty queue. -/
theorem entered_heads (hr : s.AtRest) (he : s.posted = []) (hw : s.isWaiting .posted = false) (ht : s.isWaiter .posted = false) :
    Heads (entered s c tag a mask v) { ch := c, addr := a, mask := mask, value := v, place := s.nextPlace } [] where
  queue := by
    show s.posted ++ [_] = _
    rw [he]
    rfl
  notWaiting := hw
  notWaiter := ht
  pass := hr.pass

/-- What the lookup of a new head on an empty queue leaves. -/
theorem exec_headed (hf : s.ChannelFree c) (hr : s.AtRest) (hk : s.acceptanceCheck (.posted a mask v) = none) (he : s.posted = [])
    (hw : s.isWaiting .posted = false) (ht : s.isWaiter .posted = false)
    (hl : (entered s c tag a mask v).lookupOp .posted false
      = t.withEntry c (s.entryOf tag (.posted a mask v) (.ready .ok (s.latchSet c) [])) s.readyOrder)
    (hs : Stands t) (hh : ∀ d g, t.head? d = some g → s.head? d = some g) (hd : ∀ x ∈ t.waiting, x.due = false) :
    ∃ order, s.readyOrder <+: order ∧ exec (.postedWrite c tag a mask v) s
      = .next (t.withEntry c (s.entryOf tag (.posted a mask v) (.ready .ok (s.latchSet c) [])) order) := by
  have room : s.posted.length < 8 := by
    rw [he]
    decide
  have head : t.head? c = none := by
    cases hx : t.head? c with
    | none => rfl
    | some g => exact (hh c g hx).symm.trans hf.head
  exact rests (exec_entered hf hr hk room) (settle_next ((entered_heads hr he hw ht).next.trans (congrArg some hl)))
    (atRest_withEntry_ready (atRest_placed hr he hs hh hd) head rfl)

/-- The queue comes to be empty again. -/
theorem emptied_again (h : u.posted = []) :
    ({ ({ u with posted := q } : State).withEntry c e o with posted := [] } : State) = u.withEntry c e o := by
  unfold State.withEntry
  simp only [h]

/-- Settles O23: room takes the WRITE in behind the head, a full queue keeps it waiting, and on an empty queue it is the head. -/
theorem postedWriteEntersTheQueue : Obligations.PostedWriteEntersTheQueue := by
  intro s c tag a mask v hf hr hk
  refine ⟨fun hn room => ?_, fun full => ?_, fun st he hw ht hl hs free hst clean => ?_⟩
  · refine rests (exec_entered hf hr hk room) rfl (atRest_withEntry_ready ?_ hf.head rfl)
    refine ⟨.inr (hr.posted.resolve_left hn), hr.heads, fun d g hg hd => ?_, fun d g hg ha hq => ?_, hr.pass⟩
    · have := hr.drains d g hg hd
      unfold State.postedOf at this ⊢
      exact (List.any_append ..).trans (by rw [this, Bool.true_or])
    · exact (hr.room d g hg ha hq).trans (by simp)
  · refine rests (exec_written rfl hf hr hk rfl) rfl (atRest_withEntry_open hr hf.head rfl rfl nofun fun _ _ => full)
  · refine exec_headed hf hr hk he hw ht ?_ (.inl ((stored_base _).2.2.1.trans he)) (fun d g hg => head_stored hg)
      (fun x hx => hr.pass x (by rwa [(stored_base _).2.1] at hx))
    have storable : (queued s { ch := c, addr := a, mask := mask, value := v, place := s.nextPlace }).Storable a := ⟨hst.reservations, hst.watches⟩
    rw [(entered_heads hr he hw ht).stores (p := { ch := c, addr := a, mask := mask, value := v, place := s.nextPlace }) hl hs free
      (storable_withEntry storable hf.head) clean]
    unfold entered
    rw [stored_withEntry storable.watches hf.head]
    refine Eq.trans ?_ (emptied_again (q := s.posted ++ [{ ch := c, addr := a, mask := mask, value := v, place := s.nextPlace }])
      ((stored_base _).2.2.1.trans he))
    rw [← stored_posted]
    rfl

/-! ### The new head on an empty queue (R136) -/

theorem queued_empty (he : s.posted = []) (p : PostedWrite) : queued s p = { s with posted := [p] } := by
  unfold queued
  rw [he]
  rfl

theorem isWaiter_opened {way : Option WayId} {kind : TableKind} : (s.opens .posted kind way l).isWaiter .posted = true := by
  simp [State.isWaiter, State.opens]

theorem stands_opens {way : Option WayId} {kind : TableKind} : Stands (s.opens .posted kind way l) :=
  .inr (.inr isWaiter_opened)

theorem stands_joins (he : s.entryFor l = some x) : Stands (s.joins .posted l) := by
  refine .inr (.inr (List.any_eq_true.2 ⟨_, List.mem_map_of_mem (List.mem_of_find?_eq_some he), ?_⟩))
  rw [if_pos (Happenings.line_of_entryFor he)]
  simp

theorem stands_waits {place : Nat} : Stands (s.waits .posted place) := by
  refine .inr (.inl ?_)
  unfold State.isWaiting State.waits
  rw [(insertBy_perm _ _ _).any_eq, List.any_cons, Bool.or_eq_true]
  exact .inl (decide_eq_true rfl)

theorem due_waits_of_pass (h : ∀ x ∈ s.waiting, x.due = false) {who : Who} {place : Nat} :
    ∀ y ∈ (s.waits who place).waiting, y.due = false := by
  intro y hy
  rcases List.mem_cons.1 ((insertBy_perm _ _ _).mem_iff.1 hy) with rfl | hy
  · rfl
  · exact h y hy

theorem waits_withEntry (hw : s.isWaiting (.chan c) = false) (h : Waits s l) : Waits (s.withEntry c e o) l := by
  rcases h with h | h | h | h | ⟨hl, hd, hc⟩
  · exact .inl h
  · exact .inr (.inl h)
  · exact .inr (.inr (.inl h))
  · exact .inr (.inr (.inr (.inl h)))
  · exact .inr (.inr (.inr (.inr ⟨hl, hd, cramped_withEntry hw hc⟩)))

/-- Settles O24: each row of the head's table decides, and the decision is carried out. -/
theorem postedHeadFollowsItsTable : Obligations.PostedHeadFollowsItsTable := by
  intro s c tag a mask v hf hr hk he hw ht l p base becomes shared'
  have heads := entered_heads (c := c) (tag := tag) (a := a) (mask := mask) (v := v) hr he hw ht
  have same : queued s p = base := queued_empty he p
  have looks : ∀ t, (entered s c tag a mask v).lookupOp .posted false
      = t.withEntry c (s.entryOf tag (.posted a mask v) (.ready .ok (s.latchSet c) [])) s.readyOrder → Stands t →
      t.hostTable = s.hostTable → (∀ x ∈ t.waiting, x.due = false) → becomes t := fun t hl hs hh hd =>
    exec_headed hf hr hk he hw ht hl hs (fun d g hg => by unfold State.head? at hg ⊢; rwa [hh] at hg) hd
  refine ⟨fun st hl hs free hm poison => ?_, fun free hx room => ⟨fun w hd hl hb hv leaves => ?_, fun hl => ?_, fun hd => ?_⟩,
    fun x free hx hl => ?_, fun waits => ?_⟩
  · exact looks _ (heads.fails hl hs free hm poison) (.inl rfl) rfl hr.pass
  · rw [← same]
    exact looks _ (heads.misses ⟨room, hx, free⟩ hd hl hb ((victim_withEntry (s := queued s p) (o := s.readyOrder) hf.notWaiting _).trans hv)
      (emptyVictim_leaves (s := queued s p) beside_withEntry leaves)) stands_opens rfl hr.pass
  · rw [← same]
    exact looks _ (heads.opens ⟨room, hx, free⟩ (.inl ⟨hl, rfl⟩)) stands_opens rfl hr.pass
  · rw [← same]
    exact looks _ (heads.opens ⟨room, hx, free⟩ (.inr ⟨hd, rfl⟩)) stands_opens rfl hr.pass
  · rw [← same]
    exact looks _ (heads.joins free hx hl) (stands_joins hx) rfl hr.pass
  · rw [← same]
    exact looks _ (heads.waits (waits_withEntry (s := queued s p) hf.notWaiting waits)) stands_waits rfl
      (due_waits_of_pass hr.pass)

end Sys2Proof.Proofs.Posted
end

