-- ==== Sys2Proof/Proofs/Moves.lean ====
section
/-! PROOFS. The end of the posted write queue's head, and what it brings: the next head, the drained head, the room (R114 to
R117, R136 to R138, R143). -/

namespace Sys2Proof.Proofs.Moves

open Sys2Proof Sys2Proof.Machine Sys2Proof.Proofs.AtRest Sys2Proof.Proofs.Acceptance Sys2Proof.Proofs.Presented
open Sys2Proof.Proofs.Hits Sys2Proof.Proofs.Waiters Sys2Proof.Proofs.Serving Sys2Proof.Proofs.Passes Sys2Proof.Proofs.Lookups
open Sys2Proof.Proofs.Expiries Sys2Proof.Proofs.Posted

variable {s t u : State} {c d : ChanId} {h g e : HostEntry} {hs : List HostEntry} {l : LineAddr} {a b : Addr} {v : Word} {x : TableEntry}
  {p q : PostedWrite} {ps rest : List PostedWrite} {st : LineState} {mask : BitVec 8} {ph : HostPhase}

/-! ### The first open entry of a channel -/

theorem mapFirst_first {pre : List HostEntry} (hp : ∀ y ∈ pre, y.isOpen = false) (ho : h.isOpen = true) (f : HostEntry → HostEntry) :
    mapFirst (fun e => e.isOpen) f (pre ++ h :: hs) = pre ++ f h :: hs := by
  induction pre with
  | nil => simp [mapFirst, ho]
  | cons y ys ih =>
    have closed : y.isOpen = false := hp y List.mem_cons_self
    simp [mapFirst, closed, ih fun z hz => hp z (List.mem_cons_of_mem _ hz)]

/-- The host requests of one channel replaced. -/
def holding (s : State) (c : ChanId) (es : List HostEntry) : State := { s with hostTable := s.hostTable.set c es }

theorem holding_self (es : List HostEntry) : (holding s c es).hostTable[c] = es := by
  simp [holding]

theorem head_holding_self (es : List HostEntry) : (holding s c es).head? c = es.find? (fun e => e.isOpen) := by
  simp [State.head?, holding]

theorem head_holding_ne (hd : d ≠ c) (es : List HostEntry) : (holding s c es).head? d = s.head? d := by
  have : (c : Nat) ≠ d := fun e => hd (Fin.ext e.symm)
  simp [State.head?, holding, Vector.getElem_set_ne _ _ this]

theorem holding_holding (es fs : List HostEntry) : holding (holding s c es) c fs = holding s c fs := by
  unfold holding
  simp

theorem updateHead_first {pre : List HostEntry} (hh : s.hostTable[c] = pre ++ h :: hs) (hp : ∀ y ∈ pre, y.isOpen = false)
    (ho : h.isOpen = true) (f : HostEntry → HostEntry) : s.updateHead c f = holding s c (pre ++ f h :: hs) := by
  unfold State.updateHead holding
  rw [hh, mapFirst_first hp ho]

theorem setPhase_first {pre : List HostEntry} (hh : s.hostTable[c] = pre ++ h :: hs) (hp : ∀ y ∈ pre, y.isOpen = false)
    (ho : h.isOpen = true) : s.setPhase c ph = holding s c (pre ++ { h with progress := .opened ph } :: hs) :=
  updateHead_first hh hp ho _

theorem complete_first {pre : List HostEntry} (hh : s.hostTable[c] = pre ++ h :: hs) (hp : ∀ y ∈ pre, y.isOpen = false)
    (ho : h.isOpen = true) (hw : s.isWaiting (.chan c) = false) (st : Machine.Status) (data : List Word) :
    s.complete c st data = holding s c (pre ++ { h with progress := .ready st (s.latchSet c) data } :: hs) := by
  unfold State.complete
  rw [updateHead_first hh hp ho]
  exact unwait_self hw

theorem head_first {pre : List HostEntry} (hh : s.hostTable[c] = pre ++ h :: hs) (hp : ∀ y ∈ pre, y.isOpen = false)
    (ho : h.isOpen = true) : s.head? c = some h := by
  unfold State.head?
  rw [hh, List.find?_append, List.find?_eq_none.2 fun y hy => by rw [hp y hy]; nofun, List.find?_cons, ho]
  rfl

theorem isOpen_of_inPhase (h : g.inPhase ph = true) : g.isOpen = true := by
  have : g.progress = .opened ph := of_decide_eq_true h
  unfold HostEntry.isOpen
  rw [this]

theorem inPhase_apart (h : g.inPhase ph = true) {other : HostPhase} (hn : ph ≠ other) : g.inPhase other = false := by
  have : g.progress = .opened ph := of_decide_eq_true h
  simp [HostEntry.inPhase, this, hn]

/-! ### A drained head becomes ACTIVE (R115) -/

theorem activate_first (hh : s.hostTable[c] = h :: hs) (ho : h.isOpen = true) (hr : ∀ a, h.req ≠ .reserve a)
    (hw : s.isWaiting (.chan c) = false) (pass : ∀ x ∈ s.waiting, x.due = false)
    (hu : holding s c ({ h with progress := .opened .active } :: hs) = u) : s.activate c
      = u.applyDecision (.chan c) h.place false true (lineOf (h.req.addr?.getD 0)) (u.decideRequest c h.req) := by
  have phase : s.setPhase c .active = u := (setPhase_first (pre := []) hh (List.forall_mem_nil _) ho).trans hu
  have head : u.head? c = some { h with progress := .opened .active } := by
    rw [← hu, head_holding_self]
    rfl
  have idle : u.isWaiting (.chan c) = false := by
    rw [← hu]
    exact hw
  have none : u.waiting.any (fun x => x.who = .chan c && x.pendingFlush) = false := by
    rw [List.any_eq_false]
    intro x hx hc
    rw [Bool.and_eq_true] at hc
    rw [State.isWaiting, List.any_eq_false] at idle
    exact idle x hx hc.1
  have may : u.mayTake h.place = true := mayTake_of_pass (s := u) (by rw [← hu]; exact pass) _
  have looked := lookupOp_chan (turn := false) head (unwait_self idle)
  rw [none] at looked
  unfold State.activate
  simp only [phase, head]
  have turn : (false || u.mayTake h.place) = true := by rw [may]; rfl
  refine Eq.trans ?_ (looked.trans (by rw [turn]))
  cases hq : h.req with
  | reserve a => exact absurd hq (hr a)
  | _ => rfl

/-- A drained FENCE reports its channel's latch and clears it (R143). -/
theorem activate_fence (hh : s.hostTable[c] = h :: hs) (ho : h.isOpen = true) (hr : h.req = .fence)
    (hw : s.isWaiting (.chan c) = false) (pass : ∀ x ∈ s.waiting, x.due = false) : s.activate c
      = { holding s c ({ h with progress := .ready .ok (s.latchSet c) [latchWord s.latches[c]] } :: hs) with
          latches := s.latches.set c none } := by
  obtain ⟨tag, req, place, check, progress⟩ := h
  obtain rfl : req = .fence := hr
  have head := head_holding_self (s := s) (c := c) ({ tag, req := .fence, place, check, progress := .opened .active } :: hs)
  have completed := complete_first (s := holding s c ({ tag, req := .fence, place, check, progress := .opened .active } :: hs))
    (pre := []) (c := c) (holding_self _) (List.forall_mem_nil _) rfl hw .ok [latchWord s.latches[c]]
  rw [holding_holding] at completed
  rw [activate_first hh ho nofun hw pass rfl]
  exact (Status.perform_head head).trans
    (congrArg (fun t : State => ({ t with latches := t.latches.set c none } : State)) completed)

/-- A drained READ of a direct line waits where the transaction table is full. -/
theorem activate_read (hh : s.hostTable[c] = [h]) (ho : h.isOpen = true) (hr : h.req = .read b) (hd : isDirect (lineOf b) = true)
    (hw : s.isWaiting (.chan c) = false) (pass : ∀ x ∈ s.waiting, x.due = false) (full : 4 ≤ s.table.length) :
    s.activate c = (s.waits (.chan c) h.place).rephased c h .active := by
  rw [activate_first (u := s.rephased c h .active) hh ho (by rw [hr]; nofun) hw pass rfl, hr, decideRequest_direct rfl rfl hd, decideDirect_eq]
  split
  · rfl
  · exact applyDecision_barred (grant_barred (s := s.rephased c h .active) (.inl full) _)

/-- A posted WRITE head takes room in the queue (R116). -/
theorem enterPosted_first {pre : List HostEntry} (hh : s.hostTable[c] = pre ++ h :: hs) (hp : ∀ y ∈ pre, y.isOpen = false)
    (ho : h.isOpen = true) (hr : h.req = .posted a mask v) (hw : s.isWaiting (.chan c) = false) : s.enterPosted c
      = { holding s c (pre ++ { h with progress := .ready .ok (s.latchSet c) [] } :: hs) with
          posted := s.posted ++ [{ ch := c, addr := a, mask := mask, value := v, place := h.place }] } := by
  obtain ⟨tag, req, place, check, progress⟩ := h
  obtain rfl : req = .posted a mask v := hr
  have completed := complete_first (s := { s with
    posted := s.posted ++ [{ ch := c, addr := a, mask := mask, value := v, place }] }) hh hp ho hw .ok []
  unfold State.enterPosted
  simp only [head_first hh hp ho]
  exact completed

/-- A posted WRITE that comes to be its channel's head is ACTIVE. -/
theorem promote_posted {pre : List HostEntry} (hh : s.hostTable[c] = pre ++ h :: hs) (hp : ∀ y ∈ pre, y.isOpen = false)
    (ho : h.isOpen = true) (hk : h.check = none) (hr : h.req.isPosted = true) :
    s.promote c = holding s c (pre ++ { h with progress := .opened .active } :: hs) := by
  have phase : s.promote c = s.setPhase c .active := by
    unfold State.promote
    simp only [head_first hh hp ho, hk, hr, if_true]
  rw [phase, setPhase_first hh hp ho]

/-! ### The posted write queue's head fails LOST-REPLY (R68, R138, R141) -/

/-- What the expiry of its entry's timer leaves, before anything follows. -/
def headLost (s : State) (l : LineAddr) (p : PostedWrite) (rest : List PostedWrite) : State := { s with
  now := s.now + 1
  lines := (s.freeFillPending l).lines
  table := s.table.filter (fun x => x.line ≠ l)
  counters := { s.counters with lostReplies := s.counters.lostReplies + 1 }
  latches := s.latches.set p.ch (some (takeFailure s.latches[p.ch] .lostReply p.addr))
  posted := rest }

theorem expireEntry_posted (hw : s.waiting = []) (hx : x.line = l) (hl : x.waiters = [.posted]) (hp : s.posted = p :: rest) :
    s.count1.expireEntry x = headLost s l p rest := by
  subst hx
  have failed : (s.count1.freeFillPending x.line).failPosted .lostReply = { s.count1 with
      lines := (s.freeFillPending x.line).lines
      latches := s.latches.set p.ch (some (takeFailure s.latches[p.ch] .lostReply p.addr))
      posted := rest } := by
    rw [freeFillPending_eq (s := s) (t := s.count1) rfl]
    unfold State.failPosted State.popPosted
    simp only [show s.count1.posted = p :: rest from hp, List.tail_cons]
    rfl
  have ended : s.count1.giveUpEntry x .lostReply = State.endEntry { s.count1 with
      lines := (s.freeFillPending x.line).lines
      latches := s.latches.set p.ch (some (takeFailure s.latches[p.ch] .lostReply p.addr))
      posted := rest } x.line := by
    unfold State.giveUpEntry
    rw [hl]
    exact congrArg (State.endEntry · x.line) failed
  unfold State.expireEntry
  rw [ended]
  unfold State.endEntry
  rw [OwnVerdicts.owePass_empty (by exact hw)]
  rfl

/-! ### What follows the failure (R137) -/

/-- The entry that the posted write queue's head waits on, and its expiry. -/
structure Lost (s : State) (l : LineAddr) (p : PostedWrite) (rest : List PostedWrite) : Prop where
  calm : s.AtRest
  one : s.OnePlace
  waiting : s.waiting = []
  posted : s.posted = p :: rest
  entry : l ∈ s.table.map (fun y => y.line)
  alone : ∀ y ∈ s.table, .posted ∈ y.waiters → y.line = l
  expires : exec (.replyTimerExpiry l) s = .next (headLost s l p rest).settle

theorem lost_of (hp : s.porst = false) (hr : s.AtRest) (one : s.OnePlace) (law : s.HeadLaw) (hw : s.waiting = [])
    (hx : s.entryFor l = some x) (ha : x.phase.awaiting = true) (hl : x.waiters = [.posted]) (hq : s.posted = p :: rest) :
    Lost s l p rest where
  calm := hr
  one := one
  waiting := hw
  posted := hq
  entry := List.mem_map.2 ⟨x, List.mem_of_find?_eq_some hx, Happenings.line_of_entryFor hx⟩
  alone y hy hm := by
    have line : ∀ z ∈ s.table, .posted ∈ z.waiters → lineOf p.addr = z.line := by
      intro z hz hm
      obtain ⟨p', ps, hp', hl'⟩ := law.postedWaiter z hz hm
      rw [hq] at hp'
      obtain rfl : p = p' := (List.cons.inj hp').1
      exact hl'
    rw [← line y hy hm, line x (List.mem_of_find?_eq_some hx) (by rw [hl]; exact List.mem_cons_self)]
    exact Happenings.line_of_entryFor hx
  expires := by rw [exec_replyTimerExpiry hp hx ha, expireEntry_posted hw (Happenings.line_of_entryFor hx) hl hq]

theorem Lost.notWaiter (h : Lost s l p rest) : (headLost s l p rest).isWaiter .posted = false := by
  unfold State.isWaiter
  rw [List.any_eq_false]
  intro y hy hm
  obtain ⟨hy, hl⟩ := List.mem_filter.1 hy
  obtain ⟨z, hz, e⟩ := List.any_eq_true.1 hm
  exact of_decide_eq_true hl (h.alone y hy (of_decide_eq_true e ▸ hz))

theorem Lost.next (h : Lost s l p (q :: ps)) : Heads (headLost s l p (q :: ps)) q ps where
  queue := rfl
  notWaiting := by
    rw [State.isWaiting, show (headLost s l p (q :: ps)).waiting = [] from h.waiting]
    rfl
  notWaiter := h.notWaiter
  pass x hx := by
    rw [show (headLost s l p (q :: ps)).waiting = [] from h.waiting] at hx
    cases hx

/-- A short queue has room, so that no head waits for it. -/
theorem Lost.roomy (h : Lost s l p rest) (hn : rest.length < 7) (hc : s.head? c = some g) (ha : g.inPhase .active = true)
    (hq : g.req.isPosted = true) : False := by
  have full := h.calm.room c g hc ha hq
  rw [h.posted] at full
  exact absurd full (by simp [Config.postedEntries]; omega)

/-- The expiry leaves a state, but for the places of its completions. -/
def Leaves (s : State) (l : LineAddr) (t : State) : Prop :=
  ∃ order, s.readyOrder <+: order ∧ exec (.replyTimerExpiry l) s = .next { t with readyOrder := order }

/-- The happening goes on to a state at rest. -/
theorem Lost.becomes (h : Lost s l p rest) (hs : (headLost s l p rest).settle = t.settle) (ht : t.AtRest)
    (ho : t.readyOrder = s.readyOrder) : Leaves s l t := by
  obtain ⟨order, hp, he⟩ := settles (s := s) ht ho
  exact ⟨order, hp, by rw [h.expires, hs, he]⟩

theorem readyOrder_stored (a : Addr) (v : Word) : (s.stored a v).readyOrder = s.readyOrder := by
  have all := foldl_keeps (fun u : State => u.readyOrder) (fun (u : State) (d : ChanId) => u.watchAnswered a v d)
    (fun u d => by rcases watchAnswered_cases (s := u) a v d with e | ⟨_, _, -, -, -, e⟩ <;> rw [e]; rfl) channels (storing s a v)
  rwa [← stored_eq] at all

/-- The next entry becomes the head and is stored at once. -/
theorem Lost.stores (h : Lost s l p [q]) (hn : s.NoDrain) (hl : (headLost s l p [q]).lookup (lineOf q.addr) = some st)
    (hs : st.sole = true) (free : (headLost s l p [q]).held (lineOf q.addr) = false) (hst : (headLost s l p [q]).Storable q.addr)
    (clean : q.mask = fullMask ∨ (headLost s l p [q]).loadPoison q.addr = false) :
    Leaves s l { (headLost s l p [q]).stored q.addr
      (if q.mask = fullMask then q.value else mergeMask q.mask ((headLost s l p [q]).loadWord q.addr) q.value) with
        posted := [] } := by
  have goes := settle_next (h.next.next.trans (congrArg some (h.next.stores hl hs free hst clean)))
  have heads : ∀ v d g, ((headLost s l p [q]).stored q.addr v).head? d = some g → s.head? d = some g :=
    fun v d g hg => head_stored (s := headLost s l p [q]) hg
  have still : ∀ v, ((headLost s l p [q]).stored q.addr v).waiting = [] := fun v => (stored_base _).2.1.trans h.waiting
  have order : ∀ v, ((headLost s l p [q]).stored q.addr v).readyOrder = s.readyOrder := fun v => readyOrder_stored _ _
  generalize (if q.mask = fullMask then q.value else mergeMask q.mask ((headLost s l p [q]).loadWord q.addr) q.value) = v at goes ⊢
  specialize heads v
  specialize still v
  specialize order v
  generalize (headLost s l p [q]).stored q.addr v = u at goes heads still order ⊢
  refine h.becomes (t := { u with posted := [] }) goes
    ⟨.inl rfl, fun d g hg => h.calm.heads d g (heads d g hg), fun d g hg hd => ?_, fun d g hg ha hq => ?_, fun x hx => ?_⟩ order
  · rw [hn d g (heads d g hg)] at hd
    cases hd
  · exact (h.roomy (by simp) (heads d g hg) ha hq).elim
  · have hx : x ∈ u.waiting := hx
    rw [still] at hx
    cases hx

/-- A queue left empty lets the channel's FENCE drain, and it reads the failure. -/
theorem Lost.fences (h : Lost s l p []) (hh : s.hostTable[p.ch] = [g]) (hd : g.inPhase .draining = true) (hr : g.req = .fence)
    (others : ∀ d g', d ≠ p.ch → s.head? d = some g' → g'.inPhase .draining = false) :
    Leaves s l { (headLost s l p []).answered p.ch g .ok
      [latchWord (some (takeFailure s.latches[p.ch] .lostReply p.addr))] with
        latches := s.latches.set p.ch none } := by
  have isOpen : g.isOpen = true := isOpen_of_inPhase hd
  have head : s.head? p.ch = some g := head_lone hh isOpen
  have next := nextRule_drain (s := headLost s l p []) (.inl rfl) head hd rfl fun d g' hne hg hd' => by
    rw [others d g' hne hg] at hd'
    cases hd'
  have fenced : (headLost s l p []).activate p.ch = { (headLost s l p []).answered p.ch g .ok
      [latchWord (some (takeFailure s.latches[p.ch] .lostReply p.addr))] with latches := s.latches.set p.ch none } := by
    rw [activate_fence (s := headLost s l p []) hh isOpen hr (by rw [State.isWaiting, show (headLost s l p []).waiting = [] from h.waiting]; rfl)
      (by rw [show (headLost s l p []).waiting = [] from h.waiting]; exact List.forall_mem_nil _)]
    simp only [headLost, holding, State.answered, State.latchSet, Fin.getElem_fin, Vector.getElem_set_self, Vector.set_set]
  have heads : ∀ d g', ((headLost s l p []).answered p.ch g .ok
      [latchWord (some (takeFailure s.latches[p.ch] .lostReply p.addr))]).head? d = some g' → d ≠ p.ch ∧ s.head? d = some g' := by
    intro d g' hg
    refine ⟨fun e => ?_, head_answered (s := headLost s l p []) hg⟩
    rw [e, head_answered_self] at hg
    cases hg
  refine h.becomes ((settle_next next).trans (congrArg State.settle fenced)) ⟨.inl rfl, fun d g' hg => ?_, fun d g' hg hd' => ?_,
    fun d g' hg ha hq => ?_, ?_⟩ rfl
  · exact h.calm.heads d g' (heads d g' hg).2
  · rw [others d g' (heads d g' hg).1 (heads d g' hg).2] at hd'
    cases hd'
  · exact (h.roomy (by simp) (heads d g' hg).2 ha hq).elim
  · intro x hx
    have hx : x ∈ s.waiting := hx
    rw [h.waiting] at hx
    cases hx

/-- The state in which the new head waits behind the hold of its line. -/
def headWaits (s : State) (l : LineAddr) (p q : PostedWrite) (qs : List PostedWrite) : State :=
  (headLost s l p (q :: qs)).waits .posted q.place

theorem Lost.waits (h : Lost s l p (q :: ps)) (hh : s.held (lineOf q.addr) = true) :
    (headLost s l p (q :: ps)).settle = (headWaits s l p q ps).settle :=
  settle_next (h.next.next.trans (congrArg some (h.next.waits (.inl hh))))

theorem Lost.waiting_head (h : Lost s l p (q :: ps)) : (headWaits s l p q ps).waiting
    = [{ who := .posted, place := q.place, pendingFlush := false, due := false }] := by
  show insertBy _ _ s.waiting = _
  rw [h.waiting]
  rfl

theorem Lost.stands (h : Lost s l p (q :: ps)) : Stands (headWaits s l p q ps) := by
  refine .inr (.inl ?_)
  rw [State.isWaiting, h.waiting_head]
  simp

theorem Lost.channel (h : Lost s l p (q :: ps)) (c : ChanId) : (headWaits s l p q ps).isWaiting (.chan c) = false := by
  rw [State.isWaiting, h.waiting_head]
  simp

theorem Lost.pass (h : Lost s l p (q :: ps)) : ∀ x ∈ (headWaits s l p q ps).waiting, x.due = false := by
  rw [h.waiting_head]
  simp

/-- The freed room goes to the oldest head that waits for it. -/
theorem Lost.admits (h : Lost s l p (q :: ps)) (seven : (q :: ps).length = 7) (held : s.held (lineOf q.addr) = true)
    (drains : ∀ d g, s.head? d = some g → g.inPhase .draining = true → (q :: ps).any (fun x => x.ch = d) = true)
    (hh : s.hostTable[c] = [g]) (ha : g.inPhase .active = true) (hr : g.req = .posted a mask v)
    (older : ∀ d g', d ≠ c → s.head? d = some g' → g'.inPhase .active = true → g'.req.isPosted = true → g.place < g'.place) :
    Leaves s l { (headWaits s l p q ps).answered c g .ok [] with
      posted := (q :: ps) ++ [{ ch := c, addr := a, mask := mask, value := v, place := g.place }] } := by
  have isOpen := isOpen_of_inPhase ha
  have room := nextRule_room (s := headWaits s l p q ps) h.stands drains h.calm.heads (by rw [show (headWaits s l p q ps).posted.length = 7 from seven]; decide)
    (head_lone hh isOpen : s.head? c = some g) ha (by rw [hr]; rfl) older
  have enters := enterPosted_first (s := headWaits s l p q ps) (pre := []) hh (List.forall_mem_nil _) isOpen hr (h.channel c)
  have heads : ∀ d g', ((headWaits s l p q ps).answered c g .ok []).head? d = some g' → s.head? d = some g' :=
    fun _ _ hg => head_answered (s := headWaits s l p q ps) hg
  refine h.becomes (t := { (headWaits s l p q ps).answered c g .ok [] with
    posted := (q :: ps) ++ [{ ch := c, addr := a, mask := mask, value := v, place := g.place }] }) ((h.waits held).trans (settle_next (room.trans (congrArg some enters)))) ⟨h.stands.imp_left nofun, fun d g' hg => ?_,
    fun d g' hg hd => ?_, fun _ _ _ _ _ => ?_, h.pass⟩ rfl
  · exact h.calm.heads d g' (heads d g' hg)
  · show ((q :: ps) ++ _).any _ = true
    rw [List.any_append, drains d g' (heads d g' hg) hd, Bool.true_or]
  · show 8 ≤ ((q :: ps) ++ _).length
    rw [List.length_append, seven]
    exact Nat.le_refl 8

/-- The removal of one of distinct keys. -/
theorem length_filter_ne {α β : Type} [DecidableEq β] (f : α → β) (k : β) : ∀ xs : List α, (xs.map f).Nodup → k ∈ xs.map f →
    (xs.filter (fun x => f x ≠ k)).length + 1 = xs.length
  | [], _, hk => by cases hk
  | x :: xs, hn, hk => by
    obtain ⟨hx, hn⟩ := List.nodup_cons.1 hn
    by_cases h : f x = k
    · have others : xs.filter (fun x => f x ≠ k) = xs :=
        List.filter_eq_self.2 fun y hy => decide_eq_true fun e => hx (h ▸ e ▸ List.mem_map_of_mem hy)
      rw [List.filter_cons_of_neg (by simp [h]), others, List.length_cons]
    · have rest := length_filter_ne f k xs hn ((List.mem_cons.1 hk).resolve_left fun e => h e.symm)
      rw [List.filter_cons_of_pos (by simp [h]), List.length_cons, rest, List.length_cons]

/-- The new head takes the one free entry, and the drained READ of the removed head's channel waits for it. -/
theorem Lost.precedes (h : Lost s l p [q]) (full : s.table.length = 4) (direct : isDirect (lineOf q.addr) = true)
    (vacant : s.entryFor (lineOf q.addr) = none) (free : s.held (lineOf q.addr) = false) (hne : q.ch ≠ p.ch)
    (hh : s.hostTable[p.ch] = [g]) (hd : g.inPhase .draining = true) (hr : g.req = .read b) (hb : isDirect (lineOf b) = true)
    (others : ∀ d g', s.head? d = some g' → g'.inPhase .draining = true → d = p.ch ∨ d = q.ch) :
    Leaves s l {
      ((State.opens { headLost s l p [q] with now := s.now } .posted (.direct (.write (wordOf q.addr) q.mask q.value)) none
        (lineOf q.addr)).waits (.chan p.ch) g.place).rephased p.ch g .active with now := s.now + 1 } := by
  have isOpen := isOpen_of_inPhase hd
  have length : (headLost s l p [q]).table.length + 1 = 4 := (length_filter_ne _ l _ h.one.table h.entry).trans full
  have entry : (headLost s l p [q]).entryFor (lineOf q.addr) = none :=
    List.find?_eq_none.2 fun y hy => List.find?_eq_none.1 vacant y (List.mem_of_mem_filter hy)
  have opened := h.next.opens ⟨by omega, entry, free⟩ (.inr ⟨direct, rfl⟩)
  have go := h.next.next.trans (congrArg some opened)
  have still : (headLost s l p [q]).waiting = [] := h.waiting
  have stands : Stands ((headLost s l p [q]).addEntry .posted (.direct (.write (wordOf q.addr) q.mask q.value)) none (lineOf q.addr)) :=
    stands_opens (s := { headLost s l p [q] with now := s.now })
  have drain := nextRule_drain stands (head_lone hh isOpen : s.head? p.ch = some g) hd (by simp [State.postedOf, headLost, State.addEntry, State.markJoined, hne])
    (fun d g' hd hg hx => by
      obtain rfl := (others d g' hg hx).resolve_left hd
      simp [State.postedOf, headLost, State.addEntry, State.markJoined])
  have reads := activate_read
    (s := (headLost s l p [q]).addEntry .posted (.direct (.write (wordOf q.addr) q.mask q.value)) none (lineOf q.addr))
    hh isOpen hr hb (by show State.isWaiting (headLost s l p [q]) _ = false; rw [State.isWaiting, still]; rfl)
    (by show ∀ x ∈ (headLost s l p [q]).waiting, _; rw [still]; exact List.forall_mem_nil _)
    (by show 4 ≤ ((headLost s l p [q]).table ++ [_]).length; rw [List.length_append]; exact length.ge)
  refine h.becomes (t := { ((State.opens { headLost s l p [q] with now := s.now } .posted
      (.direct (.write (wordOf q.addr) q.mask q.value)) none (lineOf q.addr)).waits (.chan p.ch) g.place).rephased p.ch g .active
      with now := s.now + 1 }) ((settle_next go).trans (settle_next (drain.trans (congrArg some reads)))) ?_ rfl
  have heads : ∀ d g', (holding s p.ch [{ g with progress := .opened .active }]).head? d = some g' →
      (d = p.ch ∧ g' = { g with progress := .opened .active }) ∨ (d ≠ p.ch ∧ s.head? d = some g') := by
    intro d g' hg
    by_cases hd : d = p.ch
    · rw [hd, head_holding_self] at hg
      exact .inl ⟨hd, (Option.some.inj hg).symm⟩
    · rw [head_holding_ne hd] at hg
      exact .inr ⟨hd, hg⟩
  refine ⟨.inr (.inr (isWaiter_opened (s := { headLost s l p [q] with now := s.now }))), fun d g' hg => ?_, fun d g' hg hx => ?_, fun d g' hg ha hq => ?_, ?_⟩
  · rcases heads d g' hg with ⟨-, rfl⟩ | ⟨-, hg⟩
    · rfl
    · exact h.calm.heads d g' hg
  · rcases heads d g' hg with ⟨-, rfl⟩ | ⟨hd, hg⟩
    · cases hx
    · obtain rfl := (others d g' hg hx).resolve_left hd
      exact List.any_eq_true.2 ⟨q, List.mem_cons_self, decide_eq_true rfl⟩
  · rcases heads d g' hg with ⟨-, rfl⟩ | ⟨-, hg⟩
    · have hq : g.req.isPosted = true := hq
      rw [hr] at hq
      cases hq
    · exact (h.roomy (by simp) hg ha hq).elim
  · exact due_waits_of_pass (s := headLost s l p [q]) (by rw [still]; exact List.forall_mem_nil _)

/-- The new head waits, and the drained FENCE has cleared the latch. -/
def reported (s : State) (l : LineAddr) (p q : PostedWrite) (qs : List PostedWrite) : State :=
  { headWaits s l p q qs with latches := s.latches.set p.ch none }

/-- A posted WRITE behind a drained FENCE becomes its channel's head, and takes the room before the younger ones. -/
theorem Lost.promotes (h : Lost s l p (q :: ps)) (seven : (q :: ps).length = 7) (held : s.held (lineOf q.addr) = true)
    (others : ∀ x ∈ q :: ps, x.ch ≠ p.ch) (hh : s.hostTable[p.ch] = [e, g]) (hd : e.inPhase .draining = true) (he : e.req = .fence)
    (hw : g.inPhase .waiting = true) (hk : g.check = none) (hr : g.req = .posted a mask v)
    (apart : ∀ d g', d ≠ p.ch → s.head? d = some g' →
      (g'.inPhase .draining = true → (q :: ps).any (fun x => x.ch = d) = true) ∧
      (g'.inPhase .active = true → g'.req.isPosted = true → g.place < g'.place)) :
    Leaves s l { headWaits s l p q ps with
      hostTable := s.hostTable.set p.ch [
        { e with progress := .ready .ok true [latchWord (some (takeFailure s.latches[p.ch] .lostReply p.addr))] },
        { g with progress := .ready .ok false [] }]
      latches := s.latches.set p.ch none
      posted := (q :: ps) ++ [{ ch := p.ch, addr := a, mask := mask, value := v, place := g.place }] } := by
  have gone : (headWaits s l p q ps).postedOf p.ch = false :=
    List.any_eq_false.2 fun x hx => by simpa using others x hx
  have drain := nextRule_drain (s := headWaits s l p q ps) h.stands
    (head_first (s := s) (pre := []) hh (List.forall_mem_nil _) (isOpen_of_inPhase hd)) hd gone fun d g' hd hg hx => (apart d g' hd hg).1 hx
  have fenced := activate_fence (s := headWaits s l p q ps) hh (isOpen_of_inPhase hd) he (h.channel _) h.pass
  have clean : (headWaits s l p q ps).activate p.ch = holding (reported s l p q ps) p.ch
      [{ e with progress := .ready .ok true [latchWord (some (takeFailure s.latches[p.ch] .lostReply p.addr))] }, g] := by
    rw [fenced]
    simp only [reported, headWaits, State.waits, headLost, holding, State.latchSet, Fin.getElem_fin, Vector.getElem_set_self,
      Vector.set_set, Option.isSome_some]
  generalize hx : ({ e with
      progress := .ready .ok true [latchWord (some (takeFailure s.latches[p.ch] .lostReply p.addr))] } : HostEntry) = x at clean ⊢
  have closed : ∀ y ∈ [x], y.isOpen = false := by
    intro y hy
    rw [List.mem_singleton.1 hy, ← hx]
    rfl
  have heads : ∀ {z : HostEntry}, z.isOpen = true → ∀ d g', (holding (reported s l p q ps) p.ch [x, z]).head? d = some g' →
      (d = p.ch ∧ g' = z) ∨ (d ≠ p.ch ∧ s.head? d = some g') := by
    intro z hz d g' hg
    by_cases hd : d = p.ch
    · have first := head_first (s := holding (reported s l p q ps) p.ch [x, z]) (pre := [x]) (holding_self _) closed hz
      rw [hd, first] at hg
      exact .inl ⟨hd, (Option.some.inj hg).symm⟩
    · rw [head_holding_ne hd] at hg
      exact .inr ⟨hd, hg⟩
  have next := nextRule_head (s := holding (reported s l p q ps) p.ch [x, g]) h.stands
    (fun d g' hg hx => by
      rcases heads (isOpen_of_inPhase hw) d g' hg with ⟨-, rfl⟩ | ⟨hd, hg⟩
      · rw [inPhase_apart hw (by decide)] at hx
        cases hx
      · exact (apart d g' hd hg).1 hx)
    (head_first (pre := [x]) (holding_self _) closed (isOpen_of_inPhase hw)) hw
    (fun d g' hd hg => by
      rcases heads (isOpen_of_inPhase hw) d g' hg with ⟨e, -⟩ | ⟨-, hg⟩
      · exact absurd e hd
      · exact h.calm.heads d g' hg)
  have promoted : (holding (reported s l p q ps) p.ch [x, g]).promote p.ch
      = holding (reported s l p q ps) p.ch [x, { g with progress := .opened .active }] := by
    exact (promote_posted (s := holding (reported s l p q ps) p.ch [x, g]) (pre := [x]) (holding_self _) closed
      (isOpen_of_inPhase hw) hk (by rw [hr]; rfl)).trans (holding_holding _ _)
  have room := nextRule_room (s := holding (reported s l p q ps) p.ch [x, { g with progress := .opened .active }]) (c := p.ch) h.stands
    (fun d g' hg hx => by
      rcases heads (by rfl) d g' hg with ⟨-, rfl⟩ | ⟨hd, hg⟩
      · cases hx
      · exact (apart d g' hd hg).1 hx)
    (fun d g' hg => by
      rcases heads (by rfl) d g' hg with ⟨-, rfl⟩ | ⟨-, hg⟩
      · rfl
      · exact h.calm.heads d g' hg)
    (by show (q :: ps).length < 8; rw [seven]; decide)
    (head_first (pre := [x]) (holding_self _) closed rfl) rfl (by show g.req.isPosted = true; rw [hr]; rfl)
    (fun d g' hd hg ha hq => by
      rcases heads (by rfl) d g' hg with ⟨e, -⟩ | ⟨-, hg⟩
      · exact absurd e hd
      · exact (apart d g' hd hg).2 ha hq)
  have enters : (holding (reported s l p q ps) p.ch [x, { g with progress := .opened .active }]).enterPosted p.ch
      = { holding (reported s l p q ps) p.ch [x, { g with progress := .ready .ok false [] }] with
          posted := (q :: ps) ++ [{ ch := p.ch, addr := a, mask := mask, value := v, place := g.place }] } := by
    have entered := enterPosted_first (s := holding (reported s l p q ps) p.ch [x, { g with progress := .opened .active }]) (pre := [x])
      (holding_self _) closed rfl hr (h.channel _)
    rw [holding_holding] at entered
    have unset : (reported s l p q ps).latchSet p.ch = false := by simp [reported, State.latchSet]
    have unset : (holding (reported s l p q ps) p.ch [x, { g with progress := .opened .active }]).latchSet p.ch = false := unset
    rw [unset] at entered
    exact entered
  have runs : (headLost s l p (q :: ps)).settle = ({ holding (reported s l p q ps) p.ch [x, { g with progress := .ready .ok false [] }] with
      posted := (q :: ps) ++ [{ ch := p.ch, addr := a, mask := mask, value := v, place := g.place }] } : State).settle := calc
    _ = (headWaits s l p q ps).settle := h.waits held
    _ = (holding (reported s l p q ps) p.ch [x, g]).settle := settle_next (drain.trans (congrArg some clean))
    _ = (holding (reported s l p q ps) p.ch [x, { g with progress := .opened .active }]).settle :=
      settle_next (next.trans (congrArg some promoted))
    _ = _ := settle_next (room.trans (congrArg some enters))
  refine h.becomes (t := { holding (reported s l p q ps) p.ch [x, { g with progress := .ready .ok false [] }] with
      posted := (q :: ps) ++ [{ ch := p.ch, addr := a, mask := mask, value := v, place := g.place }] }) runs ?_ rfl
  have heads : ∀ d g', (holding (reported s l p q ps) p.ch [x, { g with progress := .ready .ok false [] }]).head? d = some g' →
      d ≠ p.ch ∧ s.head? d = some g' := by
    intro d g' hg
    by_cases hd : d = p.ch
    · rw [hd, head_holding_self, ← hx] at hg
      cases hg
    · rw [head_holding_ne hd] at hg
      exact ⟨hd, hg⟩
  refine ⟨h.stands.imp_left nofun, fun d g' hg => ?_, fun d g' hg hd => ?_, fun _ _ _ _ _ => ?_, h.pass⟩
  · exact h.calm.heads d g' (heads d g' hg).2
  · show ((q :: ps) ++ _).any _ = true
    rw [List.any_append, (apart d g' (heads d g' hg).1 (heads d g' hg).2).1 hd, Bool.true_or]
  · show 8 ≤ ((q :: ps) ++ _).length
    rw [List.length_append, seven]
    exact Nat.le_refl 8

/-- Settles O25: each case is a run of the rules in their order. -/
theorem postedQueueMovesOn : Obligations.PostedQueueMovesOn := by
  intro s l e p rest hp hr one law hw he ha hl hq failure ended becomes
  have lost := lost_of hp hr one law hw he ha hl hq
  have same : ended = headLost s l p rest := rfl
  have leaves : becomes = Leaves s l := rfl
  clear_value ended becomes
  subst same leaves
  refine ⟨?_, ?_, ?_, ?_, ?_⟩
  · rintro q st rfl hn hst hs free storable clean
    exact lost.stores hn hst hs free storable clean
  · rintro h rfl hh hd hf others
    exact lost.fences hh hd hf others
  · rintro q qs d h a mask v rfl seven held drains hh ha hf older
    exact lost.admits seven held drains hh ha hf older
  · rintro q h b rfl full direct vacant free hne hh hd hf hb others
    exact lost.precedes full direct vacant free hne hh hd hf hb others
  · rintro q qs h g a mask v rfl seven held others hh hd hf hw' hk hg apart
    exact lost.promotes seven held others hh hd hf hw' hk hg apart

end Sys2Proof.Proofs.Moves
end

