-- ==== Sys2Proof/Proofs/PeerVerdicts.lean ====
section
/-! PROOFS. The verdict of a peer's request tenure: what was reserved and set aside, the snapshot of a dirty owner, and the line
(R18 to R20, R38, R43, R81, R82, R95, R106). -/

namespace Sys2Proof.Proofs.PeerVerdicts

open Sys2Proof Sys2Proof.Machine Sys2Proof.Proofs.AtRest Sys2Proof.Proofs.OwnVerdicts Sys2Proof.Proofs.Presented

variable {s t u : State} {c d : ChanId} {h g : HostEntry} {l : LineAddr} {a : Addr} {sender : StationNo} {body : RequestBody}
  {v : Verdict} {mine others : Votes} {k : TableKind}

theorem exec_peer (hp : s.porst = false) (ht : s.span.tenure = .peer sender l body mine)
    (hv : classify body (orVotes mine others) = v) :
    exec (.requestTenureVerdict others) s = .next (s.count1.closeTenure.snoopVerdict sender l body v).owePass.settle.arbitrate := by
  show execRequestTenureVerdict others s = _
  unfold execRequestTenureVerdict
  simp only [hp, ht, Bool.false_eq_true, if_false]
  rw [← hv]
  rfl

/-! ### The entry set aside (R38, R81, R82) -/

/-- Nothing is reserved or set aside any more. -/
def quieted (s : State) : State := { s with span := { s.span with setAside := none, homeReserved := false } }

theorem releaseAside_quiet (h : s.homeDone = none ∨ s.span.setAside = none) :
    s.releaseAside = { s with span := { s.span with setAside := none } } := by
  unfold State.releaseAside
  cases ha : s.span.setAside with
  | none =>
    have same : ({ s.span with setAside := none } : Span) = s.span := by rw [← ha]
    rw [same]
    rfl
  | some x =>
    have done : s.homeDone = none := h.resolve_right (by rw [ha]; nofun)
    exact offerDone_none (s := { s with span := { s.span with setAside := none } }) done

theorem releaseAside_offers {x : LineAddr} (h : s.span.setAside = some x) :
    s.releaseAside = State.offerDone { s with span := { s.span with setAside := none } } := by
  unfold State.releaseAside
  rw [h]
  rfl

/-! ### VOID, and TAKEN of a RETURN or D-kind -/

theorem snoop_void (h : s.NoOffer l .void) : s.count1.closeTenure.snoopVerdict sender l body .void = (quieted s).count1.closeTenure := by
  have quiet : s.homeDone = none ∨ s.span.setAside = none := by
    rcases h with h | h | ⟨h, -⟩
    · exact .inl h
    · exact .inr h
    · cases h
  unfold State.snoopVerdict
  rw [convertHome_released (.inl rfl)]
  exact releaseAside_quiet (s := { s.count1.closeTenure with span := { s.count1.closeTenure.span with homeReserved := false } }) quiet

theorem snoop_offers {x : LineAddr} (h : s.span.setAside = some x) :
    s.count1.closeTenure.snoopVerdict sender l body .void = (quieted s).count1.closeTenure.offerDone := by
  unfold State.snoopVerdict
  rw [convertHome_released (.inl rfl)]
  exact releaseAside_offers (s := { s.count1.closeTenure with span := { s.count1.closeTenure.span with homeReserved := false } }) h

theorem snoop_taken {b : HomeBody} (h : s.NoOffer l .taken) (hb : homeBody body = some b)
    (hl : ∀ t : State, t.snoopLine l body = t) : s.count1.closeTenure.snoopVerdict sender l body .taken
      = { (quieted s).count1.closeTenure with homeQueue := s.homeWith sender l b } := by
  have quiet : s.homeDone = none ∨ s.span.setAside = none := by
    rcases h with h | h | ⟨h, -⟩
    · exact .inl h
    · exact .inr h
    · cases h
  unfold State.snoopVerdict
  rw [convertHome_queued (.inr rfl) hb]
  simp only [hl, ite_self, reduceCtorEq, if_false]
  exact releaseAside_quiet (s := { s.count1.closeTenure with
    homeQueue := s.homeWith sender l b, span := { s.count1.closeTenure.span with homeReserved := false } }) quiet

/-! ### A verdict but VOID of a SHARE, OWN or UPGRADE -/

/-- The reply queue with the owner's snapshot in the entry set aside (R20, R81). -/
def supplied (s : State) (sender : StationNo) (l : LineAddr) (v : Verdict) : List ReplyEntry :=
  if v = .ownerFill ∧ s.span.setAside = some l ∧ s.heldDirty l = true then
    s.replies ++ [{ addressee := sender, line := l, body := .fill (s.lineData l), voids := 0 }] else s.replies

/-- The closed tenure with its home operation queued and its snapshot taken, before the line array hears of it. -/
def handed (s : State) (sender : StationNo) (l : LineAddr) (v : Verdict) (aside : Option LineAddr) : State :=
  { s.count1.closeTenure with
    replies := supplied s sender l v
    homeQueue := if v = .homeFill then s.homeWith sender l .read else s.homeQueue
    span := { s.count1.closeTenure.span with homeReserved := false, setAside := aside } }

/-- What the classification can say of a line's request. -/
theorem classify_line (hk : k = .share ∨ k = .own ∨ k = .upgrade) (hv : classify (.table k) (orVotes mine others) = v) (hn : v ≠ .void) :
    (homeBody (.table k) = some .read ∧ (v = .ownerFill ∨ v = .homeFill)) ∨ (homeBody (.table k) = none ∧ v = .taken) := by
  subst hv
  unfold classify at hn ⊢
  split at hn
  · exact absurd rfl hn
  · rename_i passed
    rw [if_neg passed]
    rcases hk with rfl | rfl | rfl
    · refine .inl ⟨rfl, ?_⟩
      simp only [wantsLine, if_true]
      split <;> simp
    · refine .inl ⟨rfl, ?_⟩
      simp only [wantsLine, if_true]
      split <;> simp
    · exact .inr ⟨rfl, rfl⟩

theorem convertHome_line (hk : k = .share ∨ k = .own ∨ k = .upgrade) (hv : classify (.table k) (orVotes mine others) = v) (hn : v ≠ .void) :
    s.convertHome sender l (.table k) v = { s with
      homeQueue := if v = .homeFill then s.homeWith sender l .read else s.homeQueue
      span := { s.span with homeReserved := false } } := by
  rcases classify_line hk hv hn with ⟨hb, rfl | rfl⟩ | ⟨hb, rfl⟩
  · exact convertHome_released (.inr (.inl rfl))
  · exact convertHome_queued (.inl rfl) hb
  · exact convertHome_released (.inr (.inr hb))

/-- The line hears of the verdict, and the entry set aside is released. -/
def lineHears (t : State) (l : LineAddr) (body : RequestBody) : State :=
  (if t.heldValid l then t.snoopLine l body else t).releaseAside

theorem snoopVerdict_passed (hn : v ≠ .void) : s.snoopVerdict sender l body v
    = lineHears (if v = .ownerFill then (s.convertHome sender l body v).queueSnapshot sender l else s.convertHome sender l body v) l body := by
  cases v with
  | void => exact absurd rfl hn
  | _ => rfl

/-- The verdict has reached all but the line array and the entry set aside. -/
theorem snoop_line (hk : k = .share ∨ k = .own ∨ k = .upgrade) (hv : classify (.table k) (orVotes mine others) = v) (hn : v ≠ .void)
    (ho : s.NoOffer l v) : ∃ aside, (s.homeDone = none ∨ aside = none) ∧
      s.count1.closeTenure.snoopVerdict sender l (.table k) v
        = lineHears (handed s sender l v aside) l (.table k) := by
  rw [snoopVerdict_passed hn, convertHome_line hk hv hn]
  by_cases hs : v = .ownerFill ∧ s.span.setAside = some l ∧ s.heldDirty l = true
  · refine ⟨none, .inr rfl, congrArg (lineHears · l (.table k)) ?_⟩
    have reads : (s.span.setAside = some l && s.heldDirty l) = true := by simp [hs.2.1, hs.2.2]
    unfold handed supplied
    rw [if_pos hs, if_pos hs.1]
    unfold State.queueSnapshot
    exact (if_pos reads).trans rfl
  · refine ⟨s.span.setAside, ho.imp_right fun h => h.resolve_right hs, congrArg (lineHears · l (.table k)) ?_⟩
    unfold handed supplied
    rw [if_neg hs]
    by_cases hw : v = .ownerFill
    · have passes : ¬(s.span.setAside = some l && s.heldDirty l) = true := by
        rw [Bool.and_eq_true, decide_eq_true_eq]
        exact fun hx => hs ⟨hw, hx⟩
      rw [if_pos hw]
      unfold State.queueSnapshot
      exact (if_neg passes).trans rfl
    · rw [if_neg hw]
      rfl

/-- What a peer's SHARE leaves of the line (R18). -/
def sharedLines (s : State) (l : LineAddr) : State :=
  if s.lookup l = some .cleanSole then s.setLineState l .shared
  else if s.lookup l = some .dirtySole then s.setLineState l .dirtyShared else s

theorem snoopLine_share (ht : t.lines = s.lines) :
    (if t.heldValid l then t.snoopLine l (.table .share) else t) = { t with lines := (sharedLines s l).lines } := by
  unfold sharedLines State.heldValid State.snoopLine
  rw [Serving.lookup_of_lines ht]
  have set : ∀ st, t.setLineState l st = { t with lines := (s.setLineState l st).lines } := setLineState_eq ht l
  cases hl : s.lookup l with
  | none => simp [← ht]
  | some st => cases st <;> simp [LineState.valid, set, ← ht]

/-- Settles O39: the tenure's reservation and snapshot, and what a SHARE leaves of the line. -/
theorem peerVerdictReleasesQueuesOrShares : Obligations.PeerVerdictReleasesQueuesOrShares := by
  refine ⟨fun s others mine sender l body hp hr hw ht => ⟨fun hv ho => ?_, fun x op rest b hv ha hd hq => ⟨fun room => ?_, fun room => ?_⟩,
    fun b hv ho hb => ?_⟩, fun s others mine sender l hp hr hw ht v hv hn ho => ?_⟩
  · exact closes (exec_peer hp ht hv) ((congrArg State.owePass (snoop_void ho)).trans (owePass_empty (by exact hw)))
      (atRest_same hr rfl rfl rfl rfl) rfl
  · have takes : (quieted s).count1.closeTenure.takesReply op.line = true := takesReply_iff.2 ⟨room.1, room.2, nofun⟩
    have offered : (quieted s).count1.closeTenure.offerDone = _ := offerDone_taken hd hq takes
    exact closes (exec_peer hp ht hv) ((congrArg State.owePass ((snoop_offers ha).trans offered)).trans (owePass_empty (by exact hw)))
      (atRest_same hr rfl rfl rfl rfl) rfl
  · have refuses : (quieted s).count1.closeTenure.takesReply op.line = false :=
      Bool.eq_false_iff.2 fun takes => room ⟨(takesReply_iff.1 takes).1, (takesReply_iff.1 takes).2.1⟩
    have offered : (quieted s).count1.closeTenure.offerDone = _ := offerDone_refused hq refuses
    exact closes (exec_peer hp ht hv) ((congrArg State.owePass ((snoop_offers ha).trans offered)).trans (owePass_empty (by exact hw)))
      (atRest_same hr rfl rfl rfl rfl) rfl
  · have queued : s.count1.closeTenure.snoopVerdict sender l body .taken = _ :=
      snoop_taken (b := b) ho (by rcases hb with ⟨d, rfl, rfl⟩ | ⟨d, rfl, rfl⟩ <;> rfl)
        (fun t => by rcases hb with ⟨d, rfl, rfl⟩ | ⟨d, rfl, rfl⟩ <;> rfl)
    exact closes (exec_peer hp ht hv) ((congrArg State.owePass queued).trans (owePass_empty (by exact hw)))
      (atRest_same hr rfl rfl rfl rfl) rfl
  · obtain ⟨aside, quiet, heard⟩ := snoop_line (sender := sender) (.inl rfl) hv hn ho
    have shares : s.count1.closeTenure.snoopVerdict sender l (.table .share) v = { handed s sender l v aside with
        lines := (sharedLines s l).lines
        span := { (handed s sender l v aside).span with setAside := none } } := by
      rw [heard]
      unfold lineHears
      rw [snoopLine_share (s := s) (by rfl)]
      exact releaseAside_quiet quiet
    exact closes (exec_peer hp ht hv) ((congrArg State.owePass shares).trans (owePass_empty (by exact hw)))
      (atRest_same hr rfl rfl rfl rfl) rfl

end Sys2Proof.Proofs.PeerVerdicts
end

