-- ==== Sys2Proof/Proofs/Takes.lean ====
section
/-! PROOFS. A peer takes the line: what waits on it ends with it, its reservations break (R10, R17 to R21, R134, R147, R150). -/

namespace Sys2Proof.Proofs.Takes

open Sys2Proof Sys2Proof.Machine Sys2Proof.Proofs.AtRest Sys2Proof.Proofs.OwnVerdicts Sys2Proof.Proofs.Waiters
open Sys2Proof.Proofs.Departures Sys2Proof.Proofs.Passes Sys2Proof.Proofs.PeerVerdicts

variable {s t u : State} {c d : ChanId} {h g : HostEntry} {l : LineAddr} {a : Addr} {x : Waiting} {xs : List Waiting} {who : Who}

/-! ### Pending FLUSHes (R17, R134) -/

/-- The channel's head is a pending FLUSH of the line. -/
def pends (s : State) (l : LineAddr) (c : ChanId) : Bool :=
  match s.head? c with
  | some e => (match e.req with
    | .flush a => lineOf a = l && s.waiting.any (fun x => x.who = .chan c && x.pendingFlush)
    | _ => false)
  | none => false

/-- It completes with nothing to write. -/
def endFlush (l : LineAddr) (s : State) (c : ChanId) : State := if pends s l c then (s.complete c .ok []).owePass else s

theorem endPendingFlushes_eq (s : State) (l : LineAddr) : s.endPendingFlushes l = channels.foldl (endFlush l) s := by
  unfold State.endPendingFlushes
  congr 1
  funext u c
  unfold endFlush pends
  cases hh : u.head? c with
  | none => rfl
  | some e =>
    obtain ⟨tag, req, place, check, progress⟩ := e
    cases req <;> rfl

/-- What the end of a pending FLUSH reads and writes of a channel. -/
def onWait (c : ChanId) (s : State) : List HostEntry × Vector (Option Latch) 4 × Bool × Bool :=
  (s.hostTable[c], s.latches, s.waiting.any (fun x => x.who = .chan c && x.pendingFlush), s.isWaiting (.chan c))

theorem onWait_owePass : onWait c s.owePass = onWait c s := by
  unfold onWait
  rw [isWaiting_owePass]
  have same : s.owePass.waiting.any (fun x => x.who = .chan c && x.pendingFlush)
      = s.waiting.any (fun x => x.who = .chan c && x.pendingFlush) := by
    simp only [State.owePass, List.any_map]
    rfl
  rw [same]
  rfl

theorem any_unwait_ne (hd : d ≠ c) : (s.unwait (.chan d)).waiting.any (fun x => x.who = .chan c && x.pendingFlush)
    = s.waiting.any (fun x => x.who = .chan c && x.pendingFlush) := by
  simp only [State.unwait, List.any_filter]
  congr 1
  funext x
  by_cases hx : x.who = .chan c
  · simp [hx, Ne.symm hd]
  · simp [hx]

theorem onWait_complete_ne (hd : d ≠ c) (st : Machine.Status) (data : List Word) : onWait c (s.complete d st data) = onWait c s := by
  have flush : (s.complete d st data).waiting.any (fun x => x.who = .chan c && x.pendingFlush)
      = s.waiting.any (fun x => x.who = .chan c && x.pendingFlush) := any_unwait_ne (s := s.updateHead d _) hd
  unfold onWait
  rw [hostTable_complete_ne hd, isWaiting_complete_ne fun e => hd (Who.chan.inj e), flush]
  rfl

theorem onWait_endFlush_ne (hd : d ≠ c) : onWait c (endFlush l s d) = onWait c s := by
  unfold endFlush
  split
  · rw [onWait_owePass, onWait_complete_ne hd]
  · rfl

theorem onWait_eq : onWait c t = onWait c s ↔ t.hostTable[c] = s.hostTable[c] ∧ t.latches = s.latches ∧
    t.waiting.any (fun x => x.who = .chan c && x.pendingFlush) = s.waiting.any (fun x => x.who = .chan c && x.pendingFlush) ∧
    t.isWaiting (.chan c) = s.isWaiting (.chan c) := by
  simp only [onWait, Prod.mk.injEq]

theorem pends_of_onWait (hw : onWait c t = onWait c s) : pends t l c = pends s l c := by
  obtain ⟨table, -, flush, -⟩ := onWait_eq.1 hw
  have head : t.head? c = s.head? c := by
    unfold State.head?
    rw [table]
  unfold pends
  rw [head, flush]

/-- A channel after the pending FLUSHes have ended: its own has, or nothing is changed. -/
theorem onWait_endPendingFlushes (s : State) (l : LineAddr) (c : ChanId) : ∃ u, onWait c u = onWait c s ∧
    onWait c (s.endPendingFlushes l) = onWait c (if pends s l c then (u.complete c .ok []).owePass else u) := by
  obtain ⟨u, before, after⟩ := foldl_channel (f := endFlush l) (view := onWait c) c (fun _ _ hd => onWait_endFlush_ne hd) s
  refine ⟨u, before, ?_⟩
  rw [endPendingFlushes_eq, after, ← pends_of_onWait before]
  rfl

theorem pends_lone (hh : s.hostTable[c] = [h]) (ho : h.isOpen = true) (hr : h.req = .flush a) (hl : lineOf a = l)
    (hx : x ∈ s.waiting) (hc : x.who = .chan c) (hp : x.pendingFlush = true) : pends s l c = true := by
  have any : s.waiting.any (fun x => x.who = .chan c && x.pendingFlush) = true :=
    List.any_eq_true.2 ⟨x, hx, by simp [hc, hp]⟩
  unfold pends
  rw [head_lone hh ho]
  simp only [hr, hl, any, decide_true, Bool.and_self]

theorem pends_false (hh : s.hostTable[c] = [h]) (ho : h.isOpen = true) (hr : h.req.isConditional = true) : pends s l c = false := by
  unfold pends
  rw [head_lone hh ho]
  obtain ⟨tag, req, place, check, progress⟩ := h
  cases req <;> first | rfl | cases hr

theorem pends_idle (hw : s.isWaiting (.chan c) = false) : pends s l c = false := by
  have none : s.waiting.any (fun x => x.who = .chan c && x.pendingFlush) = false := by
    rw [List.any_eq_false]
    intro x hx hc
    rw [Bool.and_eq_true] at hc
    exact (List.any_eq_false.1 hw) x hx hc.1
  unfold pends
  cases s.head? c with
  | none => rfl
  | some e =>
    obtain ⟨tag, req, place, check, progress⟩ := e
    cases req with
    | flush a => simp only [none, Bool.and_false]
    | _ => rfl

/-! ### What waits on the line ends with it -/

/-- The completion of what waits on the line that leaves. -/
def done (s : State) (c : ChanId) (h : HostEntry) : HostEntry :=
  { h with progress := .ready (if h.req.isConditional then .fail else .ok) (s.latchSet c) [] }

/-- The host requests of a channel, its one request completed where it waits. -/
def doneTable (s : State) (c : ChanId) : List HostEntry :=
  if s.isWaiting (.chan c) then s.hostTable[c].map (done s c) else s.hostTable[c]

/-- One end of a waiting operation after another, by channel. -/
theorem fold_endedWait (xs : List Waiting) (u : State) (hx : ∀ x ∈ xs, ∀ d, x.who = .chan d → ∃ g, u.hostTable[d] = [g]) (c : ChanId) :
    (xs.foldl State.endedWait u).hostTable[c]
      = if xs.any (fun x => x.who = .chan c) then u.hostTable[c].map (done u c) else u.hostTable[c] := by
  induction xs generalizing u with
  | nil => rfl
  | cons x xs ih =>
    have rest : ∀ y ∈ xs, ∀ d, y.who = .chan d → ∃ g, u.hostTable[d] = [g] := fun y hy => hx y (List.mem_cons_of_mem _ hy)
    rw [List.foldl_cons, List.any_cons]
    cases hw : x.who with
    | posted =>
      have same : u.endedWait x = u := by
        unfold State.endedWait
        rw [hw]
      rw [same, ih u rest]
      simp
    | chan d =>
      obtain ⟨g, hg⟩ := hx x List.mem_cons_self d hw
      have ended : u.endedWait x = u.answered d g (if g.req.isConditional then .fail else .ok) [] := by
        unfold State.endedWait
        rw [hw]
        simp only [hg]
      have self : (u.answered d g (if g.req.isConditional then .fail else .ok) []).hostTable[d] = [done u d g] := by
        simp [State.answered, done]
      have other : ∀ d', d ≠ d' → (u.answered d g (if g.req.isConditional then .fail else .ok) []).hostTable[d'] = u.hostTable[d'] :=
        fun d' hd => hostTable_answered_ne hd _ _
      rw [ended, ih _ fun y hy d' hd => by
        by_cases hdd : d = d'
        · subst hdd
          exact ⟨_, self⟩
        · rw [other d' hdd]
          exact rest y hy d' hd]
      by_cases hc : d = c
      · subst hc
        have twice : done (u.answered d g (if g.req.isConditional then .fail else .ok) []) d (done u d g) = done u d g := rfl
        rw [self, hg]
        simp [twice]
      · have hne : decide (Who.chan d = Who.chan c) = false := decide_eq_false fun e => hc (Who.chan.inj e)
        rw [other c hc, hne, Bool.false_or]
        rfl

theorem single_of_ends (he : ∀ x ∈ s.waiting, s.EndsWith l x) :
    ∀ x ∈ s.waiting, ∀ d, x.who = .chan d → ∃ g, s.hostTable[d] = [g] := by
  intro x hx d hd
  obtain ⟨d', h, -, hd', hh, -⟩ := he x hx
  obtain rfl : d = d' := Who.chan.inj (hd.symm.trans hd')
  exact ⟨h, hh⟩

/-- It reads the host requests and the latches. -/
theorem hostTable_ended (hh : t.hostTable = s.hostTable) (hl : t.latches = s.latches)
    (hx : ∀ x ∈ xs, ∀ d, x.who = .chan d → ∃ g, s.hostTable[d] = [g]) :
    (xs.foldl State.endedWait t).hostTable = (xs.foldl State.endedWait s).hostTable := by
  refine Vector.ext fun i hi => ?_
  have same : ∀ h, done t ⟨i, hi⟩ h = done s ⟨i, hi⟩ h := fun h => by
    unfold done State.latchSet
    rw [hl]
  have left := fold_endedWait xs t (by rw [hh]; exact hx) ⟨i, hi⟩
  rw [hh, funext same] at left
  exact left.trans (fold_endedWait xs s hx ⟨i, hi⟩).symm

/-- It writes the host request table alone. -/
theorem fold_endedWait_frame (xs : List Waiting) (u : State) :
    xs.foldl State.endedWait u = { u with hostTable := (xs.foldl State.endedWait u).hostTable } := by
  induction xs generalizing u with
  | nil => rfl
  | cons x xs ih =>
    have step : u.endedWait x = { u with hostTable := (u.endedWait x).hostTable } := by
      unfold State.endedWait
      split
      · split <;> rfl
      · rfl
    rw [List.foldl_cons, ih, step]

/-! ### The departure, with what it ends -/

theorem endPendingFlushes_frame (s : State) (l : LineAddr) : s.endPendingFlushes l
    = { s with hostTable := (s.endPendingFlushes l).hostTable, waiting := (s.endPendingFlushes l).waiting } := by
  have folded : ∀ (cs : List ChanId) (u : State), cs.foldl (endFlush l) u
      = { u with hostTable := (cs.foldl (endFlush l) u).hostTable, waiting := (cs.foldl (endFlush l) u).waiting } := by
    intro cs
    induction cs with
    | nil => exact fun _ => rfl
    | cons c cs ih =>
      intro u
      have step : endFlush l u c = { u with hostTable := (endFlush l u c).hostTable, waiting := (endFlush l u c).waiting } := by
        unfold endFlush
        split <;> rfl
      rw [List.foldl_cons, ih, step]
  rw [endPendingFlushes_eq]
  exact folded channels s

theorem fold_fail_frame (cs : List ChanId) (u : State) : cs.foldl fail u
    = { u with hostTable := (cs.foldl fail u).hostTable, waiting := (cs.foldl fail u).waiting } := by
  induction cs generalizing u with
  | nil => rfl
  | cons c cs ih => exact ih (fail u c)

theorem posted_endPendingFlushes : (s.endPendingFlushes l).isWaiting .posted = s.isWaiting .posted := by
  rw [endPendingFlushes_eq]
  refine foldl_keeps (fun u : State => u.isWaiting .posted) (endFlush l) (fun u c => ?_) channels s
  unfold endFlush
  split
  · rw [isWaiting_owePass, isWaiting_complete_ne (who := .posted) nofun]
  · rfl

theorem posted_fold_fail (cs : List ChanId) (u : State) : (cs.foldl fail u).isWaiting .posted = u.isWaiting .posted := by
  induction cs generalizing u with
  | nil => rfl
  | cons c cs ih =>
    rw [List.foldl_cons, ih]
    exact isWaiting_complete_ne (who := .posted) nofun _ _

theorem posted_breakReservations {p : Addr → Bool} : (s.breakReservations p).isWaiting .posted = s.isWaiting .posted := by
  rw [breakReservations_eq]
  exact posted_fold_fail _ s

theorem waiting_nil (h : ∀ who, s.isWaiting who = false) : s.waiting = [] := by
  refine List.eq_nil_iff_forall_not_mem.2 fun x hx => ?_
  have := List.any_eq_false.1 (h x.who) x hx
  simp at this

/-- One channel after the pending FLUSHes have ended and the reservations have broken: its one request has completed where it
waited. -/
theorem channel_departed (he : ∀ x ∈ s.waiting, s.EndsWith l x) (c : ChanId) :
    ((s.endPendingFlushes l).breakReservations (fun a => lineOf a = l)).hostTable[c] = doneTable s c ∧
      ((s.endPendingFlushes l).breakReservations (fun a => lineOf a = l)).isWaiting (.chan c) = false := by
  have latches : (s.endPendingFlushes l).latches = s.latches := by rw [endPendingFlushes_frame]
  have claims : (s.endPendingFlushes l).reservations = s.reservations := by rw [endPendingFlushes_frame]
  obtain ⟨u, before, after⟩ := onWait_endPendingFlushes s l c
  obtain ⟨table, latch, -, waits⟩ := onWait_eq.1 before
  have stays : (s.endPendingFlushes l).isWaiting (.chan c) = false →
      ((s.endPendingFlushes l).breakReservations (fun a => lineOf a = l)).hostTable[c] = (s.endPendingFlushes l).hostTable[c] ∧
        ((s.endPendingFlushes l).breakReservations (fun a => lineOf a = l)).isWaiting (.chan c) = false := by
    intro idle
    have unbroken : breaks (s.endPendingFlushes l) (fun a => lineOf a = l) c = false := by
      unfold breaks
      rw [idle, Bool.false_and, Bool.and_false]
    obtain ⟨table, -, -, waits⟩ := onChannel_eq.1 (onChannel_kept unbroken)
    exact ⟨table, waits.trans idle⟩
  unfold doneTable
  by_cases hw : s.isWaiting (.chan c) = true
  · rw [if_pos hw]
    obtain ⟨x, hx, hc⟩ := List.any_eq_true.1 hw
    have hc : x.who = .chan c := of_decide_eq_true hc
    obtain ⟨d, h, a, hd, hh, ho, hl, ends⟩ := he x hx
    obtain rfl : c = d := Who.chan.inj (hc.symm.trans hd)
    have set : ∀ t : State, t.latches = s.latches → t.latchSet c = s.latchSet c := fun t ht => by unfold State.latchSet; rw [ht]
    rcases ends with ⟨hr, hp⟩ | ⟨⟨v, hr⟩, hs⟩
    · have pending := pends_lone hh ho hr hl hx hc hp
      rw [pending] at after
      have ended := after.trans onWait_owePass
      obtain ⟨table', -, -, waits'⟩ := onWait_eq.1 ended
      obtain ⟨left, idle⟩ := stays (waits'.trans (isWaiting_complete _ _))
      refine ⟨?_, idle⟩
      rw [left, table', hostTable_complete (table.trans hh) ho, set u latch, hh]
      simp [done, hr, Request.isConditional]
    · have conditional : h.req.isConditional = true := by
        rw [hr]
        rfl
      rw [pends_false hh ho conditional] at after
      obtain ⟨table', -, -, waits'⟩ := onWait_eq.1 (after.trans before)
      have broken := onChannel_broken (p := fun b => lineOf b = l) (breaks_true (s := s.endPendingFlushes l) (by rw [claims]; exact hs)
        (decide_eq_true hl) (table'.trans hh) ho conditional (waits'.trans hw)) (table'.trans hh) ho
      obtain ⟨failed, broken⟩ := Prod.mk.inj broken
      obtain ⟨-, broken⟩ := Prod.mk.inj broken
      obtain ⟨-, idle⟩ := Prod.mk.inj broken
      refine ⟨failed.trans ?_, idle⟩
      rw [set _ latches, hh]
      simp [done, conditional]
  · rw [if_neg hw]
    have idle : s.isWaiting (.chan c) = false := by simpa using hw
    rw [pends_idle idle] at after
    obtain ⟨table', -, -, waits'⟩ := onWait_eq.1 (after.trans before)
    obtain ⟨left, idle⟩ := stays (waits'.trans idle)
    exact ⟨left.trans table', idle⟩

/-- The line departs, and what waits on it completes. -/
theorem depart_ended (he : ∀ x ∈ s.waiting, s.EndsWith l x) (hu : s.Unwatched l) : (s.endPendingFlushes l).depart l
    = { s.waiting.foldl State.endedWait s with
        waiting := []
        reservations := s.reservations.map (fun r => r.filter (fun a => lineOf a ≠ l)) } := by
  have unwatched : (s.endPendingFlushes l).Unwatched l := by
    rw [endPendingFlushes_frame]
    exact hu
  have channel := channel_departed he
  have posted : ((s.endPendingFlushes l).breakReservations (fun a => lineOf a = l)).isWaiting .posted = false := by
    rw [posted_breakReservations, posted_endPendingFlushes, State.isWaiting, List.any_eq_false]
    intro x hx hp
    obtain ⟨d, -, -, hd, -⟩ := he x hx
    rw [hd] at hp
    cases of_decide_eq_true hp
  have still : ((s.endPendingFlushes l).breakReservations (fun a => lineOf a = l)).waiting = [] := waiting_nil fun who => by
    cases who with
    | chan c => exact (channel c).2
    | posted => exact posted
  have table : ((s.endPendingFlushes l).breakReservations (fun a => lineOf a = l)).hostTable = (s.waiting.foldl State.endedWait s).hostTable :=
    Vector.ext fun i hi => (channel ⟨i, hi⟩).1.trans (fold_endedWait s.waiting s (single_of_ends he) ⟨i, hi⟩).symm
  rw [depart_unwatched unwatched]
  have frame : (s.endPendingFlushes l).breakReservations (fun a => lineOf a = l) = { s with
      hostTable := ((s.endPendingFlushes l).breakReservations (fun a => lineOf a = l)).hostTable
      waiting := ((s.endPendingFlushes l).breakReservations (fun a => lineOf a = l)).waiting
      reservations := s.reservations.map (fun r => r.filter (fun a => lineOf a ≠ l)) } := by
    rw [breakReservations_eq, fold_fail_frame, endPendingFlushes_frame]
    simp only [decide_not]
    rfl
  rw [frame, still, table, fold_endedWait_frame]

/-! ### A peer's OWN or UPGRADE (R18 to R20) -/

theorem snoopLine_takes {k : TableKind} (hk : k = .own ∨ k = .upgrade) (he : s.entryFor l = none) :
    s.snoopLine l (.table k) = ((s.dropTag l).endPendingFlushes l).depart l := by
  have invalidates : s.snoopInvalidate l = ((s.dropTag l).endPendingFlushes l).depart l := by
    unfold State.snoopInvalidate
    rw [he]
  rcases hk with rfl | rfl <;> exact invalidates

theorem supplied_invalid {v : Verdict} {sender : StationNo} (h : s.heldValid l = false) : supplied s sender l v = s.replies := by
  unfold supplied
  refine if_neg fun hs => ?_
  rw [Flushes.heldValid_of_dirty hs.2.2] at h
  cases h

/-- The waiting operations that end leave the station at rest. -/
theorem atRest_ended (hr : s.AtRest) (he : ∀ x ∈ s.waiting, s.EndsWith l x) (hp : t.posted = s.posted) (hw : t.waiting = [])
    (hx : t.table = s.table) (hh : t.hostTable = (s.waiting.foldl State.endedWait s).hostTable) : t.AtRest := by
  have heads : ∀ c e, t.head? c = some e → s.head? c = some e := by
    intro c e hc
    unfold State.head? at hc ⊢
    rw [hh, fold_endedWait s.waiting s (single_of_ends he) c] at hc
    split at hc
    · have closed : ∀ g ∈ s.hostTable[c].map (done s c), ¬g.isOpen = true := by
        intro g hg
        obtain ⟨h, -, rfl⟩ := List.mem_map.1 hg
        nofun
      rw [List.find?_eq_none.2 closed] at hc
      cases hc
    · exact hc
  have posted : s.isWaiting .posted = false := by
    rw [State.isWaiting, List.any_eq_false]
    intro x hx hp
    obtain ⟨d, -, -, hd, -⟩ := he x hx
    rw [hd] at hp
    cases of_decide_eq_true hp
  refine ⟨?_, fun c e hc => hr.heads c e (heads c e hc), fun c e hc hd => ?_, fun c e hc ha hq => ?_, by rw [hw]; exact List.forall_mem_nil _⟩
  · rcases hr.posted with h | h | h
    · exact .inl (hp.trans h)
    · rw [posted] at h
      cases h
    · refine .inr (.inr ?_)
      unfold State.isWaiter at h ⊢
      rwa [hx]
  · have := hr.drains c e (heads c e hc) hd
    unfold State.postedOf at this ⊢
    rwa [hp]
  · rw [hp]
    exact hr.room c e (heads c e hc) ha hq

/-- Settles O40: the line is taken out of its way, and departs with what waits on it. -/
theorem peerTakesTheLine : Obligations.PeerTakesTheLine := by
  intro s others mine sender l k hp hr hk ht v hv hn ho becomes taken
  have kinds : k = .share ∨ k = .own ∨ k = .upgrade := .inr hk
  obtain ⟨aside, quiet, heard⟩ := snoop_line (sender := sender) kinds hv hn ho
  refine ⟨fun invalid hw => ?_, fun valid he unwatched ends => ?_⟩
  · have passes : s.count1.closeTenure.snoopVerdict sender l (.table k) v = { handed s sender l v aside with
        span := { (handed s sender l v aside).span with setAside := none } } := by
      rw [heard]
      unfold lineHears
      rw [if_neg (by rw [show (handed s sender l v aside).heldValid l = false from invalid]; nofun)]
      exact releaseAside_quiet quiet
    refine closes (exec_peer hp ht hv) ((congrArg State.owePass passes).trans ((owePass_empty (by exact hw)).trans ?_))
      (atRest_same hr rfl rfl rfl rfl) rfl
    unfold handed
    rw [supplied_invalid invalid]
    rfl
  · obtain ⟨based, hb⟩ : ∃ based : State, based = { handed s sender l v aside with lines := (s.dropTag l).lines } := ⟨_, rfl⟩
    have ended : ((handed s sender l v aside).dropTag l) = based := by
      rw [hb]
      exact Presented.dropTag_eq (s := s) (t := handed s sender l v aside) rfl l
    have departs : lineHears (handed s sender l v aside) l (.table k) = State.releaseAside { based with
        hostTable := (s.waiting.foldl State.endedWait s).hostTable
        waiting := []
        reservations := s.reservations.map (fun r => r.filter (fun a => lineOf a ≠ l)) } := by
      have tables : (based.waiting.foldl State.endedWait based).hostTable = (s.waiting.foldl State.endedWait s).hostTable := by
        rw [hb]
        exact hostTable_ended (s := s) rfl rfl (single_of_ends ends)
      unfold lineHears
      rw [if_pos (show (handed s sender l v aside).heldValid l = true from valid), snoopLine_takes hk (by exact he), ended,
        depart_ended (by rw [hb]; exact ends) (by rw [hb]; exact unwatched), fold_endedWait_frame, tables, hb]
      rfl
    have released : s.count1.closeTenure.snoopVerdict sender l (.table k) v = _ :=
      (heard.trans departs).trans (releaseAside_quiet (by rw [hb]; exact quiet))
    have tables : (s.waiting.foldl State.endedWait taken).hostTable = (s.waiting.foldl State.endedWait s).hostTable :=
      hostTable_ended (s := s) rfl rfl (single_of_ends ends)
    have frame : s.waiting.foldl State.endedWait taken = { taken with hostTable := (s.waiting.foldl State.endedWait s).hostTable } := by
      rw [fold_endedWait_frame, tables]
    rw [frame]
    refine closes (t := { taken with
      hostTable := (s.waiting.foldl State.endedWait s).hostTable
      waiting := []
      homeQueue := if v = .homeFill then s.homeWith sender l .read else s.homeQueue
      span := { s.span with setAside := none, homeReserved := false } }) (exec_peer hp ht hv) ((congrArg State.owePass released).trans ((owePass_empty (by rfl)).trans ?_)) ?_ ?_
    · rw [hb]
      rfl
    · exact atRest_ended hr ends rfl rfl rfl rfl
    · rfl

end Sys2Proof.Proofs.Takes
end

