-- ==== Sys2Proof/Proofs/PassServes.lean ====
section
/-! PROOFS. The pass over the waiting list where a VOID verdict ends the hold of a line: what waits is looked up, oldest first
(R41, R51, R53 to R56). -/

namespace Sys2Proof.Proofs.PassServes

open Sys2Proof Sys2Proof.Machine Sys2Proof.Proofs.AtRest Sys2Proof.Proofs.OwnVerdicts Sys2Proof.Proofs.Waiters
open Sys2Proof.Proofs.Presented Sys2Proof.Proofs.Hits Sys2Proof.Proofs.Serving Sys2Proof.Proofs.Passes Sys2Proof.Proofs.Lookups
open Sys2Proof.Proofs.Posted Sys2Proof.Proofs.PeerVerdicts

variable {s t u b : State} {c d : ChanId} {h g : HostEntry} {l : LineAddr} {a : Addr} {v : Word} {r : Request} {w : List Waiting}
  {st : LineState} {p : PostedWrite} {ps : List PostedWrite} {who : Who} {sender : StationNo} {body : RequestBody} {mine others : Votes}

/-! ### The waiting list in the rest of a state -/

/-- Another waiting list in the rest of a state. -/
def await (w : List Waiting) (s : State) : State := { s with waiting := w }

theorem touch_await (l : LineAddr) : (await w s).touch l = await w (s.touch l) :=
  (touch_eq (s := s) (t := await w s) rfl l).trans (congrArg (await w) (touch_eq (s := s) (t := s) rfl l)).symm

theorem writeWay_await (a : Addr) (v : Word) : (await w s).writeWay a v = await w (s.writeWay a v) :=
  (writeWay_eq (s := s) (t := await w s) rfl a v).trans (congrArg (await w) (writeWay_eq (s := s) (t := s) rfl a v)).symm

theorem watchAnswered_await (a : Addr) (v : Word) (d : ChanId) (s : State) :
    (await w s).watchAnswered a v d = await w (s.watchAnswered a v d) := by
  show (match s.watches[d], s.hostTable[d] with | some x, [h] => _ | _, _ => await w s)
    = await w (match s.watches[d], s.hostTable[d] with | some x, [h] => _ | _, _ => s)
  split
  · split <;> rfl
  · rfl

theorem stored_await (a : Addr) (v : Word) : (await w s).stored a v = await w (s.stored a v) := by
  have folded : ∀ (ds : List ChanId) (u : State), ds.foldl (fun u d => u.watchAnswered a v d) (await w u)
      = await w (ds.foldl (fun u d => u.watchAnswered a v d) u) := by
    intro ds
    induction ds with
    | nil => exact fun _ => rfl
    | cons d ds ih =>
      intro u
      rw [List.foldl_cons, watchAnswered_await]
      exact ih _
  have start : storing (await w s) a v = await w (storing s a v) := by
    unfold storing
    rw [writeWay_await, touch_await]
    rfl
  rw [stored_eq, stored_eq, start]
  exact folded channels _

theorem await_ite (p : Prop) [Decidable p] (x y : State) : await w (if p then x else y) = if p then await w x else await w y :=
  apply_ite (await w) p x y

theorem loadWord_await (a : Addr) : (await w s).loadWord a = s.loadWord a := rfl

theorem loadPoison_await (a : Addr) : (await w s).loadPoison a = s.loadPoison a := rfl

theorem answered_await (s : State) (c : ChanId) (h : HostEntry) (st : Machine.Status) (data : List Word) :
    (await w s).answered c h st data = await w (s.answered c h st data) := rfl

theorem served_await (c : ChanId) (h : HostEntry) : (await w s).served c h = await w (s.served c h) := by
  cases hr : h.req with
  | read a =>
    rw [served_read hr, served_read hr, await_ite, touch_await]
    rfl
  | write a m v =>
    rw [served_write hr, served_write hr, await_ite, loadWord_await, loadPoison_await, stored_await, answered_await, answered_await]
  | atomic op a x y =>
    cases hn : atomicNew op (s.loadWord a) x y with
    | some v =>
      have same := (congrArg (atomicNew op · x y) (loadWord_await (w := w) (s := s) a)).trans hn
      rw [served_atomic_some hr same, served_atomic_some hr hn, await_ite, stored_await]
      exact if_congr (iff_of_eq (congrArg (· = true) (loadPoison_await a))) (answered_await ..)
        ((congrArg (State.answered _ c h .ok [·]) (loadWord_await a)).trans (answered_await ..))
    | none =>
      have same := (congrArg (atomicNew op · x y) (loadWord_await (w := w) (s := s) a)).trans hn
      rw [served_atomic_none hr same, served_atomic_none hr hn, await_ite, touch_await]
      exact if_congr (iff_of_eq (congrArg (· = true) (loadPoison_await a))) (answered_await ..)
        ((congrArg (State.answered _ c h .ok [·]) (loadWord_await a)).trans (answered_await ..))
  | reserve a =>
    rw [served_reserve hr, served_reserve hr, await_ite, touch_await]
    rfl
  | conditional a v =>
    have cleared : ({ await w s with reservations := (await w s).reservations.set c none } : State)
        = await w { s with reservations := s.reservations.set c none } := rfl
    rw [served_conditional hr, served_conditional hr, await_ite, cleared, stored_await, answered_await, answered_await]
    rfl
  | watch a v n =>
    rw [served_watch hr, served_watch hr, await_ite, await_ite, touch_await]
    rfl
  | _ => exact (served_other (by rw [hr]; rfl)).trans (congrArg (await w) (served_other (by rw [hr]; rfl))).symm

theorem servedWho_await (who : Who) : (await w s).servedWho who = await w (s.servedWho who) := by
  cases who with
  | chan c =>
    by_cases hh : ∃ h, s.hostTable[c] = [h]
    · obtain ⟨h, hh⟩ := hh
      rw [servedWho_lone (s := await w s) hh, servedWho_lone hh, await_ite, served_await]
    · have crowd : ∀ h, s.hostTable[c] ≠ [h] := fun h hx => hh ⟨h, hx⟩
      rw [servedWho_crowd (s := await w s) crowd, servedWho_crowd crowd]
  | posted =>
    by_cases hp : ∃ p, s.posted = [p]
    · obtain ⟨p, hp⟩ := hp
      have emptied : ∀ t : State, ({ await w t with posted := [] } : State) = await w { t with posted := [] } := fun _ => rfl
      have failed : (await w s).failedPosted p .dataError = await w (s.failedPosted p .dataError) := rfl
      rw [servedWho_posted (s := await w s) hp, servedWho_posted hp, await_ite, loadWord_await, loadPoison_await, stored_await, emptied,
        failed]
    · have queue : ∀ p, s.posted ≠ [p] := fun p hx => hp ⟨p, hx⟩
      rw [servedWho_queue (s := await w s) queue, servedWho_queue queue]

/-! ### The state in which the hold has ended -/

/-- What the pass finds once it has taken out of the waiting list what it looks up. -/
def freed (s : State) (w : List Waiting) : State := await w (quieted s).count1.closeTenure

theorem freed_held (k : LineAddr) : (freed s w).held k = false := rfl

/-- What serving leaves of it is what serving leaves of the state before the verdict. -/
theorem freed_served (who : Who) (w : List Waiting) : (freed s w).servedWho who
    = ({ await w (s.servedWho who) with span := { s.span with setAside := none, homeReserved := false } } : State).count1.closeTenure := by
  have inside := servedWho_within (b := (quieted s).count1.closeTenure) (await w s) who
  have same : s.servedWho who = within s (s.servedWho who) := servedWho_within (b := s) s who
  rw [servedWho_await] at inside
  refine (show (freed s w).servedWho who = _ from inside).trans ?_
  rw [same]
  rfl

/-- The same with everything owed. -/
def owed (s : State) : State := (quieted s).count1.closeTenure.owePass

theorem exec_voided (hp : s.porst = false) (ht : s.span.tenure = .peer sender l body mine)
    (hv : classify body (orVotes mine others) = .void) (ho : s.NoOffer l .void) :
    exec (.requestTenureVerdict others) s = .next (owed s).settle.arbitrate := by
  rw [exec_peer hp ht hv, snoop_void ho]
  rfl

theorem still_owed (hr : s.AtRest) : Still (owed s) :=
  (still_of_rest hr).congr rfl (fun _ _ h => h) (fun h => (Departures.isWaiting_owePass (s := (quieted s).count1.closeTenure) .posted).trans h)
    fun h => h

/-- The verdict leaves a state, but for the places of completions and the next claim. -/
def Becomes (s : State) (others : Votes) (t : State) : Prop := ∃ order next, s.readyOrder <+: order ∧
  exec (.requestTenureVerdict others) s
    = .next (State.closed { t with span := { s.span with setAside := none, homeReserved := false } } order next)

theorem becomes_of (hx : exec (.requestTenureVerdict others) s = .next (owed s).settle.arbitrate)
    (hs : (owed s).settle = ({ t with span := { s.span with setAside := none, homeReserved := false } } : State).count1.closeTenure.settle)
    (hr : t.AtRest) (ho : t.readyOrder = s.readyOrder) : Becomes s others t :=
  closes (t := { t with span := { s.span with setAside := none, homeReserved := false } }) (hx.trans (by rw [hs])) rfl
    (atRest_same hr rfl rfl rfl rfl) ho

theorem owed_unwait (who : Who) : (owed s).unwait who
    = freed s ((s.waiting.map (fun x => { x with due := true })).filter (fun x => x.who ≠ who)) := rfl

/-! ### One waiting operation, served in the way that holds its line -/

theorem servedWho_side (s : State) (who : Who) : (s.servedWho who).table = s.table ∧ (s.servedWho who).readyOrder = s.readyOrder := by
  have same : s.servedWho who = within s (s.servedWho who) := servedWho_within (b := s) s who
  rw [same]
  exact ⟨rfl, rfl⟩

/-- What is served leaves rest behind, where nothing else waits. -/
theorem becomes_served (hx : exec (.requestTenureVerdict others) s = .next (owed s).settle.arbitrate)
    (hl : (owed s).settle = ((freed s []).servedWho who).settle) (hr : ((freed s []).servedWho who).AtRest) :
    Becomes s others (await [] (s.servedWho who)) := by
  rw [freed_served] at hl hr
  exact becomes_of hx hl (atRest_same hr rfl rfl rfl rfl) (servedWho_side s who).2

theorem valid_of_sole (hs : st.sole = true) : st ≠ .invalid := by
  rintro rfl
  cases hs

/-- A request of a line held sole, and under no hold, is performed, or is a CONDITIONAL whose reservation does not stand. -/
theorem decide_sole (hw : r.word? = some a) (hl : s.lookup (lineOf a) = some st) (hs : st.sole = true)
    (free : s.held (lineOf a) = false) : s.decideRequest c r = .perform ∨
      (s.decideRequest c r = .finish .fail ∧ ∃ v, r = .conditional a v ∧ s.reservations[c] ≠ some a) := by
  have direct : isDirect (lineOf a) = false := not_direct_of_lookup hl
  have reads : ∀ b, s.decideRead (lineOf a) b = .perform := decideRead_held (heldValid_of_lookup hl (valid_of_sole hs))
  have writes : ∀ b, s.decideWrite (lineOf a) b = .perform := decideWrite_sole hl hs free
  cases r with
  | conditional x v =>
    obtain rfl : x = a := Option.some.inj hw
    by_cases stands : s.reservations[c] = some x
    · exact .inl ((decideRequest_conditional rfl stands).trans (writes true))
    · refine .inr ⟨?_, v, rfl, stands⟩
      exact if_neg fun h => stands (Claims.stands_iff.1 h)
  | read x | write x | atomic o x =>
    obtain rfl : x = a := Option.some.inj hw
    refine .inl ((if_neg (by rw [direct]; nofun)).trans ?_)
    first | exact reads _ | exact writes _
  | reserve x | watch x =>
    obtain rfl : x = a := Option.some.inj hw
    exact .inl (reads _)
  | _ => cases hw

/-- The lookup of a waiting request of a line held sole serves it. -/
theorem lookup_served (hs : Serves s l [.chan c]) (hh : s.hostTable[c] = [h]) (hw : h.req.word? = some a) (ha : lineOf a = l)
    (hl : s.lookup l = some st) (sole : st.sole = true) (free : s.held l = false) {place : Nat} {b b' : Bool} {k : LineAddr} :
    s.applyDecision (.chan c) place b b' k (s.decideRequest c h.req) = s.servedWho (.chan c) := by
  subst ha
  rcases decide_sole (c := c) hw hl sole free with hd | ⟨hd, v, hr, gone⟩
  · rw [hd]
    exact perform_serves hs
  · obtain ⟨g, -, ready, -⟩ := hs.ready
    obtain rfl : g = h := by simpa [hh] using ready.table.symm
    have conditional : s.conditionalHead c = true := by
      unfold State.conditionalHead
      rw [head_lone hh ready.isOpen]
      show g.req.isConditional = true
      rw [hr]
      rfl
    rw [hd, servedWho_chan ready, served_conditional hr, if_neg gone]
    show s.finishHead c .fail = _
    unfold State.finishHead
    rw [if_pos conditional]
    exact complete_lone (s := s.clearReservation c) hh ready.isOpen (hs.notWaiting _) .fail []

theorem still_freed (hr : s.AtRest) (hn : s.isWaiting .posted = false) (w : List Waiting) : Still (freed s w) :=
  (still_of_rest hr).congr rfl (fun _ _ h => h) (fun h => by rw [hn] at h; cases h) fun h => h

theorem atRest_chan (hs : Still s) (hw : s.waiting = []) (dealt : Dealt s t [.chan c]) (ht : t.table = s.table) : t.AtRest := by
  have posted : t.posted = s.posted := dealt.posted.trans (if_neg (by simp))
  refine ⟨?_, fun d e he => ?_, fun d e he hd => ?_, fun d e he ha hq => ?_, ?_⟩
  · rcases hs.posted with h | h | h
    · exact .inl (posted.trans h)
    · rw [State.isWaiting, hw] at h
      cases h
    · refine .inr (.inr ?_)
      unfold State.isWaiter at h ⊢
      rwa [ht]
  · exact (dealt.heads d e he).elim (hs.heads d e) fun ha => inPhase_waiting_of_active ha.1
  · rcases dealt.heads d e he with he | ⟨ha, -⟩
    · have := hs.drains d e he hd
      unfold State.postedOf at this ⊢
      rwa [posted]
    · rw [inPhase_draining_of_active ha] at hd
      cases hd
  · rcases dealt.heads d e he with he | ⟨-, hn⟩
    · rw [posted]
      exact hs.room d e he ha hq
    · rw [hn] at hq
      cases hq
  · rw [dealt.waiting, hw]
    exact List.forall_mem_nil _

theorem chan_waits (hw : s.waiting = [{ who := .chan c, place := h.place, pendingFlush := false, due := false }]) :
    s.isWaiting .posted = false := by
  rw [State.isWaiting, hw]
  simp

/-- The one operation that waits is of the line whose hold ends, and is served. -/
theorem serves_request (hx : exec (.requestTenureVerdict others) s = .next (owed s).settle.arbitrate) (hr : s.AtRest)
    (hw : s.waiting = [{ who := .chan c, place := h.place, pendingFlush := false, due := false }]) (hh : s.hostTable[c] = [h])
    (ha : h.inPhase .active = true) (word : h.req.word? = some a) (hl : s.lookup (lineOf a) = some st) (hs : st.sole = true)
    (watches : ∀ (x : ChanId) w, s.watches[x] = some w → w.phase = .armed → x ≠ c ∧ ∃ g, s.hostTable[x] = [g] ∧ g.isOpen = true) :
    Becomes s others (await [] (s.served c h)) := by
  have isOpen := Moves.isOpen_of_inPhase ha
  have serves : Serves (freed s []) (lineOf a) [.chan c] := {
    once := List.nodup_singleton _
    still := rfl
    chan := fun d hd => by
      obtain rfl : d = c := by simpa using hd
      exact ⟨h, hh, isOpen⟩
    posted := fun hp => by simp at hp
    line := heldValid_of_lookup hl (valid_of_sole hs)
    words := fun d hd => by
      obtain rfl : d = c := by simpa using hd
      exact ⟨h, a, hh, word, rfl⟩
    unarmed := fun d hd x hx hp => by
      obtain rfl : d = c := by simpa using hd
      exact (watches d x hx hp).1 rfl
    lone := fun x w hw ha => ⟨rfl, (watches x w hw ha).2⟩ }
  have looked : (owed s).lookupOp (.chan c) true = (freed s []).servedWho (.chan c) := by
    have gone : (owed s).unwait (.chan c) = freed s [] := by
      rw [owed_unwait, hw]
      simp
    rw [lookupOp_chan (head_lone (s := owed s) hh isOpen) gone true]
    exact lookup_served serves hh word rfl hl hs rfl
  have dealt := (served_step (freed s []) (.chan c) [] serves).2
  have table : ((freed s []).servedWho (.chan c)).table = (freed s []).table := (servedWho_side _ _).1
  have runs := settle_one (still_owed hr) (x := { who := .chan c, place := h.place, pendingFlush := false, due := true })
    (by show s.waiting.map _ = _; rw [hw]; rfl) rfl
  have same : s.servedWho (.chan c) = s.served c h := (servedWho_lone hh).trans (if_pos isOpen)
  rw [← same]
  exact becomes_served hx (runs.trans (congrArg State.settle looked))
    (atRest_chan (still_freed hr (chan_waits hw) []) rfl dealt table)

theorem lookupOp_posted (hp : s.posted = p :: ps) (hu : s.unwait .posted = u) (turn : Bool) : s.lookupOp .posted turn
    = u.applyDecision .posted p.place false (turn || u.mayTake p.place) (lineOf p.addr) (u.decidePosted p) := by
  subst hu
  have queue : (s.unwait .posted).posted = p :: ps := hp
  unfold State.lookupOp
  simp only [queue]

/-- The one operation that waits is the posted write queue's head, of the line whose hold ends, and is served. -/
theorem serves_posted (hx : exec (.requestTenureVerdict others) s = .next (owed s).settle.arbitrate) (hr : s.AtRest)
    (hw : s.waiting = [{ who := .posted, place := p.place, pendingFlush := false, due := false }]) (hp : s.posted = [p])
    (hn : s.NoDrain) (hl : s.lookup (lineOf p.addr) = some st) (hs : st.sole = true) (lone : s.LoneWatches) :
    Becomes s others (await [] (s.servedWho .posted)) := by
  have serves : Serves (freed s []) (lineOf p.addr) [.posted] := {
    once := List.nodup_singleton _
    still := rfl
    chan := fun d hd => by simp at hd
    posted := fun _ => ⟨p, hp⟩
    line := heldValid_of_lookup hl (valid_of_sole hs)
    words := fun d hd => by simp at hd
    unarmed := fun d hd => by simp at hd
    lone := fun x w hw ha => ⟨rfl, (lone x w hw ha).2⟩ }
  have looked : (owed s).lookupOp .posted true = (freed s []).servedWho .posted := by
    have gone : (owed s).unwait .posted = freed s [] := by
      rw [owed_unwait, hw]
      simp
    rw [lookupOp_posted (s := owed s) hp gone true, decidePosted_cached (not_direct_of_lookup hl),
      decideWrite_sole (s := freed s []) hl hs rfl]
    exact perform_serves serves
  have dealt := (served_step (freed s []) .posted [] serves).2
  have posted : ((freed s []).servedWho .posted).posted = [] := dealt.posted.trans (if_pos List.mem_cons_self)
  have runs := settle_one (still_owed hr) (x := { who := .posted, place := p.place, pendingFlush := false, due := true })
    (by show s.waiting.map _ = _; rw [hw]; rfl) rfl
  refine becomes_served hx (runs.trans (congrArg State.settle looked)) ⟨.inl posted, fun d e he => ?_, fun d e he hd => ?_,
    fun d e he ha hq => ?_, ?_⟩
  · exact (dealt.heads d e he).elim (hr.heads d e) fun ha => inPhase_waiting_of_active ha.1
  · rcases dealt.heads d e he with he | ⟨ha, -⟩
    · rw [hn d e he] at hd
      cases hd
    · rw [inPhase_draining_of_active ha] at hd
      cases hd
  · rcases dealt.heads d e he with he | ⟨-, hn⟩
    · have := hr.room d e he ha hq
      rw [hp] at this
      exact absurd this (by simp [Config.postedEntries])
    · rw [hn] at hq
      cases hq
  · rw [dealt.waiting]
    exact List.forall_mem_nil _

/-! ### Waiting operations that join or open their entries -/

/-- A waiting request, as the statement writes it. -/
def item (c : ChanId) (h : HostEntry) (due : Bool) : Waiting := { who := .chan c, place := h.place, pendingFlush := false, due := due }

/-- The grown table, with one channel's request in its new phase, is at rest but for what is owed. -/
theorem still_grown (hs : Still s) (hn : s.isWaiting .posted = false) (hp : t.posted = s.posted)
    (hh : t.hostTable = s.hostTable.set c [{ h with progress := .opened .joined }])
    (hw : s.isWaiter .posted = true → t.isWaiter .posted = true) : Still t := by
  have heads : ∀ d e, t.head? d = some e → (d = c ∧ e = { h with progress := .opened .joined }) ∨ s.head? d = some e := by
    intro d e he
    have he : (Moves.holding s c [{ h with progress := .opened .joined }]).head? d = some e := by
      unfold State.head? at he ⊢
      rwa [hh] at he
    by_cases hd : d = c
    · rw [hd, Moves.head_holding_self] at he
      exact .inl ⟨hd, (Option.some.inj he).symm⟩
    · rw [Moves.head_holding_ne hd] at he
      exact .inr he
  refine ⟨?_, fun d e he => ?_, fun d e he hd => ?_, fun d e he ha hq => ?_⟩
  · rcases hs.posted with h | h | h
    · exact .inl (hp.trans h)
    · rw [hn] at h
      cases h
    · exact .inr (.inr (hw h))
  · rcases heads d e he with ⟨-, rfl⟩ | he
    · rfl
    · exact hs.heads d e he
  · rcases heads d e he with ⟨-, rfl⟩ | he
    · cases hd
    · have := hs.drains d e he hd
      unfold State.postedOf at this ⊢
      rwa [hp]
  · rcases heads d e he with ⟨-, rfl⟩ | he
    · cases ha
    · rw [hp]
      exact hs.room d e he ha hq

/-- The tenure closed over a state that the verdict has left. -/
def closing (s t : State) : State :=
  ({ t with span := { s.span with setAside := none, homeReserved := false } } : State).count1.closeTenure

theorem closing_unwait (w : List Waiting) (who : Who) : (closing s (await w t)).unwait who
    = closing s (await (w.filter (fun x => x.who ≠ who)) t) := rfl

theorem freed_unwait (w : List Waiting) (who : Who) : (freed s w).unwait who = freed s (w.filter (fun x => x.who ≠ who)) := rfl

theorem joinEntry_freed (hh : s.hostTable[c] = [h]) (ho : h.isOpen = true) (w : List Waiting) (l : LineAddr) :
    (freed s w).joinEntry (.chan c) l = closing s (await w ((s.joins (.chan c) l).rephased c h .joined)) :=
  Moves.setPhase_first (s := (freed s w).joins (.chan c) l) (pre := []) hh (List.forall_mem_nil _) ho

theorem addEntry_freed (hh : s.hostTable[c] = [h]) (ho : h.isOpen = true) (w : List Waiting) (k : TableKind) (l : LineAddr) :
    (freed s w).addEntry (.chan c) k none l = closing s (await w ((s.opens (.chan c) k none l).rephased c h .joined)) :=
  Moves.setPhase_first (s := closing s (await w (s.opens (.chan c) k none l))) (pre := []) hh (List.forall_mem_nil _) ho

/-- A write-type request of a shared line joins its UPGRADE, or opens it. -/
theorem upgrades_request (hx : exec (.requestTenureVerdict others) s = .next (owed s).settle.arbitrate) (hr : s.AtRest)
    (hw : s.waiting = [item c h false]) (hh : s.hostTable[c] = [h]) (ha : h.inPhase .active = true)
    (hl : shared s (lineOf a)) (stores : Stores s c h.req a) (addr : h.req.addr? = some a) :
    (∀ e, s.entryFor (lineOf a) = some e → e.kind = .upgrade →
      Becomes s others (await [] ((s.joins (.chan c) (lineOf a)).rephased c h .joined))) ∧
    (s.entryFor (lineOf a) = none → s.table.length < 4 →
      Becomes s others (await [] ((s.opens (.chan c) .upgrade none (lineOf a)).rephased c h .joined))) := by
  have isOpen := Moves.isOpen_of_inPhase ha
  have gone : (owed s).unwait (.chan c) = freed s [] := by
    rw [owed_unwait, hw]
    simp [item]
  have line : lineOf (h.req.addr?.getD 0) = lineOf a := by rw [addr]; rfl
  obtain ⟨hold, decided⟩ := decideRequest_stores (s := freed s []) stores addr (shared_cached hl)
  have looked := lookupOp_chan (head_lone (s := owed s) hh isOpen) gone true
  rw [decided, line] at looked
  have runs := settle_one (still_owed hr) (x := item c h true) (by show s.waiting.map _ = _; rw [hw]; rfl) rfl
  have still := still_freed hr (chan_waits hw) []
  refine ⟨fun e he hk => ?_, fun he room => ?_⟩
  · rw [decideWrite_joined (s := freed s []) hl he, if_pos ⟨hk, fun hx => by cases hx.2⟩] at looked
    refine becomes_of hx (runs.trans (congrArg State.settle (looked.trans (joinEntry_freed hh isOpen [] (lineOf a))))) ?_ rfl
    exact (still_grown (t := await [] ((s.joins (.chan c) (lineOf a)).rephased c h .joined)) still rfl rfl rfl
      fun h => isWaiter_joins (s := s) h).rest (List.forall_mem_nil _)
  · rw [decideWrite_upgrade (s := freed s []) hl he, freed_held] at looked
    have granted := applyDecision_granted (place := h.place) (pending := (owed s).waiting.any (fun x => x.who = .chan c && x.pendingFlush))
      (grant_wayless (s := freed s []) ⟨room, he, rfl⟩ (.inl rfl) (.chan c))
    refine becomes_of hx (runs.trans (congrArg State.settle ((looked.trans granted).trans (addEntry_freed hh isOpen [] .upgrade (lineOf a))))) ?_ rfl
    exact (still_grown (t := await [] ((s.opens (.chan c) .upgrade none (lineOf a)).rephased c h .joined)) still rfl rfl rfl
      fun h => isWaiter_opens (s := s) h).rest (List.forall_mem_nil _)

/-- What a direct request asks for, and where it waits when it cannot have it. -/
theorem direct_waits {op : DirectOp} (hd : directOf h.req = some op) (addr : h.req.addr? = some a) (direct : isDirect (lineOf a) = true)
    (full : (s.entryFor (lineOf a)).isSome = true ∨ 4 ≤ s.table.length) :
    s.applyDecision (.chan c) h.place false true (lineOf a) (s.decideRequest c h.req) = s.waitAt (.chan c) h.place false false := by
  rw [decideRequest_direct hd addr direct, decideDirect_eq]
  by_cases he : (s.entryFor (lineOf a)).isSome = true ∨ s.held (lineOf a) = true
  · rw [if_pos he]
    rfl
  · rw [if_neg he]
    exact applyDecision_barred (grant_barred (.inl (full.resolve_left fun h => he (.inl h))) _)

/-- A direct request that finds an entry free opens its entry, whatever else waits. -/
theorem direct_opens {op : DirectOp} (hd : directOf h.req = some op) (addr : h.req.addr? = some a) (direct : isDirect (lineOf a) = true)
    (he : s.entryFor (lineOf a) = none) (room : s.table.length < 4) (hh : s.hostTable[c] = [h]) (ho : h.isOpen = true) (w : List Waiting) :
    (freed s w).applyDecision (.chan c) h.place false true (lineOf a) ((freed s w).decideRequest c h.req)
      = closing s (await w ((s.opens (.chan c) (.direct op) none (lineOf a)).rephased c h .joined)) := by
  have decided : (freed s w).decideDirect (lineOf a) op = .allocate (.direct op) :=
    (decideDirect_eq (s := freed s w) op).trans (if_neg (by rw [show (freed s w).entryFor (lineOf a) = none from he, freed_held]; nofun))
  rw [decideRequest_direct hd addr direct, decided]
  exact (applyDecision_granted (grant_wayless (s := freed s w) ⟨room, he, rfl⟩ (.inr ⟨op, rfl⟩) _)).trans
    (addEntry_freed hh ho w (.direct op) (lineOf a))

/-- The lookup of a waiting request that is no pending FLUSH. -/
theorem lookup_item {w : List Waiting} (hw : s.waiting = w) (hp : ∀ x ∈ w, x.pendingFlush = false) (hh : s.head? c = some h)
    (addr : h.req.addr? = some a) (hu : s.unwait (.chan c) = u) : s.lookupOp (.chan c) true
      = u.applyDecision (.chan c) h.place false true (lineOf a) (u.decideRequest c h.req) := by
  have none : s.waiting.any (fun x => x.who = .chan c && x.pendingFlush) = false := by
    rw [hw, List.any_eq_false]
    intro x hx hc
    rw [hp x hx, Bool.and_false] at hc
    cases hc
  rw [lookupOp_chan hh hu true, none, addr]
  rfl

/-- On one free entry the older of two direct requests is granted, and the younger waits on. -/
theorem grants_older (hx : exec (.requestTenureVerdict others) s = .next (owed s).settle.arbitrate) (hr : s.AtRest)
    {op op' : DirectOp} {a' : Addr} (hw : s.waiting = [item c h false, item d g false]) (hne : c ≠ d) (older : h.place < g.place)
    (hh : s.hostTable[c] = [h]) (ha : h.inPhase .active = true) (hg : s.hostTable[d] = [g]) (hb : g.inPhase .active = true)
    (addr : h.req.addr? = some a) (addr' : g.req.addr? = some a') (ho : directOf h.req = some op) (ho' : directOf g.req = some op')
    (direct : isDirect (lineOf a) = true) (direct' : isDirect (lineOf a') = true) (three : s.table.length = 3) :
    (s.entryFor (lineOf a) = none →
      Becomes s others (await [item d g false] ((s.opens (.chan c) (.direct op) none (lineOf a)).rephased c h .joined))) ∧
    ((s.entryFor (lineOf a)).isSome = true → s.entryFor (lineOf a') = none →
      Becomes s others (await [item c h false] ((s.opens (.chan d) (.direct op') none (lineOf a')).rephased d g .joined))) := by
  have isOpen := Moves.isOpen_of_inPhase ha
  have isOpen' := Moves.isOpen_of_inPhase hb
  have owing : (owed s).waiting = [item c h true, item d g true] := by
    show s.waiting.map _ = _
    rw [hw]
    rfl
  have gone : (owed s).unwait (.chan c) = freed s [item d g true] := by
    rw [owed_unwait, hw]
    simp [item, hne.symm]
  have none_posted : s.isWaiting .posted = false := by
    rw [State.isWaiting, hw]
    simp [item]
  have first := settle_oldest (still_owed hr) owing rfl (ys := [item d g true]) (by simpa [item] using older)
  have looked := lookup_item owing (by simp [item]) (head_lone (s := owed s) hh isOpen) addr gone
  refine ⟨fun he => ?_, fun he he' => ?_⟩
  · rw [direct_opens ho addr direct he (by omega) hh isOpen] at looked
    generalize hT : (s.opens (.chan c) (.direct op) none (lineOf a)).rephased c h .joined = T at looked ⊢
    have table : T.table.length = 4 := by
      rw [← hT]
      show (s.table ++ [_]).length = 4
      rw [List.length_append, three]
      rfl
    have other : T.hostTable[d] = [g] := by
      have hn : (c : Nat) ≠ d := fun e => hne (Fin.ext e)
      rw [← hT]
      simpa [State.rephased, State.opens, Vector.getElem_set_ne _ _ hn] using hg
    have still : ∀ w, Still (closing s (await w T)) := fun w => by
      rw [← hT]
      exact still_grown (s := freed s []) (still_freed hr none_posted []) rfl rfl rfl fun h => isWaiter_opens (s := s) h
    have second := settle_one (still [item d g true]) (x := item d g true) rfl rfl
    have gone' : (closing s (await [item d g true] T)).unwait (.chan d) = closing s (await [] T) := by
      rw [closing_unwait]
      simp [item]
    have looked' := lookup_item (s := closing s (await [item d g true] T)) (w := [item d g true]) rfl (by simp [item]) (head_lone other isOpen') addr' gone'
    rw [direct_waits (s := closing s (await [] T)) ho' addr' direct' (.inr table.ge)] at looked'
    refine becomes_of hx ((first.trans (congrArg State.settle looked)).trans (second.trans (congrArg State.settle looked'))) ?_
      (by rw [← hT]; rfl)
    rw [← hT]
    exact (still_grown (s := freed s []) (t := await [item d g false] ((s.opens (.chan c) (.direct op) none (lineOf a)).rephased c h .joined))
      (still_freed hr none_posted []) rfl rfl rfl fun h => isWaiter_opens (s := s) h).rest (by simp [await, item])
  · rw [direct_waits (s := freed s [item d g true]) ho addr direct (.inl he)] at looked
    have waits : (freed s [item d g true]).waitAt (.chan c) h.place false false = freed s [item c h false, item d g true] := by
      show freed s (insertBy _ _ [item d g true]) = _
      simp [insertBy, item, older]
    rw [waits] at looked
    have second := settle_younger (still_freed hr none_posted [item c h false, item d g true]) rfl rfl rfl
    have gone' : (freed s [item c h false, item d g true]).unwait (.chan d) = freed s [item c h false] := by
      rw [freed_unwait]
      simp [item, hne]
    have looked' := lookup_item (s := freed s [item c h false, item d g true]) (w := [item c h false, item d g true]) rfl (by simp [item])
      (head_lone (s := s) hg isOpen') addr' gone'
    rw [direct_opens ho' addr' direct' he' (by omega) hg isOpen'] at looked'
    refine becomes_of hx ((first.trans (congrArg State.settle looked)).trans (second.trans (congrArg State.settle looked'))) ?_ rfl
    exact (still_grown (s := freed s []) (t := await [item c h false] ((s.opens (.chan d) (.direct op') none (lineOf a')).rephased d g .joined))
      (still_freed hr none_posted []) rfl rfl rfl fun h => isWaiter_opens (s := s) h).rest (by simp [await, item])

/-- Settles O30: the hold ends, everything that waits is owed its lookup, and is looked up, oldest first. -/
theorem waitingListIsServed : Obligations.WaitingListIsServed := by
  intro s others mine sender l body hp hr ho ht hv quiet becomes stands item'
  have hx := exec_voided hp ht hv ho
  have leaves : becomes = Becomes s others := rfl
  clear_value becomes
  subst leaves
  refine ⟨?_, ?_, ?_, ?_⟩
  · rintro c h a st hw ⟨hh, ha⟩ word rfl hl sole watches
    exact serves_request hx hr hw hh ha word hl sole watches
  · rintro p st hw hq hn rfl hl sole lone
    exact serves_posted hx hr hw hq hn hl sole lone
  · rintro c h a v hw ⟨hh, ha⟩ rfl hl stores
    have addr : h.req.addr? = some a := by
      rcases stores with ⟨-, addr⟩ | ⟨hr, -⟩
      · exact addr
      · rw [hr]; rfl
    have stored : Stores s c h.req a := stores.imp And.left fun h => ⟨⟨v, h.1⟩, h.2⟩
    exact upgrades_request hx hr hw hh ha hl stored addr
  · rintro c h d a c' h' d' a' hw hne older ⟨hh, ha⟩ ⟨hg, hb⟩ addr addr' ho ho' direct direct' three
    exact grants_older hx hr hw hne older hh ha hg hb addr addr' ho ho' direct direct' three

end Sys2Proof.Proofs.PassServes
end

