-- ==== Sys2Proof/Proofs/Resets.lean ====
section
/-! PROOFS. The host reset and its release: what the reset leaves of the line array and the tables, and the posted write queue's
head, looked up again on the station that it leaves (R24, R47, R72, R79, R108, R122, R123, R140, R155, R165). -/

namespace Sys2Proof.Proofs.Resets

open Sys2Proof Sys2Proof.Machine Sys2Proof.Proofs.Updates Sys2Proof.Proofs.Places Sys2Proof.Proofs.Presented
open Sys2Proof.Proofs.Expiries Sys2Proof.Proofs.Passes Sys2Proof.Proofs.Returns Sys2Proof.Proofs.Lookups Sys2Proof.Proofs.Posted

variable {s t u : State} {a : Addr} {v : Word} {l k : LineAddr} {w : WayId} {p : PostedWrite} {ps : List PostedWrite}
  {co : Counters} {turn : Bool} {e : TableEntry} {es : List TableEntry}

/-! ### The release (R123) -/

/-- A maximum over a list, from a start on, is the start or the value of a member, and above them all. -/
theorem foldl_max_place (qs : List PostedWrite) (n : Nat) :
    n ≤ qs.foldl (fun n p => max n (p.place + 1)) n ∧ (∀ q ∈ qs, q.place < qs.foldl (fun n p => max n (p.place + 1)) n) ∧
    (qs.foldl (fun n p => max n (p.place + 1)) n = n ∨ ∃ q ∈ qs, qs.foldl (fun n p => max n (p.place + 1)) n = q.place + 1) := by
  induction qs generalizing n with
  | nil => exact ⟨Nat.le_refl n, List.forall_mem_nil _, .inl rfl⟩
  | cons x xs ih =>
    obtain ⟨start, above, named⟩ := ih (max n (x.place + 1))
    rw [List.foldl_cons]
    refine ⟨by omega, fun q hq => ?_, ?_⟩
    · rcases List.mem_cons.1 hq with rfl | hq
      · omega
      · exact above q hq
    · rcases named with same | ⟨q, hq, same⟩
      · by_cases hn : x.place + 1 ≤ n
        · exact .inl (by omega)
        · exact .inr ⟨x, List.mem_cons_self, by omega⟩
      · exact .inr ⟨q, List.mem_cons_of_mem _ hq, same⟩

theorem placeAfterPosted_named (hn : s.posted ≠ []) : ∃ q ∈ s.posted, s.placeAfterPosted = q.place + 1 := by
  obtain ⟨-, above, same | named⟩ := foldl_max_place s.posted 0
  · obtain ⟨q, hq⟩ := List.exists_mem_of_ne_nil _ hn
    have := above q hq
    omega
  · exact named

theorem exec_hrstReleased (hp : s.porst = false) (hh : s.hrst = true) :
    exec .hrstReleased s = .next { s with hrst := false, now := s.now + 1, nextPlace := s.placeAfterPosted } := by
  show execHrstReleased s = _
  unfold execHrstReleased
  rw [if_neg (by rw [hh]; nofun), if_neg (by rw [hp]; nofun)]
  rfl

/-! ### The ways that are given back (R24, R72) -/

/-- The ways of some entries are given back. -/
def givenBack (es : List TableEntry) (s : State) : State := es.foldl (fun u e => u.freeFillPending e.line) s

theorem givenBack_eq (h : t.lines = s.lines) : givenBack es t = { t with lines := (givenBack es s).lines } := by
  induction es generalizing s t with
  | nil => rw [show givenBack [] s = s from rfl, ← h]; rfl
  | cons e es ih =>
    have freed := freeFillPending_eq h e.line
    have rest := ih (s := s.freeFillPending e.line) (t := t.freeFillPending e.line) (by rw [freed])
    exact rest.trans (by rw [freed]; rfl)

theorem lines_givenBack (h : t.lines = s.lines) : (givenBack es t).lines = (givenBack es s).lines := by
  rw [givenBack_eq h]

/-- What a line's FILL-PENDING way gives back, the other lines do not see. -/
theorem freeFillPending_keeps (h : s.lookup k = some .invalid → k ≠ l) : (s.freeFillPending k).findWay l = s.findWay l ∧
    ∀ w, s.findWay l = some w → (s.freeFillPending k).wayAt l w = s.wayAt l w := by
  unfold State.freeFillPending
  split
  next hk => exact ⟨findWay_dropTag_ne (h hk).symm, fun w hw => wayAt_dropTag_ne (h hk).symm hw⟩
  next => exact ⟨rfl, fun _ _ => rfl⟩

theorem lookup_of_way (hf : t.findWay l = s.findWay l) (hw : ∀ w, s.findWay l = some w → t.wayAt l w = s.wayAt l w) :
    t.lookup l = s.lookup l ∧ t.lineData l = s.lineData l := by
  unfold State.lookup State.lineData
  rw [hf]
  cases h : s.findWay l with
  | none => exact ⟨rfl, rfl⟩
  | some w => exact ⟨congrArg (fun x : Way => some x.state) (hw w h), congrArg Way.data (hw w h)⟩

/-- A line that is not FILL-PENDING stands. -/
theorem givenBack_keeps (h : s.lookup l ≠ some .invalid) :
    (givenBack es s).lookup l = s.lookup l ∧ (givenBack es s).lineData l = s.lineData l := by
  induction es generalizing s with
  | nil => exact ⟨rfl, rfl⟩
  | cons e es ih =>
    obtain ⟨found, way⟩ := freeFillPending_keeps (s := s) (k := e.line) (l := l) (by rintro hk rfl; exact h hk)
    obtain ⟨look, data⟩ := lookup_of_way found way
    obtain ⟨look', data'⟩ := ih (s := s.freeFillPending e.line) (by rwa [look])
    exact ⟨look'.trans look, data'.trans data⟩

theorem order_freeFillPending (i : Fin 32) : (s.freeFillPending l).lines[i].order = s.lines[i].order := by
  unfold State.freeFillPending
  split
  · unfold State.dropTag
    split
    · exact order_setWay _ _ _ _
    · rfl
  · rfl

theorem givenBack_order (i : Fin 32) : (givenBack es s).lines[i].order = s.lines[i].order := by
  induction es generalizing s with
  | nil => rfl
  | cons e es ih => exact ih.trans (order_freeFillPending i)

/-- A line that has one way has none once that way is given back. -/
theorem freeFillPending_gone (one : s.OnePlace) (h : s.lookup l = some .invalid) : (s.freeFillPending l).lookup l = none := by
  obtain ⟨w, hw, -⟩ := Option.map_eq_some_iff.1 h
  have unfound : (s.dropTag l).findWay l = none := by
    unfold State.findWay
    split
    · rfl
    · rw [List.find?_eq_none]
      intro x _ hx
      have hx : ((s.dropTag l).wayAt l x).tag = some l := of_decide_eq_true hx
      rw [dropTag_found hw] at hx
      by_cases same : x = w
      · subst same
        rw [wayAt_setWay_same] at hx
        cases hx
      · rw [wayAt_setWay_other _ (.inr same)] at hx
        exact same (one.way _ _ _ _ hx (findWay_some hw).2)
  unfold State.freeFillPending
  rw [if_pos h]
  unfold State.lookup
  rw [unfound]
  rfl

theorem givenBack_gone (one : s.OnePlace) (h : s.lookup l = some .invalid) (he : e ∈ es) (hl : e.line = l) :
    (givenBack es s).lookup l = none := by
  induction es generalizing s with
  | nil => cases he
  | cons x xs ih =>
    by_cases hx : x.line = l
    · have none_left := freeFillPending_gone one h
      rw [← hx] at none_left ⊢
      exact ((givenBack_keeps (es := xs) (by rw [none_left]; nofun)).1).trans none_left
    · obtain ⟨found, way⟩ := freeFillPending_keeps (s := s) (k := x.line) (l := l) fun _ => hx
      refine ih (Runs.keeps touch_onePlace (freeFillPending_runs x.line) one) ((lookup_of_way found way).1.trans h) ?_
      exact (List.mem_cons.1 he).resolve_left fun hx' => hx (hx' ▸ hl)

/-! ### The reset (R122) -/

/-- The station as a host reset leaves it, before the posted write queue's head is looked up again. -/
def cleared (s : State) : State := { s with
  hrst := true
  lines := (givenBack (s.table.filter s.withdrawn) s).lines
  span := { s.span with putForward := s.claimLeft }
  table := (s.table.filter (fun e => !s.withdrawn e)).map (fun e => { e with waiters := [], orphan := !e.phase.awaiting })
  hostTable := Vector.replicate 4 []
  refused := Vector.replicate 4 none
  readyOrder := []
  latches := Vector.replicate 4 none
  reservations := Vector.replicate 4 none
  watches := Vector.replicate 4 none
  waiting := []
  writebacks := s.writebacks.map (fun e => { e with flush := none })
  out := { completion := none, credit := none } }

theorem exec_hostReset (hp : s.porst = false) :
    exec .hostReset s = .next ({ cleared s with now := s.now + 1 } : State).settle := by
  have lines : givenBack (s.table.filter s.withdrawn) s.count1
      = { s.count1 with lines := (givenBack (s.table.filter s.withdrawn) s).lines } := givenBack_eq rfl
  have reset : s.count1.resetTable = { givenBack (s.table.filter s.withdrawn) s.count1 with
      span := { (givenBack (s.table.filter s.withdrawn) s.count1).span with putForward := s.claimLeft }
      table := (s.table.filter (fun e => !s.withdrawn e)).map (fun e => { e with waiters := [], orphan := !e.phase.awaiting }) } := rfl
  show execHostReset s = _
  unfold execHostReset
  rw [if_neg (by rw [hp]; nofun), reset, lines]
  rfl

/-! ### A station with nothing of the host but its posted writes -/

/-- No head, no claim and no completion; only the posted write queue's head may wait. -/
structure Vacant (co : Counters) (s : State) : Prop where
  hosts : s.hostTable = Vector.replicate 4 []
  reservations : s.reservations = Vector.replicate 4 none
  watches : s.watches = Vector.replicate 4 none
  order : s.readyOrder = []
  counters : s.counters = co
  waiting : ∀ x ∈ s.waiting, x.who = .posted

theorem replicate_at {α : Type} (x : α) (c : ChanId) : (Vector.replicate 4 x)[c] = x := by simp

theorem Vacant.head (h : Vacant co s) (c : ChanId) : s.head? c = none := by
  unfold State.head?
  rw [h.hosts, replicate_at]
  rfl

theorem Vacant.lined (h : Vacant co s) (ht : t = { s with lines := t.lines }) : Vacant co t := by
  rw [ht]
  exact ⟨h.hosts, h.reservations, h.watches, h.order, h.counters, h.waiting⟩

theorem Vacant.breaks_none (h : Vacant co s) (q : Addr → Bool) : s.breakReservations q = s := by
  refine List.foldl_fixed' (fun c => if_neg ?_) channels
  rw [h.reservations, replicate_at]
  nofun

/-- A departure is reported to nobody. -/
theorem Vacant.depart (h : Vacant co s) (l : LineAddr) : s.depart l = s := by
  unfold State.depart
  rw [h.breaks_none]
  refine List.foldl_fixed' (fun c => ?_) channels
  unfold State.watchDepart
  rw [h.watches, replicate_at]

/-- A store is reported to nobody. -/
theorem Vacant.reportStore (h : Vacant co s) (a : Addr) (v : Word) : s.reportStore a v = s := by
  unfold State.reportStore
  rw [h.breaks_none]
  refine List.foldl_fixed' (fun c => ?_) channels
  unfold State.watchStore
  rw [h.watches, replicate_at]

/-- A store reaches the line array alone. -/
theorem Vacant.storeWord (h : Vacant co s) (a : Addr) (v : Word) :
    s.storeWord a v = { s with lines := ((s.writeWay a v).touch (lineOf a)).lines } := by
  have written := writeWay_eq (s := s) (t := s) rfl a v
  have touched := touch_eq (s := s.writeWay a v) (t := s.writeWay a v) rfl (lineOf a)
  have written_touched : (s.writeWay a v).touch (lineOf a) = { s with lines := ((s.writeWay a v).touch (lineOf a)).lines } :=
    touched.trans (by rw [written])
  unfold State.storeWord
  rw [(h.lined written_touched).reportStore]
  exact written_touched

theorem Vacant.storable (h : Vacant co s) (a : Addr) : s.Storable a where
  reservations c hc := by
    rw [h.reservations, replicate_at] at hc
    cases hc
  watches := by
    intro c w hw
    rw [h.watches, replicate_at] at hw
    cases hw

theorem Vacant.stored (h : Vacant co s) (a : Addr) (v : Word) :
    s.stored a v = { s with lines := ((s.writeWay a v).touch (lineOf a)).lines } :=
  (State.storeWord_eq_stored v (h.storable a)).symm.trans (h.storeWord a v)

/-! ### What the lookup of the posted write queue's head keeps -/

theorem vacant_failPosted (h : Vacant co s) (st : Machine.Status) : Vacant co (s.failPosted st) := by
  unfold State.failPosted
  split
  · exact h
  · exact ⟨h.hosts, h.reservations, h.watches, h.order, h.counters, h.waiting⟩

theorem vacant_performPosted (h : Vacant co s) : Vacant co s.performPosted := by
  unfold State.performPosted
  split
  · exact h
  · split
    · next x hx =>
      unfold State.storeMasked at hx
      split at hx
      · cases hx
      · obtain rfl := Option.some.inj hx
        rw [h.storeWord]
        exact ⟨h.hosts, h.reservations, h.watches, h.order, h.counters, h.waiting⟩
    · exact vacant_failPosted h _

theorem vacant_emptyVictim (h : Vacant co s) (he : s.emptyVictim l w = some t) : Vacant co t := by
  have filled : Vacant co (s.fillPend l w) := h.lined rfl
  unfold State.emptyVictim at he
  split at he
  · exact Option.some.inj he ▸ filled
  · next x _ =>
    split at he
    · cases he
    · split at he
      · split at he
        · have moved : Vacant co ((s.addWriteback x (s.wayAt l w).data none).fillPend l w) :=
            ⟨h.hosts, h.reservations, h.watches, h.order, h.counters, h.waiting⟩
          rw [moved.depart] at he
          exact Option.some.inj he ▸ moved
        · cases he
      · rw [filled.depart] at he
        exact Option.some.inj he ▸ filled

theorem vacant_addEntry (h : Vacant co s) (kind : TableKind) (way : Option WayId) (l : LineAddr) :
    Vacant co (s.addEntry .posted kind way l) := ⟨h.hosts, h.reservations, h.watches, h.order, h.counters, h.waiting⟩

theorem vacant_grant (h : Vacant co s) {kind : TableKind} (hg : s.grant .posted kind l = some t) : Vacant co t := by
  have missed : (if (s.findWay l).isSome || (s.writebackFor l).isSome || isDirect l then none
      else match s.victim l with
        | none => none
        | some w => (s.emptyVictim l w).map (fun s' => s'.addEntry .posted kind (some w) l)) = some t → Vacant co t := by
    intro hg
    split at hg
    · cases hg
    · split at hg
      · cases hg
      · obtain ⟨x, hx, rfl⟩ := Option.map_eq_some_iff.1 hg
        exact vacant_addEntry (vacant_emptyVictim h hx) _ _ _
  unfold State.grant at hg
  split at hg
  · cases hg
  · cases kind with
    | upgrade | direct _ => exact Option.some.inj hg ▸ vacant_addEntry h _ _ _
    | share | own => exact missed hg

theorem vacant_waitAt (h : Vacant co s) (n : Nat) (pending due : Bool) : Vacant co (s.waitAt .posted n pending due) := by
  refine ⟨h.hosts, h.reservations, h.watches, h.order, h.counters, fun x hx => ?_⟩
  rcases List.mem_cons.1 ((insertBy_perm _ _ _).mem_iff.1 hx) with rfl | hx
  · rfl
  · exact h.waiting x hx

theorem vacant_joinEntry (h : Vacant co s) (l : LineAddr) : Vacant co (s.joinEntry .posted l) :=
  ⟨h.hosts, h.reservations, h.watches, h.order, h.counters, h.waiting⟩

theorem vacant_lookup (h : Vacant co s) : Vacant co (s.lookupOp .posted turn) := by
  have unwaited : Vacant co (s.unwait .posted) :=
    ⟨h.hosts, h.reservations, h.watches, h.order, h.counters, fun x hx => h.waiting x (List.mem_filter.1 hx).1⟩
  unfold State.lookupOp
  simp only
  generalize s.unwait .posted = u at unwaited
  split
  · exact unwaited
  · next q qs _ =>
    unfold State.applyDecision
    cases u.decidePosted q with
    | perform => exact vacant_performPosted unwaited
    | finish _ | flushLine | flushWaiter => exact unwaited
    | join => exact vacant_joinEntry unwaited _
    | wait => exact vacant_waitAt unwaited _ _ _
    | allocate kind =>
      simp only
      split
      · split
        · next x hx => exact vacant_grant unwaited hx
        · exact vacant_waitAt unwaited _ _ _
      · exact vacant_waitAt unwaited _ _ _

/-- Nothing but the lookup of the posted write queue's head is owed. -/
theorem Vacant.rule (h : Vacant co s) (hr : s.nextRule = some t) : ∃ turn, t = s.lookupOp .posted turn := by
  have headless : ∀ test, s.oldestHead test = none := fun test => (s.oldestHead_eq_none test).2 fun c e he => by
    rw [h.head c] at he
    cases he
  have drain : s.ruleDrain = none := by
    unfold State.ruleDrain
    rw [headless]
    rfl
  have head : s.ruleHead = none := by
    unfold State.ruleHead
    rw [headless]
    rfl
  have room : s.ruleRoom = none := by
    unfold State.ruleRoom
    rw [headless]
    split <;> rfl
  unfold State.nextRule at hr
  rw [drain, head, room] at hr
  rcases Option.or_eq_some_iff.1 hr with hr | ⟨-, hr⟩
  · unfold State.rulePosted at hr
    split at hr
    · exact ⟨false, (Option.some.inj hr).symm⟩
    · cases hr
  · obtain ⟨x, hx, rfl⟩ := Option.map_eq_some_iff.1 hr
    have listed : x ∈ s.waiting := (List.mem_filter.1 (List.mem_filter.1 (List.mem_of_mem_head? hx)).1).1
    exact ⟨true, by rw [h.waiting x listed]⟩

theorem vacant_settleLoop (n : Nat) (h : Vacant co s) : Vacant co (settleLoop n s) := by
  induction n generalizing s with
  | zero => exact h
  | succ n ih =>
    unfold settleLoop
    split
    · exact h
    · next x hx =>
      obtain ⟨turn, rfl⟩ := h.rule hx
      exact ih (vacant_lookup h)

/-- No completion is there to be ordered. -/
theorem Vacant.orderReady (h : Vacant co s) : s.orderReady = s := by
  have none_ready : ∀ cs : List ChanId, cs.flatMap (fun c => (s.hostTable[c].filter (fun e => !e.isOpen)).map (fun e => (c, e.place)))
      = [] := fun cs => List.flatMap_eq_nil_iff.2 fun c _ => by rw [h.hosts, replicate_at]; rfl
  have fresh : s.freshReady = [] := by
    unfold State.freshReady
    simp only [none_ready]
    rfl
  unfold State.orderReady
  rw [fresh, List.append_nil]

theorem vacant_settle (h : Vacant co s) : Vacant co s.settle := by
  have settled := vacant_settleLoop s.fuel h
  unfold State.settle
  rw [settled.orderReady]
  exact settled

theorem Vacant.atRest (h : Vacant co s) (hp : Stands s) (hw : ∀ x ∈ s.waiting, x.due = false) : s.AtRest where
  posted := hp
  heads c e he := by rw [h.head c] at he; cases he
  drains c e he := by rw [h.head c] at he; cases he
  room c e he := by rw [h.head c] at he; cases he
  pass := hw

theorem vacant_cleared : Vacant s.counters (cleared s) := ⟨rfl, rfl, rfl, rfl, rfl, List.forall_mem_nil _⟩

theorem Vacant.clock (h : Vacant co s) (n : Nat) : Vacant co { s with now := n } :=
  ⟨h.hosts, h.reservations, h.watches, h.order, h.counters, h.waiting⟩

/-! ### The claim, and the head of the posted write queue (R32, R47, R136, R140) -/

theorem withdrawn_iff : s.withdrawn e = true ↔ e.phase.awaiting = false ∧ s.inTenure e.line = false := by
  simp [State.withdrawn]

/-- The claim keeps its class; a withdrawn entry is gone from it. -/
theorem claimLeft_some {q : Claim} (hq : s.span.putForward = some q) : ∃ x, s.claimLeft = some x ∧
    ((∃ e ∈ s.table, s.withdrawn e = true ∧ q.candidate = some (.entry e.line)) → x.candidate = none) ∧
    ((∀ e ∈ s.table, s.withdrawn e = true → q.candidate ≠ some (.entry e.line)) → x = q) := by
  unfold State.claimLeft
  rw [hq]
  refine ⟨_, rfl, ?_, fun kept => ?_⟩
  · rintro ⟨e, he, hw, hc⟩
    simp only [hc, Option.filter_some]
    refine if_neg fun all => ?_
    have := List.all_eq_true.1 all e he
    simp [hw] at this
  · obtain ⟨candidate, cls⟩ := q
    refine congrArg (fun c => Claim.mk c cls) ?_
    cases candidate with
    | none => rfl
    | some c =>
      refine (Option.filter_some ..).trans (if_pos ?_)
      cases c with
      | entry l =>
        refine List.all_eq_true.2 fun e he => ?_
        cases hw : s.withdrawn e with
        | false => simp
        | true =>
          have : l ≠ e.line := fun same => kept e he hw (by rw [same])
          simp [Ne.symm this]
      | _ => rfl

theorem map_cls_claimLeft : s.claimLeft.map (fun q => q.cls) = s.span.putForward.map (fun q => q.cls) := by
  unfold State.claimLeft
  rw [Option.map_map]
  rfl

theorem cleared_posted (q : List PostedWrite) : cleared { s with posted := q } = { cleared s with posted := q } := by
  have lines : (givenBack (s.table.filter s.withdrawn) { s with posted := q }).lines
      = (givenBack (s.table.filter s.withdrawn) s).lines :=
    lines_givenBack rfl
  refine Eq.trans (b := { cleared s with
    posted := q
    lines := (givenBack (s.table.filter s.withdrawn) { s with posted := q }).lines }) rfl ?_
  rw [lines]
  rfl

/-- With no posted write left, the station is at rest. -/
theorem settle_cleared (he : s.posted = []) :
    State.settle { cleared s with now := s.now + 1 } = { cleared s with now := s.now + 1 } := by
  have vacant := vacant_cleared.clock (s := cleared s) (s.now + 1)
  rw [State.settle_rest (vacant.atRest (.inl he) (List.forall_mem_nil _)), vacant.orderReady]

theorem exec_hostReset_empty (hp : s.porst = false) (he : s.posted = []) :
    exec .hostReset s = .next { cleared s with now := s.now + 1 } := by
  rw [exec_hostReset hp, settle_cleared he]

theorem isWaiter_cleared (n : Nat) : ({ cleared s with now := n } : State).isWaiter .posted = false := by
  unfold State.isWaiter cleared
  rw [List.any_map]
  exact List.any_eq_false.2 fun _ _ => by simp

theorem cleared_heads (hq : s.posted = p :: ps) (n : Nat) : Heads { cleared s with now := n } p ps :=
  ⟨hq, rfl, isWaiter_cleared n, List.forall_mem_nil _⟩

/-- The one lookup that the reset owes, carried out. -/
theorem exec_hostReset_looks (hp : s.porst = false) (hq : s.posted = p :: ps)
    (hl : State.lookupOp { cleared s with now := s.now + 1 } .posted false = t) (hs : Stands t)
    (hw : ∀ x ∈ t.waiting, x.due = false) :
    exec .hostReset s = .next t := by
  have vacant : Vacant s.counters t := hl ▸ vacant_lookup (vacant_cleared.clock (s.now + 1))
  rw [exec_hostReset hp, settle_next ((cleared_heads hq _).next.trans (congrArg some hl)),
    State.settle_rest (vacant.atRest hs hw), vacant.orderReady]

theorem beside_cleared : Beside (cleared s) { cleared s with now := s.now + 1 } := ⟨rfl, rfl, rfl, rfl, rfl, rfl, rfl⟩

/-- A store does not read the clock. -/
theorem stored_clock (n : Nat) (a : Addr) (v : Word) :
    State.stored { cleared s with now := n } a v = { (cleared s).stored a v with now := n } := by
  have lines : (State.touch (State.writeWay { cleared s with now := n } a v) (lineOf a)).lines
      = (((cleared s).writeWay a v).touch (lineOf a)).lines := by
    rw [writeWay_eq (s := cleared s) (t := { cleared s with now := n }) rfl,
      touch_eq (s := (cleared s).writeWay a v) (t := { cleared s with now := n, lines := ((cleared s).writeWay a v).lines }) rfl]
  rw [(vacant_cleared.clock n).stored, lines, vacant_cleared.stored]

/-- The head's table, on the station that the reset leaves. -/
theorem head_after_reset (hp : s.porst = false) (hq : s.posted = p :: ps) {l : LineAddr} (hl : l = lineOf p.addr) :
    let becomes := fun (t : State) => exec .hostReset s = .next { t with now := s.now + 1 }
    (∀ st, ps = [] → (cleared s).lookup l = some st → st.sole = true → (cleared s).held l = false →
      becomes (if p.mask ≠ fullMask ∧ (cleared s).loadPoison p.addr = true then (cleared s).failedPosted p .dataError
        else { (cleared s).stored p.addr (if p.mask = fullMask then p.value
          else mergeMask p.mask ((cleared s).loadWord p.addr) p.value) with posted := [] })) ∧
    (Grantable (cleared s) l →
      (∀ w, isDirect l = false → (cleared s).lookup l = none → (cleared s).writebackFor l = none →
        (cleared s).victim l = some w → (cleared s).Leaves l w →
        becomes (((cleared s).victimGone l w).opens .posted .own (some w) l)) ∧
      (shared (cleared s) l → becomes ((cleared s).opens .posted .upgrade none l)) ∧
      (isDirect l = true → becomes ((cleared s).opens .posted (.direct (.write (wordOf p.addr) p.mask p.value)) none l))) ∧
    (∀ e, (cleared s).held l = false → (cleared s).entryFor l = some e →
      ((cleared s).lookup l = some .invalid ∧ e.kind = .own) ∨ (shared (cleared s) l ∧ e.kind = .upgrade) →
      becomes ((cleared s).joins .posted l)) ∧
    (Waits (cleared s) l → becomes ((cleared s).waits .posted p.place)) := by
  subst hl
  intro becomes
  have heads := cleared_heads hq (s.now + 1)
  have vacant := vacant_cleared.clock (s := cleared s) (s.now + 1)
  have looks : ∀ t : State, State.lookupOp { cleared s with now := s.now + 1 } .posted false = { t with now := s.now + 1 } →
      Stands t → (∀ x ∈ t.waiting, x.due = false) → becomes t := fun t hl hs hw => exec_hostReset_looks hp hq hl hs hw
  refine ⟨fun st he hl hs free => ?_, fun hg => ⟨fun w hd hl hb hv leaves => ?_, fun hl => ?_, fun hd => ?_⟩,
    fun x free hx hl => ?_, fun waits => ?_⟩
  · subst he
    by_cases bad : p.mask ≠ fullMask ∧ (cleared s).loadPoison p.addr = true
    · rw [if_pos bad]
      exact looks _ (heads.fails hl hs free bad.1 bad.2) (.inl rfl) (List.forall_mem_nil _)
    · rw [if_neg bad]
      have clean : p.mask = fullMask ∨ (cleared s).loadPoison p.addr = false := by
        by_cases hm : p.mask = fullMask
        · exact .inl hm
        · exact .inr (Bool.eq_false_iff.2 fun poison => bad ⟨hm, poison⟩)
      refine looks _ ?_ (.inl rfl) ?_
      · rw [heads.stores hl hs free (vacant.storable _) clean, stored_clock]
        rfl
      · intro x hx
        rw [vacant_cleared.stored] at hx
        cases hx
  · exact looks _ (heads.misses ⟨hg.room, hg.entry, hg.free⟩ hd hl hb hv (emptyVictim_leaves beside_cleared leaves)) stands_opens
      (List.forall_mem_nil _)
  · exact looks _ (heads.opens ⟨hg.room, hg.entry, hg.free⟩ (.inl ⟨hl, rfl⟩)) stands_opens (List.forall_mem_nil _)
  · exact looks _ (heads.opens ⟨hg.room, hg.entry, hg.free⟩ (.inr ⟨hd, rfl⟩)) stands_opens (List.forall_mem_nil _)
  · exact looks _ (heads.joins free hx hl) (stands_joins hx) (List.forall_mem_nil _)
  · exact looks _ (heads.waits waits) stands_waits (due_waits_of_pass (List.forall_mem_nil _))

/-- Settles O6: the release names the place behind the queue; the reset clears the host side, gives back the ways of the
withdrawn entries, and carries out the one lookup that it owes. -/
theorem hostResetEmptiesTheHostSide : Obligations.HostResetEmptiesTheHostSide := by
  intro s hp
  refine ⟨fun hh => ⟨s.placeAfterPosted, exec_hrstReleased hp hh, fun he => ?_, (foldl_max_place s.posted 0).2.1,
    placeAfterPosted_named⟩, _, exec_hostReset hp, ?_⟩
  · unfold State.placeAfterPosted
    rw [he]
    rfl
  have base := State.settle_base { cleared s with now := s.now + 1 }
  have vacant : Vacant s.counters (State.settle { cleared s with now := s.now + 1 }) := vacant_settle (vacant_cleared.clock _)
  have span : (State.settle { cleared s with now := s.now + 1 }).span =
      { s.span with putForward := s.claimLeft } := (base_span base).trans rfl
  refine ⟨(base_porst base).trans hp, (base_hrst base).trans rfl, (base_station base).trans rfl, ?_, ?_, ?_,
    (base_replies base).trans rfl, (base_homeStore base).trans rfl, (base_homeQueue base).trans rfl,
    (base_homeDone base).trans rfl, vacant.counters, fun c => ⟨?_, ?_, ?_, ?_⟩, vacant.order,
    (base_nextPlace base).trans rfl, ?_, ?_⟩
  · rw [span]
  · rw [span]
    exact map_cls_claimLeft
  · intro q hq q' hq'
    rw [span] at hq'
    obtain ⟨x, hx, gone, kept⟩ := claimLeft_some hq
    obtain rfl : x = q' := Option.some.inj (hx.symm.trans hq')
    exact ⟨fun e he ha ht hc => gone ⟨e, he, withdrawn_iff.2 ⟨ha, ht⟩, hc⟩,
      fun none => kept fun e he hw => none e he (withdrawn_iff.1 hw).1 (withdrawn_iff.1 hw).2⟩
  · rw [vacant.hosts, replicate_at]
  · rw [base_refused base]
    exact replicate_at _ c
  · rw [vacant.reservations, replicate_at]
  · rw [vacant.watches, replicate_at]
  · intro he
    rw [settle_cleared he]
    refine ⟨he, rfl, fun c => replicate_at _ c, rfl, ?_, givenBack_order, fun l hl => ?_, fun one e he ha ht hl => ?_⟩
    · exact congrArg (List.map _) (List.filter_congr fun e _ => by unfold State.withdrawn; simp)
    · refine givenBack_keeps fun pending => ?_
      unfold State.heldValid at hl
      rw [pending] at hl
      cases hl
    · exact givenBack_gone one hl (List.mem_filter.2 ⟨he, withdrawn_iff.2 ⟨ha, ht⟩⟩) rfl
  · intro p ps u hq hu l kept becomes shared'
    have left : u = { cleared s with posted := [], now := s.now + 1 } := by
      have := (exec_hostReset_empty (s := { s with posted := [] }) hp rfl).symm.trans hu
      rw [cleared_posted] at this
      exact (Host.Outcome.next.inj this).symm
    obtain ⟨stores, opens, joins, waits⟩ := head_after_reset hp hq (l := l) rfl
    have same : kept = cleared s := by
      show ({ u with posted := p :: ps, now := s.now } : State) = cleared s
      rw [left, ← hq]
      rfl
    clear_value kept
    subst same left
    refine ⟨stores, fun free he room => opens ⟨room, he, free⟩, joins, fun h => waits ?_⟩
    rcases h with h | ⟨hl, hd, hb | hc⟩ | h | h
    · exact .inl h
    · exact .inr (.inl ⟨hl, hd, hb⟩)
    · exact .inr (.inr (.inr (.inr ⟨hl, hd, hc⟩)))
    · exact .inr (.inr (.inl h))
    · exact .inr (.inr (.inr (.inl h)))

end Sys2Proof.Proofs.Resets
end
